-- ==== Sys2Proof/Word.lean ====
section
/-! DEFINITION. The plain value types of the ZS-32 model: bytes, samples, and the numbers the manual gives its
stations, channels, zones, priorities, duck levels, intervals and timed lengths. -/

namespace Sys2Proof

/-- One byte at the host port (R149). -/
abbrev Byte := BitVec 8

/-- One audio sample: a signed whole number of 24 bits (chapter 5.7, R119). -/
abbrev Sample := BitVec 24

/-- A station number 0 to 31; 0 stands for "no station" (chapter 0, section 1.1). -/
abbrev StationNo := Fin 32

/-- A channel number 0 to 15 (R60). -/
abbrev Channel := Fin 16

/-- A loudspeaker zone 0 to 31 (R86). -/
abbrev Zone := Fin 32

/-- A claim priority; the three bits of the frame field admit 0, which R176 forbids (R85). -/
abbrev Priority := Fin 8

/-- A duck level 0 to 31, in units of 1/32 (R85). -/
abbrev DuckLevel := Fin 32

/-- A presence interval in units of 10 ms, the seven bits of the frame field; R157 and R176 allow 1 to 100. -/
abbrev Interval := Fin 128

/-- A timed length in units of 100 ms; R131 and R176 allow 1 to 65535. -/
abbrev TimedLength := BitVec 16

/-- The digest, a number modulo 65536 (R106). -/
abbrev Digest := BitVec 16

/-- A zone set: bit z places zone z in the set (R196, R198). -/
abbrev ZoneSet := BitVec 32

/-- A number as one byte. -/
def byte (n : Nat) : Byte := BitVec.ofNat 8 n

/-- A flag as one byte, 0 or 1 (R199). -/
def flagByte (b : Bool) : Byte := if b then 1 else 0

/-- A 16-bit value as two bytes, most significant byte first (chapter 10). -/
def bytes16 (w : BitVec 16) : List Byte := [(w >>> 8).setWidth 8, w.setWidth 8]

/-- A 32-bit value as four bytes, most significant byte first (chapter 10). -/
def bytes32 (w : BitVec 32) : List Byte :=
  [(w >>> 24).setWidth 8, (w >>> 16).setWidth 8, (w >>> 8).setWidth 8, w.setWidth 8]

end Sys2Proof
end

