-- ==== Sys2Proof/Syntax.lean ====
section
/-! DEFINITION. The commands of the ZS-32: one constructor for each row of spec/opcode_table.json, with the
operands that the row's event carries from outside the block (host bytes, line bits, slot levels, audio samples). -/

namespace Sys2Proof

/-- One of the two local audio inputs (R71). -/
inductive Input where
  | a
  | b
deriving DecidableEq, Repr

/-- The commands and events of spec/opcode_table.json, in the table's order. -/
inductive Instr where
  /-- PIN_RESET (R200): RST_N is found low; `lowNs` is how long it has been low, in nanoseconds. -/
  | pinReset (lowNs : Nat)
  /-- RESET_RELEASE (R200): RST_N goes high. -/
  | resetRelease
  /-- TRANSACTION_BEGIN (R149): select is asserted and the header byte is exchanged for the status byte. A header cut
  off part way is disregarded and stands here as 0x50 (log entry 33).
  `early` says that less than 100 µs have passed since RST_N last rose (R200). -/
  | transactionBegin (header : Byte) (early : Bool)
  /-- TRANSACTION_END (R149): select is deasserted. -/
  | transactionEnd
  /-- WRITTEN_BYTE (R151): one byte written by the host. -/
  | writtenByte (b : Byte)
  /-- READ_BYTE (R152): one byte read by the host. -/
  | readByte
  /-- JOIN (R127): the host writes the JOIN command. -/
  | joinCmd
  /-- LEAVE (R129): the host writes the LEAVE command. -/
  | leaveCmd
  /-- OPEN (R131, R198): channel byte (0xFF for ANY), input byte, timed length (0 for absent). -/
  | openCmd (channel input : Byte) (length : BitVec 16)
  /-- CLOSE (R133, R198): channel byte. -/
  | closeCmd (channel : Byte)
  /-- CLAIM (R135, R198): channel, priority, duck level and chime bytes, zone set. -/
  | claimCmd (channel priority duck chime : Byte) (zones : BitVec 32)
  /-- DROP (R137, R198): form byte, then the four bytes of a zone set or of a channel. -/
  | dropCmd (form : Byte) (value : BitVec 32)
  /-- CONFIGURE (R157, R158, R198): station number, P, chime length, the four bindings, notice mask. -/
  | configure (station interval chime bind0 bind1 bind2 bind3 : Byte) (mask : BitVec 16)
  /-- STATION_STATUS (R160). -/
  | stationStatus
  /-- ZONE_STATUS (R161): zone byte. -/
  | zoneStatus (zone : Byte)
  /-- CHANNEL_TABLE (R162). -/
  | channelTable
  /-- ROSTER (R163). -/
  | roster
  /-- PROBE_ZONES (R164 to R166): condition, value p, first zone, last zone, step. -/
  | probeZones (condition p first last step : Byte)
  /-- SENSE (R172). -/
  | sense
  /-- ABORT (R144 to R147): the ABORT code, written while a line command is in execution. -/
  | abort
  /-- NO_COMMAND (R153): the ABORT code, written in READY. -/
  | noCommand
  /-- INVALID (R153): a code that names no command. -/
  | invalid (code : Byte)
  /-- IDLE_GAP (R2): `bits` further recessive bit times pass without a dominant bit. -/
  | idleGap (bits : Nat)
  /-- ATTEMPT_BEGIN (R12, R13): the occasion to begin an attempt. -/
  | attemptBegin
  /-- ARBITRATION_END (R23): the arbitration field ends; `rivals` are the arbitration values of the other
  stations whose start bits fell within the same bit time. -/
  | arbitrationEnd (rivals : List (BitVec 7))
  /-- CLASH_READ_BACK (R24, R184): a bit after the arbitration field reads back different from the one driven. -/
  | clashReadBack
  /-- FRAME_RECEIVED (R25, R176): the last bit of the CRC has passed; `bits` are the 89 bits after the start
  bit, in the order received (80 frame bits and 9 sync bits, R196). -/
  | frameReceived (bits : List Bool)
  /-- VETO_SLOT_END (R27): the veto slot ends; whether another station drove the heard slot and the veto slot. -/
  | vetoSlotEnd (peerHeard peerVeto : Bool)
  /-- VETO_LIMIT (R178): the veto slot ends with this station's own veto bringing its count to 16. -/
  | vetoLimit
  /-- EIGHTH_FAILED_ATTEMPT (R180): the veto slot ends and the failed-attempt count would reach 8. -/
  | eighthFailedAttempt (peerHeard peerVeto : Bool)
  /-- HELLO (R40): processing of the HELLO at the head of the inbound queue. -/
  | hello
  /-- BYE (R42): processing of the BYE at the head of the inbound queue. -/
  | bye
  /-- PRESENCE (R43): processing of the PRESENCE at the head of the inbound queue. -/
  | presence
  /-- EVICT (R44, R45): processing of the EVICT at the head of the inbound queue. -/
  | evict
  /-- OPEN_FRAME (R61): processing of the fresh OPEN at the head of the inbound queue. -/
  | openFrame
  /-- RESTATE_OPEN (R62): processing of the restate OPEN at the head of the inbound queue. -/
  | restateOpen
  /-- CLOSE_FRAME (R67): processing of the CLOSE at the head of the inbound queue. -/
  | closeFrame
  /-- CLAIM_FRAME (R90): processing of the fresh CLAIM at the head of the inbound queue. -/
  | claimFrame
  /-- RESTATE_CLAIM (R92): processing of the restate CLAIM at the head of the inbound queue. -/
  | restateClaim
  /-- DROP_FRAME (R94): processing of the DROP at the head of the inbound queue. -/
  | dropFrame
  /-- PRESENCE_TIMER_EXPIRY (R46). -/
  | presenceTimerExpiry
  /-- PRESENCE_AGING (R47): the PRESENCE in the outbound queue has waited longer than P. -/
  | presenceAging
  /-- SILENCE_TIMER_EXPIRY (R50): the silence timer of peer `peer` expires. -/
  | silenceTimerExpiry (peer : StationNo)
  /-- JOIN_WINDOW_EXPIRY (R53). -/
  | joinWindowExpiry
  /-- OPEN_GUARD_EXPIRY (R64) of one channel. -/
  | openGuardExpiry (channel : Channel)
  /-- DRAIN_GUARD_EXPIRY (R65) of one channel. -/
  | drainGuardExpiry (channel : Channel)
  /-- DURATION_TIMER_EXPIRY (R79) of one input. -/
  | durationTimerExpiry (input : Input)
  /-- CHIME_TIMER_EXPIRY (R115) of one output. -/
  | chimeTimerExpiry (output : Fin 4)
  /-- AUDIO_FRAME (R72, R119): one 48 kHz frame. `peerMarks` says whether another station drives the frame
  marks (R73), `slots` are the samples other stations put on the sixteen slots, `inA` and `inB` the samples of
  the two local inputs. -/
  | audioFrame (peerMarks : Bool) (slots : Vector Sample 16) (inA inB : Sample)
  /-- START_BIT (R2): another station's start bit appears on the line. -/
  | startBit
  /-- DOMINANT_BIT_DURING_GAP (R2). -/
  | dominantBitDuringGap
deriving DecidableEq, Repr

end Sys2Proof
end

