-- ==== Sys2Proof/Decode.lean ====
section
/-! DEFINITION. The table-word decoder the host asks for. No row of spec/opcode_table.json gives bits (each row's
"fields" is empty and none has "fixed"), so no word spells a command by the table. The frames of the control pair
are decoded in Machine/Wire.lean and the host's command bytes in Machine/Operands.lean and Machine/HostPort.lean. -/

namespace Sys2Proof

/-- The command that a word spells by the table's bits: none, since the table gives no row bits (log entry 2). -/
def decodeTableWord (_nbits _w : Nat) : Option Instr := none

end Sys2Proof
end

