-- ==== Sys2Proof/Config.lean ====
section
/-! DEFINITION. What the manual leaves to the part itself: the free values. -/

namespace Sys2Proof

/-- The chime tone (R120): sample n of the tone from its beginning. The manual fixes the tone but gives no
waveform (chapter 0, section 3), so this is a FREE VALUE: nothing constrains it (log entry 1). -/
opaque Config.chimeTone : Nat → Sample

end Sys2Proof
end

