-- ==== Sys2Proof/Machine/Types.lean ====
section
/-! DEFINITION. The data types of the ZS-32: frames, queue entries, records of the tables, commands in execution,
notices and results. -/

namespace Sys2Proof.Machine

/-! ### Frames and queue entries (chapter 1) -/

/-- The eight frame kinds (R3). -/
inductive LineKind where
  | hello
  | bye
  | evict
  | close
  | drop
  | openCh
  | claim
  | presence
deriving DecidableEq, Repr

/-- The fields of a frame on the line besides its class and its sender (R3). -/
inductive FrameBody where
  | hello
  | bye
  | evict (target : StationNo)
  | close (channel : Channel) (auto : Bool)
  | drop (zones : ZoneSet)
  | openCh (channel : Channel) (input : Input) (length : Option TimedLength) (restate : Bool)
  | claim (channel : Channel) (priority : Priority) (duck : DuckLevel) (chime : Bool) (zones : ZoneSet)
      (restate : Bool)
  | presence (interval : Interval) (digest : Digest)
deriving DecidableEq, Repr

/-- A frame as it stands on the line: class, sender, kind with its fields (R3). -/
structure Frame where
  cls    : Fin 4
  sender : StationNo
  body   : FrameBody
deriving DecidableEq, Repr

/-- A frame as its block placed it in the outbound queue, before finalization (R5). An OPEN may name ANY
(`none`); a DROP names a zone set or a channel. -/
inductive Placed where
  | hello
  | bye
  | presence
  | evict (target : StationNo)
  | close (channel : Channel) (auto : Bool)
  | dropZones (zones : ZoneSet)
  | dropChannel (channel : Channel)
  | openCh (channel : Option Channel) (input : Input) (length : Option TimedLength) (restate : Bool)
  | claim (channel : Channel) (priority : Priority) (duck : DuckLevel) (chime : Bool) (zones : ZoneSet)
      (restate : Bool)
deriving DecidableEq, Repr

/-- Who placed an outbound entry (R5). -/
inductive Origin where
  | host
  | membership
  | source (input : Input)
deriving DecidableEq, Repr

/-- One entry of the outbound queue (R5); `aged` is the aging of a PRESENCE (R47). -/
structure OutEntry where
  placed   : Placed
  origin   : Origin
  placedAt : Nat
  aged     : Bool
deriving DecidableEq, Repr

/-- One entry of the inbound queue (R10). `mark` is the sent-here mark (R183): set, with the origin of the frame,
for a frame this station sent; absent for every other accepted frame. -/
structure InFrame where
  frame : Frame
  mark  : Option Origin
deriving DecidableEq, Repr

/-- The states of the line receiver (R2). -/
inductive Receiver where
  | off
  | gap
  | idle
  | frame
  | slots
deriving DecidableEq, Repr

/-- How far an attempt of this station has come: its arbitration field (R23), the rest of the frame, the slots. -/
inductive AttemptStage where
  | arbitration
  | sending
  | slots
deriving DecidableEq, Repr

/-- The attempt in progress (R13, R23). `dropped` says that an emptying has dropped the entry meanwhile, so that
the outcome is disregarded (R9). -/
structure Attempt where
  frame   : Frame
  origin  : Origin
  stage   : AttemptStage
  dropped : Bool
deriving DecidableEq, Repr

/-- A peer's frame in its slots, with the verdict of the check (R25, R176): a good frame, or a frame that failed it. -/
inductive Reception where
  | good (frame : Frame)
  | bad
deriving DecidableEq, Repr

/-! ### Timers -/

/-- A timer that is stopped or runs with the milliseconds left. -/
inductive Timer where
  | stopped
  | running (ms : Nat)
deriving DecidableEq, Repr

/-- A timer that also stays expired: the silence timers (R37) and the duration timers (R71). -/
inductive ExpiringTimer where
  | stopped
  | running (ms : Nat)
  | expired
deriving DecidableEq, Repr

/-- The guard timer of a channel (R60). -/
inductive Guard where
  | stopped
  | openGuard (ms : Nat)
  | drainGuard (ms : Nat)
deriving DecidableEq, Repr

/-! ### Membership (chapter 2) -/

/-- The station states (R30). -/
inductive StationState where
  | unconfigured
  | offline
  | listening
  | joined
  | clashed
deriving DecidableEq, Repr

/-- One roster entry (R37). -/
structure RosterEntry where
  station  : StationNo
  interval : Option Interval
  silence  : ExpiringTimer
  digest   : Option Digest
deriving DecidableEq, Repr

/-- The cursor of the restate generator: step and position (R55, R56). -/
inductive RestateCursor where
  | openStep (position : Nat)
  | claimStep (position : Nat)
deriving DecidableEq, Repr

/-- Why a roster entry is removed (R168). -/
inductive LostReason where
  | restart
  | bye
  | evict
deriving DecidableEq, Repr

/-- The reasons of RESYNC (R168, R199). -/
inductive ResyncReason where
  | diverged
  | stranger
  | vetoLimit
deriving DecidableEq, Repr

/-- The reasons of CLASHED (R168). -/
inductive ClashReason where
  | readBack
  | received
deriving DecidableEq, Repr

/-! ### Channels, sources, claims (chapters 3 and 4) -/

/-- The phases of a channel (R60). -/
inductive ChannelPhase where
  | free
  | opening
  | live
  | draining
deriving DecidableEq, Repr

/-- One channel record (R60). -/
structure ChannelRec where
  owner  : Option StationNo
  length : Option TimedLength
  phase  : ChannelPhase
  guard  : Guard
deriving DecidableEq, Repr

/-- Where the request for an automatic CLOSE stands (R71). -/
inductive AutoRequest where
  | none
  | held
  | queued
deriving DecidableEq, Repr

/-- One input record (R71). `driving` holds the slot being driven; `merged` says that the host CLOSE in execution
has merged with this input's automatic CLOSE. -/
structure InputRec where
  bound    : Option Channel
  starting : Option Channel
  driving  : Option Channel
  timer    : ExpiringTimer
  pending  : Bool
  request  : AutoRequest
  merged   : Bool
deriving DecidableEq, Repr

/-- A station and a channel: the identity of a foreground or background (R88). -/
structure Ident where
  station : StationNo
  channel : Channel
deriving DecidableEq, Repr

/-- One claim (R85). -/
structure Claim where
  station  : StationNo
  channel  : Channel
  priority : Priority
  duck     : DuckLevel
  chime    : Bool
deriving DecidableEq, Repr

/-- The outcome of a CLAIM in one zone (R90). -/
inductive ZoneOutcome where
  | lead
  | below
  | replaced
  | unchanged
  | full
deriving DecidableEq, Repr

/-- The comparison record of one zone (R97). `own` is the position of the own claim with the claim itself, whose
channel the notices of R104 and R105 carry (log entry 23). -/
structure ZoneRecord where
  fg  : Option Claim
  bg  : Option Ident
  own : Option (Nat × Claim)
deriving DecidableEq, Repr

/-- The causes of a foreground change (R99). -/
inductive ZoneCause where
  | claimed
  | dropped
  | closed
  | purged
  | displaced
deriving DecidableEq, Repr

/-! ### The output mixer (chapter 5) -/

/-- The output states (R111). -/
inductive OutputState where
  | silent
  | chime
  | hush
  | playing
deriving DecidableEq, Repr

/-- One output record (R109), with the position in the chime tone (R120) and the sample last emitted (R119). -/
structure OutputRec where
  zone    : Option Zone
  state   : OutputState
  chime   : Timer
  fg      : Option Ident
  duck    : Option DuckLevel
  bg      : Option Ident
  tonePos : Nat
  sample  : Sample
deriving DecidableEq, Repr

/-! ### Line commands and the host port (chapters 6 and 7) -/

/-- The six line commands with their parameters (R122). -/
inductive LineCommand where
  | join
  | leave
  | openCh (channel : Option Channel) (input : Input) (length : Option TimedLength)
  | close (channel : Channel)
  | claim (channel : Channel) (priority : Priority) (duck : DuckLevel) (chime : Bool) (zones : ZoneSet)
  | dropZones (zones : ZoneSet)
  | dropChannel (channel : Channel)
deriving DecidableEq, Repr

/-- The stages of the command in execution (R122, R123). -/
inductive Stage where
  | queued
  | sending
  | inbound
  | merged
  | detached
deriving DecidableEq, Repr

/-- The command in execution (R122). Its frame is the outbound entry or the inbound frame whose origin is the
host (log entry 28). -/
structure CmdExec where
  command   : LineCommand
  stage     : Stage
  heldAbort : Bool
deriving DecidableEq, Repr

/-- The port phases (R148). -/
inductive PortPhase where
  | ready
  | command
  | executing
  | result
deriving DecidableEq, Repr

/-- The transaction on the SPI port (R149); `disregarded` is one that a pin reset abandoned or that began too
early (R156, R200). -/
inductive Transaction where
  | idle
  | disregarded
  | status
  | write
  | read
deriving DecidableEq, Repr

/-- The result codes of R199. -/
inductive ResultCode where
  | done
  | badParam
  | invalid
  | noCommand
  | notConfigured
  | onLine
  | offLine
  | notJoined
  | clashed
  | inputBusy
  | queueFull
  | notOwner
  | channelTaken
  | alreadyOwned
  | noChannel
  | nothingHeld
  | lineFault
  | isolated
  | evicted
  | resync
  | aborted
deriving DecidableEq, Repr

/-- A result as its command forms it (R199): a one-byte code, RESYNC with its reason, or DONE with the bytes of
the command that formed it. -/
inductive Result where
  | plain (code : ResultCode)
  | resync (reason : ResyncReason)
  | opened (channel : Channel)
  | claimed (outcomes : List (Zone × ZoneOutcome))
  | dropped (zones : List Zone)
  | data (bytes : List Byte)
deriving DecidableEq, Repr

/-- The notice records with the fields of their kinds (R168). -/
inductive Notice where
  | zoneChange (zone : Zone) (new : Option (Ident × Priority)) (previous : Option StationNo) (cause : ZoneCause)
  | claimStartedLate (zone : Zone) (station : StationNo) (channel : Channel) (priority : Priority)
  | claimPreempted (zone : Zone) (station : StationNo) (channel : Channel) (priority : Priority)
  | claimDisplaced (zone : Zone) (station : StationNo) (channel : Channel) (priority : Priority)
  | channelExpired (station : StationNo) (channel : Channel)
  | peerJoined (station : StationNo)
  | peerLost (station : StationNo) (reason : LostReason)
  | joined (count : Nat)
  | selfEvicted (station : StationNo)
  | isolated (kind : LineKind)
  | resync (reason : ResyncReason) (station : Option StationNo)
  | clashed (reason : ClashReason)
  | digestMismatch (station : StationNo) (digest : Digest)
  | lineFault (kind : LineKind) (station : Option StationNo) (channel : Option Channel)
  | gap (count : Nat)
deriving DecidableEq, Repr

/-- The configuration given by CONFIGURE, less the bindings and the mask, which the output records and the notice
log hold (R158). P is in units of 10 ms, the chime length in units of 50 ms. -/
structure Setup where
  station  : StationNo
  interval : Interval
  chime    : Nat
deriving DecidableEq, Repr

/-- The causes of a rejoin (R34): an EVICT naming this station with its sender, isolation with the kind of the frame
removed, or a resynchronization with its reason and the peer concerned. -/
inductive RejoinCause where
  | evicted (sender : StationNo)
  | isolated (kind : LineKind)
  | resync (reason : ResyncReason) (peer : Option StationNo)
deriving DecidableEq, Repr

/-- What a CLAIM does in one zone: the new list, the outcome, and whether a claim was displaced (R90, R91). -/
structure ZoneChange where
  list      : List Claim
  outcome   : ZoneOutcome
  displaced : Bool
deriving DecidableEq, Repr

/-- What the comparison needs to know of the processing: the cause (R99), the zones in which a CLAIM displaced a
claim, the zones of an own CLAIM's set (R102), and the claim that displaces (R105). -/
structure CompareContext where
  cause     : ZoneCause
  displaced : ZoneSet
  placed    : ZoneSet
  by_       : Option Claim
deriving DecidableEq, Repr

/-- The outcomes of finalization (R13): a frame ready for this attempt, a head that waits, or a head that is
withdrawn, with the result of a host command where its kind's rule names one. -/
inductive Final where
  | ready (frame : Frame)
  | wait
  | withdraw (result : Option ResultCode)
deriving DecidableEq, Repr

/-- The conditions of PROBE_ZONES (R164). -/
inductive ProbeCondition where
  | equal
  | atMost
  | atLeast
  | wouldLead
deriving DecidableEq, Repr

/-- The parameters of PROBE_ZONES (R164). -/
structure Probe where
  condition : ProbeCondition
  p         : Priority
  first     : Zone
  last      : Zone
  step      : Nat
deriving DecidableEq, Repr

end Sys2Proof.Machine
end

