-- ==== Sys2Proof/Machine/State.lean ====
section
/-! DEFINITION. The state of the block: every piece of state the manual gives the ZS-32, block by block, the
queue of waiting commands, the reasons a step can stop, and the state after reset. -/

namespace Sys2Proof.Machine

/-- The reset input (R200). `held`: RST_N is low and the reset has taken effect. `settling`: less than 100 µs have
passed since RST_N rose, as far as the model has seen (log entry 18). -/
structure ResetPin where
  held     : Bool
  settling : Bool
deriving DecidableEq, Repr

/-- The line controller (R1), with the attempt in progress (R13, R23) and the reception in its slots (R25). -/
structure Line where
  outq      : List OutEntry
  inq       : List InFrame
  fails     : Nat
  vetoSeen  : Bool
  vetoCount : Nat
  receiver  : Receiver
  gapBits   : Nat
  halt      : Bool
  attempt   : Option Attempt
  reception : Option Reception
deriving DecidableEq, Repr

/-- The membership unit (R30). The eviction set is split into the targets whose EVICT is queued and those whose
request is held. -/
structure Membership where
  state          : StationState
  roster         : List RosterEntry
  presenceTimer  : Timer
  presenceQueued : Bool
  presenceHeld   : Bool
  joinWindow     : Timer
  evictQueued    : List StationNo
  evictHeld      : List StationNo
  restateRun     : Bool
  cursor         : RestateCursor
  disagreement   : Option (StationNo × Digest)
deriving DecidableEq, Repr

/-- The claim table (R60, R87). -/
structure ClaimTable where
  channels   : Vector ChannelRec 16
  zones      : Vector (List Claim) 32
  leads      : Vector Bool 32
  digest     : Digest
  comparison : Option (Vector ZoneRecord 32)
deriving DecidableEq, Repr

/-- The source unit (R71). -/
structure Source where
  inA : InputRec
  inB : InputRec
deriving DecidableEq, Repr

/-- The output mixer (R109). -/
structure Mixer where
  outputs : Vector OutputRec 4
deriving DecidableEq, Repr

/-- The audio pair as this station sees it: the samples of the most recent frame (R119) and the slots this station
drove in it (R72). -/
structure Audio where
  received : Vector Sample 16
  driven   : Vector (Option Sample) 16
deriving DecidableEq, Repr

/-- The host port (R148), with the transaction (R149) and the byte last shifted out on SDO (`none`: high
impedance). -/
structure Port where
  phase       : PortPhase
  cmdBuf      : List Byte
  resBuf      : List Byte
  readPos     : Nat
  firstByte   : Bool
  refused     : Bool
  cmd         : Option CmdExec
  transaction : Transaction
  sdo         : Option Byte
deriving DecidableEq, Repr

/-- The notice log (R167); bit n of the mask masks kind n (R198). -/
structure NoticeLog where
  records : List Notice
  gap     : Nat
  mask    : BitVec 16
deriving DecidableEq, Repr

/-- One ZS-32: the seven blocks, the configuration, the reset input and the model's clock in milliseconds. -/
structure Zs32 where
  rst     : ResetPin
  clock   : Nat
  setup   : Option Setup
  line    : Line
  memb    : Membership
  table   : ClaimTable
  source  : Source
  mixer   : Mixer
  audio   : Audio
  port    : Port
  notices : NoticeLog
deriving DecidableEq, Repr

/-- The state of the machine: the station and the commands waiting for it, first in first out. -/
structure State where
  zs      : Zs32
  pending : List Instr
deriving DecidableEq, Repr

/-- The reasons a step can end in a fault: none, since no event of the manual stops the station. -/
inductive Fault where
deriving DecidableEq, Repr

/-- The reasons a step can be refused. -/
inductive Refusal where
  /-- Raised by exec for a command that has no meaning yet; safe. No arm raises it. -/
  | notModelled (mnemonic : String)
deriving DecidableEq, Repr

/-- A free channel record (R60). -/
def ChannelRec.cleared : ChannelRec :=
  { owner := none, length := none, phase := .free, guard := .stopped }

/-- The claim table after pin reset and after table clear (R60, R87). -/
def ClaimTable.cleared : ClaimTable :=
  { channels := Vector.replicate 16 ChannelRec.cleared
    zones := Vector.replicate 32 []
    leads := Vector.replicate 32 false
    digest := 0
    comparison := none }

/-- An unbound input record (R71). -/
def InputRec.cleared : InputRec :=
  { bound := none, starting := none, driving := none, timer := .stopped, pending := false, request := .none,
    merged := false }

/-- The source unit after pin reset and after table clear (R71). -/
def Source.cleared : Source := { inA := InputRec.cleared, inB := InputRec.cleared }

/-- An output record with a given binding and everything else at its value after pin reset (R109). -/
def OutputRec.silentBoundTo (zone : Option Zone) : OutputRec :=
  { zone := zone, state := .silent, chime := .stopped, fg := none, duck := none, bg := none, tonePos := 0,
    sample := 0 }

/-- The membership unit in a given station state with everything else at its value after pin reset and after
table clear (R30). -/
def Membership.clearedIn (st : StationState) : Membership :=
  { state := st, roster := [], presenceTimer := .stopped, presenceQueued := false, presenceHeld := false,
    joinWindow := .stopped, evictQueued := [], evictHeld := [], restateRun := false, cursor := .openStep 0,
    disagreement := none }

/-- The line controller after pin reset (R1). -/
def Line.afterReset : Line :=
  { outq := [], inq := [], fails := 0, vetoSeen := false, vetoCount := 0, receiver := .off, gapBits := 0,
    halt := false, attempt := none, reception := none }

/-- The host port after pin reset (R148). -/
def Port.afterReset : Port :=
  { phase := .ready, cmdBuf := [], resBuf := [], readPos := 0, firstByte := false, refused := false, cmd := none,
    transaction := .idle, sdo := none }

/-- The station at the values after pin reset (R1, R30, R60, R71, R87, R109, R122, R148, R158, R167). -/
def Zs32.afterReset (rst : ResetPin) : Zs32 :=
  { rst := rst
    clock := 0
    setup := none
    line := Line.afterReset
    memb := Membership.clearedIn .unconfigured
    table := ClaimTable.cleared
    source := Source.cleared
    mixer := { outputs := Vector.replicate 4 (OutputRec.silentBoundTo none) }
    audio := { received := Vector.replicate 16 0, driven := Vector.replicate 16 none }
    port := Port.afterReset
    notices := { records := [], gap := 0, mask := 0 } }

/-- The machine right after reset: RST_N has gone high again and nothing has happened since (R200, log
entry 17). -/
def State.reset : State :=
  { zs := Zs32.afterReset { held := false, settling := true }, pending := [] }

end Sys2Proof.Machine
end

