-- ==== Sys2Proof/Machine/Wire.lean ====
section
/-! DEFINITION. The frames of the control pair as bits (R3, R4, R176, R196): classes, arbitration values, the CRC,
the sync bits, the encoder and the checking decoder. Bit lists are in the order sent. -/

namespace Sys2Proof.Machine

/-- The kind of a frame (R3). -/
def FrameBody.kind : FrameBody → LineKind
  | .hello => .hello
  | .bye => .bye
  | .evict _ => .evict
  | .close _ _ => .close
  | .drop _ => .drop
  | .openCh _ _ _ _ => .openCh
  | .claim _ _ _ _ _ _ => .claim
  | .presence _ _ => .presence

/-- The kind of a placed frame. -/
def Placed.kind : Placed → LineKind
  | .hello => .hello
  | .bye => .bye
  | .presence => .presence
  | .evict _ => .evict
  | .close _ _ => .close
  | .dropZones _ => .drop
  | .dropChannel _ => .drop
  | .openCh _ _ _ _ => .openCh
  | .claim _ _ _ _ _ _ => .claim

/-- The line kind codes (R196). -/
def LineKind.code : LineKind → Nat
  | .hello => 1
  | .bye => 2
  | .evict => 3
  | .close => 4
  | .drop => 5
  | .openCh => 6
  | .claim => 7
  | .presence => 8

/-- The class of a frame of each kind; a PRESENCE has class 0, or 3 once aged (R3). -/
def LineKind.cls (aged : Bool) : LineKind → Fin 4
  | .hello => 3
  | .bye => 3
  | .evict => 3
  | .close => 2
  | .drop => 2
  | .openCh => 1
  | .claim => 1
  | .presence => if aged then 3 else 0

/-- The arbitration value (3 − class) × 32 + sender station number (R4). -/
def Frame.arbitration (f : Frame) : Nat := (3 - f.cls.val) * 32 + f.sender.val

/-! ### Bits -/

/-- A number as `w` bits, most significant bit first (chapter 10). -/
def bitsOf (w n : Nat) : List Bool := (List.range w).reverse.map n.testBit

/-- The number that bits spell, most significant bit first. -/
def numOf (l : List Bool) : Nat := l.foldl (fun n b => 2 * n + b.toNat) 0

/-- The field of `w` bits that begins after `off` bits. -/
def fieldAt (off w : Nat) (l : List Bool) : Nat := numOf ((l.drop off).take w)

/-- All bits from position `off` on are 0 ("required to be 0", R196). -/
def zeroFrom (off : Nat) (l : List Bool) : Bool := (l.drop off).all (! ·)

/-! ### Arbitration (R4, R23) -/

/-- Bit by bit contention of the own value with its rivals': a 0 is dominant, a station that reads a dominant bit
where it drove a recessive one drops out. Answers whether the own station read back every bit as driven. -/
def contend : List Bool → List (List Bool) → Bool
  | [], _ => true
  | own :: rest, rivals =>
    let line := own && rivals.all (fun r => r.headD true)
    if own = line then contend rest ((rivals.filter fun r => r.headD true = line).map List.tail) else false

/-- Whether a frame wins arbitration against rivals with the given arbitration values (R23). -/
def Frame.wins (f : Frame) (rivals : List (BitVec 7)) : Bool :=
  contend (bitsOf 7 f.arbitration) (rivals.map fun v => bitsOf 7 v.toNat)

/-! ### CRC (R196) -/

/-- One bit into the CRC with the generator x¹⁶ + x¹² + x⁵ + 1. -/
def crcStep (crc : BitVec 16) (b : Bool) : BitVec 16 :=
  if (crc.msb ^^ b) then (crc <<< 1) ^^^ 0x1021 else crc <<< 1

/-- The CRC over bits in the order sent, started from all ones. -/
def crc16 (l : List Bool) : BitVec 16 := l.foldl crcStep 0xFFFF

/-! ### Encoding -/

/-- The input field: 01 for A, 10 for B (R196). -/
def Input.wireCode : Input → Nat
  | .a => 1
  | .b => 2

/-- The used bits of the field area of each kind (R196). -/
def FrameBody.fieldBits : FrameBody → List Bool
  | .hello => []
  | .bye => []
  | .evict t => bitsOf 5 t.val
  | .close c auto => bitsOf 5 c.val ++ [auto]
  | .drop zs => bitsOf 32 zs.toNat
  | .openCh c i len restate =>
    bitsOf 5 c.val ++ bitsOf 2 (Input.wireCode i) ++ [restate] ++ [len.isSome] ++ bitsOf 16 (len.getD 0).toNat
  | .claim c p d chime zs restate =>
    bitsOf 5 c.val ++ bitsOf 3 p.val ++ bitsOf 5 d.val ++ [chime] ++ [restate] ++ bitsOf 32 zs.toNat
  | .presence iv dg => bitsOf 7 iv.val ++ bitsOf 16 dg.toNat

/-- The field area of 52 bits: the used bits, then zeros. -/
def FrameBody.area (b : FrameBody) : List Bool :=
  b.fieldBits ++ List.replicate (52 - b.fieldBits.length) false

/-- Frame bits 1 to 64: arbitration field, kind, field area (R196). -/
def Frame.head64 (f : Frame) : List Bool :=
  bitsOf 2 (3 - f.cls.val) ++ bitsOf 5 f.sender.val ++ bitsOf 5 f.body.kind.code ++ f.body.area

/-- The 80 frame bits: the 64 bits and their CRC. -/
def Frame.bits80 (f : Frame) : List Bool := f.head64 ++ bitsOf 16 (crc16 f.head64).toNat

/-- A dominant sync bit after each of the first `n` groups of eight (R196). -/
def withSync : Nat → List Bool → List Bool
  | 0, l => l
  | n + 1, l => l.take 8 ++ false :: withSync n (l.drop 8)

/-- The bits a sender drives after the start bit: 80 frame bits with nine sync bits (R196). -/
def Frame.encode (f : Frame) : List Bool := withSync 9 f.bits80

/-! ### Decoding and checks (R176, R196) -/

/-- The frame bits without their sync bits; none where a sync bit reads recessive or the length is wrong. -/
def withoutSync : Nat → List Bool → Option (List Bool)
  | 0, l => if l.length = 8 then some l else none
  | n + 1, l =>
    if l.length < 9 then none
    else if (l.drop 8).headD true then none
    else (withoutSync n (l.drop 9)).map (l.take 8 ++ ·)

/-- A number that fits its bound, as one of the numbers below it. -/
def inRange (n v : Nat) : Option (Fin n) := if h : v < n then some ⟨v, h⟩ else none

/-- The input of the OPEN's input field; 00 and 11 name none (R176). -/
def Input.ofWire : Nat → Option Input
  | 1 => some .a
  | 2 => some .b
  | _ => none

/-- The timed length of an OPEN from its present flag and field: none where R176 or R196 forbids the pair. -/
def wireLength (present : Bool) (n : Nat) : Option (Option TimedLength) :=
  if present then (if n = 0 then none else some (some (BitVec.ofNat 16 n)))
  else if n = 0 then some none else none

/-- The body that a kind code and a field area spell; none where R176 calls the frame malformed. -/
def decodeBody (kind : Nat) (l : List Bool) : Option FrameBody :=
  match kind with
  | 1 => if zeroFrom 0 l then some .hello else none
  | 2 => if zeroFrom 0 l then some .bye else none
  | 3 => do
    let t ← inRange 32 (fieldAt 0 5 l)
    if t ≠ 0 ∧ zeroFrom 5 l then some (.evict t) else none
  | 4 => do
    let c ← inRange 16 (fieldAt 0 5 l)
    if zeroFrom 6 l then some (.close c (fieldAt 5 1 l = 1)) else none
  | 5 =>
    let zs := BitVec.ofNat 32 (fieldAt 0 32 l)
    if zs ≠ 0 ∧ zeroFrom 32 l then some (.drop zs) else none
  | 6 => do
    let c ← inRange 16 (fieldAt 0 5 l)
    let i ← Input.ofWire (fieldAt 5 2 l)
    let len ← wireLength (fieldAt 8 1 l = 1) (fieldAt 9 16 l)
    if zeroFrom 25 l then some (.openCh c i len (fieldAt 7 1 l = 1)) else none
  | 7 => do
    let c ← inRange 16 (fieldAt 0 5 l)
    let p ← inRange 8 (fieldAt 5 3 l)
    let d ← inRange 32 (fieldAt 8 5 l)
    let zs := BitVec.ofNat 32 (fieldAt 15 32 l)
    if p ≠ 0 ∧ zs ≠ 0 ∧ zeroFrom 47 l then
      some (.claim c p d (fieldAt 13 1 l = 1) zs (fieldAt 14 1 l = 1))
    else none
  | 8 => do
    let iv ← inRange 128 (fieldAt 0 7 l)
    if 1 ≤ iv.val ∧ iv.val ≤ 100 ∧ zeroFrom 23 l then some (.presence iv (BitVec.ofNat 16 (fieldAt 7 16 l)))
    else none
  | _ => none

/-- Whether the class is the class of the frame's kind (R176). -/
def classFits (cls : Fin 4) (k : LineKind) : Bool := cls = k.cls false || cls = k.cls true

/-- An EVICT does not name its own sender (R176). -/
def targetFits (sender : StationNo) : FrameBody → Bool
  | .evict t => t ≠ sender
  | _ => true

/-- The frame that 64 bits spell, checked for its form (R176). -/
def decodeHead (l : List Bool) : Option Frame := do
  let notCls ← inRange 4 (fieldAt 0 2 l)
  let sender ← inRange 32 (fieldAt 2 5 l)
  let body ← decodeBody (fieldAt 7 5 l) (l.drop 12)
  let cls : Fin 4 := 3 - notCls
  if sender ≠ 0 ∧ classFits cls body.kind ∧ targetFits sender body then
    some { cls := cls, sender := sender, body := body }
  else none

/-- The check of a received frame (R176): sync bits, CRC, form. None where the frame fails the check. -/
def decodeFrame (bits : List Bool) : Option Frame := do
  let l ← withoutSync 9 bits
  if numOf (l.drop 64) = (crc16 (l.take 64)).toNat then decodeHead (l.take 64) else none

/-- A frame whose fields lie in their ranges (R3, R176). -/
def Frame.wellFormed (f : Frame) : Bool :=
  f.sender ≠ 0 && classFits f.cls f.body.kind && targetFits f.sender f.body &&
    match f.body with
    | .hello => true
    | .bye => true
    | .close _ _ => true
    | .evict t => t ≠ 0
    | .drop zs => zs ≠ 0
    | .openCh _ _ len _ => len ≠ some 0
    | .claim _ p _ _ zs _ => p ≠ 0 && zs ≠ 0
    | .presence iv _ => 1 ≤ iv.val && iv.val ≤ 100

end Sys2Proof.Machine
end

