-- ==== Sys2Proof/Machine/Flags.lean ====
section
/-! DEFINITION. The numbers and flags the station computes from its state: codes of states and notices, the status
byte, the interrupt output, the digest, the frame-marks role, the result bytes. -/

namespace Sys2Proof.Machine

/-- A vector made index by index; all table updates go through it. -/
def tabulate {α : Type} {n : Nat} (f : Fin n → α) : Vector α n := Vector.ofFn f

/-! ### Codes (chapter 10) -/

/-- Port phase codes (R197). -/
def PortPhase.code : PortPhase → Nat
  | .ready => 0
  | .command => 1
  | .executing => 2
  | .result => 3

/-- Station state codes (R197). -/
def StationState.code : StationState → Nat
  | .unconfigured => 0
  | .offline => 1
  | .listening => 2
  | .joined => 3
  | .clashed => 4

/-- Output state codes (R199). -/
def OutputState.code : OutputState → Nat
  | .silent => 0
  | .chime => 1
  | .hush => 2
  | .playing => 3

/-- Channel phase codes (R199). -/
def ChannelPhase.code : ChannelPhase → Nat
  | .free => 0
  | .opening => 1
  | .live => 2
  | .draining => 3

/-- Result codes (R199). -/
def ResultCode.code : ResultCode → Byte
  | .done => 0x00
  | .badParam => 0x01
  | .invalid => 0x02
  | .noCommand => 0x03
  | .notConfigured => 0x04
  | .onLine => 0x05
  | .offLine => 0x06
  | .notJoined => 0x07
  | .clashed => 0x08
  | .inputBusy => 0x09
  | .queueFull => 0x0A
  | .notOwner => 0x0B
  | .channelTaken => 0x0C
  | .alreadyOwned => 0x0D
  | .noChannel => 0x0E
  | .nothingHeld => 0x0F
  | .lineFault => 0x10
  | .isolated => 0x11
  | .evicted => 0x12
  | .resync => 0x13
  | .aborted => 0x14

/-- RESYNC reason codes, of the result and of the notice (R199). -/
def ResyncReason.code : ResyncReason → Nat
  | .diverged => 1
  | .stranger => 2
  | .vetoLimit => 3

/-- Zone outcome codes of a CLAIM result (R199). -/
def ZoneOutcome.code : ZoneOutcome → Nat
  | .lead => 1
  | .below => 2
  | .replaced => 3
  | .unchanged => 4
  | .full => 5

/-- ZONE_CHANGE cause codes (R199). -/
def ZoneCause.code : ZoneCause → Nat
  | .claimed => 1
  | .dropped => 2
  | .closed => 3
  | .purged => 4
  | .displaced => 5

/-- PEER_LOST reason codes (R199). -/
def LostReason.code : LostReason → Nat
  | .restart => 1
  | .bye => 2
  | .evict => 3

/-- CLASHED reason codes (R199). -/
def ClashReason.code : ClashReason → Nat
  | .readBack => 1
  | .received => 2

/-- Notice kind codes (R199). -/
def Notice.code : Notice → Nat
  | .zoneChange _ _ _ _ => 1
  | .claimStartedLate _ _ _ _ => 2
  | .claimPreempted _ _ _ _ => 3
  | .claimDisplaced _ _ _ _ => 4
  | .channelExpired _ _ => 5
  | .peerJoined _ => 6
  | .peerLost _ _ => 7
  | .joined _ => 8
  | .selfEvicted _ => 9
  | .isolated _ => 10
  | .resync _ _ => 11
  | .clashed _ => 12
  | .digestMismatch _ _ => 13
  | .lineFault _ _ _ => 14
  | .gap _ => 15

/-! ### Result bytes (R199) -/

/-- The nine bytes of a notice record: kind, zone, station, previous station, channel, priority, reason, count. -/
def recordBytes (kind : Nat) (zone : Option Zone) (station previous : Option StationNo) (channel : Option Channel)
    (priority reason : Nat) (count : BitVec 16) : List Byte :=
  [byte kind, zone.elim 0xFF (byte ·.val), station.elim 0 (byte ·.val), previous.elim 0 (byte ·.val),
    channel.elim 0xFF (byte ·.val), byte priority, byte reason] ++ bytes16 count

/-- The bytes of a notice in a SENSE result (R168, R199). -/
def Notice.bytes (n : Notice) : List Byte :=
  match n with
  | .zoneChange z new prev cause =>
    recordBytes n.code (some z) (new.map (·.1.station)) prev (new.map (·.1.channel)) (new.elim 0 (·.2.val)) cause.code 0
  | .claimStartedLate z s c p => recordBytes n.code (some z) (some s) none (some c) p.val 0 0
  | .claimPreempted z s c p => recordBytes n.code (some z) (some s) none (some c) p.val 0 0
  | .claimDisplaced z s c p => recordBytes n.code (some z) (some s) none (some c) p.val 0 0
  | .channelExpired s c => recordBytes n.code none (some s) none (some c) 0 0 0
  | .peerJoined s => recordBytes n.code none (some s) none none 0 0 0
  | .peerLost s r => recordBytes n.code none (some s) none none 0 r.code 0
  | .joined count => recordBytes n.code none none none none 0 0 (BitVec.ofNat 16 count)
  | .selfEvicted s => recordBytes n.code none (some s) none none 0 0 0
  | .isolated k => recordBytes n.code none none none none 0 k.code 0
  | .resync r s => recordBytes n.code none s none none 0 r.code 0
  | .clashed r => recordBytes n.code none none none none 0 r.code 0
  | .digestMismatch s d => recordBytes n.code none (some s) none none 0 0 d
  | .lineFault k s c => recordBytes n.code none s none c 0 k.code 0
  | .gap count => recordBytes n.code none none none none 0 0 (BitVec.ofNat 16 count)

/-- The record SENSE gives for an empty log: kind NONE (R172, R199). -/
def noRecordBytes : List Byte := recordBytes 0 none none none none 0 0 0

/-- The bytes of a result (R199). -/
def Result.bytes : Result → List Byte
  | .plain code => [code.code]
  | .resync r => [ResultCode.resync.code, byte r.code]
  | .opened c => [ResultCode.done.code, byte c.val]
  | .claimed outcomes =>
    ResultCode.done.code :: byte outcomes.length :: outcomes.flatMap fun o => [byte o.1.val, byte o.2.code]
  | .dropped zones => ResultCode.done.code :: byte zones.length :: zones.map (byte ·.val)
  | .data bytes => ResultCode.done.code :: bytes

/-! ### Views of the state -/

/-- This station's number; 0 while there is no configuration (R158). -/
def Zs32.me (z : Zs32) : StationNo := z.setup.elim 0 (·.station)

/-- P in milliseconds; 0 while there is no configuration. -/
def Zs32.periodMs (z : Zs32) : Nat := z.setup.elim 0 (fun s => s.interval.val * 10)

/-- The configured chime length in milliseconds; 0 while there is no configuration. -/
def Zs32.chimeMs (z : Zs32) : Nat := z.setup.elim 0 (fun s => s.chime * 50)

/-- The station is LISTENING or JOINED (R32). -/
def Zs32.onLine (z : Zs32) : Bool := z.memb.state = .listening || z.memb.state = .joined

/-- A LEAVE is in execution. -/
def Zs32.leaving (z : Zs32) : Bool := z.port.cmd.any (·.command = .leave)

/-- The status byte (R150, R197). -/
def Zs32.statusByte (z : Zs32) : Byte :=
  byte (z.port.phase.code * 64 + (if z.notices.records.isEmpty then 0 else 32) + z.memb.state.code * 4 +
    (if z.port.refused then 2 else 0))

/-- The interrupt output is asserted (R174); pin reset releases it (R200). -/
def Zs32.interrupt (z : Zs32) : Bool :=
  (z.port.phase = .result && !z.port.firstByte) || !z.notices.records.isEmpty

/-- The flags byte of STATION_STATUS (R199). Bits 7 to 3, to which R199 gives no meaning, are 0: log entry 31 (DESIGN
CHOICE). -/
def Zs32.flagsByte (z : Zs32) : Byte :=
  byte ((if z.line.halt then 1 else 0) + (if z.memb.joinWindow = .stopped then 0 else 2) +
    (if z.memb.restateRun then 4 else 0))

/-- This station drives the frame marks of the audio pair: JOINED, and no lower number in the roster (R73). -/
def Zs32.drivesMarks (z : Zs32) : Bool :=
  z.memb.state = .joined && z.memb.roster.all fun e => !(e.station < z.me)

/-- The bits this station drives on the control pair besides the slots: those of its attempt (R23, R196). -/
def Zs32.lineBits (z : Zs32) : Option (List Bool) := z.line.attempt.map (·.frame.encode)

/-- The capacity of the inbound queue (R1, R10). -/
def inCapacity : Nat := 4

/-- This station drives the veto slot of the frame in its slots: the frame failed its check, or the inbound queue is
full, as it stands at the slots (R25). -/
def Zs32.drivesVeto (z : Zs32) : Bool :=
  match z.line.reception with
  | none => false
  | some .bad => true
  | some (.good _) => inCapacity ≤ z.line.inq.length

/-- This station drives the heard slot of the frame in its slots: a good frame, and room for it (R25). -/
def Zs32.drivesHeard (z : Zs32) : Bool :=
  match z.line.reception with
  | some (.good _) => z.line.inq.length < inCapacity
  | _ => false

/-! ### The digest (R106) -/

/-- The term of one channel: 4096 + 32 × c + s while it has an owner s. -/
def channelTerm (c : Channel) (r : ChannelRec) : Nat := r.owner.elim 0 fun s => 4096 + 32 * c.val + s.val

/-- The term of a claim at position i of zone z. -/
def claimTerm (z : Zone) (i : Nat) (cl : Claim) : Nat :=
  (z.val + 1) * (i + 1) + 37 * cl.station.val + 11 * cl.priority.val + 3 * cl.duck.val + cl.channel.val

/-- The terms of a claim list from position i on. -/
def listTerms (z : Zone) : Nat → List Claim → Nat
  | _, [] => 0
  | i, cl :: rest => claimTerm z i cl + listTerms z (i + 1) rest

/-- The digest of a channel table and the claim lists. -/
def digestOf (channels : Vector ChannelRec 16) (zones : Vector (List Claim) 32) : Digest :=
  BitVec.ofNat 16 (((List.finRange 16).map fun c => channelTerm c channels[c]).sum +
    ((List.finRange 32).map fun z => listTerms z 0 zones[z]).sum)

end Sys2Proof.Machine
end

