-- ==== Sys2Proof/Machine/Ops.lean ====
section
/-! DEFINITION. The shared operations of the station's blocks: notices, results, the outbound queue with its held
requests and grants, the restate generator, table clear, rejoin, clash, roster entries, the automatic CLOSE. -/

namespace Sys2Proof.Machine

/-! ### One event -/

/-- An event acts on the station unless pin reset holds it (R200; log entry 30). The queue is untouched. -/
def State.act (f : Zs32 → Zs32) (s : State) : State := if s.zs.rst.held then s else { s with zs := f s.zs }

/-- Every command is answered with a next state. -/
def State.run (f : Zs32 → Zs32) (s : State) : Host.Outcome State Fault Refusal := .next (s.act f)

/-! ### Durations -/

/-- The open guard of 8 ms (R60). -/
def openGuardMs : Nat := 8

/-- The drain guard of 12 ms (R60). -/
def drainGuardMs : Nat := 12

/-- The join window: the larger of 3 × P and 500 ms (R52). -/
def Zs32.joinWindowMs (z : Zs32) : Nat := max (3 * z.periodMs) 500

/-- The silence timer of an entry: three times the announced interval, or 3000 ms while it is absent (R49). -/
def silenceMs (interval : Option Interval) : Nat := interval.elim 3000 fun i => 3 * (i.val * 10)

/-- The capacity of the outbound queue (R1, R5). -/
def outCapacity : Nat := 8

/-- The capacity of the notice log (R167). -/
def logCapacity : Nat := 16

/-! ### The notice log (R169, R170) -/

/-- Whether the mask masks a kind; GAP and CLASHED are always enabled (R167). -/
def NoticeLog.masks (l : NoticeLog) (n : Notice) : Bool :=
  match n with
  | .gap _ => false
  | .clashed _ => false
  | n => l.mask.getLsbD n.code

/-- Logging of one notice: masked kinds leave no trace; a notice is appended while there is room and the gap count
is 0, and is dropped and counted otherwise, the count staying at 255 (R169, R170). -/
def NoticeLog.log (l : NoticeLog) (n : Notice) : NoticeLog :=
  if l.masks n then l
  else if l.records.length < logCapacity ∧ l.gap = 0 then { l with records := l.records ++ [n] }
  else { l with gap := min 255 (l.gap + 1) }

/-- A block logs a notice. -/
def Zs32.log (n : Notice) (z : Zs32) : Zs32 := { z with notices := z.notices.log n }

/-! ### Results (R139, R154) -/

/-- A result is placed whole in the result buffer and the port enters RESULT; a command in execution ends. -/
def Zs32.formResult (r : Result) (z : Zs32) : Zs32 :=
  { z with port := { z.port with phase := .result, cmdBuf := [], resBuf := r.bytes, readPos := 0, firstByte := false,
                                 cmd := none } }

/-- The command in execution, if there is one, ends with a result (R139). -/
def Zs32.endCommand (r : Result) (z : Zs32) : Zs32 := if z.port.cmd.isSome then z.formResult r else z

/-- The stage of the command in execution changes (R123). -/
def Zs32.setStage (st : Stage) (z : Zs32) : Zs32 :=
  { z with port := { z.port with cmd := z.port.cmd.map fun c => { c with stage := st } } }

/-! ### The outbound queue (R5, R6) -/

/-- A slot of the outbound queue is free. -/
def Zs32.hasRoom (z : Zs32) : Bool := z.line.outq.length < outCapacity

/-- A frame is placed at the tail of the outbound queue, with the time of placement (R5, R6). -/
def Zs32.enqueue (p : Placed) (o : Origin) (z : Zs32) : Zs32 :=
  { z with line := { z.line with outq := z.line.outq ++ [{ placed := p, origin := o, placedAt := z.clock,
                                                           aged := false }] } }

/-- The head leaves the outbound queue; the attempt record is set for the next head (R8). -/
def Zs32.dropHead (z : Zs32) : Zs32 :=
  { z with line := { z.line with outq := z.line.outq.tail, fails := 0, vetoSeen := false } }

/-- The input record of an input. -/
def Source.get (s : Source) : Input → InputRec
  | .a => s.inA
  | .b => s.inB

/-- The source unit with the record of one input replaced. -/
def Source.set (s : Source) (i : Input) (r : InputRec) : Source :=
  match i with
  | .a => { s with inA := r }
  | .b => { s with inB := r }

/-- The record of one input is changed. -/
def Zs32.onInput (i : Input) (f : InputRec → InputRec) (z : Zs32) : Zs32 :=
  { z with source := z.source.set i (f (z.source.get i)) }

/-- The records of both inputs are changed. -/
def Zs32.onInputs (f : InputRec → InputRec) (z : Zs32) : Zs32 :=
  { z with source := { inA := f z.source.inA, inB := f z.source.inB } }

/-- The input bound to a channel (R71). -/
def Source.inputOf (s : Source) (c : Channel) : Option Input :=
  if s.inA.bound = some c then some .a else if s.inB.bound = some c then some .b else none

/-! ### Requests of the membership unit and the source unit (R46, R50, R79) -/

/-- A PRESENCE is asked for: placed at the tail with the queued mark, or held with the held mark (R46). -/
def Zs32.askPresence (z : Zs32) : Zs32 :=
  if z.hasRoom then
    let z := z.enqueue .presence .membership
    { z with memb := { z.memb with presenceQueued := true } }
  else { z with memb := { z.memb with presenceHeld := true } }

/-- A station number inserted in ascending order. -/
def insertStation (x : StationNo) : List StationNo → List StationNo
  | [] => [x]
  | y :: rest => if x < y then x :: y :: rest else y :: insertStation x rest

/-- An EVICT targeting x is asked for in JOINED with no LEAVE in execution, unless x is in the eviction set: placed
at the tail, or held in ascending order of target (R50). -/
def Zs32.askEvict (x : StationNo) (z : Zs32) : Zs32 :=
  if z.memb.state ≠ .joined ∨ z.leaving ∨ x ∈ z.memb.evictQueued ∨ x ∈ z.memb.evictHeld then z
  else if z.hasRoom then
    let z := z.enqueue (.evict x) .membership
    { z with memb := { z.memb with evictQueued := insertStation x z.memb.evictQueued } }
  else { z with memb := { z.memb with evictHeld := insertStation x z.memb.evictHeld } }

/-- A host CLOSE of channel c is in execution with a frame of its own that is queued, on the line, or accepted and
not yet processed (R79, second row). -/
def Zs32.hostCloseRunning (c : Channel) (z : Zs32) : Bool :=
  z.port.cmd.any fun e =>
    e.command = .close c && (e.stage = .queued || e.stage = .sending || e.stage = .inbound)

/-- The automatic CLOSE of an input is placed at the tail and its request becomes queued (R79, R80). -/
def Zs32.placeAutoClose (i : Input) (c : Channel) (z : Zs32) : Zs32 :=
  (z.enqueue (.close c true) (.source i)).onInput i fun r => { r with request := .queued }

/-- The channel an input is timing: the bound channel, or the starting channel before the own OPEN is processed
(R79). -/
def InputRec.channel (r : InputRec) : Option Channel := r.bound.or r.starting

/-- An automatic CLOSE is asked for under R79: not while a LEAVE is in execution or a host CLOSE of the channel has
its frame under way; placed if a slot is free, held otherwise. -/
def Zs32.askAutoClose (i : Input) (z : Zs32) : Zs32 :=
  match (z.source.get i).channel with
  | none => z
  | some c =>
    if z.leaving || z.hostCloseRunning c then z
    else if z.hasRoom then z.placeAutoClose i c
    else z.onInput i fun r => { r with request := .held }

/-- When a host CLOSE of channel c ended without closing it and the duration timer has run out meanwhile, the
source unit asks for the automatic CLOSE (R84). -/
def Zs32.reaskAutoClose (c : Channel) (z : Zs32) : Zs32 :=
  match z.source.inputOf c with
  | none => z
  | some i => if (z.source.get i).pending then z.askAutoClose i else z

/-! ### The restate generator (R55 to R58) -/

/-- The claim of station s in a list. -/
def claimOf (s : StationNo) (l : List Claim) : Option Claim := l.find? fun cl => cl.station = s

/-- The remaining timed length of an input's channel in units of 100 ms rounded up, 1 once the timer has expired,
absent for an open-ended channel (R19). -/
def InputRec.remaining (r : InputRec) : Option TimedLength :=
  match r.timer with
  | .stopped => none
  | .running ms => some (BitVec.ofNat 16 (max 1 ((ms + 99) / 100)))
  | .expired => some 1

/-- The lowest-numbered channel at or above c that this station owns (R56). -/
def Zs32.ownChannelFrom (z : Zs32) (c : Nat) : Option Channel :=
  (List.finRange 16).find? fun k => c ≤ k.val && z.table.channels[k].owner = some z.me

/-- This station's claim in a zone. -/
def Zs32.ownClaim (z : Zs32) (k : Zone) : Option Claim := claimOf z.me z.table.zones[k]

/-- Zone k is the lowest zone of its tuple: this station holds a claim in it, and in no lower zone one with the same
channel, priority, duck level and chime flag (R56). -/
def Zs32.lowestOfTuple (z : Zs32) (k : Zone) : Bool :=
  (z.ownClaim k).isSome && (List.finRange 32).all fun j => !(j < k && z.ownClaim j = z.ownClaim k)

/-- The zone set of the zones that satisfy a condition. -/
def zonesWhere (p : Zone → Bool) : ZoneSet :=
  (List.finRange 32).foldl (fun acc k => if p k then acc ||| (1 <<< k.val) else acc) 0

/-- The zones of a zone set in ascending order. -/
def zonesOf (zs : ZoneSet) : List Zone := (List.finRange 32).filter fun k => zs.getLsbD k.val

/-- The zones in which this station's claim has exactly the given fields (R21, R56). -/
def Zs32.zonesOfTuple (z : Zs32) (cl : Claim) : ZoneSet := zonesWhere fun k => z.ownClaim k = some cl

/-- The generator's next CLAIM from a zone position on, with the cursor after it (R56). -/
def Zs32.restateClaimFrom (z : Zs32) (p : Nat) : Option (Placed × RestateCursor) :=
  match (List.finRange 32).find? fun k => p ≤ k.val && z.lowestOfTuple k with
  | none => none
  | some k =>
    (z.ownClaim k).map fun cl =>
      (.claim cl.channel cl.priority cl.duck cl.chime (z.zonesOfTuple cl) true, .claimStep (k.val + 1))

/-- The generator's next frame and its cursor after it; none when its sequence is done (R56). -/
def Zs32.nextRestate (z : Zs32) : Option (Placed × RestateCursor) :=
  match z.memb.cursor with
  | .openStep c =>
    match z.ownChannelFrom c with
    | some k =>
      let i := (z.source.inputOf k).getD .a
      some (.openCh (some k) i (z.source.get i).remaining true, .openStep (k.val + 1))
    | none => z.restateClaimFrom 0
  | .claimStep p => z.restateClaimFrom p

/-- The generator stops: run flag clear, cursor at the start (R58). -/
def Membership.stopRestate (m : Membership) : Membership := { m with restateRun := false, cursor := .openStep 0 }

/-! ### Grants of free slots (R7) -/

/-- One free slot is handed to the next request in the order of R7: the held PRESENCE, the held EVICTs in ascending
order of target, the held auto-CLOSE of input A then B, the restate generator. None when no slot is free or nobody
asks. -/
def Zs32.grantOne (z : Zs32) : Option Zs32 :=
  if !z.hasRoom then none
  else if z.memb.presenceHeld then
    let z := z.enqueue .presence .membership
    some { z with memb := { z.memb with presenceHeld := false, presenceQueued := true } }
  else
    match z.memb.evictHeld with
    | x :: rest =>
      let z := z.enqueue (.evict x) .membership
      some { z with memb := { z.memb with evictHeld := rest, evictQueued := insertStation x z.memb.evictQueued } }
    | [] =>
      match z.source.inA.request, z.source.inA.channel, z.source.inB.request, z.source.inB.channel with
      | .held, some c, _, _ => some (z.placeAutoClose .a c)
      | _, _, .held, some c => some (z.placeAutoClose .b c)
      | _, _, _, _ =>
        if z.memb.restateRun then
          match z.nextRestate with
          | some (p, cur) =>
            let z := z.enqueue p .membership
            some { z with memb := { z.memb with cursor := cur } }
          | none => some { z with memb := z.memb.stopRestate }
        else none

/-- Grants go on until no slot is free or no request is held, at most `n` of them. -/
def Zs32.grantUpTo : Nat → Zs32 → Zs32
  | 0, z => z
  | n + 1, z =>
    match z.grantOne with
    | none => z
    | some z' => Zs32.grantUpTo n z'

/-- The grants of one event (R7): eight placements fill the queue, and the generator may end besides. -/
def Zs32.grants (z : Zs32) : Zs32 := z.grantUpTo 9

/-- The restate generator is started, or put back to its first step, and places frames while slots are free (R55,
R57). -/
def Zs32.startRestate (z : Zs32) : Zs32 :=
  { z with memb := { z.memb with restateRun := true, cursor := .openStep 0 } }.grants

/-! ### Emptying and table clear (R9, R59) -/

/-- The outbound queue holds the automatic CLOSE of an input (R5). -/
def Line.holdsAutoClose (l : Line) (i : Input) : Bool := l.outq.any fun e => e.origin = .source i

/-- A queued automatic CLOSE is dropped by an emptying; its request becomes none (R81). A CLOSE that was accepted
before, and waits in the inbound queue, is not `dropped`: its request stays for its processing (R77). -/
def InputRec.unqueue (dropped : Bool) (r : InputRec) : InputRec :=
  { r with request := if dropped ∧ r.request = .queued then .none else r.request }

/-- The stage of a command whose frame an emptying drops (R123). -/
def Stage.detach : Stage → Stage
  | .queued => .detached
  | .sending => .detached
  | .inbound => .inbound
  | .merged => .merged
  | .detached => .detached

/-- The outbound queue is emptied (R9): every entry is dropped, the marks of the queued PRESENCE, EVICTs and
automatic CLOSEs go (R48, R51, R81), an attempt in progress goes on with its outcome disregarded, and a command whose
frame was dropped is detached. Held requests are not cancelled. -/
def Zs32.emptyOutbound (z : Zs32) : Zs32 :=
  { z with
    line := { z.line with outq := [], fails := 0, vetoSeen := false,
                          attempt := z.line.attempt.map fun a => { a with dropped := true } }
    memb := { z.memb with presenceQueued := false, evictQueued := [] }
    source := { inA := z.source.inA.unqueue (z.line.holdsAutoClose .a)
                inB := z.source.inB.unqueue (z.line.holdsAutoClose .b) }
    port := { z.port with cmd := z.port.cmd.map fun c => { c with stage := c.stage.detach } } }

/-- An output record after table clear: SILENT, its binding unchanged (R59, R109). -/
def OutputRec.silenced (o : OutputRec) : OutputRec :=
  { o with state := .silent, chime := .stopped, fg := none, duck := none, bg := none, tonePos := 0 }

/-- Every output is set to SILENT. -/
def Mixer.silenced (m : Mixer) : Mixer := { outputs := tabulate fun o => m.outputs[o].silenced }

/-- Table clear (R1, R59). The configuration, the notice log, the port, the line receiver and the station state
stay; the calling rule sets the state and ends the command. -/
def Zs32.tableClear (z : Zs32) : Zs32 :=
  let z := z.emptyOutbound
  { z with
    table := ClaimTable.cleared
    memb := Membership.clearedIn z.memb.state
    line := { z.line with inq := [], vetoCount := 0, halt := false }
    source := Source.cleared
    mixer := z.mixer.silenced }

/-- The station enters a state off the line: the receiver goes to OFF and a frame in progress is abandoned (R2). -/
def Zs32.goOff (st : StationState) (z : Zs32) : Zs32 :=
  { z with
    memb := { z.memb with state := st }
    line := { z.line with receiver := .off, gapBits := 0, attempt := none, reception := none } }

/-- The station leaves the line through table clear (R32). -/
def Zs32.leaveLine (st : StationState) (z : Zs32) : Zs32 := z.tableClear.goOff st

/-! ### Rejoin and clash (R34, R142, R184) -/

/-- The notice a rejoin logs for its cause (R34, R168). -/
def RejoinCause.notice : RejoinCause → Notice
  | .evicted s => .selfEvicted s
  | .isolated k => .isolated k
  | .resync r p => .resync r p

/-- The result of a command other than LEAVE that a rejoin ends (R142). -/
def RejoinCause.result : RejoinCause → Result
  | .evicted _ => .plain .evicted
  | .isolated _ => .plain .isolated
  | .resync r _ => .resync r

/-- The result of a LEAVE that the cause of a rejoin ends (R130, R142). -/
def RejoinCause.leaveResult : RejoinCause → Result
  | .evicted _ => .plain .done
  | .isolated _ => .plain .lineFault
  | .resync r _ => .resync r

/-- Table clear, a notice if there is one, a fresh HELLO of the membership unit, LISTENING (R34). -/
def Zs32.rejoinWith (n : Option Notice) (z : Zs32) : Zs32 :=
  let z := n.elim z.tableClear fun n => z.tableClear.log n
  let z := z.enqueue .hello .membership
  { z with memb := { z.memb with state := .listening } }

/-- A rejoin for a cause (R34): with a LEAVE in execution table clear and OFFLINE instead, without the notice; the
command in execution ends with the result of the cause, formed last (R139). -/
def Zs32.rejoin (cause : RejoinCause) (z : Zs32) : Zs32 :=
  if z.leaving then (z.leaveLine .offline).endCommand cause.leaveResult
  else (z.rejoinWith (some cause.notice)).endCommand cause.result

/-- A clash (R184, R185): table clear, CLASHED, the notice, then the result of the command in execution. -/
def Zs32.clash (reason : ClashReason) (z : Zs32) : Zs32 :=
  ((z.leaveLine .clashed).log (.clashed reason)).endCommand (.plain .clashed)

/-! ### The roster (R37, R38) -/

/-- The roster entry of a peer. -/
def Zs32.entry (x : StationNo) (z : Zs32) : Option RosterEntry := z.memb.roster.find? fun e => e.station = x

/-- A peer is in the roster. -/
def Zs32.knows (x : StationNo) (z : Zs32) : Bool := z.memb.roster.any fun e => e.station = x

/-- An entry inserted at its place in ascending order of station number. -/
def insertEntry (e : RosterEntry) : List RosterEntry → List RosterEntry
  | [] => [e]
  | y :: rest => if e.station < y.station then e :: y :: rest else y :: insertEntry e rest

/-- An entry is added (R38): interval and digest absent, the silence timer at 3000 ms in JOINED, else stopped. -/
def Zs32.addEntry (x : StationNo) (z : Zs32) : Zs32 :=
  let timer := if z.memb.state = .joined then ExpiringTimer.running (silenceMs none) else .stopped
  let e : RosterEntry := { station := x, interval := none, silence := timer, digest := none }
  { z with memb := { z.memb with roster := insertEntry e z.memb.roster } }

/-- The entry of a peer is changed. -/
def Zs32.onEntry (x : StationNo) (f : RosterEntry → RosterEntry) (z : Zs32) : Zs32 :=
  { z with memb := { z.memb with roster := z.memb.roster.map fun e => if e.station = x then f e else e } }

/-- The silence timer of an entry starts for the interval recorded (R49). -/
def RosterEntry.restart (e : RosterEntry) : RosterEntry := { e with silence := .running (silenceMs e.interval) }

/-- The entry of a peer leaves the roster, with its held EVICT request and a disagreement record that names it
(R38, R190); a queued EVICT stays. -/
def Zs32.eraseEntry (x : StationNo) (z : Zs32) : Zs32 :=
  { z with memb := { z.memb with
      roster := z.memb.roster.filter fun e => e.station ≠ x
      evictHeld := z.memb.evictHeld.filter fun y => y ≠ x
      disagreement := z.memb.disagreement.filter fun d => d.1 ≠ x } }

/-! ### The claim table's bookkeeping (R107) -/

/-- New channel records and claim lists, with the digest kept current (R107). -/
def ClaimTable.withTables (t : ClaimTable) (channels : Vector ChannelRec 16) (zones : Vector (List Claim) 32) :
    ClaimTable :=
  { t with channels := channels, zones := zones, digest := digestOf channels zones }

/-- The channel records and claim lists of the station are replaced. -/
def Zs32.setTables (channels : Vector ChannelRec 16) (zones : Vector (List Claim) 32) (z : Zs32) : Zs32 :=
  { z with table := z.table.withTables channels zones }

/-- One channel record is replaced. -/
def Zs32.setChannel (c : Channel) (r : ChannelRec) (z : Zs32) : Zs32 :=
  z.setTables (z.table.channels.set c r) z.table.zones

end Sys2Proof.Machine
end

