-- ==== Sys2Proof/Machine/Mixer.lean ====
section
/-! DEFINITION. The output mixer: taking up a foreground (R112 to R118), a channel turning LIVE (R116), the chime
timer (R115) and the samples of an audio frame (R72, R119 to R121). -/

namespace Sys2Proof.Machine

/-- The identity of a claim (R88). -/
def Claim.ident (cl : Claim) : Ident := { station := cl.station, channel := cl.channel }

/-- Channel c is LIVE at this station. -/
def Zs32.isLive (z : Zs32) (c : Channel) : Bool := z.table.channels[c].phase = .live

/-- An output takes up a new foreground (R113): the identity and duck level are recorded, a running chime stops, and
the output goes to CHIME, PLAYING or HUSH, whichever fits first. `live` says whether the new foreground's channel is
LIVE, `chimeMs` is the configured chime length. -/
def OutputRec.takeUp (o : OutputRec) (cl : Claim) (live : Bool) (chimeMs : Nat) : OutputRec :=
  let o := { o with fg := some cl.ident, duck := some cl.duck, chime := .stopped }
  if cl.chime && 0 < chimeMs then { o with state := .chime, chime := .running chimeMs, tonePos := 0 }
  else if live then { o with state := .playing }
  else { o with state := .hush }

/-- An output is told what the comparison found about the foreground of its zone (R98, first and second row; R112,
R113, R117). -/
def OutputRec.tellForeground (o : OutputRec) (was now : Option Claim) (live : Channel → Bool) (chimeMs : Nat) :
    OutputRec :=
  if was.map Claim.ident = now.map Claim.ident then
    match now with
    | none => o
    | some cl => if was = now then o else { o with duck := some cl.duck }
  else
    match now with
    | none => { o with state := .silent, chime := .stopped, fg := none, duck := none, bg := none }
    | some cl => o.takeUp cl (live cl.channel) chimeMs

/-- An output is told what the comparison found about the background of its zone (R98, third row; R118). -/
def OutputRec.tellBackground (o : OutputRec) (was now : Option Ident) : OutputRec :=
  if was = now then o else { o with bg := now }

/-- The mixer is told that channel c has entered LIVE (R116): outputs in HUSH whose foreground names it play. -/
def OutputRec.tellLive (o : OutputRec) (c : Channel) : OutputRec :=
  if o.state = .hush ∧ o.fg.map (·.channel) = some c then { o with state := .playing } else o

/-- Channel c has entered LIVE (R63, R116). -/
def Zs32.channelLive (c : Channel) (z : Zs32) : Zs32 :=
  { z with mixer := { outputs := tabulate fun o => z.mixer.outputs[o].tellLive c } }

/-- The chime timer of an output expires (R115). -/
def OutputRec.chimeExpired (o : OutputRec) (live : Channel → Bool) : OutputRec :=
  { o with chime := .stopped, state := if o.fg.any (fun i => live i.channel) then .playing else .hush }

/-! ### Audio frames -/

/-- The slot sample of an identity's channel while that channel is LIVE, and 0 otherwise (R119). -/
def slotSample (received : Vector Sample 16) (live : Channel → Bool) (i : Option Ident) : Int :=
  match i with
  | none => 0
  | some i => if live i.channel then (received[i.channel]).toInt else 0

/-- The duck mix of PLAYING: (F × (32 − d) + B × d) / 32, truncated toward zero (R119). -/
def duckMix (f b : Int) (d : DuckLevel) : Sample :=
  BitVec.ofInt 24 ((f * (32 - (d.val : Int)) + b * (d.val : Int)).tdiv 32)

/-- The sample an output emits in its state (R119, R120). -/
def OutputRec.emitted (o : OutputRec) (received : Vector Sample 16) (live : Channel → Bool) : Sample :=
  match o.state with
  | .silent => 0
  | .hush => 0
  | .chime => Config.chimeTone o.tonePos
  | .playing => duckMix (slotSample received live o.fg) (slotSample received live o.bg) (o.duck.getD 0)

/-- One audio frame at an output: the sample is emitted, and a sounding tone moves on by one sample. -/
def OutputRec.emit (o : OutputRec) (received : Vector Sample 16) (live : Channel → Bool) : OutputRec :=
  { o with sample := o.emitted received live,
           tonePos := if o.state = .chime then o.tonePos + 1 else o.tonePos }

/-- What this station drives into slot c: the sample of the input whose driving is on for it (R72). -/
def Source.slotDrive (s : Source) (inA inB : Sample) (c : Channel) : Option Sample :=
  if s.inA.driving = some c then some inA else if s.inB.driving = some c then some inB else none

/-- One 48 kHz frame (R72, R73, R119, R121). While no station drives the frame marks no slot is driven and every
sample received is 0. A slot this station drives carries its own sample; the others carry what the peers put there.
The outputs emit first, from the samples received in the most recent frame before: each sample received is used in the
next period of the audio ports (R119; log entries 15 and 16). -/
def Zs32.audioFrame (peerMarks : Bool) (slots : Vector Sample 16) (inA inB : Sample) (z : Zs32) : Zs32 :=
  let frames := peerMarks || z.drivesMarks
  let driven : Vector (Option Sample) 16 := tabulate fun c => if frames then z.source.slotDrive inA inB c else none
  let received : Vector Sample 16 :=
    if !z.onLine then z.audio.received
    else tabulate fun c => if frames then (driven[c]).getD slots[c] else 0
  { z with
    audio := { received := received, driven := driven }
    mixer := { outputs := tabulate fun o => z.mixer.outputs[o].emit z.audio.received z.isLive } }

end Sys2Proof.Machine
end

