-- ==== Sys2Proof/Machine/Claims.lean ====
section
/-! DEFINITION. The claim table: claim lists in their order (R86), CLAIM and DROP zone by zone (R90, R94), the end of
an ownership with its cascade (R67, R68), purge (R69, R96), and the comparison of foregrounds with its notices and
lead marks (R97 to R105). -/

namespace Sys2Proof.Machine

/-! ### The order of a claim list (R86) -/

/-- Claim a sorts above claim b: higher priority, or equal priority and lower station number. -/
def Claim.sortsAbove (a b : Claim) : Bool :=
  b.priority < a.priority || (a.priority = b.priority && a.station < b.station)

/-- The new claim is inserted at the one position that keeps the order. -/
def insertClaim (cl : Claim) : List Claim → List Claim
  | [] => [cl]
  | x :: rest => if cl.sortsAbove x then cl :: x :: rest else x :: insertClaim cl rest

/-- The claims of a list but those of station s. -/
def withoutStation (s : StationNo) (l : List Claim) : List Claim := l.filter fun cl => cl.station ≠ s

/-- The capacity of a claim list (R86). -/
def listCapacity : Nat := 6

/-- LEAD if the new claim stands first, otherwise the given outcome (R90). -/
def leadOr (cl : Claim) (l : List Claim) (other : ZoneOutcome) : ZoneOutcome :=
  if l.head? = some cl then .lead else other

/-- A CLAIM applied to the list of one zone: the first row of R90's table that fits. -/
def applyClaim (cl : Claim) (l : List Claim) : ZoneChange :=
  match claimOf cl.station l with
  | some old =>
    if old = cl then { list := l, outcome := .unchanged, displaced := false }
    else
      let new := insertClaim cl (withoutStation cl.station l)
      { list := new, outcome := leadOr cl new .replaced, displaced := false }
  | none =>
    if l.length < listCapacity then
      let new := insertClaim cl l
      { list := new, outcome := leadOr cl new .below, displaced := false }
    else
      match l.getLast? with
      | none => { list := l, outcome := .full, displaced := false }
      | some last =>
        if cl.sortsAbove last then
          let new := insertClaim cl l.dropLast
          { list := new, outcome := leadOr cl new .below, displaced := true }
        else { list := l, outcome := .full, displaced := false }

/-! ### The comparison (R97 to R105) -/

/-- The position of station s's claim in a list, from position i on, with the claim. -/
def standingFrom (s : StationNo) : Nat → List Claim → Option (Nat × Claim)
  | _, [] => none
  | i, cl :: rest => if cl.station = s then some (i, cl) else standingFrom s (i + 1) rest

/-- The comparison record of one zone's list (R97). -/
def recordOf (me : StationNo) (l : List Claim) : ZoneRecord :=
  { fg := l.head?, bg := l[1]?.map Claim.ident, own := standingFrom me 0 l }

/-- At the start of a processing or purge the claim table takes its comparison record (R97). -/
def Zs32.takeComparison (z : Zs32) : Zs32 :=
  { z with table := { z.table with comparison := some (tabulate fun k => recordOf z.me z.table.zones[k]) } }

/-- The context of a processing that displaces and places nothing. -/
def CompareContext.plain (cause : ZoneCause) : CompareContext :=
  { cause := cause, displaced := 0, placed := 0, by_ := none }

/-- The cause of a foreground change in zone k (R99). -/
def CompareContext.causeIn (x : CompareContext) (k : Zone) : ZoneCause :=
  if x.displaced.getLsbD k.val then .displaced else x.cause

/-- The lead mark of zone k after the comparison (R102 to R105). -/
def leadAfter (x : CompareContext) (k : Zone) (was now : ZoneRecord) (mark : Bool) : Bool :=
  if x.placed.getLsbD k.val then mark
  else
    match was.own, now.own with
    | some (i, _), some (j, _) => mark || (i ≠ 0 && j = 0)
    | some _, none => false
    | none, _ => mark

/-- The lead-mark notice of zone k: CLAIM_STARTED_LATE (R103), CLAIM_PREEMPTED (R104) or CLAIM_DISPLACED (R105). -/
def leadNotice (x : CompareContext) (k : Zone) (was now : ZoneRecord) (mark : Bool) : List Notice :=
  if x.placed.getLsbD k.val then []
  else
    match was.own, now.own with
    | some (i, _), some (j, cl) =>
      if i ≠ 0 ∧ j = 0 ∧ mark = false then [.claimStartedLate k cl.station cl.channel cl.priority]
      else if i = 0 ∧ j ≠ 0 then
        match now.fg with
        | some f => [.claimPreempted k f.station cl.channel f.priority]
        | none => []
      else []
    | some (_, cl), none =>
      if x.displaced.getLsbD k.val then
        match x.by_ with
        | some b => [.claimDisplaced k b.station cl.channel b.priority]
        | none => []
      else []
    | none, _ => []

/-- The ZONE_CHANGE of zone k, if its foreground identity changed and an output binds it (R98, R100). -/
def zoneChangeNotice (x : CompareContext) (k : Zone) (bound : Bool) (was now : Option Claim) : List Notice :=
  if bound ∧ was.map Claim.ident ≠ now.map Claim.ident then
    [.zoneChange k (now.map fun cl => (cl.ident, cl.priority)) (was.map (·.station)) (x.causeIn k)]
  else []

/-- An output binds zone k. -/
def Mixer.binds (m : Mixer) (k : Zone) : Bool := (List.finRange 4).any fun o => m.outputs[o].zone = some k

/-- The notices of the comparison in ascending zone order, ZONE_CHANGE first within a zone (R101). -/
def Zs32.compareNotices (x : CompareContext) (recs : Vector ZoneRecord 32) (z : Zs32) : List Notice :=
  (List.finRange 32).flatMap fun k =>
    let now := recordOf z.me z.table.zones[k]
    zoneChangeNotice x k (z.mixer.binds k) recs[k].fg now.fg ++ leadNotice x k recs[k] now z.table.leads[k]

/-- An output after the comparison: one bound to a zone is told that zone's changes (R98). -/
def Zs32.comparedOutput (recs : Vector ZoneRecord 32) (z : Zs32) (o : OutputRec) : OutputRec :=
  match o.zone with
  | none => o
  | some k =>
    let now := recordOf z.me z.table.zones[k]
    (o.tellForeground recs[k].fg now.fg z.isLive z.chimeMs).tellBackground recs[k].bg now.bg

/-- Several notices are logged in order. -/
def NoticeLog.logAll (l : NoticeLog) (ns : List Notice) : NoticeLog := ns.foldl NoticeLog.log l

/-- The comparison at the end of a processing or purge (R98): outputs told, notices logged, lead marks updated, the
comparison record discarded. -/
def Zs32.compare (x : CompareContext) (z : Zs32) : Zs32 :=
  match z.table.comparison with
  | none => z
  | some recs =>
    { z with
      mixer := { outputs := tabulate fun o => z.comparedOutput recs z.mixer.outputs[o] }
      notices := z.notices.logAll (z.compareNotices x recs)
      table := { z.table with
        leads := tabulate fun k => leadAfter x k recs[k] (recordOf z.me z.table.zones[k]) z.table.leads[k]
        comparison := none } }

/-! ### The end of an ownership, and purge -/

/-- A channel record whose ownership ends (R67): no owner, no timed length, DRAINING with the drain guard started. -/
def ChannelRec.drained : ChannelRec :=
  { owner := none, length := none, phase := .draining, guard := .drainGuard drainGuardMs }

/-- The ownership of channel c ends with its cascade: every claim naming c leaves every list (R67, R68). -/
def Zs32.endOwnership (c : Channel) (z : Zs32) : Zs32 :=
  z.setTables (z.table.channels.set c ChannelRec.drained)
    (tabulate fun k => z.table.zones[k].filter fun cl => cl.channel ≠ c)

/-- The channels that station x owns, in ascending order. -/
def Zs32.channelsOf (x : StationNo) (z : Zs32) : List Channel :=
  (List.finRange 16).filter fun c => z.table.channels[c].owner = some x

/-- Every claim of station x leaves every list (R96). -/
def Zs32.removeClaimsOf (x : StationNo) (z : Zs32) : Zs32 :=
  z.setTables z.table.channels (tabulate fun k => withoutStation x z.table.zones[k])

/-- Purge of station x (R69, R96): its channels end in ascending order with their cascades, its remaining claims go,
and one comparison follows with the cause PURGED. -/
def Zs32.purge (x : StationNo) (z : Zs32) : Zs32 :=
  let z := z.takeComparison
  let z := (z.channelsOf x).foldl (fun z c => z.endOwnership c) z
  (z.removeClaimsOf x).compare (CompareContext.plain .purged)

/-- A roster entry is removed (R38): purge, removal, PEER_LOST. -/
def Zs32.removeEntry (x : StationNo) (reason : LostReason) (z : Zs32) : Zs32 :=
  ((z.purge x).eraseEntry x).log (.peerLost x reason)

end Sys2Proof.Machine
end

