-- ==== Sys2Proof/Machine/Finalize.lean ====
section
/-! DEFINITION. Finalization of the head of the outbound queue (R13 to R22) and the beginning of an attempt (R12). -/

namespace Sys2Proof.Machine

/-- A frame of this station with the class of its kind (R3). -/
def Zs32.ownFrame (z : Zs32) (aged : Bool) (b : FrameBody) : Frame :=
  { cls := b.kind.cls aged, sender := z.me, body := b }

/-- A PRESENCE entry has aged: marked so by its aging (R47), or older than P by the model's clock (log entry 21). -/
def Zs32.hasAged (z : Zs32) (e : OutEntry) : Bool := e.aged || z.periodMs < z.clock - e.placedAt

/-- The lowest-numbered FREE channel (R18). -/
def Zs32.lowestFree (z : Zs32) : Option Channel := (List.finRange 16).find? fun c => z.table.channels[c].phase = .free

/-- Some channel is DRAINING (R18). -/
def Zs32.someDraining (z : Zs32) : Bool := (List.finRange 16).any fun c => z.table.channels[c].phase = .draining

/-- The finalization of a fresh OPEN (R17, R18). -/
def Zs32.finalizeOpen (z : Zs32) (channel : Option Channel) (input : Input) (length : Option TimedLength) : Final :=
  match channel with
  | some c =>
    if z.table.channels[c].owner.isSome then .withdraw (some .channelTaken)
    else if z.table.channels[c].phase = .draining then .wait
    else .ready (z.ownFrame false (.openCh c input length false))
  | none =>
    match z.lowestFree with
    | some c => .ready (z.ownFrame false (.openCh c input length false))
    | none => if z.someDraining then .wait else .withdraw (some .noChannel)

/-- The finalization of a restate OPEN: its fields are refreshed while this station owns the channel (R19). -/
def Zs32.finalizeRestateOpen (z : Zs32) (c : Channel) : Final :=
  if z.table.channels[c].owner = some z.me then
    let i := (z.source.inputOf c).getD .a
    .ready (z.ownFrame false (.openCh c i (z.source.get i).remaining true))
  else .withdraw none

/-- The finalization of a DROP with the zone set narrowed to the zones that hold an own claim (R22). -/
def Zs32.finalizeDrop (z : Zs32) (zs : ZoneSet) : Final :=
  if zs = 0 then .withdraw (some .nothingHeld) else .ready (z.ownFrame false (.drop zs))

/-- The finalization of the head by the rule of its kind (R13, R15 to R22). -/
def Zs32.finalize (z : Zs32) (e : OutEntry) : Final :=
  match e.placed with
  | .hello => .ready (z.ownFrame false .hello)
  | .bye => .ready (z.ownFrame false .bye)
  -- R15
  | .presence => .ready (z.ownFrame (z.hasAged e) (.presence (z.setup.elim 0 (·.interval)) z.table.digest))
  -- R16
  | .evict t =>
    if (z.entry t).any (·.silence = .expired) then .ready (z.ownFrame false (.evict t)) else .withdraw none
  | .openCh (some c) _ _ true => z.finalizeRestateOpen c
  | .openCh c i len _ => z.finalizeOpen c i len
  -- R20
  | .close c auto => .ready (z.ownFrame false (.close c auto))
  -- R21
  | .claim c p d chime zs restate =>
    if z.table.channels[c].owner ≠ some z.me then .withdraw (if restate then none else some .notOwner)
    else if restate then
      let held := z.zonesOfTuple { station := z.me, channel := c, priority := p, duck := d, chime := chime }
      if held = 0 then .withdraw none else .ready (z.ownFrame false (.claim c p d chime held true))
    else .ready (z.ownFrame false (.claim c p d chime zs false))
  -- R22
  | .dropZones zs => z.finalizeDrop (zonesWhere fun k => zs.getLsbD k.val && (z.ownClaim k).isSome)
  | .dropChannel c => z.finalizeDrop (zonesWhere fun k => (z.ownClaim k).any (·.channel = c))

/-- Finalization withdraws the head (R8, R13): a host command receives its result, the membership unit is told that
an EVICT is no longer queued (R16), and the freed slot is granted (R7). -/
def Zs32.withdrawHead (e : OutEntry) (result : Option ResultCode) (z : Zs32) : Zs32 :=
  let z := z.dropHead
  let z := match e.origin, result with
    | .host, some r => z.endCommand (.plain r)
    | _, _ => z
  let z := match e.placed with
    | .evict t => { z with memb := { z.memb with evictQueued := z.memb.evictQueued.filter (· ≠ t) } }
    | _ => z
  z.grants

/-- The conditions of R12 for beginning an attempt. -/
def Zs32.mayBegin (z : Zs32) : Bool :=
  z.onLine && z.line.inq.isEmpty && z.line.receiver = .idle && !z.line.outq.isEmpty && !z.line.halt

/-- The head is finalized, and after a withdrawal the new head, until a frame is ready, the head waits, or the queue
is empty; a ready frame begins its arbitration field (R12, R13). At most `n` heads are finalized. -/
def Zs32.beginUpTo : Nat → Zs32 → Zs32
  | 0, z => z
  | n + 1, z =>
    match z.line.outq with
    | [] => z
    | e :: _ =>
      match z.finalize e with
      | .ready f =>
        let a : Attempt := { frame := f, origin := e.origin, stage := .arbitration, dropped := false }
        { z with line := { z.line with attempt := some a, receiver := .frame } }
      | .wait => z
      | .withdraw r => Zs32.beginUpTo n (z.withdrawHead e r)

/-- More heads than one occasion can withdraw: the entries, the held EVICTs, and at most a PRESENCE, two automatic
CLOSEs and the 48 frames of the restate generator (log entry 26). -/
def Zs32.finalizeBound (z : Zs32) : Nat := z.line.outq.length + z.memb.evictHeld.length + 52

/-- An occasion to begin an attempt (R12). -/
def Zs32.attemptBegin (z : Zs32) : Zs32 := if z.mayBegin then z.beginUpTo z.finalizeBound else z

end Sys2Proof.Machine
end

