-- ==== Sys2Proof/Machine/Operands.lean ====
section
/-! DEFINITION. The operands of the host commands (R157, R164, R198): the length of each command and its parameters
read from the bytes after its code, each with its range. None is a parameter out of range, BAD_PARAM. -/

namespace Sys2Proof.Machine

/-- The length of a command by its code; a code that names no command is one byte long (R198). -/
def commandLength (code : Byte) : Nat :=
  match code.toNat with
  | 0x20 => 5
  | 0x21 => 2
  | 0x22 => 9
  | 0x23 => 6
  | 0x30 => 10
  | 0x41 => 2
  | 0x44 => 6
  | _ => 1

/-- A parameter byte that must be less than `n`. -/
def below (n : Nat) (b : Byte) : Option (Fin n) := inRange n b.toNat

/-- A chime byte, 0 or 1 (R198). -/
def flagParam (b : Byte) : Option Bool := if b = 0 then some false else if b = 1 then some true else none

/-- An input byte, 0 for A or 1 for B (R198). -/
def inputParam (b : Byte) : Option Input := if b = 0 then some .a else if b = 1 then some .b else none

/-- A channel byte, 0xFF for ANY (R198). -/
def channelOrAny (b : Byte) : Option (Option Channel) := if b = 0xFF then some none else (below 16 b).map some

/-- A binding byte, 0xFF for unbound (R198). -/
def bindingParam (b : Byte) : Option (Option Zone) := if b = 0xFF then some none else (below 32 b).map some

/-- A 16-bit value, most significant byte first. -/
def word16 (hi lo : Byte) : BitVec 16 := hi ++ lo

/-- A 32-bit value, most significant byte first. -/
def word32 (a b c d : Byte) : BitVec 32 := a ++ b ++ c ++ d

/-- A zone set that is not empty (R135, R137). -/
def zoneSetParam (w : BitVec 32) : Option ZoneSet := if w = 0 then none else some w

/-- The parameters of OPEN (R131): channel or ANY, input, timed length with 0 for absent. -/
def openParams : List Byte → Option (Option Channel × Input × Option TimedLength)
  | [c, i, hi, lo] => do
    let c ← channelOrAny c
    let i ← inputParam i
    let w := word16 hi lo
    some (c, i, if w = 0 then none else some w)
  | _ => none

/-- The parameter of CLOSE (R133). -/
def closeParams : List Byte → Option Channel
  | [c] => below 16 c
  | _ => none

/-- A priority byte 1 to 7 (R135). -/
def priorityParam (b : Byte) : Option Priority := if b = 0 then none else below 8 b

/-- The parameters of CLAIM (R135), as the claim command they make. -/
def claimParams : List Byte → Option (Channel × Priority × DuckLevel × Bool × ZoneSet)
  | [c, p, d, ch, z3, z2, z1, z0] => do
    let c ← below 16 c
    let p ← priorityParam p
    let d ← below 32 d
    let ch ← flagParam ch
    let zs ← zoneSetParam (word32 z3 z2 z1 z0)
    some (c, p, d, ch, zs)
  | _ => none

/-- The parameters of DROP (R137): form 0 with a zone set, form 1 with three zero bytes and a channel. -/
def dropParams : List Byte → Option (ZoneSet ⊕ Channel)
  | [form, b3, b2, b1, b0] =>
    if form = 0 then (zoneSetParam (word32 b3 b2 b1 b0)).map .inl
    else if form = 1 ∧ b3 = 0 ∧ b2 = 0 ∧ b1 = 0 then (below 16 b0).map .inr
    else none
  | _ => none

/-- A station number byte 1 to 31 (R157). -/
def stationParam (b : Byte) : Option StationNo := if b = 0 then none else below 32 b

/-- A presence interval byte 1 to 100 (R157). -/
def intervalParam (b : Byte) : Option Interval :=
  if b = 0 ∨ 100 < b.toNat then none else below 128 b

/-- A chime length byte 0 to 40 (R157). -/
def chimeParam (b : Byte) : Option Nat := if b.toNat ≤ 40 then some b.toNat else none

/-- The mask positions that a stored mask never shows set: bit 0 and the bits of CLASHED and GAP (R157, R158,
R198). -/
def disregardedMask : BitVec 16 := 0x9001

/-- The parameters of CONFIGURE (R157): the configuration, the four bindings, the mask as stored. -/
def configureParams : List Byte → Option (Setup × Vector (Option Zone) 4 × BitVec 16)
  | [st, p, ch, b0, b1, b2, b3, hi, lo] => do
    let st ← stationParam st
    let p ← intervalParam p
    let ch ← chimeParam ch
    let b0 ← bindingParam b0
    let b1 ← bindingParam b1
    let b2 ← bindingParam b2
    let b3 ← bindingParam b3
    some ({ station := st, interval := p, chime := ch }, #v[b0, b1, b2, b3], word16 hi lo &&& ~~~disregardedMask)
  | _ => none

/-- The parameter of ZONE_STATUS (R161). -/
def zoneParams : List Byte → Option Zone
  | [k] => below 32 k
  | _ => none

/-- The condition byte of PROBE_ZONES (R198). -/
def conditionParam (b : Byte) : Option ProbeCondition :=
  match b.toNat with
  | 0 => some .equal
  | 1 => some .atMost
  | 2 => some .atLeast
  | 3 => some .wouldLead
  | _ => none

/-- The parameters of PROBE_ZONES (R164). -/
def probeParams : List Byte → Option Probe
  | [cond, p, first, last, step] => do
    let cond ← conditionParam cond
    let p ← below 8 p
    let first ← below 32 first
    let last ← below 32 last
    if (cond = .wouldLead ∧ p = 0) ∨ last < first ∨ ¬ (step = 1 ∨ step = 2) then none
    else some { condition := cond, p := p, first := first, last := last, step := step.toNat }
  | _ => none

end Sys2Proof.Machine
end

