-- ==== Sys2Proof/Machine/LineCommands.lean ====
section
/-! DEFINITION. The taking of the line commands (R124 to R137) and ABORT (R144 to R147, R83). -/

namespace Sys2Proof.Machine

/-- A line command enters execution: the port goes to EXECUTING (R122, R153). -/
def Zs32.enterExecution (cmd : LineCommand) (st : Stage) (z : Zs32) : Zs32 :=
  { z with port := { z.port with phase := .executing, cmdBuf := [],
                                 cmd := some { command := cmd, stage := st, heldAbort := false } } }

/-- A command is ended at its taking with a one-byte result (R124, R154). -/
def Zs32.refuse (code : ResultCode) (z : Zs32) : Zs32 := z.formResult (.plain code)

/-- The frame of a host command is placed and the command enters execution in QUEUED, or the queue is full (R6,
R124 check 5). -/
def Zs32.placeHost (cmd : LineCommand) (p : Placed) (z : Zs32) : Zs32 :=
  if z.hasRoom then (z.enqueue p .host).enterExecution cmd .queued else z.refuse .queueFull

/-- The taking of JOIN (R33, R125, R127). -/
def Zs32.takeJoin (z : Zs32) : Zs32 :=
  match z.memb.state with
  | .unconfigured => z.refuse .notConfigured
  | .listening => z.refuse .onLine
  | .joined => z.refuse .onLine
  | .clashed => z.refuse .clashed
  | .offline =>
    let z := (z.enqueue .hello .host).enterExecution .join .queued
    { z with memb := { z.memb with state := .listening }
             line := { z.line with receiver := .gap, gapBits := 0 } }

/-- At the taking of a LEAVE the membership unit stops the restate generator, the join window and the presence
timer, and cancels its held requests (R35). -/
def Membership.stopForLeave (m : Membership) : Membership :=
  { m.stopRestate with joinWindow := .stopped, presenceTimer := .stopped, presenceQueued := false,
                       presenceHeld := false, evictQueued := [], evictHeld := [] }

/-- The taking of LEAVE (R35, R125, R129): the outbound queue is emptied, the membership unit stops, the BYE is
placed, and the grants of the emptying follow (R7). -/
def Zs32.takeLeave (z : Zs32) : Zs32 :=
  if !z.onLine then z.refuse .offLine
  else
    let z := z.emptyOutbound
    let z := { z with memb := z.memb.stopForLeave }
    ((z.enqueue .bye .host).enterExecution .leave .queued).grants

/-- The taking of OPEN (R125, R131): parameters, state, a free input, a free slot. -/
def Zs32.takeOpen (params : List Byte) (z : Zs32) : Zs32 :=
  match openParams params with
  | none => z.refuse .badParam
  | some (c, i, len) =>
    if z.memb.state ≠ .joined then z.refuse .notJoined
    else if (z.source.get i).bound.isSome || (z.source.get i).starting.isSome then z.refuse .inputBusy
    else z.placeHost (.openCh c i len) (.openCh c i len false)

/-- A host CLOSE merges with the automatic CLOSE of an input: no frame is placed (R82). -/
def Zs32.mergeClose (c : Channel) (i : Input) (z : Zs32) : Zs32 :=
  (z.onInput i fun r => { r with merged := true }).enterExecution (.close c) .merged

/-- The input whose pending auto-close a CLOSE of channel c would merge with (R82, R133). -/
def Zs32.mergeInput (c : Channel) (z : Zs32) : Option Input :=
  (z.source.inputOf c).filter fun i => (z.source.get i).pending

/-- The taking of CLOSE (R82, R125, R133): parameter, state, ownership, merge, a free slot. -/
def Zs32.takeClose (params : List Byte) (z : Zs32) : Zs32 :=
  match closeParams params with
  | none => z.refuse .badParam
  | some c =>
    if z.memb.state ≠ .joined then z.refuse .notJoined
    else if z.table.channels[c].owner ≠ some z.me then z.refuse .notOwner
    else
      match z.mergeInput c with
      | some i => z.mergeClose c i
      | none => z.placeHost (.close c) (.close c false)

/-- The taking of CLAIM (R125, R135): parameters, state, ownership of the channel, a free slot. -/
def Zs32.takeClaim (params : List Byte) (z : Zs32) : Zs32 :=
  match claimParams params with
  | none => z.refuse .badParam
  | some (c, p, d, ch, zs) =>
    if z.memb.state ≠ .joined then z.refuse .notJoined
    else if z.table.channels[c].owner ≠ some z.me then z.refuse .notOwner
    else z.placeHost (.claim c p d ch zs) (.claim c p d ch zs false)

/-- The taking of DROP (R125, R137): parameters, state, a free slot. -/
def Zs32.takeDrop (params : List Byte) (z : Zs32) : Zs32 :=
  match dropParams params with
  | none => z.refuse .badParam
  | some form =>
    if z.memb.state ≠ .joined then z.refuse .notJoined
    else
      match form with
      | .inl zs => z.placeHost (.dropZones zs) (.dropZones zs)
      | .inr c => z.placeHost (.dropChannel c) (.dropChannel c)

/-! ### ABORT -/

/-- The entry of the command in execution is removed from the outbound queue; where it was the head, the attempt
record is set for the next head (R8, R144). -/
def Zs32.removeHostEntry (z : Zs32) : Zs32 :=
  match z.line.outq with
  | [] => z
  | e :: _ =>
    if e.origin = .host then z.dropHead
    else { z with line := { z.line with outq := z.line.outq.filter fun e => e.origin ≠ .host } }

/-- An ABORT is taken for a command in QUEUED (R144, R147): its entry leaves the queue, the freed slot is granted,
and the command ends with ABORTED; a JOIN goes back to OFFLINE, a LEAVE rejoins, and a CLOSE whose timed channel has
run out leaves an automatic CLOSE to be asked for (R84). -/
def Zs32.takeAbort (z : Zs32) : Zs32 :=
  let cmd : Option LineCommand := z.port.cmd.map fun e => e.command
  let z := z.removeHostEntry.grants
  match cmd with
  | some .join => (z.leaveLine .offline).endCommand (.plain .aborted)
  | some .leave => (z.rejoinWith none).endCommand (.plain .aborted)
  | some (.close c) => (z.endCommand (.plain .aborted)).reaskAutoClose c
  | _ => z.endCommand (.plain .aborted)

/-- This station is driving the arbitration field of the frame of the command in execution (R145). -/
def Zs32.hostInArbitration (z : Zs32) : Bool :=
  z.line.attempt.any fun a => a.origin = .host && a.stage = .arbitration && !a.dropped

/-- The automatic CLOSE of an input is on the line, or accepted and not yet processed (R83). -/
def Zs32.autoCloseGone (i : Input) (z : Zs32) : Bool :=
  (z.line.attempt.any fun a => a.origin = .source i && a.stage ≠ .arbitration && !a.dropped) ||
    (z.line.inq.any fun f => f.mark = some (.source i))

/-- The merged command of an input is separated from the automatic frame and ends with ABORTED (R83). -/
def Zs32.abortMerged (i : Input) (z : Zs32) : Zs32 :=
  if z.autoCloseGone i then z
  else (z.onInput i fun r => { r with merged := false }).endCommand (.plain .aborted)

/-- An ABORT byte while a command is in execution (R83, R144 to R146): taken in QUEUED, held through the arbitration
field, taken or discarded in MERGED, discarded in every other stage. -/
def Zs32.abortByte (z : Zs32) : Zs32 :=
  match z.port.cmd with
  | none => z
  | some e =>
    match e.stage with
    | .queued =>
      if z.hostInArbitration then
        { z with port := { z.port with cmd := some { e with heldAbort := true } } }
      else z.takeAbort
    | .merged =>
      if z.source.inA.merged then z.abortMerged .a else if z.source.inB.merged then z.abortMerged .b else z
    | .sending => z
    | .inbound => z
    | .detached => z

end Sys2Proof.Machine
end

