-- ==== Sys2Proof/Machine/Queries.lean ====
section
/-! DEFINITION. The commands answered at their taking: CONFIGURE (R157, R158, R110), the queries (R159 to R163),
PROBE_ZONES (R164 to R166) and SENSE (R171, R172), with the bytes of their results (R199). -/

namespace Sys2Proof.Machine

/-! ### CONFIGURE -/

/-- CONFIGURE taken off the line: the configuration, the bindings with every output SILENT, the mask, OFFLINE
(R110, R158). -/
def Zs32.configured (setup : Setup) (binds : Vector (Option Zone) 4) (mask : BitVec 16) (z : Zs32) : Zs32 :=
  { z with
    setup := some setup
    mixer := { outputs := tabulate fun o => OutputRec.silentBoundTo binds[o] }
    notices := { z.notices with mask := mask }
    memb := { z.memb with state := .offline } }

/-- The taking of CONFIGURE (R157, R158). -/
def Zs32.takeConfigure (params : List Byte) (z : Zs32) : Zs32 :=
  match configureParams params with
  | none => z.refuse .badParam
  | some (setup, binds, mask) =>
    if z.onLine then z.refuse .onLine else (z.configured setup binds mask).formResult (.plain .done)

/-! ### Bytes of the parts of a result (R199) -/

/-- A channel byte, 0xFF for none. -/
def channelByte (c : Option Channel) : Byte := c.elim 0xFF (byte ·.val)

/-- A station byte, 0 for none. -/
def stationByte (s : Option StationNo) : Byte := s.elim 0 (byte ·.val)

/-- The bytes of an output in STATION_STATUS: bound zone and state. -/
def OutputRec.statusBytes (o : OutputRec) : List Byte := [o.zone.elim 0xFF (byte ·.val), byte o.state.code]

/-- The bytes of an input in STATION_STATUS: bound channel and pending auto-close. -/
def InputRec.statusBytes (r : InputRec) : List Byte := [channelByte r.bound, flagByte r.pending]

/-- The bytes of a claim in ZONE_STATUS. -/
def Claim.statusBytes (cl : Claim) : List Byte :=
  [byte cl.station.val, byte cl.channel.val, byte cl.priority.val, byte cl.duck.val, flagByte cl.chime]

/-- The bytes of a channel in CHANNEL_TABLE: owner, timed length, phase. -/
def ChannelRec.statusBytes (r : ChannelRec) : List Byte :=
  stationByte r.owner :: bytes16 (r.length.getD 0) ++ [byte r.phase.code]

/-- The silence timer code of ROSTER. -/
def ExpiringTimer.code : ExpiringTimer → Nat
  | .stopped => 0
  | .running _ => 1
  | .expired => 2

/-- The bytes of a roster entry in ROSTER (R199). Bits 6 to 2 of the silence-timer byte, to which R199 gives no meaning,
are 0: log entry 31 (DESIGN CHOICE). -/
def RosterEntry.statusBytes (e : RosterEntry) : List Byte :=
  [byte e.station.val, e.interval.elim 0 (byte ·.val),
    byte (e.silence.code + if e.digest.isSome then 128 else 0)] ++ bytes16 (e.digest.getD 0)

/-! ### The queries -/

/-- The 27 bytes after DONE of STATION_STATUS (R160, R199). The two digest bytes of an absent disagreement record, for
which R199 gives no value, are 0: log entry 31 (DESIGN CHOICE). -/
def Zs32.statusBytes (z : Zs32) : List Byte :=
  [byte z.memb.state.code, byte z.me.val, z.setup.elim 0 (byte ·.interval.val), z.setup.elim 0xFF (byte ·.chime)]
    ++ (List.finRange 4).flatMap (fun o => z.mixer.outputs[o].statusBytes)
    ++ z.source.inA.statusBytes ++ z.source.inB.statusBytes
    ++ [byte z.memb.roster.length] ++ bytes16 z.table.digest
    ++ [byte z.line.outq.length, byte z.line.inq.length, z.flagsByte]
    ++ stationByte (z.memb.disagreement.map (·.1)) :: bytes16 (z.memb.disagreement.elim 0 (·.2))
    ++ [byte z.notices.records.length, byte z.notices.gap]

/-- The outputs bound to a zone, in ascending order (R161). -/
def Mixer.outputsOf (m : Mixer) (k : Zone) : List (Fin 4) :=
  (List.finRange 4).filter fun o => m.outputs[o].zone = some k

/-- The bytes after DONE of ZONE_STATUS (R161, R199). -/
def Zs32.zoneBytes (z : Zs32) (k : Zone) : List Byte :=
  let l := z.table.zones[k]
  let outs := z.mixer.outputsOf k
  [byte k.val, byte l.length] ++ l.flatMap Claim.statusBytes
    ++ [flagByte z.table.leads[k], byte outs.length]
    ++ outs.flatMap fun o => [byte o.val, byte z.mixer.outputs[o].state.code]

/-- The bytes after DONE of CHANNEL_TABLE (R162, R199). -/
def Zs32.channelBytes (z : Zs32) : List Byte :=
  (List.finRange 16).flatMap fun c => z.table.channels[c].statusBytes

/-- The bytes after DONE of ROSTER (R163, R199). -/
def Zs32.rosterBytes (z : Zs32) : List Byte :=
  byte z.memb.roster.length :: z.memb.roster.flatMap RosterEntry.statusBytes

/-- The taking of STATION_STATUS. -/
def Zs32.takeStationStatus (z : Zs32) : Zs32 := z.formResult (.data z.statusBytes)

/-- The taking of ZONE_STATUS (R161). -/
def Zs32.takeZoneStatus (params : List Byte) (z : Zs32) : Zs32 :=
  match zoneParams params with
  | none => z.refuse .badParam
  | some k => z.formResult (.data (z.zoneBytes k))

/-- The taking of CHANNEL_TABLE. -/
def Zs32.takeChannelTable (z : Zs32) : Zs32 := z.formResult (.data z.channelBytes)

/-- The taking of ROSTER. -/
def Zs32.takeRoster (z : Zs32) : Zs32 := z.formResult (.data z.rosterBytes)

/-! ### PROBE_ZONES -/

/-- A zone with the given list is a hit for a station with number `me` (R165). -/
def Probe.hits (q : Probe) (me : StationNo) (l : List Claim) : Bool :=
  let f : Priority := l.head?.elim 0 (·.priority)
  match q.condition with
  | .equal => f = q.p
  | .atMost => f ≤ q.p
  | .atLeast => q.p ≤ f
  | .wouldLead =>
    match l.head? with
    | none => true
    | some top => top.priority < q.p || (q.p = top.priority && me < top.station) || top.station = me

/-- The zones first, first + step, … not above the last zone (R166). -/
def Probe.zones (q : Probe) : List Zone :=
  (List.finRange 32).filter fun k =>
    q.first.val ≤ k.val && k.val ≤ q.last.val && (k.val - q.first.val) % q.step = 0

/-- The hit zone and the count of zones examined, the hit included (R166). -/
def Zs32.probe (z : Zs32) (q : Probe) : Option Zone × Nat :=
  let hit := fun k : Zone => q.hits z.me z.table.zones[k]
  match q.zones.findIdx? hit with
  | some i => (q.zones[i]?, i + 1)
  | none => (none, q.zones.length)

/-- The taking of PROBE_ZONES (R164, R166). -/
def Zs32.takeProbe (params : List Byte) (z : Zs32) : Zs32 :=
  match probeParams params with
  | none => z.refuse .badParam
  | some q => z.formResult (.data [(z.probe q).1.elim 0xFF (byte ·.val), byte (z.probe q).2])

/-! ### SENSE -/

/-- A record is a GAP record. -/
def Notice.isGap : Notice → Bool
  | .gap _ => true
  | _ => false

/-- SENSE removes the oldest record; a gap count becomes a GAP record when the rest holds none (R171, R172). -/
def NoticeLog.afterSense (l : NoticeLog) : NoticeLog :=
  let rest := l.records.tail
  if l.records.isEmpty then l
  else if l.gap ≠ 0 ∧ rest.all (!·.isGap) then { l with records := rest ++ [.gap l.gap], gap := 0 }
  else { l with records := rest }

/-- The taking of SENSE (R172). -/
def Zs32.takeSense (z : Zs32) : Zs32 :=
  let bytes := z.notices.records.head?.elim noRecordBytes Notice.bytes
  { z with notices := z.notices.afterSense }.formResult (.data bytes)

end Sys2Proof.Machine
end

