-- ==== Sys2Proof/Machine/HostPort.lean ====
section
/-! DEFINITION. The SPI port: taking a whole command (R153), written bytes (R151), read bytes (R152, R155),
transactions (R149, R150, R156, R200) and the host's command rows, each a writing of its bytes (R198). -/

namespace Sys2Proof.Machine

/-! ### Bytes -/

/-- The byte the station shifts out; none is high impedance. -/
def Zs32.shiftOut (b : Option Byte) (z : Zs32) : Zs32 := { z with port := { z.port with sdo := b } }

/-- A byte is refused: the refused-byte flag is set. -/
def Zs32.refuseByte (z : Zs32) : Zs32 := { z with port := { z.port with refused := true } }

/-- A whole command is taken and handled by its code (R153). -/
def Zs32.takeCommand (code : Byte) (params : List Byte) (z : Zs32) : Zs32 :=
  match code.toNat with
  | 0x10 => z.takeJoin
  | 0x11 => z.takeLeave
  | 0x20 => z.takeOpen params
  | 0x21 => z.takeClose params
  | 0x22 => z.takeClaim params
  | 0x23 => z.takeDrop params
  | 0x30 => z.takeConfigure params
  | 0x40 => z.takeStationStatus
  | 0x41 => z.takeZoneStatus params
  | 0x42 => z.takeChannelTable
  | 0x43 => z.takeRoster
  | 0x44 => z.takeProbe params
  | 0x48 => z.takeSense
  | 0x7F => z.refuse .noCommand
  | _ => z.refuse .invalid

/-- The command buffer holds `code :: params`; the command is taken once it is whole (R151, R153). -/
def Zs32.buffered (code : Byte) (params : List Byte) (z : Zs32) : Zs32 :=
  if params.length + 1 < commandLength code then
    { z with port := { z.port with phase := .command, cmdBuf := code :: params } }
  else z.takeCommand code params

/-- The ABORT code (R198). -/
def abortCode : Byte := 0x7F

/-- A written byte by the port phase (R151). -/
def Zs32.takeByte (b : Byte) (z : Zs32) : Zs32 :=
  match z.port.phase with
  | .ready => z.buffered b []
  | .command =>
    match z.port.cmdBuf with
    | [] => z.buffered b []
    | code :: params => z.buffered code (params ++ [b])
  | .executing => if b = abortCode then z.abortByte else z.refuseByte
  | .result => z.refuseByte

/-- A byte from the host by the kind of the transaction (R149): taken in WRITE, ignored otherwise. The station
shifts out 0x00 in a WRITE or STATUS transaction. In a READ transaction this row changes nothing (log entry 20). -/
def Zs32.writtenByte (b : Byte) (z : Zs32) : Zs32 :=
  match z.port.transaction with
  | .write => (z.takeByte b).shiftOut (some 0)
  | .status => z.shiftOut (some 0)
  | .read => z
  | .idle => z
  | .disregarded => z

/-- A byte read in a READ transaction by the port phase (R152, R155). -/
def Zs32.giveByte (z : Zs32) : Zs32 :=
  match z.port.phase with
  | .result =>
    let z := z.shiftOut (some (z.port.resBuf.getD z.port.readPos 0))
    if z.port.resBuf.length ≤ z.port.readPos + 1 then
      { z with port := { z.port with phase := .ready, resBuf := [], readPos := 0, firstByte := false } }
    else { z with port := { z.port with readPos := z.port.readPos + 1, firstByte := true } }
  | .ready => z.refuseByte.shiftOut (some 0)
  | .command => z.refuseByte.shiftOut (some 0)
  | .executing => z.refuseByte.shiftOut (some 0)

/-- A byte read by the host by the kind of the transaction (R149, R152). With select deasserted it changes nothing, and
in a WRITE or STATUS transaction this row writes no byte (log entry 20). -/
def Zs32.readByte (z : Zs32) : Zs32 :=
  match z.port.transaction with
  | .read => z.giveByte
  | .write => z.shiftOut (some 0)
  | .status => z.shiftOut (some 0)
  | .idle => z
  | .disregarded => z

/-! ### Transactions -/

/-- The kind of the transaction that a header names; any other header goes on as STATUS (R149, R197). -/
def headerKind (header : Byte) : Transaction :=
  match header.toNat with
  | 0x57 => .write
  | 0x52 => .read
  | _ => .status

/-- The header names one of the three kinds (R197). -/
def headerKnown (header : Byte) : Bool := header = 0x50 || header = 0x57 || header = 0x52

/-- A transaction begins: the status byte goes out, the flag it reported is cleared, and a header that names no kind
sets it again (R149, R150). The flag is cleared at the begin, so a transaction whose header is cut off part way clears
it too; it is the row with header 0x50, followed by TRANSACTION_END: log entry 33 (DESIGN CHOICE). -/
def Zs32.openTransaction (header : Byte) (z : Zs32) : Zs32 :=
  { z with
    rst := { z.rst with settling := false }
    port := { z.port with sdo := some z.statusByte, refused := !headerKnown header,
                          transaction := headerKind header } }

/-- A transaction that is disregarded in both directions (R156, R200). -/
def Zs32.disregard (z : Zs32) : Zs32 :=
  { z with port := { z.port with transaction := .disregarded, sdo := none } }

/-- The assertion of select. While RST_N is low, and within 100 µs of its rise, the transaction is disregarded
(R200; log entries 18 and 19). -/
def Zs32.transactionBegin (header : Byte) (early : Bool) (z : Zs32) : Zs32 :=
  if z.rst.held || (early && z.rst.settling) then z.disregard else z.openTransaction header

/-- The deassertion of select: phase and buffers are kept (R149, R156). -/
def Zs32.transactionEnd (z : Zs32) : Zs32 := { z with port := { z.port with transaction := .idle, sdo := none } }

/-! ### The host's commands as bytes -/

/-- The bytes of a command that are still to be written: what follows the buffer if the buffer holds the beginning
of the command, and all of them otherwise (log entry 5). -/
def Port.remaining (p : Port) (bytes : List Byte) : List Byte :=
  if p.phase = .command ∧ p.cmdBuf.isPrefixOf bytes ∧ p.cmdBuf.length < bytes.length then bytes.drop p.cmdBuf.length
  else bytes

/-- The bytes still to be written are written one by one. -/
def Zs32.writeBytes (bytes : List Byte) (z : Zs32) : Zs32 :=
  (z.port.remaining bytes).foldl (fun z b => z.writtenByte b) z

/-- The WRITE header (R197). -/
def writeHeader : Byte := 0x57

/-- The host writes a command: within the transaction in progress, or, with select deasserted, in a WRITE transaction
of its own (log entry 5). -/
def Zs32.writeCommand (bytes : List Byte) (z : Zs32) : Zs32 :=
  if z.port.transaction = .idle then ((z.transactionBegin writeHeader false).writeBytes bytes).transactionEnd
  else z.writeBytes bytes

/-- The command bytes of OPEN (R198). -/
def openBytes (channel input : Byte) (length : BitVec 16) : List Byte := [0x20, channel, input] ++ bytes16 length

/-- The command bytes of CLAIM (R198). -/
def claimBytes (channel priority duck chime : Byte) (zones : BitVec 32) : List Byte :=
  [0x22, channel, priority, duck, chime] ++ bytes32 zones

/-- The command bytes of DROP (R198). -/
def dropBytes (form : Byte) (value : BitVec 32) : List Byte := [0x23, form] ++ bytes32 value

/-- The command bytes of CONFIGURE (R198). -/
def configureBytes (station interval chime b0 b1 b2 b3 : Byte) (mask : BitVec 16) : List Byte :=
  [0x30, station, interval, chime, b0, b1, b2, b3] ++ bytes16 mask

end Sys2Proof.Machine
end

