-- ==== Sys2Proof/Machine/Processing.lean ====
section
/-! DEFINITION. Frame processing: the sender check (R39, R185, R188) and the processing of each frame kind at the head
of the inbound queue (R40 to R45, R61, R62, R67, R75, R77, R81, R89 to R95, R189, R191). -/

namespace Sys2Proof.Machine

/-! ### The sender check -/

/-- Processing ends: the frame leaves the head of the inbound queue (R10). -/
def Zs32.finishFrame (z : Zs32) : Zs32 := { z with line := { z.line with inq := z.line.inq.tail } }

/-- In JOINED a frame from a peer in the roster restarts the peer's silence timer (R39, R49). -/
def Zs32.hearPeer (x : StationNo) (z : Zs32) : Zs32 :=
  if z.memb.state = .joined then z.onEntry x RosterEntry.restart else z

/-- The sender check of R39: the frame is processed, or a clash or the stranger rule stops it. -/
def Zs32.checkSender (f : InFrame) (process : Zs32 → Zs32) (z : Zs32) : Zs32 :=
  if f.mark.isSome then process z
  else if f.frame.sender = z.me then z.clash .received
  else if f.frame.body.kind = .hello then process z
  else if z.knows f.frame.sender then process (z.hearPeer f.frame.sender)
  else if z.memb.state = .listening then process (z.addEntry f.frame.sender)
  else z.rejoin (.resync .stranger (some f.frame.sender))

/-- The head of the inbound queue is processed if it is of the kind of the row; the frame leaves the queue at the end
(R10, R11; log entry 6). -/
def Zs32.processHead (fits : FrameBody → Bool) (process : InFrame → Zs32 → Zs32) (z : Zs32) : Zs32 :=
  match z.line.inq with
  | [] => z
  | f :: _ => if z.onLine && fits f.frame.body then (z.checkSender f (process f)).finishFrame else z

/-! ### Membership frames -/

/-- A HELLO: the JOIN's result for the own one, restart, entry, notice and restate generator for a peer's (R40,
R41, R128). -/
def processHello (f : InFrame) (z : Zs32) : Zs32 :=
  match f.mark with
  | some .host => z.endCommand (.plain .done)
  | some _ => z
  | none =>
    let x := f.frame.sender
    let z := if z.knows x then z.removeEntry x .restart else z
    let z := (z.addEntry x).log (.peerJoined x)
    if z.memb.state = .joined && !z.leaving then z.startRestate else z

/-- A BYE: a peer's entry is removed; the own one ends in table clear, OFFLINE and the LEAVE's DONE (R42). -/
def processBye (f : InFrame) (z : Zs32) : Zs32 :=
  if f.mark.isSome then (z.leaveLine .offline).endCommand (.plain .done)
  else if z.knows f.frame.sender then z.removeEntry f.frame.sender .bye
  else z

/-- The comparison of digests (R189 to R191). -/
def Zs32.compareDigest (x : StationNo) (d : Digest) (z : Zs32) : Zs32 :=
  if d = z.table.digest then { z with memb := { z.memb with disagreement := none } }
  else if z.memb.disagreement.any fun r => r.1 ≠ x && r.2 = d then z.rejoin (.resync .diverged (some x))
  else
    let z := z.log (.digestMismatch x d)
    { z with memb := { z.memb with disagreement := some (x, d) } }

/-- A PRESENCE records the peer's interval and digest, restarts its silence timer in JOINED and is compared there
(R43). -/
def processPresence (f : InFrame) (z : Zs32) : Zs32 :=
  match f.mark, f.frame.body with
  | none, .presence interval digest =>
    let x := f.frame.sender
    let z := z.onEntry x fun e => { e with interval := some interval, digest := some digest }
    if z.memb.state = .joined then (z.hearPeer x).compareDigest x digest else z
  | _, _ => z

/-- An EVICT: the target's entry is removed, or this station rejoins or ends its LEAVE (R44, R45). -/
def processEvict (f : InFrame) (z : Zs32) : Zs32 :=
  match f.frame.body with
  | .evict target =>
    if target = z.me then z.rejoin (.evicted f.frame.sender)
    else if z.knows target then z.removeEntry target .evict
    else z
  | _ => z

/-! ### OPEN -/

/-- The record of a channel taken by a fresh OPEN (R61). -/
def ChannelRec.opened (s : StationNo) (length : Option TimedLength) : ChannelRec :=
  { owner := some s, length := length, phase := .opening, guard := .openGuard openGuardMs }

/-- The record of a channel recorded from a restate OPEN (R62). -/
def ChannelRec.restated (s : StationNo) (length : Option TimedLength) : ChannelRec :=
  { owner := some s, length := length, phase := .live, guard := .stopped }

/-- The starting channel becomes the bound channel (R75). -/
def InputRec.bind (r : InputRec) : InputRec := { r with bound := r.starting, starting := none }

/-- The input of an own OPEN that was refused at its processing is free again (log entry 12). -/
def InputRec.unstart (r : InputRec) : InputRec :=
  { r with starting := none, driving := none, timer := .stopped, pending := false,
           request := if r.request = .held then .none else r.request }

/-- A fresh OPEN (R61, R75). -/
def processOpen (f : InFrame) (z : Zs32) : Zs32 :=
  match f.frame.body with
  | .openCh c i length _ =>
    match z.table.channels[c].owner with
    | none =>
      let z := z.setChannel c (ChannelRec.opened f.frame.sender length)
      if f.mark.isSome then (z.onInput i InputRec.bind).endCommand (.opened c) else z
    | some o =>
      let code := if o = f.frame.sender then ResultCode.alreadyOwned else .channelTaken
      if f.mark.isSome then (z.onInput i InputRec.unstart).endCommand (.plain code) else z
  | _ => z

/-- A restate OPEN (R62, R63). -/
def processRestateOpen (f : InFrame) (z : Zs32) : Zs32 :=
  match f.frame.body with
  | .openCh c _ length _ =>
    match z.table.channels[c].owner with
    | none => (z.setChannel c (ChannelRec.restated f.frame.sender length)).channelLive c
    | some _ => z
  | _ => z

/-! ### CLOSE -/

/-- The input is released at the processing of an own CLOSE (R77). -/
def InputRec.release (r : InputRec) : InputRec :=
  { r with bound := none, driving := none, timer := .stopped, pending := false, request := .none }

/-- The host CLOSE merged with an input leaves the merge with a result, if there is one (R81). -/
def Zs32.endMerged (i : Input) (r : Result) (z : Zs32) : Zs32 :=
  if (z.source.get i).merged then (z.onInput i fun r => { r with merged := false }).endCommand r else z

/-- After an own CLOSE of channel c was taken (R67, R77, R81): the input is released, and the host result follows, or
CHANNEL_EXPIRED and the merged command's DONE. `bound` is the input that was bound to the channel. -/
def Zs32.ownCloseTaken (c : Channel) (origin : Origin) (bound : Option Input) (z : Zs32) : Zs32 :=
  let z := bound.elim z fun i => z.onInput i InputRec.release
  match origin with
  | .host => z.endCommand (.plain .done)
  | .membership => z
  | .source i => (z.log (.channelExpired z.me c)).endMerged i (.plain .done)

/-- After an own CLOSE was refused, which the manual rules out (R20, R67; log entry 13). -/
def Zs32.ownCloseRefused (origin : Origin) (z : Zs32) : Zs32 :=
  match origin with
  | .host => z.endCommand (.plain .notOwner)
  | .membership => z
  | .source i => (z.onInput i fun r => { r with request := .none }).endMerged i (.plain .notOwner)

/-- A CLOSE (R67, R68, R77, R81). -/
def processClose (f : InFrame) (z : Zs32) : Zs32 :=
  match f.frame.body with
  | .close c _ =>
    if z.table.channels[c].owner = some f.frame.sender then
      let bound := z.source.inputOf c
      let z := (z.takeComparison.endOwnership c).compare (CompareContext.plain .closed)
      f.mark.elim z fun origin => z.ownCloseTaken c origin bound
    else f.mark.elim z fun origin => z.ownCloseRefused origin
  | _ => z

/-! ### CLAIM and DROP -/

/-- The claim that a CLAIM frame of station s makes (R85). -/
def FrameBody.claimOf (s : StationNo) : FrameBody → Option (Claim × ZoneSet)
  | .claim c p d chime zones _ =>
    some ({ station := s, channel := c, priority := p, duck := d, chime := chime }, zones)
  | _ => none

/-- What a CLAIM does in every zone (R90); zones outside the set keep their lists. -/
def Zs32.claimChanges (z : Zs32) (cl : Claim) (zones : ZoneSet) : Vector ZoneChange 32 :=
  tabulate fun k =>
    if zones.getLsbD k.val then applyClaim cl z.table.zones[k]
    else { list := z.table.zones[k], outcome := .unchanged, displaced := false }

/-- The lead mark of a zone after the placement of an own claim (R102). -/
def ZoneOutcome.leadMark (old : Bool) : ZoneOutcome → Bool
  | .lead => true
  | .below => false
  | .replaced => false
  | .unchanged => old
  | .full => false

/-- The lead marks after an own CLAIM in the zones of its set (R102). -/
def Zs32.placeLeads (changes : Vector ZoneChange 32) (zones : ZoneSet) (z : Zs32) : Zs32 :=
  let leads := tabulate fun k =>
    if zones.getLsbD k.val then changes[k].outcome.leadMark z.table.leads[k] else z.table.leads[k]
  { z with table := { z.table with leads := leads } }

/-- A CLAIM that is taken (R90 to R93, R102): the lists, the own lead marks, the comparison. -/
def Zs32.applyClaims (cl : Claim) (zones : ZoneSet) (own : Bool) (z : Zs32) : Zs32 :=
  let changes := z.claimChanges cl zones
  let z := z.takeComparison.setTables z.table.channels (tabulate fun k => changes[k].list)
  let z := if own then z.placeLeads changes zones else z
  z.compare { cause := .claimed, displaced := zonesWhere fun k => changes[k].displaced,
              placed := if own then zones else 0, by_ := some cl }

/-- A fresh CLAIM, with the result of a host command (R89, R90, R93). -/
def processClaim (f : InFrame) (z : Zs32) : Zs32 :=
  match f.frame.body.claimOf f.frame.sender with
  | none => z
  | some (cl, zones) =>
    if z.table.channels[cl.channel].owner = some cl.station then
      let changes := z.claimChanges cl zones
      let outcomes := (zonesOf zones).map fun k => (k, changes[k].outcome)
      let z := z.applyClaims cl zones f.mark.isSome
      if f.mark = some .host then z.endCommand (.claimed outcomes) else z
    else if f.mark = some .host then z.endCommand (.plain .notOwner) else z

/-- A restate CLAIM: the same steps, and no result (R92). -/
def processRestateClaim (f : InFrame) (z : Zs32) : Zs32 :=
  match f.frame.body.claimOf f.frame.sender with
  | none => z
  | some (cl, zones) =>
    if z.table.channels[cl.channel].owner = some cl.station then z.applyClaims cl zones f.mark.isSome else z

/-- The claims of station s leave the lists of a zone set (R94). -/
def Zs32.dropClaims (s : StationNo) (zones : ZoneSet) (z : Zs32) : Zs32 :=
  z.setTables z.table.channels (tabulate fun k =>
    if zones.getLsbD k.val then withoutStation s z.table.zones[k] else z.table.zones[k])

/-- The zones of a set that hold a claim of station s, in ascending order (R95). -/
def Zs32.zonesHeld (s : StationNo) (zones : ZoneSet) (z : Zs32) : List Zone :=
  (zonesOf zones).filter fun k => (claimOf s z.table.zones[k]).isSome

/-- A DROP (R94, R95). -/
def processDrop (f : InFrame) (z : Zs32) : Zs32 :=
  match f.frame.body with
  | .drop zones =>
    let removed := z.zonesHeld f.frame.sender zones
    let z := (z.takeComparison.dropClaims f.frame.sender zones).compare (CompareContext.plain .dropped)
    if f.mark = some .host then z.endCommand (.dropped removed) else z
  | _ => z

/-! ### The kinds of the rows -/

/-- A fresh OPEN. -/
def FrameBody.isFreshOpen : FrameBody → Bool
  | .openCh _ _ _ restate => !restate
  | _ => false

/-- A restate OPEN. -/
def FrameBody.isRestateOpen : FrameBody → Bool
  | .openCh _ _ _ restate => restate
  | _ => false

/-- A fresh CLAIM. -/
def FrameBody.isFreshClaim : FrameBody → Bool
  | .claim _ _ _ _ _ restate => !restate
  | _ => false

/-- A restate CLAIM. -/
def FrameBody.isRestateClaim : FrameBody → Bool
  | .claim _ _ _ _ _ restate => restate
  | _ => false

/-- A frame of one of the kinds that have one row. -/
def FrameBody.hasKind (k : LineKind) (b : FrameBody) : Bool := b.kind = k

end Sys2Proof.Machine
end

