-- ==== Sys2Proof/Machine/FrameRows.lean ====
section
/-! DEFINITION. The meanings of the rows of frame processing. -/

namespace Sys2Proof.Machine

/-- HELLO (R40, R41). -/
def execHello (s : State) : Host.Outcome State Fault Refusal :=
  s.run (Zs32.processHead (·.hasKind .hello) processHello)

/-- BYE (R42). -/
def execBye (s : State) : Host.Outcome State Fault Refusal :=
  s.run (Zs32.processHead (·.hasKind .bye) processBye)

/-- PRESENCE (R43, R189). -/
def execPresence (s : State) : Host.Outcome State Fault Refusal :=
  s.run (Zs32.processHead (·.hasKind .presence) processPresence)

/-- EVICT (R44, R45). -/
def execEvict (s : State) : Host.Outcome State Fault Refusal :=
  s.run (Zs32.processHead (·.hasKind .evict) processEvict)

/-- OPEN_FRAME (R61, R75). -/
def execOpenFrame (s : State) : Host.Outcome State Fault Refusal :=
  s.run (Zs32.processHead FrameBody.isFreshOpen processOpen)

/-- RESTATE_OPEN (R62). -/
def execRestateOpen (s : State) : Host.Outcome State Fault Refusal :=
  s.run (Zs32.processHead FrameBody.isRestateOpen processRestateOpen)

/-- CLOSE_FRAME (R67, R68, R77, R81). -/
def execCloseFrame (s : State) : Host.Outcome State Fault Refusal :=
  s.run (Zs32.processHead (·.hasKind .close) processClose)

/-- CLAIM_FRAME (R89 to R93). -/
def execClaimFrame (s : State) : Host.Outcome State Fault Refusal :=
  s.run (Zs32.processHead FrameBody.isFreshClaim processClaim)

/-- RESTATE_CLAIM (R92). -/
def execRestateClaim (s : State) : Host.Outcome State Fault Refusal :=
  s.run (Zs32.processHead FrameBody.isRestateClaim processRestateClaim)

/-- DROP_FRAME (R94, R95). -/
def execDropFrame (s : State) : Host.Outcome State Fault Refusal :=
  s.run (Zs32.processHead (·.hasKind .drop) processDrop)

end Sys2Proof.Machine
end

