-- ==== Sys2Proof/Machine/LineEvents.lean ====
section
/-! DEFINITION. The events of the control pair: the receiver's states (R2), the end of the arbitration field (R23,
R145), the read-back clash (R24), a received frame (R25, R176) and the end of the veto slot with acceptance, failure,
the own-veto limit and the eighth failed attempt (R26 to R29, R178, R180 to R182). -/

namespace Sys2Proof.Machine

/-! ### The idle gap (R2) -/

/-- The recessive bit times of an idle gap (R2). -/
def idleGapBits : Nat := 11

/-- A dominant bit reaches the receiver: it restarts the count in GAP and begins a frame in IDLE (R2; log entry
25). -/
def Zs32.dominantBit (z : Zs32) : Zs32 :=
  match z.line.receiver with
  | .gap => { z with line := { z.line with gapBits := 0 } }
  | .idle => { z with line := { z.line with receiver := .frame } }
  | .off => z
  | .frame => z
  | .slots => z

/-- A dominant bit while the receiver is in GAP restarts the count (R2). -/
def Zs32.dominantInGap (z : Zs32) : Zs32 :=
  if z.line.receiver = .gap then { z with line := { z.line with gapBits := 0 } } else z

/-- Recessive bit times pass in GAP; the eleventh takes the receiver to IDLE (R2). -/
def Zs32.recessiveBits (bits : Nat) (z : Zs32) : Zs32 :=
  if z.line.receiver = .gap then
    if idleGapBits ≤ z.line.gapBits + bits then { z with line := { z.line with receiver := .idle, gapBits := 0 } }
    else { z with line := { z.line with gapBits := z.line.gapBits + bits } }
  else z

/-! ### The own frame -/

/-- The frame of an attempt carries the command in execution, and no emptying has dropped it. -/
def Attempt.carriesHost (a : Attempt) : Bool := a.origin = .host && !a.dropped

/-- Arbitration is won: the frame is on the line, a host command is in SENDING and a held ABORT is discarded (R23,
R123, R145). -/
def Zs32.arbitrationWon (a : Attempt) (z : Zs32) : Zs32 :=
  let z := { z with line := { z.line with attempt := some { a with stage := .sending } } }
  if a.carriesHost then
    { z with port := { z.port with cmd := z.port.cmd.map fun e => { e with stage := .sending, heldAbort := false } } }
  else z

/-- An ABORT is held for the command in execution (R145). -/
def Zs32.abortHeld (z : Zs32) : Bool := z.port.cmd.any (·.heldAbort)

/-- Arbitration is lost: the attempt is over, and a held ABORT is taken (R23, R145). -/
def Zs32.arbitrationLost (a : Attempt) (z : Zs32) : Zs32 :=
  let z := { z with line := { z.line with attempt := none } }
  if a.carriesHost && z.abortHeld then z.takeAbort else z

/-- The end of the arbitration field (R23). -/
def Zs32.arbitrationEnd (rivals : List (BitVec 7)) (z : Zs32) : Zs32 :=
  match z.line.attempt with
  | none => z
  | some a =>
    if a.stage = .arbitration then
      if a.frame.wins rivals then z.arbitrationWon a else z.arbitrationLost a
    else z

/-- A bit after the arbitration field reads back different from the one driven (R24, R184; log entry 11). -/
def Zs32.clashReadBack (z : Zs32) : Zs32 :=
  match z.line.attempt with
  | none => z
  | some a => if a.stage = .sending then z.clash .readBack else z

/-! ### The last bit of the CRC -/

/-- The verdict of the check on a received frame (R25, R176). -/
def receptionOf (bits : List Bool) : Reception := (decodeFrame bits).elim .bad .good

/-- The last bit of the CRC has passed: the receiver goes to SLOTS, with this station as the sender, or with the
verdict of its check on a peer's frame (R2, R25, R176). -/
def Zs32.frameReceived (bits : List Bool) (z : Zs32) : Zs32 :=
  if z.line.receiver = .frame then
    match z.line.attempt with
    | none => { z with line := { z.line with receiver := .slots, reception := some (receptionOf bits) } }
    | some a =>
      if a.stage = .sending then
        { z with line := { z.line with receiver := .slots, attempt := some { a with stage := .slots } } }
      else z
  else z

/-! ### The end of the veto slot: the sender (R27, R28, R9) -/

/-- The driving of the input bound to a channel is turned off (R76). -/
def Zs32.stopDriving (c : Channel) (z : Zs32) : Zs32 :=
  (z.source.inputOf c).elim z fun i => z.onInput i fun r => { r with driving := none }

/-- The input of an own fresh OPEN is taken up at its acceptance (R74). -/
def InputRec.start (c : Channel) (length : Option TimedLength) (r : InputRec) : InputRec :=
  { r with starting := some c, driving := some c,
           timer := length.elim .stopped fun n => .running (n.toNat * 100) }

/-- What the acceptance of an own frame does besides the queues, by its kind: the join window (R41, R52), the marks
(R48, R51), the input of an OPEN (R74), the driving of a CLOSE (R76). -/
def Zs32.acceptedEffect (b : FrameBody) (z : Zs32) : Zs32 :=
  match b with
  | .hello =>
    if z.memb.state = .listening then { z with memb := { z.memb with joinWindow := .running z.joinWindowMs } } else z
  | .presence _ _ => { z with memb := { z.memb with presenceQueued := false } }
  | .evict t => { z with memb := { z.memb with evictQueued := z.memb.evictQueued.filter (· ≠ t) } }
  | .openCh c i length restate => if restate then z else z.onInput i (InputRec.start c length)
  | .close c _ => z.stopDriving c
  | .bye => z
  | .drop _ => z
  | .claim _ _ _ _ _ _ => z

/-- A frame is appended to the inbound queue at its acceptance and the own consecutive-veto count returns to 0 (R26,
R27, R183). -/
def Zs32.appendFrame (f : Frame) (mark : Option Origin) (z : Zs32) : Zs32 :=
  { z with line := { z.line with inq := z.line.inq ++ [{ frame := f, mark := mark }], vetoCount := 0 } }

/-- The own frame is accepted (R27): appended with its mark, removed from the outbound queue, with the effects of its
kind, INBOUND for a host command, and the freed slot granted (R7). -/
def Zs32.acceptOwn (a : Attempt) (z : Zs32) : Zs32 :=
  let z := ((z.appendFrame a.frame (some a.origin)).dropHead).acceptedEffect a.frame.body
  let z := if a.origin = .host then z.setStage .inbound else z
  z.grants

/-- The outcome of a dropped frame is disregarded, but a CLOSE heard and not vetoed turns driving off (R9, R76). -/
def Zs32.disregardOutcome (a : Attempt) (accepted : Bool) (z : Zs32) : Zs32 :=
  match a.frame.body with
  | .close c _ => if accepted then z.stopDriving c else z
  | _ => z

/-- The number of failed attempts that removes a frame (R28). -/
def attemptLimit : Nat := 8

/-- A failed attempt below the eighth (R28): counted, the veto-seen mark set by a veto, a host command in QUEUED
again (R123). -/
def Zs32.failedAttempt (a : Attempt) (veto : Bool) (z : Zs32) : Zs32 :=
  let z := { z with line := { z.line with fails := z.line.fails + 1, vetoSeen := z.line.vetoSeen || veto } }
  if a.origin = .host then z.setStage .queued else z

/-! ### The eighth failed attempt (R180 to R182) -/

/-- The marks of the block that asked for a frame, when the frame is removed at its eighth failed attempt (R48, R51,
R81). -/
def Zs32.removedEffect (b : FrameBody) (origin : Origin) (z : Zs32) : Zs32 :=
  match b with
  | .presence _ _ => { z with memb := { z.memb with presenceQueued := false } }
  | .evict t => { z with memb := { z.memb with evictQueued := z.memb.evictQueued.filter (· ≠ t) } }
  | .close _ _ =>
    match origin with
    | .source i => z.onInput i fun r => { r with request := .none }
    | .host => z
    | .membership => z
  | .hello => z
  | .bye => z
  | .drop _ => z
  | .openCh _ _ _ _ => z
  | .claim _ _ _ _ _ _ => z

/-- The station field of LINE_FAULT: the target of an EVICT (R168). -/
def FrameBody.faultStation : FrameBody → Option StationNo
  | .evict t => some t
  | _ => none

/-- The channel field of LINE_FAULT: that of a CLOSE, OPEN or CLAIM (R168). -/
def FrameBody.faultChannel : FrameBody → Option Channel
  | .close c _ => some c
  | .openCh c _ _ _ => some c
  | .claim c _ _ _ _ _ => some c
  | _ => none

/-- A line fault on the frame of the command in execution (R140). -/
def Zs32.hostLineFault (b : FrameBody) (z : Zs32) : Zs32 :=
  match b with
  | .hello => (z.leaveLine .offline).endCommand (.plain .lineFault)
  | .bye => (z.leaveLine .offline).endCommand (.plain .lineFault)
  | .close c _ => (z.endCommand (.plain .lineFault)).reaskAutoClose c
  | .evict _ => z.endCommand (.plain .lineFault)
  | .drop _ => z.endCommand (.plain .lineFault)
  | .openCh _ _ _ _ => z.endCommand (.plain .lineFault)
  | .claim _ _ _ _ _ _ => z.endCommand (.plain .lineFault)
  | .presence _ _ => z.endCommand (.plain .lineFault)

/-- A fresh HELLO of the membership unit (R36). In every state of a run a slot is free for it (log entry 32). -/
def Zs32.renewHello (z : Zs32) : Zs32 := if z.hasRoom then z.enqueue .hello .membership else z

/-- An automatic CLOSE is asked for again while its channel is still bound to the input (R81). -/
def Zs32.renewAutoClose (i : Input) (c : Channel) (z : Zs32) : Zs32 :=
  if (z.source.get i).bound = some c then z.askAutoClose i else z

/-- An EVICT is asked for again while its target is in the roster with its silence timer expired (R51). -/
def Zs32.renewEvict (t : StationNo) (z : Zs32) : Zs32 :=
  if (z.entry t).any (·.silence = .expired) then z.askEvict t else z

/-- A line fault on a frame of the station itself (R181): the notice, then the follow-up of the owner. -/
def Zs32.ownLineFault (b : FrameBody) (origin : Origin) (z : Zs32) : Zs32 :=
  let z := z.log (.lineFault b.kind b.faultStation b.faultChannel)
  match b, origin with
  | .hello, _ => z.renewHello
  | .evict t, _ => z.renewEvict t
  | .close c _, .source i => (z.endMerged i (.plain .lineFault)).renewAutoClose i c
  | _, _ => z

/-- The decision on a removed frame (R180): a line fault if any attempt was vetoed, isolation otherwise. -/
def Zs32.decideRemoved (a : Attempt) (vetoSeen : Bool) (z : Zs32) : Zs32 :=
  if vetoSeen then
    if a.origin = .host then z.hostLineFault a.frame.body else z.ownLineFault a.frame.body a.origin
  else z.rejoin (.isolated a.frame.body.kind)

/-- The eighth failed attempt (R28, R180): the frame is removed, the slot granted, and the fault decided. -/
def Zs32.eighthFailure (a : Attempt) (veto : Bool) (z : Zs32) : Zs32 :=
  let seen := z.line.vetoSeen || veto
  ((z.dropHead.removedEffect a.frame.body a.origin).grants).decideRemoved a seen

/-- A failed attempt, the eighth included (R28). -/
def Zs32.failOwn (a : Attempt) (veto : Bool) (z : Zs32) : Zs32 :=
  if z.line.fails + 1 < attemptLimit then z.failedAttempt a veto else z.eighthFailure a veto

/-- The frame in its slots is over: the receiver goes to GAP (R2). -/
def Zs32.endSlots (z : Zs32) : Zs32 :=
  { z with line := { z.line with receiver := .gap, gapBits := 0, attempt := none, reception := none } }

/-- The end of the veto slot at the sender (R27, R28), which drives neither slot itself (R25). -/
def Zs32.ownSlotEnd (a : Attempt) (heard veto : Bool) (z : Zs32) : Zs32 :=
  let z := z.endSlots
  if a.dropped then z.disregardOutcome a (heard && !veto)
  else if !veto && (heard || z.memb.roster.isEmpty) then z.acceptOwn a
  else z.failOwn a veto

/-! ### The end of the veto slot: a receiver (R26, R27, R29, R178) -/

/-- The own consecutive-veto count that calls for a rejoin (R178). -/
def vetoLimitCount : Nat := 16

/-- This station's own veto counts, and the sixteenth in a row makes a rejoin (R26, R178). -/
def Zs32.countVeto (z : Zs32) : Zs32 :=
  let z := { z with line := { z.line with vetoCount := z.line.vetoCount + 1 } }
  if vetoLimitCount ≤ z.line.vetoCount then z.rejoin (.resync .vetoLimit none) else z

/-- An EVICT naming this station is accepted (R29, R76): the outbound queue is emptied, the send halt set, driving
turned off at both inputs, and then the slots are granted (R7). -/
def Zs32.haltForEvict (z : Zs32) : Zs32 :=
  let z := z.emptyOutbound
  let z := { z with line := { z.line with halt := true } }
  (z.onInputs fun r => { r with driving := none }).grants

/-- A peer's frame is accepted (R27, R29). -/
def Zs32.acceptPeer (f : Frame) (z : Zs32) : Zs32 :=
  let z := z.appendFrame f none
  if f.body = .evict z.me then z.haltForEvict else z

/-- The end of the veto slot at a receiver. A station that drove the heard slot takes the frame unless another vetoed
it; one that drove the veto slot counts it. -/
def Zs32.peerSlotEnd (r : Reception) (veto : Bool) (z : Zs32) : Zs32 :=
  let ownVeto := z.drivesVeto
  let z := z.endSlots
  if ownVeto then z.countVeto
  else
    match r with
    | .bad => z
    | .good f => if veto then z else z.acceptPeer f

/-- The end of the veto slot. `heard` and `veto` say whether another station drove the slot (log entries 7 and
8). -/
def Zs32.vetoSlotEnd (heard veto : Bool) (z : Zs32) : Zs32 :=
  if z.line.receiver = .slots then
    match z.line.attempt, z.line.reception with
    | some a, _ => z.ownSlotEnd a heard veto
    | none, some r => z.peerSlotEnd r veto
    | none, none => z.endSlots
  else z

end Sys2Proof.Machine
end

