-- ==== Sys2Proof/Machine/Timers.lean ====
section
/-! DEFINITION. The expiries of the station's timers (R46, R47, R50, R53, R64, R65, R79, R115), the tick of the model's
clock (log entry 3) and the reset input (R200). -/

namespace Sys2Proof.Machine

/-! ### Expiries -/

/-- The timer runs. -/
def Timer.isRunning : Timer → Bool
  | .running _ => true
  | .stopped => false

/-- The timer runs, neither stopped nor expired. -/
def ExpiringTimer.isRunning : ExpiringTimer → Bool
  | .running _ => true
  | .stopped => false
  | .expired => false

/-- The presence timer expires: it starts again for P, and a PRESENCE is asked for unless one is queued or held
(R46). -/
def Zs32.presenceTimerExpiry (z : Zs32) : Zs32 :=
  if z.memb.presenceTimer.isRunning then
    let z := { z with memb := { z.memb with presenceTimer := .running z.periodMs } }
    if z.memb.presenceQueued || z.memb.presenceHeld then z else z.askPresence
  else z

/-- A PRESENCE entry ages (R47). -/
def OutEntry.age (e : OutEntry) : OutEntry := { e with aged := e.aged || e.placed = .presence }

/-- The PRESENCE in the outbound queue has aged (R47). -/
def Zs32.presenceAging (z : Zs32) : Zs32 :=
  { z with line := { z.line with outq := z.line.outq.map OutEntry.age } }

/-- The silence timer of peer x expires: the entry is marked, and an EVICT asked for (R50). -/
def Zs32.silenceTimerExpiry (x : StationNo) (z : Zs32) : Zs32 :=
  if (z.entry x).any (·.silence.isRunning) then (z.onEntry x fun e => { e with silence := .expired }).askEvict x
  else z

/-- The silence timer of every roster entry starts (R53). -/
def Zs32.startSilence (z : Zs32) : Zs32 :=
  { z with memb := { z.memb with roster := z.memb.roster.map RosterEntry.restart } }

/-- The station enters JOINED (R53): a PRESENCE asked for, the presence timer, the silence timers, the notice. -/
def Zs32.enterJoined (z : Zs32) : Zs32 :=
  let z := { z with memb := { z.memb with state := .joined } }
  let z := z.askPresence
  let z := { z with memb := { z.memb with presenceTimer := .running z.periodMs } }
  z.startSilence.log (.joined z.memb.roster.length)

/-- The join window expires (R53). -/
def Zs32.joinWindowExpiry (z : Zs32) : Zs32 :=
  if z.memb.joinWindow.isRunning then
    let z := { z with memb := { z.memb with joinWindow := .stopped } }
    if z.memb.state = .listening && !z.leaving then z.enterJoined else z
  else z

/-- The record of a channel whose open guard expires (R64). -/
def ChannelRec.nowLive (r : ChannelRec) : ChannelRec := { r with phase := .live, guard := .stopped }

/-- The record of a channel whose drain guard expires (R65). -/
def ChannelRec.nowFree (r : ChannelRec) : ChannelRec := { r with phase := .free, guard := .stopped }

/-- The open guard of channel c expires: LIVE, and the mixer is told (R63, R64). -/
def Zs32.openGuardExpiry (c : Channel) (z : Zs32) : Zs32 :=
  match z.table.channels[c].guard with
  | .openGuard _ => (z.setChannel c z.table.channels[c].nowLive).channelLive c
  | .drainGuard _ => z
  | .stopped => z

/-- The drain guard of channel c expires: FREE (R65). -/
def Zs32.drainGuardExpiry (c : Channel) (z : Zs32) : Zs32 :=
  match z.table.channels[c].guard with
  | .drainGuard _ => z.setChannel c z.table.channels[c].nowFree
  | .openGuard _ => z
  | .stopped => z

/-- The duration timer of an input expires: marked, the flag set, an automatic CLOSE asked for (R79). -/
def Zs32.durationTimerExpiry (i : Input) (z : Zs32) : Zs32 :=
  if (z.source.get i).timer.isRunning then
    (z.onInput i fun r => { r with timer := .expired, pending := true }).askAutoClose i
  else z

/-- The chime timer of an output expires (R115). -/
def Zs32.chimeTimerExpiry (o : Fin 4) (z : Zs32) : Zs32 :=
  if z.mixer.outputs[o].chime.isRunning then
    { z with mixer := { outputs := z.mixer.outputs.set o (z.mixer.outputs[o].chimeExpired z.isLive) } }
  else z

/-! ### The tick of an empty queue (log entry 3) -/

/-- One millisecond off a running timer, which waits at 0 for its expiry row. -/
def Timer.tick : Timer → Timer
  | .running n => .running (n - 1)
  | .stopped => .stopped

/-- One millisecond off a running timer. -/
def ExpiringTimer.tick : ExpiringTimer → ExpiringTimer
  | .running n => .running (n - 1)
  | .stopped => .stopped
  | .expired => .expired

/-- One millisecond off a running guard. -/
def Guard.tick : Guard → Guard
  | .openGuard n => .openGuard (n - 1)
  | .drainGuard n => .drainGuard (n - 1)
  | .stopped => .stopped

/-- The silence timer of a roster entry. -/
def RosterEntry.tick (e : RosterEntry) : RosterEntry := { e with silence := e.silence.tick }

/-- The timers of the membership unit. -/
def Membership.tick (m : Membership) : Membership :=
  { m with presenceTimer := m.presenceTimer.tick, joinWindow := m.joinWindow.tick,
           roster := m.roster.map RosterEntry.tick }

/-- The guard of a channel. -/
def ChannelRec.tick (r : ChannelRec) : ChannelRec := { r with guard := r.guard.tick }

/-- The duration timer of an input. -/
def InputRec.tick (r : InputRec) : InputRec := { r with timer := r.timer.tick }

/-- The chime timer of an output. -/
def OutputRec.tick (o : OutputRec) : OutputRec := { o with chime := o.chime.tick }

/-- One millisecond passes at the station. -/
def Zs32.tick (z : Zs32) : Zs32 :=
  { z with
    clock := z.clock + 1
    rst := { z.rst with settling := false }
    memb := z.memb.tick
    table := { z.table with channels := tabulate fun c => z.table.channels[c].tick }
    source := { inA := z.source.inA.tick, inB := z.source.inB.tick }
    mixer := { outputs := tabulate fun o => z.mixer.outputs[o].tick } }

/-! ### The reset input (R200) -/

/-- The shortest low level that is a pin reset, in nanoseconds (R200). -/
def resetNs : Nat := 1000

/-- A transaction in progress at a pin reset is disregarded until select is deasserted (R156). -/
def Transaction.abandon : Transaction → Transaction
  | .idle => .idle
  | _ => .disregarded

/-- Pin reset: every block at its value after pin reset, and held there (R200). -/
def Zs32.pinReset (z : Zs32) : Zs32 :=
  let z' := Zs32.afterReset { held := true, settling := false }
  { z' with port := { z'.port with transaction := z.port.transaction.abandon } }

/-- RST_N goes high (R200). -/
def Zs32.resetRelease (z : Zs32) : Zs32 :=
  if z.rst.held then { z with rst := { held := false, settling := true } } else z

end Sys2Proof.Machine
end

