-- ==== Sys2Proof/Machine/HostRows.lean ====
section
/-! DEFINITION. The meanings of the rows of the reset input and of the host port. -/

namespace Sys2Proof.Machine

/-- PIN_RESET (R200): a low level of at least 1 µs; a shorter one is disregarded. -/
def execPinReset (lowNs : Nat) (s : State) : Host.Outcome State Fault Refusal :=
  .next (if resetNs ≤ lowNs then { s with zs := s.zs.pinReset } else s)

/-- RESET_RELEASE (R200). -/
def execResetRelease (s : State) : Host.Outcome State Fault Refusal :=
  .next { s with zs := s.zs.resetRelease }

/-- TRANSACTION_BEGIN (R149, R150, R200). -/
def execTransactionBegin (header : Byte) (early : Bool) (s : State) : Host.Outcome State Fault Refusal :=
  .next { s with zs := s.zs.transactionBegin header early }

/-- TRANSACTION_END (R149). -/
def execTransactionEnd (s : State) : Host.Outcome State Fault Refusal :=
  .next { s with zs := s.zs.transactionEnd }

/-- WRITTEN_BYTE (R151). -/
def execWrittenByte (b : Byte) (s : State) : Host.Outcome State Fault Refusal :=
  s.run (Zs32.writtenByte b)

/-- READ_BYTE (R152). -/
def execReadByte (s : State) : Host.Outcome State Fault Refusal :=
  s.run Zs32.readByte

/-- JOIN (R127). -/
def execJoin (s : State) : Host.Outcome State Fault Refusal :=
  s.run (Zs32.writeCommand [0x10])

/-- LEAVE (R129). -/
def execLeave (s : State) : Host.Outcome State Fault Refusal :=
  s.run (Zs32.writeCommand [0x11])

/-- OPEN (R131). -/
def execOpen (channel input : Byte) (length : BitVec 16) (s : State) : Host.Outcome State Fault Refusal :=
  s.run (Zs32.writeCommand (openBytes channel input length))

/-- CLOSE (R133). -/
def execClose (channel : Byte) (s : State) : Host.Outcome State Fault Refusal :=
  s.run (Zs32.writeCommand [0x21, channel])

/-- CLAIM (R135). -/
def execClaim (channel priority duck chime : Byte) (zones : BitVec 32) (s : State) : Host.Outcome State Fault Refusal :=
  s.run (Zs32.writeCommand (claimBytes channel priority duck chime zones))

/-- DROP (R137). -/
def execDrop (form : Byte) (value : BitVec 32) (s : State) : Host.Outcome State Fault Refusal :=
  s.run (Zs32.writeCommand (dropBytes form value))

/-- CONFIGURE (R157, R158). -/
def execConfigure (station interval chime b0 b1 b2 b3 : Byte) (mask : BitVec 16) (s : State) : Host.Outcome State Fault Refusal :=
  s.run (Zs32.writeCommand (configureBytes station interval chime b0 b1 b2 b3 mask))

/-- STATION_STATUS (R160). -/
def execStationStatus (s : State) : Host.Outcome State Fault Refusal :=
  s.run (Zs32.writeCommand [0x40])

/-- ZONE_STATUS (R161). -/
def execZoneStatus (zone : Byte) (s : State) : Host.Outcome State Fault Refusal :=
  s.run (Zs32.writeCommand [0x41, zone])

/-- CHANNEL_TABLE (R162). -/
def execChannelTable (s : State) : Host.Outcome State Fault Refusal :=
  s.run (Zs32.writeCommand [0x42])

/-- ROSTER (R163). -/
def execRoster (s : State) : Host.Outcome State Fault Refusal :=
  s.run (Zs32.writeCommand [0x43])

/-- PROBE_ZONES (R164 to R166). -/
def execProbeZones (condition p first last step : Byte) (s : State) : Host.Outcome State Fault Refusal :=
  s.run (Zs32.writeCommand [0x44, condition, p, first, last, step])

/-- SENSE (R172). -/
def execSense (s : State) : Host.Outcome State Fault Refusal :=
  s.run (Zs32.writeCommand [0x48])

/-- ABORT, written while a line command is in execution (R144 to R147). -/
def execAbort (s : State) : Host.Outcome State Fault Refusal :=
  s.run (Zs32.writeCommand [abortCode])

/-- NO_COMMAND: the ABORT code written in READY (R153). -/
def execNoCommand (s : State) : Host.Outcome State Fault Refusal :=
  s.run (Zs32.writeCommand [abortCode])

/-- INVALID: a code that names no command (R153). -/
def execInvalid (code : Byte) (s : State) : Host.Outcome State Fault Refusal :=
  s.run (Zs32.writeCommand [code])

end Sys2Proof.Machine
end

