-- ==== Sys2Proof/Machine/LineRows.lean ====
section
/-! DEFINITION. The meanings of the rows of the control pair. -/

namespace Sys2Proof.Machine

/-- IDLE_GAP (R2). -/
def execIdleGap (bits : Nat) (s : State) : Host.Outcome State Fault Refusal :=
  s.run (Zs32.recessiveBits bits)

/-- ATTEMPT_BEGIN (R12 to R22). -/
def execAttemptBegin (s : State) : Host.Outcome State Fault Refusal :=
  s.run Zs32.attemptBegin

/-- ARBITRATION_END (R23, R145). -/
def execArbitrationEnd (rivals : List (BitVec 7)) (s : State) : Host.Outcome State Fault Refusal :=
  s.run (Zs32.arbitrationEnd rivals)

/-- CLASH_READ_BACK (R24, R184). -/
def execClashReadBack (s : State) : Host.Outcome State Fault Refusal :=
  s.run Zs32.clashReadBack

/-- FRAME_RECEIVED (R25, R176). -/
def execFrameReceived (bits : List Bool) (s : State) : Host.Outcome State Fault Refusal :=
  s.run (Zs32.frameReceived bits)

/-- VETO_SLOT_END (R26 to R29). -/
def execVetoSlotEnd (peerHeard peerVeto : Bool) (s : State) : Host.Outcome State Fault Refusal :=
  s.run (Zs32.vetoSlotEnd peerHeard peerVeto)

/-- VETO_LIMIT (R178): the end of a veto slot that this station vetoes itself (log entry 7). -/
def execVetoLimit (s : State) : Host.Outcome State Fault Refusal :=
  s.run (Zs32.vetoSlotEnd false true)

/-- EIGHTH_FAILED_ATTEMPT (R180): the end of the veto slot of the eighth attempt (log entry 7). -/
def execEighthFailedAttempt (peerHeard peerVeto : Bool) (s : State) : Host.Outcome State Fault Refusal :=
  s.run (Zs32.vetoSlotEnd peerHeard peerVeto)

/-- START_BIT (R2). -/
def execStartBit (s : State) : Host.Outcome State Fault Refusal :=
  s.run Zs32.dominantBit

/-- DOMINANT_BIT_DURING_GAP (R2). -/
def execDominantBitDuringGap (s : State) : Host.Outcome State Fault Refusal :=
  s.run Zs32.dominantInGap

end Sys2Proof.Machine
end

