-- ==== Sys2Proof/Machine/TimerRows.lean ====
section
/-! DEFINITION. The meanings of the rows of the timers and of the audio frame. -/

namespace Sys2Proof.Machine

/-- PRESENCE_TIMER_EXPIRY (R46). -/
def execPresenceTimerExpiry (s : State) : Host.Outcome State Fault Refusal :=
  s.run Zs32.presenceTimerExpiry

/-- PRESENCE_AGING (R47). -/
def execPresenceAging (s : State) : Host.Outcome State Fault Refusal :=
  s.run Zs32.presenceAging

/-- SILENCE_TIMER_EXPIRY (R50). -/
def execSilenceTimerExpiry (peer : StationNo) (s : State) : Host.Outcome State Fault Refusal :=
  s.run (Zs32.silenceTimerExpiry peer)

/-- JOIN_WINDOW_EXPIRY (R53). -/
def execJoinWindowExpiry (s : State) : Host.Outcome State Fault Refusal :=
  s.run Zs32.joinWindowExpiry

/-- OPEN_GUARD_EXPIRY (R64). -/
def execOpenGuardExpiry (channel : Channel) (s : State) : Host.Outcome State Fault Refusal :=
  s.run (Zs32.openGuardExpiry channel)

/-- DRAIN_GUARD_EXPIRY (R65). -/
def execDrainGuardExpiry (channel : Channel) (s : State) : Host.Outcome State Fault Refusal :=
  s.run (Zs32.drainGuardExpiry channel)

/-- DURATION_TIMER_EXPIRY (R79). -/
def execDurationTimerExpiry (input : Input) (s : State) : Host.Outcome State Fault Refusal :=
  s.run (Zs32.durationTimerExpiry input)

/-- CHIME_TIMER_EXPIRY (R115). -/
def execChimeTimerExpiry (output : Fin 4) (s : State) : Host.Outcome State Fault Refusal :=
  s.run (Zs32.chimeTimerExpiry output)

/-- AUDIO_FRAME (R72, R119). -/
def execAudioFrame (peerMarks : Bool) (slots : Vector Sample 16) (inA inB : Sample) (s : State) : Host.Outcome State Fault Refusal :=
  s.run (Zs32.audioFrame peerMarks slots inA inB)

end Sys2Proof.Machine
end

