-- ==== Sys2Proof/Machine/Dispatch.lean ====
section
/-! DEFINITION. The dispatch: one arm for each command, each a call of its meaning. -/

namespace Sys2Proof.Machine

/-- The effect of a command on the station; the queue of waiting commands is untouched. -/
def exec (i : Instr) (s : State) : Host.Outcome State Fault Refusal :=
  match i with
  | .pinReset lowNs => Sys2Proof.Machine.execPinReset lowNs s
  | .resetRelease => Sys2Proof.Machine.execResetRelease s
  | .transactionBegin header early => Sys2Proof.Machine.execTransactionBegin header early s
  | .transactionEnd => Sys2Proof.Machine.execTransactionEnd s
  | .writtenByte b => Sys2Proof.Machine.execWrittenByte b s
  | .readByte => Sys2Proof.Machine.execReadByte s
  | .joinCmd => Sys2Proof.Machine.execJoin s
  | .leaveCmd => Sys2Proof.Machine.execLeave s
  | .openCmd channel input length => Sys2Proof.Machine.execOpen channel input length s
  | .closeCmd channel => Sys2Proof.Machine.execClose channel s
  | .claimCmd channel priority duck chime zones => Sys2Proof.Machine.execClaim channel priority duck chime zones s
  | .dropCmd form value => Sys2Proof.Machine.execDrop form value s
  | .configure station interval chime b0 b1 b2 b3 mask => Sys2Proof.Machine.execConfigure station interval chime b0 b1 b2 b3 mask s
  | .stationStatus => Sys2Proof.Machine.execStationStatus s
  | .zoneStatus zone => Sys2Proof.Machine.execZoneStatus zone s
  | .channelTable => Sys2Proof.Machine.execChannelTable s
  | .roster => Sys2Proof.Machine.execRoster s
  | .probeZones condition p first last step => Sys2Proof.Machine.execProbeZones condition p first last step s
  | .sense => Sys2Proof.Machine.execSense s
  | .abort => Sys2Proof.Machine.execAbort s
  | .noCommand => Sys2Proof.Machine.execNoCommand s
  | .invalid code => Sys2Proof.Machine.execInvalid code s
  | .idleGap bits => Sys2Proof.Machine.execIdleGap bits s
  | .attemptBegin => Sys2Proof.Machine.execAttemptBegin s
  | .arbitrationEnd rivals => Sys2Proof.Machine.execArbitrationEnd rivals s
  | .clashReadBack => Sys2Proof.Machine.execClashReadBack s
  | .frameReceived bits => Sys2Proof.Machine.execFrameReceived bits s
  | .vetoSlotEnd peerHeard peerVeto => Sys2Proof.Machine.execVetoSlotEnd peerHeard peerVeto s
  | .vetoLimit => Sys2Proof.Machine.execVetoLimit s
  | .eighthFailedAttempt peerHeard peerVeto => Sys2Proof.Machine.execEighthFailedAttempt peerHeard peerVeto s
  | .hello => Sys2Proof.Machine.execHello s
  | .bye => Sys2Proof.Machine.execBye s
  | .presence => Sys2Proof.Machine.execPresence s
  | .evict => Sys2Proof.Machine.execEvict s
  | .openFrame => Sys2Proof.Machine.execOpenFrame s
  | .restateOpen => Sys2Proof.Machine.execRestateOpen s
  | .closeFrame => Sys2Proof.Machine.execCloseFrame s
  | .claimFrame => Sys2Proof.Machine.execClaimFrame s
  | .restateClaim => Sys2Proof.Machine.execRestateClaim s
  | .dropFrame => Sys2Proof.Machine.execDropFrame s
  | .presenceTimerExpiry => Sys2Proof.Machine.execPresenceTimerExpiry s
  | .presenceAging => Sys2Proof.Machine.execPresenceAging s
  | .silenceTimerExpiry peer => Sys2Proof.Machine.execSilenceTimerExpiry peer s
  | .joinWindowExpiry => Sys2Proof.Machine.execJoinWindowExpiry s
  | .openGuardExpiry channel => Sys2Proof.Machine.execOpenGuardExpiry channel s
  | .drainGuardExpiry channel => Sys2Proof.Machine.execDrainGuardExpiry channel s
  | .durationTimerExpiry input => Sys2Proof.Machine.execDurationTimerExpiry input s
  | .chimeTimerExpiry output => Sys2Proof.Machine.execChimeTimerExpiry output s
  | .audioFrame peerMarks slots inA inB => Sys2Proof.Machine.execAudioFrame peerMarks slots inA inB s
  | .startBit => Sys2Proof.Machine.execStartBit s
  | .dominantBitDuringGap => Sys2Proof.Machine.execDominantBitDuringGap s

end Sys2Proof.Machine
end

