-- ==== Sys2Proof/Safety.lean ====
section
/-! DEFINITION. The invariants of the station: what the manual says holds in every state a run reaches. -/

namespace Sys2Proof.Machine

/-! ### The shared tables -/

/-- The digest is that of the channel owners and the claim lists (R106, R107). -/
def ClaimTable.DigestCurrent (t : ClaimTable) : Prop := t.digest = digestOf t.channels t.zones

/-- A claim list in order, with at most six claims, at most one from any station (R86). -/
def ClaimListOk (l : List Claim) : Prop :=
  l.length ≤ listCapacity ∧
    l.Pairwise (fun a b => b.priority < a.priority ∨ (a.priority = b.priority ∧ a.station < b.station)) ∧
    (l.map Claim.station).Nodup

/-- Every claim list is in order (R86). -/
def ClaimTable.ListsOk (t : ClaimTable) : Prop := ∀ k : Zone, ClaimListOk t.zones[k]

/-- A channel record as R60 describes it: an owner exactly in OPENING and LIVE, each guard in its phase, a timed length
only with an owner. -/
def ChannelRec.Ok (r : ChannelRec) : Prop :=
  match r.phase with
  | .free => r.owner = none ∧ r.length = none ∧ r.guard = .stopped
  | .opening => r.owner.isSome ∧ ∃ ms, r.guard = .openGuard ms
  | .live => r.owner.isSome ∧ r.guard = .stopped
  | .draining => r.owner = none ∧ r.length = none ∧ ∃ ms, r.guard = .drainGuard ms

/-- Every channel record is as R60 describes it. -/
def ClaimTable.ChannelsOk (t : ClaimTable) : Prop := ∀ c : Channel, t.channels[c].Ok

/-- Every claim names a channel whose owner is the claim's station (R68). -/
def ClaimTable.ClaimsOwned (t : ClaimTable) : Prop :=
  ∀ k : Zone, ∀ cl ∈ t.zones[k], t.channels[cl.channel].owner = some cl.station

/-! ### The notice log -/

/-- The notice log as R170 and R171 describe it: at most sixteen records with at most one GAP, a gap count of at most
255, and a log that is full or holds a GAP while the count is not 0. -/
def NoticeLog.Ok (l : NoticeLog) : Prop :=
  l.records.length ≤ logCapacity ∧ (l.records.filter Notice.isGap).length ≤ 1 ∧ l.gap ≤ 255 ∧
    (l.gap ≠ 0 → l.records.length = logCapacity ∨ l.records.any Notice.isGap = true)

/-! ### The host port -/

/-- The host port as R148 describes it: a partial command exactly in COMMAND, a command in execution exactly in
EXECUTING, a result with unread bytes exactly in RESULT, the first-byte mark once a byte of it was read. -/
def Port.Ok (p : Port) : Prop :=
  match p.phase with
  | .ready => p.cmdBuf = [] ∧ p.resBuf = [] ∧ p.readPos = 0 ∧ p.firstByte = false ∧ p.cmd = none
  | .command =>
    (∃ code params, p.cmdBuf = code :: params ∧ params.length + 1 < commandLength code) ∧ p.resBuf = [] ∧
      p.readPos = 0 ∧ p.firstByte = false ∧ p.cmd = none
  | .executing => p.cmdBuf = [] ∧ p.resBuf = [] ∧ p.readPos = 0 ∧ p.firstByte = false ∧ p.cmd.isSome
  | .result =>
    p.cmdBuf = [] ∧ p.readPos < p.resBuf.length ∧ p.firstByte = decide (p.readPos ≠ 0) ∧ p.cmd = none

/-! ### The station off the line and the queues -/

/-- A station off the line: receiver OFF, tables, roster and queues empty, timers stopped, inputs free, outputs SILENT
(R32, R186), and no command in execution. -/
def Zs32.Quiet (z : Zs32) : Prop :=
  z.line.receiver = .off ∧ z.line.outq = [] ∧ z.line.inq = [] ∧ z.line.attempt = none ∧ z.line.reception = none ∧
    z.line.halt = false ∧ z.memb = Membership.clearedIn z.memb.state ∧ z.source = Source.cleared ∧
    (∀ c : Channel, z.table.channels[c] = ChannelRec.cleared) ∧ (∀ k : Zone, z.table.zones[k] = []) ∧
    (∀ o : Fin 4, z.mixer.outputs[o].state = .silent ∧ z.mixer.outputs[o].chime = .stopped) ∧ z.port.cmd = none

/-- The bounds of R1 and R10; an attempt runs only while the inbound queue is empty (R12), and never beside a
reception, which stands only while its frame is in its slots (R25). -/
def Zs32.QueuesOk (z : Zs32) : Prop :=
  z.line.outq.length ≤ outCapacity ∧ z.line.inq.length ≤ inCapacity ∧ z.line.fails < attemptLimit ∧
    z.line.vetoCount < vetoLimitCount ∧
    (z.line.attempt.isSome → z.line.inq = [] ∧ z.line.reception = none) ∧
    (z.line.reception.isSome → z.line.receiver = .slots)

/-- The line side of the station: quiet off the line, bounded queues always. -/
def Zs32.LineOk (z : Zs32) : Prop := (z.onLine = false → z.Quiet) ∧ z.QueuesOk

/-! ### The roster -/

/-- The roster in ascending order of station numbers 1 to 31, this station's own number absent (R37). -/
def Zs32.RosterOk (z : Zs32) : Prop :=
  z.memb.roster.Pairwise (fun a b => a.station < b.station) ∧
    ∀ e ∈ z.memb.roster, e.station ≠ 0 ∧ e.station ≠ z.me

/-- Every peer's frame in the inbound queue or in its slots has a sender 1 to 31 (R176). -/
def Zs32.SendersOk (z : Zs32) : Prop :=
  (∀ f ∈ z.line.inq, f.mark = none → f.frame.sender ≠ 0) ∧
    ∀ f, z.line.reception = some (.good f) → f.sender ≠ 0

/-- The membership side of the station: no peers off the line (R32), the roster in order (R37), senders with a
number. -/
def Zs32.PeersOk (z : Zs32) : Prop := (z.onLine = false → z.memb.roster = []) ∧ z.RosterOk ∧ z.SendersOk

/-! ### What statements about commands assume -/

/-- Pin reset does not hold the station (R200). -/
abbrev State.Awake (s : State) : Prop := s.zs.rst.held = false

/-- The host can write a whole command: a WRITE transaction is in progress and the port is READY (R151). -/
abbrev State.CanWrite (s : State) : Prop :=
  s.Awake ∧ s.zs.port.transaction = .write ∧ s.zs.port.phase = .ready

/-- The head of the inbound queue of a station on the line is the frame f, with `rest` behind it (R10, R11). -/
abbrev State.Processes (s : State) (f : InFrame) (rest : List InFrame) : Prop :=
  s.Awake ∧ s.zs.onLine = true ∧ s.zs.line.inq = f :: rest

/-- A peer of the roster sent the frame, under a number that is not this station's (R39, fourth row). -/
abbrev State.FromPeer (s : State) (f : InFrame) : Prop :=
  f.mark = none ∧ f.frame.sender ≠ s.zs.me ∧ s.zs.knows f.frame.sender = true

/-- Nobody holds a request for a free slot of the outbound queue (R7). -/
abbrev Zs32.NothingHeld (z : Zs32) : Prop :=
  z.memb.presenceHeld = false ∧ z.memb.evictHeld = [] ∧ z.source.inA.request ≠ .held ∧
    z.source.inB.request ≠ .held ∧ z.memb.restateRun = false

/-! ### What statements about commands conclude -/

/-- The port with a result just formed at the byte that completed a command (R154). -/
def Port.withResult (p : Port) (bytes : List Byte) : Port :=
  { p with phase := .result, cmdBuf := [], resBuf := bytes, readPos := 0, firstByte := false, cmd := none,
           sdo := some 0 }

/-- The command is answered at its taking with a result, and nothing else changes (R124, R154). -/
def State.answers (s : State) (bytes : List Byte) : State :=
  { s with zs := { s.zs with port := s.zs.port.withResult bytes } }

/-- The port with a line command in execution (R122). -/
def Port.withCommand (p : Port) (cmd : LineCommand) (st : Stage) : Port :=
  { p with phase := .executing, cmdBuf := [], cmd := some { command := cmd, stage := st, heldAbort := false },
           sdo := some 0 }

/-- The entry of a frame placed at a given time (R5). -/
def entryOf (p : Placed) (o : Origin) (now : Nat) : OutEntry :=
  { placed := p, origin := o, placedAt := now, aged := false }

/-- A line command is taken: its frame stands at the tail of the outbound queue and it is in execution in QUEUED
(R6, R124); nothing else changes. -/
def State.taken (s : State) (cmd : LineCommand) (p : Placed) : State :=
  { s with zs := { s.zs with
      line := { s.zs.line with outq := s.zs.line.outq ++ [entryOf p .host s.zs.clock] }
      port := s.zs.port.withCommand cmd .queued } }

/-- The command in execution ended with a result, or the port is as before where there was none (R139). -/
def EndedWith (before after : Port) (bytes : List Byte) : Prop :=
  if before.cmd.isSome then
    after = { before with phase := .result, cmdBuf := [], resBuf := bytes, readPos := 0, firstByte := false,
                          cmd := none }
  else after = before

/-- Everything table clear does but for the outbound queue and the station state (R59): of an output the binding and
the sample emitted last stay (R109), and its position in the chime tone, which only CHIME uses, is left open. -/
def TableCleared (z z' : Zs32) : Prop :=
  z'.table = ClaimTable.cleared ∧ z'.memb = Membership.clearedIn z'.memb.state ∧ z'.line.inq = [] ∧
    z'.line.fails = 0 ∧ z'.line.vetoSeen = false ∧ z'.line.vetoCount = 0 ∧ z'.line.halt = false ∧
    z'.source = Source.cleared ∧
    (∀ o : Fin 4, z'.mixer.outputs[o] = { z.mixer.outputs[o] with
      state := .silent, chime := .stopped, fg := none, duck := none, bg := none
      tonePos := z'.mixer.outputs[o].tonePos }) ∧
    z'.setup = z.setup ∧ z'.clock = z.clock ∧ z'.rst = z.rst ∧ z'.audio = z.audio

/-- A rejoin was made with a notice (R34). -/
def RejoinedWith (z z' : Zs32) (n : Notice) : Prop :=
  TableCleared z z' ∧ z'.memb.state = .listening ∧ z'.line.outq = [entryOf .hello .membership z.clock] ∧
    z'.notices = z.notices.log n

/-- The station left the line for a state, logging nothing (R2, R32, R59). -/
def WentOff (z z' : Zs32) (st : StationState) : Prop :=
  TableCleared z z' ∧ z'.memb.state = st ∧ z'.line.outq = [] ∧ z'.line.receiver = .off ∧
    z'.line.attempt = none ∧ z'.line.reception = none

/-- The membership unit after a frame of peer x, which restarts x's silence timer in JOINED (R39, R49). -/
def Membership.heardFrom (m : Membership) (x : StationNo) : Membership :=
  if m.state = .joined then
    { m with roster := m.roster.map fun e =>
        if e.station = x then { e with silence := .running (e.interval.elim 3000 fun i => 30 * i.val) } else e }
  else m

/-- The frame f from a peer was processed with a new claim table and new notices; of the rest only the inbound queue
and the peer's silence timer changed, and the outputs. -/
def ProcessedWith (z z' : Zs32) (f : InFrame) (rest : List InFrame) : Prop :=
  z'.rst = z.rst ∧ z'.clock = z.clock ∧ z'.setup = z.setup ∧ z'.audio = z.audio ∧ z'.port = z.port ∧
    z'.source = z.source ∧ z'.line = { z.line with inq := rest } ∧ z'.memb = z.memb.heardFrom f.frame.sender

/-- Station x was purged: its channels DRAINING without an owner, its claims and the claims on its channels gone,
everything else of the tables as it was (R68, R69, R96). -/
def PurgedOf (t t' : ClaimTable) (x : StationNo) : Prop :=
  (∀ c : Channel, t'.channels[c] =
    if t.channels[c].owner = some x then
      { owner := none, length := none, phase := .draining, guard := .drainGuard 12 }
    else t.channels[c]) ∧
  (∀ k : Zone, t'.zones[k] = t.zones[k].filter fun cl =>
    decide (t.channels[cl.channel].owner ≠ some x) && decide (cl.station ≠ x))

/-! ### The grants of free slots (R7) -/

/-- The entries of the requests held for a slot, in the order of R7: the PRESENCE, the EVICTs, the automatic CLOSE of
input A and that of input B. -/
def Zs32.heldEntries (z : Zs32) : List OutEntry :=
  (if z.memb.presenceHeld then [entryOf .presence .membership z.clock] else []) ++
    z.memb.evictHeld.map (fun x => entryOf (.evict x) .membership z.clock) ++
    [Input.a, Input.b].filterMap fun i =>
      if (z.source.get i).request = .held then
        ((z.source.get i).bound.or (z.source.get i).starting).map fun c =>
          entryOf (.close c true) (.source i) z.clock
      else none

/-- The restate OPENs from channel c on: one for each own channel in ascending order, with the input bound to it and
the time that remains (R56). -/
def Zs32.openRestates (z : Zs32) (c : Nat) : List OutEntry :=
  (List.finRange 16).filterMap fun k =>
    let i : Input := if z.source.inA.bound ≠ some k ∧ z.source.inB.bound = some k then .b else .a
    let left : Option TimedLength := match (z.source.get i).timer with
      | .stopped => none
      | .running ms => some (BitVec.ofNat 16 (max 1 ((ms + 99) / 100)))
      | .expired => some 1
    if c ≤ k.val ∧ z.table.channels[k].owner = some z.me then
      some (entryOf (.openCh (some k) i left true) .membership z.clock)
    else none

/-- The restate CLAIMs from zone p on: one for each tuple of own claims, in ascending order of its lowest zone, with
the zones where the tuple is held (R56). -/
def Zs32.claimRestates (z : Zs32) (p : Nat) : List OutEntry :=
  let own : Zone → Option Claim := fun k => z.table.zones[k].find? fun cl => cl.station = z.me
  (List.finRange 32).filterMap fun k =>
    if p ≤ k.val ∧ ∀ j : Zone, j < k → own j ≠ own k then
      (own k).map fun cl =>
        entryOf (.claim cl.channel cl.priority cl.duck cl.chime (zonesWhere fun j => own j = some cl) true)
          .membership z.clock
    else none

/-- What the restate generator still has to send from a cursor on (R56). -/
def Zs32.restatesFrom (z : Zs32) : RestateCursor → List OutEntry
  | .openStep c => z.openRestates c ++ z.claimRestates 0
  | .claimStep p => z.claimRestates p

/-- Everything that waits for a free slot, in the order of R7. -/
def Zs32.waiting (z : Zs32) : List OutEntry :=
  z.heldEntries ++ if z.memb.restateRun then z.restatesFrom z.memb.cursor else []

/-- The free slots of a queue were handed in z' to what waits in z, in the order of R7, and what was granted is no
longer held; the restate generator stops once its sequence is done and a slot is left (R7, R46, R50, R57, R58, R80).
-/
def GrantedTo (z z' : Zs32) (queue : List OutEntry) : Prop :=
  let room := 8 - queue.length
  let evicts := room - if z.memb.presenceHeld then 1 else 0
  z'.line.outq = queue ++ z.waiting.take room ∧
    z'.memb.presenceHeld = (z.memb.presenceHeld && decide (room = 0)) ∧
    z'.memb.presenceQueued = (z.memb.presenceQueued || (z.memb.presenceHeld && decide (room ≠ 0))) ∧
    z'.memb.evictHeld = z.memb.evictHeld.drop evicts ∧
    (∀ x, x ∈ z'.memb.evictQueued ↔ x ∈ z.memb.evictQueued ∨ x ∈ z.memb.evictHeld.take evicts) ∧
    (∀ i, z'.source.get i = { z.source.get i with
      request := if ∃ e ∈ z.waiting.take room, e.origin = .source i then .queued
        else (z.source.get i).request }) ∧
    (z'.memb.restateRun = true ↔ z.memb.restateRun = true ∧ room ≤ z.waiting.length) ∧
    (z'.memb.restateRun = true →
      z'.restatesFrom z'.memb.cursor = (z.restatesFrom z.memb.cursor).drop (room - z.heldEntries.length)) ∧
    (z.memb.restateRun = true → z'.memb.restateRun = false → z'.memb.cursor = .openStep 0) ∧
    (z.memb.restateRun = false → z'.memb.cursor = z.memb.cursor)

/-- What a grant leaves alone: everything but the outbound queue, the marks and sets of held and queued requests, the
inputs' requests and the generator (R7). -/
def GrantFrame (z z' : Zs32) : Prop :=
  z'.rst = z.rst ∧ z'.clock = z.clock ∧ z'.setup = z.setup ∧ z'.table = z.table ∧ z'.mixer = z.mixer ∧
    z'.audio = z.audio ∧ z'.port = z.port ∧ z'.notices = z.notices ∧
    z'.line = { z.line with outq := z'.line.outq } ∧
    z'.memb = { z.memb with
      presenceQueued := z'.memb.presenceQueued, presenceHeld := z'.memb.presenceHeld
      evictQueued := z'.memb.evictQueued, evictHeld := z'.memb.evictHeld
      restateRun := z'.memb.restateRun, cursor := z'.memb.cursor } ∧
    z'.source.inA = { z.source.inA with request := z'.source.inA.request } ∧
    z'.source.inB = { z.source.inB with request := z'.source.inB.request }

/-! ### Requests asked for (R50, R79) -/

/-- The automatic CLOSE of input i for channel c was asked for: placed at the tail where a slot is free, and held
otherwise (R79). -/
def AutoCloseAsked (u z' : Zs32) (i : Input) (c : Channel) : Prop :=
  (u.line.outq.length < 8 → z' = { u with
    line := { u.line with outq := u.line.outq ++ [entryOf (.close c true) (.source i) u.clock] }
    source := u.source.set i { u.source.get i with request := .queued } }) ∧
  (8 ≤ u.line.outq.length → z' = { u with
    source := u.source.set i { u.source.get i with request := .held } })

/-- An EVICT targeting x was asked for: placed at the tail where a slot is free, and held otherwise, with x in the
eviction set (R50). -/
def EvictAsked (u z' : Zs32) (x : StationNo) : Prop :=
  (u.line.outq.length < 8 →
    z' = { u with
      line := { u.line with outq := u.line.outq ++ [entryOf (.evict x) .membership u.clock] }
      memb := { u.memb with evictQueued := z'.memb.evictQueued } } ∧
    ∀ y, y ∈ z'.memb.evictQueued ↔ y = x ∨ y ∈ u.memb.evictQueued) ∧
  (8 ≤ u.line.outq.length →
    z' = { u with memb := { u.memb with evictHeld := z'.memb.evictHeld } } ∧
    ∀ y, y ∈ z'.memb.evictHeld ↔ y = x ∨ y ∈ u.memb.evictHeld)

/-! ### The eighth failed attempt (R28, R180) -/

/-- The station whose frame at the head is removed at its eighth failed attempt, before the freed slot is granted: the
frame is over, the attempt record is set for the next head, and the mark of the block that asked for the frame is gone
(R2, R8, R28, R48, R51, R81). -/
def Zs32.withoutFailedHead (z : Zs32) (a : Attempt) : Zs32 :=
  { z with
    line := { z.line with
      outq := z.line.outq.tail, fails := 0, vetoSeen := false, receiver := .gap, gapBits := 0, attempt := none
      reception := none }
    memb := match a.frame.body with
      | .presence _ _ => { z.memb with presenceQueued := false }
      | .evict x => { z.memb with evictQueued := z.memb.evictQueued.filter fun y => y ≠ x }
      | _ => z.memb
    source := match a.frame.body, a.origin with
      | .close _ _, .source i => z.source.set i { z.source.get i with request := .none }
      | _, _ => z.source }

/-- The failed frame left the queue, and the slots free then were handed on (R7, R180). -/
def FailedHeadGone (z u : Zs32) (a : Attempt) : Prop :=
  GrantFrame (z.withoutFailedHead a) u ∧ GrantedTo (z.withoutFailedHead a) u z.line.outq.tail

/-! ### ABORT (R144, R147, R84) -/

/-- The outbound queue without the entry of the command in execution; where that was the head, the attempt record is
set for the next head (R8, R144). -/
def Zs32.withoutHostEntry (z : Zs32) : Zs32 :=
  let wasHead := z.line.outq.head?.any (·.origin = .host)
  { z with line := { z.line with
      outq := z.line.outq.filter fun x => x.origin ≠ .host
      fails := if wasHead then 0 else z.line.fails
      vetoSeen := if wasHead then false else z.line.vetoSeen } }

/-- The entry of the command in execution left the queue, and the slots free then were handed on (R7, R144). -/
def HostEntryGone (z u : Zs32) : Prop :=
  GrantFrame z.withoutHostEntry u ∧ GrantedTo z.withoutHostEntry u z.withoutHostEntry.line.outq

/-- An ABORT of a command in QUEUED was taken, whatever the port holds afterwards. Its entry is gone and the free slots
are handed on. After a CLOSE whose timed channel has run out the automatic CLOSE is then asked for (R84); a JOIN goes
back to OFFLINE and a LEAVE makes a rejoin, both through table clear and without a notice (R147). -/
def AbortTaken (z z' : Zs32) (cmd : LineCommand) : Prop :=
  ((∀ c, cmd ≠ .close c) → cmd ≠ .join → cmd ≠ .leave → ∃ u, HostEntryGone z u ∧ z' = { u with port := z'.port }) ∧
  (∀ c, cmd = .close c → ∃ u, HostEntryGone z u ∧
    (∀ i, z.source.inputOf c = some i → (z.source.get i).pending = true →
      AutoCloseAsked { u with port := z'.port } z' i c) ∧
    ((∀ i, z.source.inputOf c = some i → (z.source.get i).pending = false) → z' = { u with port := z'.port })) ∧
  (cmd = .join → WentOff z z' .offline ∧ z'.notices = z.notices) ∧
  (cmd = .leave → TableCleared z z' ∧ z'.memb.state = .listening ∧
    z'.line.outq = [entryOf .hello .membership z.clock] ∧ z'.line.receiver = z.line.receiver ∧
    z'.notices = z.notices)

/-! ### The comparison at the end of a processing (R97 to R105) -/

/-- The notices of the comparison of the claim lists of z with those of z', in ascending order of zone (R98 to R105).
-/
def comparedNotices (x : CompareContext) (z z' : Zs32) : List Notice :=
  (List.finRange 32).flatMap fun k =>
    zoneChangeNotice x k (decide (∃ o : Fin 4, z.mixer.outputs[o].zone = some k)) z.table.zones[k].head?
        z'.table.zones[k].head? ++
      leadNotice x k (recordOf z.me z.table.zones[k]) (recordOf z.me z'.table.zones[k]) z.table.leads[k]

/-- The notice log after several notices in order. -/
def loggedAll (l : NoticeLog) (ns : List Notice) : NoticeLog := ns.foldl NoticeLog.log l

/-- Every output bound to a zone was told that zone's foreground and background in the lists of z' (R98); the others
are as before. -/
def OutputsTold (z z' : Zs32) : Prop :=
  ∀ o : Fin 4, z'.mixer.outputs[o] = match z.mixer.outputs[o].zone with
    | none => z.mixer.outputs[o]
    | some k =>
      (z.mixer.outputs[o].tellForeground z.table.zones[k].head? z'.table.zones[k].head?
          (fun c => decide (z'.table.channels[c].phase = .live)) (z.setup.elim 0 fun s => 50 * s.chime)).tellBackground
        (z.table.zones[k][1]?.map Claim.ident) (z'.table.zones[k][1]?.map Claim.ident)

/-- The lead marks follow the comparison of the lists of z with those of z' (R102 to R105), and the comparison record
is discarded (R97). -/
def LeadsCompared (x : CompareContext) (z z' : Zs32) : Prop :=
  (∀ k : Zone, z'.table.leads[k] = leadAfter x k (recordOf z.me z.table.zones[k]) (recordOf z.me z'.table.zones[k])
    z.table.leads[k]) ∧
    z'.table.comparison = none

/-- The membership unit once the entry of peer x is removed: a held EVICT request for x is cancelled, a queued one
stays, and a disagreement record that names x is cleared (R38, R190). -/
def Membership.without (m : Membership) (x : StationNo) : Membership :=
  { m with roster := m.roster.filter fun e => e.station ≠ x
           evictHeld := m.evictHeld.filter fun y => y ≠ x
           disagreement := match m.disagreement with
             | none => none
             | some (y, d) => if y = x then none else some (y, d) }

/-- A processing that displaces and places nothing ended with its comparison: outputs told, lead marks updated. -/
def Compared (cause : ZoneCause) (z z' : Zs32) : Prop :=
  OutputsTold z z' ∧ LeadsCompared (CompareContext.plain cause) z z'

/-- Peer x was purged and PEER_LOST logged after the notices of the comparison, whose cause is PURGED (R38, R69, R96 to
R105, R107). -/
def PurgedAndLost (z z' : Zs32) (x : StationNo) (reason : LostReason) (log : NoticeLog) : Prop :=
  PurgedOf z.table z'.table x ∧ z'.table.digest = digestOf z'.table.channels z'.table.zones ∧
    Compared .purged z z' ∧
    log = (loggedAll z.notices (comparedNotices (CompareContext.plain .purged) z z')).log (.peerLost x reason)

/-- The frame at the head, with `rest` behind it, removed the entry of peer x from the membership unit m and did
nothing more (R38). -/
def PeerRemoved (z z' : Zs32) (m : Membership) (x : StationNo) (reason : LostReason) (rest : List InFrame) : Prop :=
  PurgedAndLost z z' x reason z'.notices ∧
    z' = { z with
      line := { z.line with inq := rest }, memb := m.without x
      table := z'.table, mixer := z'.mixer, notices := z'.notices }

/-- The own CLAIM cl was taken in the zones of its set: the lists and the lead marks follow the outcomes, the outputs and
the notices the comparison, in which its zones log no lead-mark notice (R90, R92, R97 to R102, R107). -/
def OwnClaimTaken (z z' : Zs32) (cl : Claim) (zones : ZoneSet) (rest : List InFrame) : Prop :=
  z' = { z with
    line := { z.line with inq := rest }
    table := z'.table, mixer := z'.mixer, notices := z'.notices, port := z'.port } ∧
  z'.table.channels = z.table.channels ∧
  (∀ k : Zone, zones.getLsbD k.val = false →
    z'.table.zones[k] = z.table.zones[k] ∧ z'.table.leads[k] = z.table.leads[k]) ∧
  (∀ k : Zone, zones.getLsbD k.val = true →
    z'.table.zones[k] = (applyClaim cl z.table.zones[k]).list ∧
    z'.table.leads[k] = match (applyClaim cl z.table.zones[k]).outcome with
      | .lead => true
      | .below => false
      | .replaced => false
      | .unchanged => z.table.leads[k]
      | .full => false) ∧
  z'.table.digest = digestOf z'.table.channels z'.table.zones ∧ z'.table.comparison = none ∧ OutputsTold z z' ∧
  ∃ displaced : ZoneSet,
    (∀ k : Zone, displaced.getLsbD k.val = (zones.getLsbD k.val && (applyClaim cl z.table.zones[k]).displaced)) ∧
    z'.notices = loggedAll z.notices
      (comparedNotices { cause := .claimed, displaced := displaced, placed := zones, by_ := some cl } z z')

/-- The row that processes a frame (R11). -/
def FrameBody.row : FrameBody → Instr
  | .hello => .hello
  | .bye => .bye
  | .evict _ => .evict
  | .close _ _ => .closeFrame
  | .drop _ => .dropFrame
  | .openCh _ _ _ restate => if restate then .restateOpen else .openFrame
  | .claim _ _ _ _ _ restate => if restate then .restateClaim else .claimFrame
  | .presence _ _ => .presence

/-- A zone with list l is a hit of a probe for station `me` (R165). -/
def ZoneHit (condition : ProbeCondition) (p : Priority) (me : StationNo) (l : List Claim) : Prop :=
  let f : Nat := match l with
    | [] => 0
    | top :: _ => top.priority.val
  match condition with
  | .equal => f = p.val
  | .atMost => f ≤ p.val
  | .atLeast => p.val ≤ f
  | .wouldLead =>
    match l with
    | [] => True
    | top :: _ =>
      f < p.val ∨ (p.val = f ∧ me < top.station) ∨ top.station = me

end Sys2Proof.Machine
end

