-- ==== Sys2Proof/WellFormed.lean ====
section
/-! DEFINITION. Which commands can come from outside the block: the checks on a command's operands that the
events of the manual satisfy by themselves. exec is total on ill-formed commands too. -/

namespace Sys2Proof

/-- The command codes that R198 lists. -/
def commandCodes : List Byte :=
  [0x10, 0x11, 0x20, 0x21, 0x22, 0x23, 0x30, 0x40, 0x41, 0x42, 0x43, 0x44, 0x48, 0x7F]

/-- A received frame has 80 frame bits and 9 sync bits after its start bit (R196). -/
def frameBitCount : Nat := 89

/-- Whether a command is one that can reach the block. -/
def Instr.wellFormed : Instr → Bool
  | .invalid code => !commandCodes.contains code
  | .frameReceived bits => bits.length == frameBitCount
  | .silenceTimerExpiry peer => peer != 0
  -- R4: an arbitration value ranges from 1 to 127, with a station number 1 to 31 in its last five bits
  | .arbitrationEnd rivals => rivals.all fun v => v.toNat % 32 != 0
  | .idleGap bits => bits != 0
  | .pinReset lowNs => lowNs != 0
  | .resetRelease | .transactionBegin _ _ | .transactionEnd | .writtenByte _ | .readByte | .joinCmd | .leaveCmd
  | .openCmd _ _ _ | .closeCmd _ | .claimCmd _ _ _ _ _ | .dropCmd _ _ | .configure _ _ _ _ _ _ _ _
  | .stationStatus | .zoneStatus _ | .channelTable | .roster | .probeZones _ _ _ _ _ | .sense | .abort | .noCommand
  | .attemptBegin | .clashReadBack | .vetoSlotEnd _ _ | .vetoLimit | .eighthFailedAttempt _ _ | .hello | .bye
  | .presence | .evict | .openFrame | .restateOpen | .closeFrame | .claimFrame | .restateClaim | .dropFrame
  | .presenceTimerExpiry | .presenceAging | .joinWindowExpiry | .openGuardExpiry _ | .drainGuardExpiry _
  | .durationTimerExpiry _ | .chimeTimerExpiry _ | .audioFrame _ _ _ _ | .startBit | .dominantBitDuringGap => true

end Sys2Proof
end

