-- ==== Sys2Proof/Certificates/Slice0/Obligations.lean ====
section
/-! DEFINITION. The statements about the ZS-32 model, for the provers. -/

section
open Sys2Proof Sys2Proof.Machine

/-- The channel byte of OPEN for a channel or ANY (R198). -/
def openChannelByte (c : Option Channel) : Byte := c.elim 0xFF (byte ·.val)

/-- The input byte of OPEN (R198). -/
def inputByte : Input → Byte
  | .a => 0
  | .b => 1

/-- The binding byte of CONFIGURE (R198). -/
def bindingByte (k : Option Zone) : Byte := k.elim 0xFF (byte ·.val)

/-! ### The queue of commands and the tick -/

/-- A step takes the command at the front of the queue and executes it with the queue's rest. -/
def Obligations.StepRunsTheFrontCommand : Prop :=
  ∀ (c : Instr) (rest : List Instr) (s : State),
    step { s with pending := c :: rest } = exec c { s with pending := rest }

/-- Every command is answered with a next state, and no command touches the queue. -/
def Obligations.EveryCommandIsAnswered : Prop :=
  ∀ (c : Instr) (s : State), ∃ t, exec c s = .next t ∧ t.pending = s.pending

/-- A step on an empty queue is one millisecond at the station: the clock moves on by one, every running timer goes
from n to n − 1 milliseconds and waits at 0, the settling time after a reset is over, and nothing else changes; a
station that pin reset holds does not change at all (the model's choice, log entries 3, 18 and 30). -/
def Obligations.EmptyQueueTicksOneMillisecond : Prop :=
  let timer : Timer → Timer := fun t => match t with
    | .running n => .running (n - 1)
    | .stopped => .stopped
  let expiring : ExpiringTimer → ExpiringTimer := fun t => match t with
    | .running n => .running (n - 1)
    | .stopped => .stopped
    | .expired => .expired
  let guard : Guard → Guard := fun g => match g with
    | .openGuard n => .openGuard (n - 1)
    | .drainGuard n => .drainGuard (n - 1)
    | .stopped => .stopped
  (∀ s : State, s.pending = [] → s.Awake → ∃ t, step s = .next t ∧
     t = { s with zs := { s.zs with
       clock := s.zs.clock + 1
       rst := { s.zs.rst with settling := false }
       memb := { s.zs.memb with
         presenceTimer := timer s.zs.memb.presenceTimer
         joinWindow := timer s.zs.memb.joinWindow
         roster := s.zs.memb.roster.map fun e => { e with silence := expiring e.silence } }
       table := { s.zs.table with channels := t.zs.table.channels }
       source := { inA := { s.zs.source.inA with timer := expiring s.zs.source.inA.timer }
                   inB := { s.zs.source.inB with timer := expiring s.zs.source.inB.timer } }
       mixer := t.zs.mixer } } ∧
     (∀ c : Channel, t.zs.table.channels[c] =
       { s.zs.table.channels[c] with guard := guard s.zs.table.channels[c].guard }) ∧
     (∀ o : Fin 4, t.zs.mixer.outputs[o] =
       { s.zs.mixer.outputs[o] with chime := timer s.zs.mixer.outputs[o].chime })) ∧
  (∀ s : State, s.pending = [] → s.zs.rst.held = true → step s = .next s)

/-! ### Reset and transactions -/

/-- What pin reset leaves, block by block (R1, R30, R60, R71, R87, R109, R122, R148, R158, R167). The state after
reset has every invariant. The cleared membership unit and source unit that other statements name have the fields of
R30 and R71. -/
def Obligations.ResetLeavesTheAfterResetValues : Prop :=
  (State.reset.pending = [] ∧ State.reset.zs.setup = none ∧
   State.reset.zs.line.outq = [] ∧ State.reset.zs.line.inq = [] ∧ State.reset.zs.line.fails = 0 ∧
   State.reset.zs.line.vetoSeen = false ∧ State.reset.zs.line.vetoCount = 0 ∧
   State.reset.zs.line.receiver = .off ∧ State.reset.zs.line.halt = false ∧
   State.reset.zs.memb = Membership.clearedIn .unconfigured ∧
   (∀ c : Channel, State.reset.zs.table.channels[c] =
     { owner := none, length := none, phase := .free, guard := .stopped }) ∧
   (∀ k : Zone, State.reset.zs.table.zones[k] = [] ∧ State.reset.zs.table.leads[k] = false) ∧
   State.reset.zs.table.digest = 0 ∧ State.reset.zs.table.comparison = none ∧
   State.reset.zs.source = Source.cleared ∧
   (∀ o : Fin 4, State.reset.zs.mixer.outputs[o].zone = none ∧ State.reset.zs.mixer.outputs[o].state = .silent ∧
     State.reset.zs.mixer.outputs[o].chime = .stopped ∧ State.reset.zs.mixer.outputs[o].fg = none ∧
     State.reset.zs.mixer.outputs[o].duck = none ∧ State.reset.zs.mixer.outputs[o].bg = none) ∧
   State.reset.zs.port.phase = .ready ∧ State.reset.zs.port.cmdBuf = [] ∧ State.reset.zs.port.resBuf = [] ∧
   State.reset.zs.port.readPos = 0 ∧ State.reset.zs.port.firstByte = false ∧ State.reset.zs.port.refused = false ∧
   State.reset.zs.port.cmd = none ∧
   State.reset.zs.notices = { records := [], gap := 0, mask := 0 } ∧ State.reset.zs.statusByte = 0x00) ∧
  (State.reset.zs.table.DigestCurrent ∧ State.reset.zs.table.ListsOk ∧ State.reset.zs.table.ChannelsOk ∧
     State.reset.zs.table.ClaimsOwned ∧ State.reset.zs.notices.Ok ∧ State.reset.zs.port.Ok ∧
     State.reset.zs.LineOk ∧ State.reset.zs.PeersOk ∧ State.reset.zs.memb.evictHeld.Pairwise (· < ·)) ∧
  (∀ st : StationState, Membership.clearedIn st =
     { state := st, roster := [], presenceTimer := .stopped, presenceQueued := false, presenceHeld := false,
       joinWindow := .stopped, evictQueued := [], evictHeld := [], restateRun := false, cursor := .openStep 0,
       disagreement := none }) ∧
  (∀ i : Input, Source.cleared.get i =
     { bound := none, starting := none, driving := none, timer := .stopped, pending := false, request := .none,
       merged := false })

/-- PIN_RESET of at least 1 µs puts every block at its after-reset values and holds it there, driving nothing; a
shorter one is disregarded; RESET_RELEASE lets the station go on as UNCONFIGURED (R200). While RST_N stays low no
event but the release, a longer low level and the select pin reaches the station, and no byte is taken or given
(R200). What a held station does with events and transactions is the model's choice (log entries 19 and 30), and so
are the position 0 in the chime tone after reset (log entry 17) and the settling time that begins at the release (log
entry 18). -/
def Obligations.PinResetHoldsUntilRelease : Prop :=
  ((∀ (s : State) (ns : Nat), 1000 ≤ ns → ∃ t, exec (.pinReset ns) s = .next t ∧ t.pending = s.pending ∧
     t.zs.rst.held = true ∧ t.zs.setup = none ∧
     t.zs.line = { outq := [], inq := [], fails := 0, vetoSeen := false, vetoCount := 0, receiver := .off,
                   gapBits := 0, halt := false, attempt := none, reception := none } ∧
     t.zs.memb = { state := .unconfigured, roster := [], presenceTimer := .stopped, presenceQueued := false,
                   presenceHeld := false, joinWindow := .stopped, evictQueued := [], evictHeld := [],
                   restateRun := false, cursor := .openStep 0, disagreement := none } ∧
     (∀ c : Channel, t.zs.table.channels[c] =
       { owner := none, length := none, phase := .free, guard := .stopped }) ∧
     (∀ k : Zone, t.zs.table.zones[k] = [] ∧ t.zs.table.leads[k] = false) ∧
     t.zs.table.digest = 0 ∧ t.zs.table.comparison = none ∧
     (∀ i : Input, t.zs.source.get i =
       { bound := none, starting := none, driving := none, timer := .stopped, pending := false, request := .none,
         merged := false }) ∧
     t.zs.notices = { records := [], gap := 0, mask := 0 } ∧
     (∀ o : Fin 4, t.zs.mixer.outputs[o] =
       { zone := none, state := .silent, chime := .stopped, fg := none, duck := none, bg := none, tonePos := 0,
         sample := 0 }) ∧
     (∀ c : Channel, t.zs.audio.driven[c] = none) ∧
     t.zs.port.phase = .ready ∧ t.zs.port.cmdBuf = [] ∧ t.zs.port.resBuf = [] ∧ t.zs.port.refused = false ∧
     t.zs.port.cmd = none ∧ t.zs.port.sdo = none ∧
     (t.zs.port.transaction = .idle ↔ s.zs.port.transaction = .idle) ∧
     t.zs.interrupt = false ∧ t.zs.lineBits = none ∧ t.zs.drivesHeard = false ∧ t.zs.drivesVeto = false ∧
     t.zs.drivesMarks = false) ∧
   (∀ (s : State) (ns : Nat), ns < 1000 → exec (.pinReset ns) s = .next s) ∧
   (∀ s : State, s.zs.rst.held = true →
     exec .resetRelease s = .next { s with zs := { s.zs with rst := { held := false, settling := true } } }) ∧
   (∀ s : State, s.Awake → exec .resetRelease s = .next s)) ∧
  (∀ (c : Instr) (s : State), s.zs.rst.held = true →
     ((∀ ns, c ≠ .pinReset ns) → c ≠ .resetRelease → (∀ h e, c ≠ .transactionBegin h e) → c ≠ .transactionEnd →
       exec c s = .next s) ∧
     (∀ h e, exec (.transactionBegin h e) s =
       .next { s with zs := { s.zs with port := { s.zs.port with transaction := .disregarded, sdo := none } } }))

/-- TRANSACTION_BEGIN shifts out the status byte, clears the flag it reported and takes the kind from the header; an
unknown header sets the flag again and goes on as STATUS; TRANSACTION_END keeps phase and buffers (R149, R150, R197,
R200). The phase and state codes in the status byte are those of R197. That an early transaction is disregarded as a
whole follows log entry 18; that one begun during another replaces it is log entry 20. -/
def Obligations.TransactionsBeginWithTheStatusByte : Prop :=
  (∀ (s : State) (h : Byte) (early : Bool), s.Awake → (early = false ∨ s.zs.rst.settling = false) →
    exec (.transactionBegin h early) s = .next { s with zs := { s.zs with
      rst := { s.zs.rst with settling := false }
      port := { s.zs.port with
        sdo := some (byte (64 * s.zs.port.phase.code + (if s.zs.notices.records = [] then 0 else 32)
          + 4 * s.zs.memb.state.code + (if s.zs.port.refused then 2 else 0)))
        refused := decide (h ≠ 0x50 ∧ h ≠ 0x57 ∧ h ≠ 0x52)
        transaction := if h = 0x57 then .write else if h = 0x52 then .read else .status } } }) ∧
  (∀ (s : State) (h : Byte), s.Awake → s.zs.rst.settling = true →
    exec (.transactionBegin h true) s =
      .next { s with zs := { s.zs with port := { s.zs.port with transaction := .disregarded, sdo := none } } }) ∧
  (∀ s : State, exec .transactionEnd s =
    .next { s with zs := { s.zs with port := { s.zs.port with transaction := .idle, sdo := none } } }) ∧
  (PortPhase.ready.code = 0 ∧ PortPhase.command.code = 1 ∧ PortPhase.executing.code = 2 ∧
    PortPhase.result.code = 3 ∧ StationState.unconfigured.code = 0 ∧ StationState.offline.code = 1 ∧
    StationState.listening.code = 2 ∧ StationState.joined.code = 3 ∧ StationState.clashed.code = 4)

/-- A written byte by the port phase, where it completes no command; 0x00 is shifted out (R149, R151). A read byte by
the port phase: the result byte at the read position, or 0x00 and the refused-byte flag; the last result byte ends the
result (R152, R155). -/
def Obligations.BytesByPortPhase : Prop :=
  (∀ (s : State) (b : Byte), s.Awake → s.zs.port.transaction = .write →
     (s.zs.port.phase = .ready → 1 < commandLength b →
       exec (.writtenByte b) s = .next { s with zs := { s.zs with
         port := { s.zs.port with phase := .command, cmdBuf := [b], sdo := some 0 } } }) ∧
     (∀ code params, s.zs.port.phase = .command → s.zs.port.cmdBuf = code :: params →
       params.length + 2 < commandLength code →
       exec (.writtenByte b) s = .next { s with zs := { s.zs with
         port := { s.zs.port with cmdBuf := code :: params ++ [b], sdo := some 0 } } }) ∧
     (s.zs.port.phase = .executing → b ≠ 0x7F →
       exec (.writtenByte b) s = .next { s with zs := { s.zs with
         port := { s.zs.port with refused := true, sdo := some 0 } } }) ∧
     (s.zs.port.phase = .result →
       exec (.writtenByte b) s = .next { s with zs := { s.zs with
         port := { s.zs.port with refused := true, sdo := some 0 } } })) ∧
  (∀ s : State, s.Awake → s.zs.port.transaction = .read →
     (s.zs.port.phase ≠ .result → exec .readByte s = .next { s with zs := { s.zs with
       port := { s.zs.port with refused := true, sdo := some 0 } } }) ∧
     (∀ b, s.zs.port.phase = .result → s.zs.port.resBuf[s.zs.port.readPos]? = some b →
       (s.zs.port.readPos + 1 < s.zs.port.resBuf.length →
         exec .readByte s = .next { s with zs := { s.zs with
           port := { s.zs.port with readPos := s.zs.port.readPos + 1, firstByte := true, sdo := some b } } }) ∧
       (s.zs.port.readPos + 1 = s.zs.port.resBuf.length →
         exec .readByte s = .next { s with zs := { s.zs with
           port := { s.zs.port with phase := .ready, resBuf := [], readPos := 0, firstByte := false,
                                    sdo := some b } } })))

/-- The interrupt output is asserted exactly while an unread result waits or the log holds a record (R174). -/
def Obligations.InterruptFollowsResultAndLog : Prop :=
  (∀ z : Zs32, z.interrupt = true ↔
    (z.port.phase = .result ∧ z.port.firstByte = false) ∨ z.notices.records ≠ []) ∧
  (∀ (z : Zs32) (r : Result), (z.formResult r).interrupt = true) ∧
  (∀ (s t : State) (b : Byte), s.Awake → s.zs.port.transaction = .read → s.zs.port.phase = .result →
    s.zs.port.resBuf[s.zs.port.readPos]? = some b → exec .readByte s = .next t →
    (t.zs.interrupt = true ↔ s.zs.notices.records ≠ []))

/-! ### The host's line commands (in a WRITE transaction with the port READY; log entry 5) -/

/-- JOIN in each station state: taken in OFFLINE with a HELLO, LISTENING and the receiver in GAP; refused elsewhere
(R33, R125, R127). The row writes the whole command (log entry 5), and 0x00 is shifted out (R149). -/
def Obligations.JoinIsTakenOffLine : Prop :=
  ∀ s : State, s.CanWrite →
    (s.zs.memb.state = .offline →
      exec .joinCmd s = .next { s with zs := { s.zs with
        memb := { s.zs.memb with state := .listening }
        line := { s.zs.line with outq := s.zs.line.outq ++ [entryOf .hello .host s.zs.clock],
                                 receiver := .gap, gapBits := 0 }
        port := s.zs.port.withCommand .join .queued } }) ∧
    (s.zs.memb.state = .unconfigured → exec .joinCmd s = .next (s.answers [0x04])) ∧
    (s.zs.memb.state = .listening ∨ s.zs.memb.state = .joined → exec .joinCmd s = .next (s.answers [0x05])) ∧
    (s.zs.memb.state = .clashed → exec .joinCmd s = .next (s.answers [0x08]))

/-- LEAVE on the line empties the outbound queue, stops the membership unit, places the BYE and then grants held
automatic CLOSEs behind it; off the line it is refused (R9, R35, R80, R125, R129). A request whose automatic CLOSE is
dropped becomes none; one whose CLOSE was accepted before stays queued (R81). The attempt in progress goes on with its
outcome disregarded; that this holds also while it is still in its arbitration field, where R9 speaks of a frame on
the line, is log entry 10 (DEDUCED). The row writes the whole command (log entry 5), and 0x00 is shifted out (R149).
-/
def Obligations.LeaveEmptiesTheQueueAndPlacesBye : Prop :=
  ∀ s : State, s.CanWrite →
    (s.zs.onLine = true → ∃ t, exec .leaveCmd s = .next t ∧ t.pending = s.pending ∧
      t.zs.line.outq = entryOf .bye .host s.zs.clock ::
        [Input.a, Input.b].filterMap (fun i =>
          if (s.zs.source.get i).request = .held then
            (s.zs.source.get i).channel.map fun c => entryOf (.close c true) (.source i) s.zs.clock
          else none) ∧
      t.zs.line.fails = 0 ∧ t.zs.line.vetoSeen = false ∧ t.zs.line.inq = s.zs.line.inq ∧
      t.zs.line.attempt = s.zs.line.attempt.map (fun a => { a with dropped := true }) ∧
      t.zs.line.halt = s.zs.line.halt ∧ t.zs.line.receiver = s.zs.line.receiver ∧
      t.zs.memb = { s.zs.memb with
        restateRun := false, cursor := .openStep 0, joinWindow := .stopped, presenceTimer := .stopped,
        presenceQueued := false, presenceHeld := false, evictQueued := [], evictHeld := [] } ∧
      (∀ i : Input, t.zs.source.get i = { s.zs.source.get i with
        request := if (s.zs.source.get i).request = .held ∧ (s.zs.source.get i).channel ≠ none then .queued
          else if (s.zs.source.get i).request = .queued ∧ ∃ e ∈ s.zs.line.outq, e.origin = .source i then .none
          else (s.zs.source.get i).request }) ∧
      t.zs.port = s.zs.port.withCommand .leave .queued ∧
      t.zs.table = s.zs.table ∧ t.zs.mixer = s.zs.mixer ∧ t.zs.notices = s.zs.notices ∧
      t.zs.setup = s.zs.setup ∧ t.zs.audio = s.zs.audio) ∧
    (s.zs.onLine = false → exec .leaveCmd s = .next (s.answers [0x06]))

/-- OPEN: parameters, JOINED, a free input, a free slot, then an OPEN frame in the outbound queue (R124, R125, R126,
R131). The row writes the whole command (log entry 5), and 0x00 is shifted out (R149). -/
def Obligations.OpenChecksThenPlacesItsFrame : Prop :=
  ∀ s : State, s.CanWrite →
    (∀ (channel input : Byte) (w : BitVec 16),
      ¬ (channel.toNat < 16 ∨ channel = 0xFF) ∨ 1 < input.toNat →
      exec (.openCmd channel input w) s = .next (s.answers [0x01])) ∧
    ∀ (c : Option Channel) (i : Input) (w : BitVec 16),
      (s.zs.memb.state ≠ .joined →
        exec (.openCmd (openChannelByte c) (inputByte i) w) s = .next (s.answers [0x07])) ∧
      (s.zs.memb.state = .joined →
        ((s.zs.source.get i).bound ≠ none ∨ (s.zs.source.get i).starting ≠ none →
          exec (.openCmd (openChannelByte c) (inputByte i) w) s = .next (s.answers [0x09])) ∧
        ((s.zs.source.get i).bound = none → (s.zs.source.get i).starting = none →
          (8 ≤ s.zs.line.outq.length →
            exec (.openCmd (openChannelByte c) (inputByte i) w) s = .next (s.answers [0x0A])) ∧
          (s.zs.line.outq.length < 8 →
            exec (.openCmd (openChannelByte c) (inputByte i) w) s =
              .next (s.taken (.openCh c i (if w = 0 then none else some w))
                (.openCh c i (if w = 0 then none else some w) false)))))

/-- CLOSE: parameter, JOINED, ownership; then it merges with a pending automatic CLOSE or places a CLOSE frame (R82,
R124, R125, R126, R133). The row writes the whole command (log entry 5), and 0x00 is shifted out (R149). -/
def Obligations.CloseMergesOrPlacesItsFrame : Prop :=
  ∀ s : State, s.CanWrite →
    (∀ channel : Byte, 16 ≤ channel.toNat → exec (.closeCmd channel) s = .next (s.answers [0x01])) ∧
    ∀ c : Channel,
      (s.zs.memb.state ≠ .joined → exec (.closeCmd (byte c.val)) s = .next (s.answers [0x07])) ∧
      (s.zs.memb.state = .joined → s.zs.table.channels[c].owner ≠ some s.zs.me →
        exec (.closeCmd (byte c.val)) s = .next (s.answers [0x0B])) ∧
      (s.zs.memb.state = .joined → s.zs.table.channels[c].owner = some s.zs.me →
        (∀ i, s.zs.source.inputOf c = some i → (s.zs.source.get i).pending = true →
          exec (.closeCmd (byte c.val)) s = .next { s with zs := { s.zs with
            source := s.zs.source.set i { s.zs.source.get i with merged := true }
            port := s.zs.port.withCommand (.close c) .merged } }) ∧
        (∀ i, s.zs.source.inputOf c = some i → (s.zs.source.get i).pending = false →
          (8 ≤ s.zs.line.outq.length → exec (.closeCmd (byte c.val)) s = .next (s.answers [0x0A])) ∧
          (s.zs.line.outq.length < 8 →
            exec (.closeCmd (byte c.val)) s = .next (s.taken (.close c) (.close c false)))))

/-- CLAIM: parameters, JOINED, ownership of the channel, a free slot, then a CLAIM frame (R124, R125, R126, R135).
DROP in its two forms: parameters, JOINED, a free slot, then a DROP frame (R124, R125, R126, R137). The row writes the
whole command (log entry 5), and 0x00 is shifted out (R149). -/
def Obligations.ClaimAndDropCheckThenPlaceTheirFrames : Prop :=
  (∀ s : State, s.CanWrite →
     (∀ (channel priority duck chime : Byte) (zones : BitVec 32),
       16 ≤ channel.toNat ∨ priority = 0 ∨ 7 < priority.toNat ∨ 31 < duck.toNat ∨ 1 < chime.toNat ∨ zones = 0 →
       exec (.claimCmd channel priority duck chime zones) s = .next (s.answers [0x01])) ∧
     ∀ (c : Channel) (p : Priority) (d : DuckLevel) (chime : Bool) (zones : ZoneSet), p ≠ 0 → zones ≠ 0 →
       (s.zs.memb.state ≠ .joined →
         exec (.claimCmd (byte c.val) (byte p.val) (byte d.val) (flagByte chime) zones) s =
           .next (s.answers [0x07])) ∧
       (s.zs.memb.state = .joined → s.zs.table.channels[c].owner ≠ some s.zs.me →
         exec (.claimCmd (byte c.val) (byte p.val) (byte d.val) (flagByte chime) zones) s =
           .next (s.answers [0x0B])) ∧
       (s.zs.memb.state = .joined → s.zs.table.channels[c].owner = some s.zs.me →
         (8 ≤ s.zs.line.outq.length →
           exec (.claimCmd (byte c.val) (byte p.val) (byte d.val) (flagByte chime) zones) s =
             .next (s.answers [0x0A])) ∧
         (s.zs.line.outq.length < 8 →
           exec (.claimCmd (byte c.val) (byte p.val) (byte d.val) (flagByte chime) zones) s =
             .next (s.taken (.claim c p d chime zones) (.claim c p d chime zones false))))) ∧
  (∀ s : State, s.CanWrite →
     (∀ (form : Byte) (value : BitVec 32),
       1 < form.toNat ∨ (form = 0 ∧ value = 0) ∨ (form = 1 ∧ 16 ≤ value.toNat) →
       exec (.dropCmd form value) s = .next (s.answers [0x01])) ∧
     (∀ zones : ZoneSet, zones ≠ 0 →
       (s.zs.memb.state ≠ .joined → exec (.dropCmd 0 zones) s = .next (s.answers [0x07])) ∧
       (s.zs.memb.state = .joined → 8 ≤ s.zs.line.outq.length →
         exec (.dropCmd 0 zones) s = .next (s.answers [0x0A])) ∧
       (s.zs.memb.state = .joined → s.zs.line.outq.length < 8 →
         exec (.dropCmd 0 zones) s = .next (s.taken (.dropZones zones) (.dropZones zones)))) ∧
     (∀ c : Channel,
       (s.zs.memb.state ≠ .joined → exec (.dropCmd 1 (BitVec.ofNat 32 c.val)) s = .next (s.answers [0x07])) ∧
       (s.zs.memb.state = .joined → 8 ≤ s.zs.line.outq.length →
         exec (.dropCmd 1 (BitVec.ofNat 32 c.val)) s = .next (s.answers [0x0A])) ∧
       (s.zs.memb.state = .joined → s.zs.line.outq.length < 8 →
         exec (.dropCmd 1 (BitVec.ofNat 32 c.val)) s = .next (s.taken (.dropChannel c) (.dropChannel c)))))

/-- An ABORT for a command in QUEUED whose frame is not in its arbitration field: OPEN, CLAIM and DROP end with
ABORTED and their entry leaves the queue (R8, R144). A CLOSE ends so too, and where the duration timer of its channel
has run out the source unit asks for the automatic CLOSE at the same event (R84). An ABORT during the own arbitration
field is held; in SENDING, INBOUND and DETACHED it is discarded without a refused byte (R145, R146). An ABORT of a
queued JOIN takes the station back to OFFLINE through table clear; an ABORT of a queued LEAVE makes a rejoin without a
notice; both end with ABORTED (R147). An ABORT of a merged CLOSE separates it from the automatic CLOSE of its input,
unless that is on the line or accepted (R83). With requests held, the slot that an ABORT frees goes to them in the
order of R7 (R144) before the automatic CLOSE is asked for (log entry 27, DEDUCED); a generator that ends while the
queue is full is log entry 14 (DEDUCED), remaining times are log entry 22 (DESIGN CHOICE). The row writes its byte
(log entry 5), and 0x00 is shifted out (R149). -/
def Obligations.AbortByStage : Prop :=
  (∀ (s : State) (e : CmdExec), s.Awake → s.zs.port.transaction = .write → s.zs.port.phase = .executing →
     s.zs.port.cmd = some e → e.stage = .queued → s.zs.hostInArbitration = false →
     (∀ c, e.command ≠ .close c) → e.command ≠ .join → e.command ≠ .leave → s.zs.NothingHeld →
     (s.zs.line.outq.filter fun x => x.origin = .host).length = 1 →
     exec .abort s = .next { s with zs := { s.zs with
       line := { s.zs.line with
         outq := s.zs.line.outq.filter fun x => x.origin ≠ .host
         fails := if s.zs.line.outq.head?.any (·.origin = .host) then 0 else s.zs.line.fails
         vetoSeen := if s.zs.line.outq.head?.any (·.origin = .host) then false else s.zs.line.vetoSeen }
       port := s.zs.port.withResult [0x14] } }) ∧
  (∀ (s : State) (e : CmdExec) (c : Channel), s.Awake → s.zs.port.transaction = .write →
     s.zs.port.phase = .executing → s.zs.port.cmd = some e → e.stage = .queued → s.zs.hostInArbitration = false →
     e.command = .close c → s.zs.NothingHeld → s.zs.line.outq.length ≤ 8 →
     (s.zs.line.outq.filter fun x => x.origin = .host).length = 1 →
     let fails := if s.zs.line.outq.head?.any (·.origin = .host) then 0 else s.zs.line.fails
     let seen := if s.zs.line.outq.head?.any (·.origin = .host) then false else s.zs.line.vetoSeen
     (∀ i, s.zs.source.inputOf c = some i → (s.zs.source.get i).pending = true →
       exec .abort s = .next { s with zs := { s.zs with
         line := { s.zs.line with
           outq := (s.zs.line.outq.filter fun x => x.origin ≠ .host) ++
             [entryOf (.close c true) (.source i) s.zs.clock]
           fails := fails, vetoSeen := seen }
         source := s.zs.source.set i { s.zs.source.get i with request := .queued }
         port := s.zs.port.withResult [0x14] } }) ∧
     ((∀ i, s.zs.source.inputOf c = some i → (s.zs.source.get i).pending = false) →
       exec .abort s = .next { s with zs := { s.zs with
         line := { s.zs.line with
           outq := s.zs.line.outq.filter fun x => x.origin ≠ .host
           fails := fails, vetoSeen := seen }
         port := s.zs.port.withResult [0x14] } })) ∧
  (∀ (s : State) (e : CmdExec), s.Awake → s.zs.port.transaction = .write → s.zs.port.phase = .executing →
     s.zs.port.cmd = some e →
     (e.stage = .queued → s.zs.hostInArbitration = true →
       exec .abort s = .next { s with zs := { s.zs with
         port := { s.zs.port with cmd := some { e with heldAbort := true }, sdo := some 0 } } }) ∧
     (e.stage = .sending ∨ e.stage = .inbound ∨ e.stage = .detached →
       exec .abort s = .next { s with zs := { s.zs with port := { s.zs.port with sdo := some 0 } } })) ∧
  (∀ (s : State) (e : CmdExec), s.Awake → s.zs.port.transaction = .write → s.zs.port.phase = .executing →
     s.zs.port.cmd = some e → e.stage = .queued → s.zs.hostInArbitration = false →
     (e.command = .join → ∃ t, exec .abort s = .next t ∧ t.pending = s.pending ∧ WentOff s.zs t.zs .offline ∧
       t.zs.notices = s.zs.notices ∧ t.zs.port = s.zs.port.withResult [0x14]) ∧
     (e.command = .leave → ∃ t, exec .abort s = .next t ∧ t.pending = s.pending ∧ TableCleared s.zs t.zs ∧
       t.zs.memb.state = .listening ∧ t.zs.line.outq = [entryOf .hello .membership s.zs.clock] ∧
       t.zs.line.receiver = s.zs.line.receiver ∧ t.zs.notices = s.zs.notices ∧
       t.zs.port = s.zs.port.withResult [0x14])) ∧
  (∀ (s : State) (e : CmdExec) (i : Input), s.Awake → s.zs.port.transaction = .write →
     s.zs.port.phase = .executing → s.zs.port.cmd = some e → e.stage = .merged →
     (s.zs.source.get i).merged = true → (∀ j, j ≠ i → (s.zs.source.get j).merged = false) →
     let gone := (∃ a, s.zs.line.attempt = some a ∧ a.origin = .source i ∧ a.stage ≠ .arbitration ∧
       a.dropped = false) ∨ ∃ f ∈ s.zs.line.inq, f.mark = some (.source i)
     (¬ gone → exec .abort s = .next { s with zs := { s.zs with
       source := s.zs.source.set i { s.zs.source.get i with merged := false }
       port := s.zs.port.withResult [0x14] } }) ∧
     (gone → exec .abort s = .next { s with zs := { s.zs with port := { s.zs.port with sdo := some 0 } } })) ∧
  (∀ (s : State) (e : CmdExec), s.Awake → s.zs.port.transaction = .write → s.zs.port.phase = .executing →
     s.zs.port.cmd = some e → e.stage = .queued → s.zs.hostInArbitration = false →
     (s.zs.line.outq.filter fun x => x.origin = .host).length = 1 →
     ∃ t, exec .abort s = .next t ∧ t.pending = s.pending ∧ AbortTaken s.zs t.zs e.command ∧
       t.zs.port = s.zs.port.withResult [0x14])

/-! ### CONFIGURE, queries, SENSE and the notice log -/

/-- CONFIGURE: parameters, then off the line the configuration, silent outputs on the bindings, the mask with GAP and
CLASHED enabled, OFFLINE and DONE; ON_LINE on the line (R110, R157, R158). The row writes the whole command (log entry
5), and 0x00 is shifted out (R149). -/
def Obligations.ConfigureOffTheLine : Prop :=
  ∀ s : State, s.CanWrite →
    (∀ (st iv ch b0 b1 b2 b3 : Byte) (mask : BitVec 16),
      st = 0 ∨ 31 < st.toNat ∨ iv = 0 ∨ 100 < iv.toNat ∨ 40 < ch.toNat ∨
        (31 < b0.toNat ∧ b0 ≠ 0xFF) ∨ (31 < b1.toNat ∧ b1 ≠ 0xFF) ∨ (31 < b2.toNat ∧ b2 ≠ 0xFF) ∨
        (31 < b3.toNat ∧ b3 ≠ 0xFF) →
      exec (.configure st iv ch b0 b1 b2 b3 mask) s = .next (s.answers [0x01])) ∧
    ∀ (st : StationNo) (iv : Interval) (ch : Fin 41) (binds : Vector (Option Zone) 4) (mask : BitVec 16),
      st ≠ 0 → iv ≠ 0 → iv.val ≤ 100 →
      (s.zs.onLine = true →
        exec (.configure (byte st.val) (byte iv.val) (byte ch.val) (bindingByte binds[0]) (bindingByte binds[1])
          (bindingByte binds[2]) (bindingByte binds[3]) mask) s = .next (s.answers [0x05])) ∧
      (s.zs.onLine = false → ∃ t,
        exec (.configure (byte st.val) (byte iv.val) (byte ch.val) (bindingByte binds[0]) (bindingByte binds[1])
          (bindingByte binds[2]) (bindingByte binds[3]) mask) s = .next t ∧ t.pending = s.pending ∧
        t.zs.setup = some { station := st, interval := iv, chime := ch.val } ∧
        t.zs.memb = { s.zs.memb with state := .offline } ∧
        (∀ o : Fin 4, t.zs.mixer.outputs[o] =
          { zone := binds[o], state := .silent, chime := .stopped, fg := none, duck := none, bg := none
            tonePos := t.zs.mixer.outputs[o].tonePos, sample := t.zs.mixer.outputs[o].sample }) ∧
        t.zs.notices.records = s.zs.notices.records ∧ t.zs.notices.gap = s.zs.notices.gap ∧
        (∀ n : Fin 16, t.zs.notices.mask.getLsbD n.val =
          (mask.getLsbD n.val && decide (n.val ≠ 0 ∧ n.val ≠ 12 ∧ n.val ≠ 15))) ∧
        t.zs.port = s.zs.port.withResult [0x00] ∧
        t.zs.line = s.zs.line ∧ t.zs.table = s.zs.table ∧ t.zs.source = s.zs.source ∧ t.zs.audio = s.zs.audio)

/-- STATION_STATUS: DONE with 27 bytes laid out as R199 gives, in every state, changing only the port (R159, R160).
ZONE_STATUS, CHANNEL_TABLE and ROSTER: DONE with the tables as they stand, changing only the port; a zone above 31
gives BAD_PARAM (R159, R161 to R163). The output state and channel phase codes are those of R199. The bits of the
flags byte and of the silence-timer byte to which R199 gives no meaning are 0, and so are the digest bytes of an absent
disagreement record, by the model's choice (log entry 31).
The row writes the whole command (log entry 5), and 0x00 is shifted out (R149). -/
def Obligations.QueriesReportTheState : Prop :=
  (∀ s : State, s.CanWrite → ∃ bytes, exec .stationStatus s = .next (s.answers bytes) ∧ bytes.length = 28 ∧
     bytes = [0x00, byte s.zs.memb.state.code, byte s.zs.me.val,
         s.zs.setup.elim 0 (byte ·.interval.val), s.zs.setup.elim 0xFF (byte ·.chime)]
       ++ (List.finRange 4).flatMap (fun o =>
         [bindingByte s.zs.mixer.outputs[o].zone, byte s.zs.mixer.outputs[o].state.code])
       ++ [openChannelByte s.zs.source.inA.bound, flagByte s.zs.source.inA.pending,
         openChannelByte s.zs.source.inB.bound, flagByte s.zs.source.inB.pending, byte s.zs.memb.roster.length]
       ++ bytes16 s.zs.table.digest
       ++ [byte s.zs.line.outq.length, byte s.zs.line.inq.length,
         byte ((if s.zs.line.halt then 1 else 0) + (if s.zs.memb.joinWindow = .stopped then 0 else 2)
           + (if s.zs.memb.restateRun then 4 else 0)),
         s.zs.memb.disagreement.elim 0 (byte ·.1.val)]
       ++ bytes16 (s.zs.memb.disagreement.elim 0 (·.2))
       ++ [byte s.zs.notices.records.length, byte s.zs.notices.gap]) ∧
  (∀ s : State, s.CanWrite →
     (∀ zone : Byte, 31 < zone.toNat → exec (.zoneStatus zone) s = .next (s.answers [0x01])) ∧
     (∀ k : Zone, ∃ outs : List (Fin 4),
       outs.Pairwise (· < ·) ∧ (∀ o, o ∈ outs ↔ s.zs.mixer.outputs[o].zone = some k) ∧
       exec (.zoneStatus (byte k.val)) s = .next (s.answers
         ([0x00, byte k.val, byte s.zs.table.zones[k].length]
           ++ s.zs.table.zones[k].flatMap (fun cl =>
             [byte cl.station.val, byte cl.channel.val, byte cl.priority.val, byte cl.duck.val, flagByte cl.chime])
           ++ [flagByte s.zs.table.leads[k], byte outs.length]
           ++ outs.flatMap fun o => [byte o.val, byte s.zs.mixer.outputs[o].state.code]))) ∧
     exec .channelTable s = .next (s.answers (0x00 :: (List.finRange 16).flatMap fun c =>
       s.zs.table.channels[c].owner.elim 0 (byte ·.val) :: bytes16 (s.zs.table.channels[c].length.getD 0)
         ++ [byte s.zs.table.channels[c].phase.code])) ∧
     exec .roster s = .next (s.answers ([0x00, byte s.zs.memb.roster.length]
       ++ s.zs.memb.roster.flatMap fun e =>
         [byte e.station.val, e.interval.elim 0 (byte ·.val),
           byte ((match e.silence with
             | .stopped => 0
             | .running _ => 1
             | .expired => 2) + if e.digest.isSome then 128 else 0)]
         ++ bytes16 (e.digest.getD 0)))) ∧
  (OutputState.silent.code = 0 ∧ OutputState.chime.code = 1 ∧ OutputState.hush.code = 2 ∧
   OutputState.playing.code = 3 ∧ ChannelPhase.free.code = 0 ∧ ChannelPhase.opening.code = 1 ∧
   ChannelPhase.live.code = 2 ∧ ChannelPhase.draining.code = 3)

/-- PROBE_ZONES: the first hit among the zones first, first + step, … not above the last, with the count of zones
examined, or NONE with the count of all of them; a value out of range gives BAD_PARAM (R164 to R166). The row writes
the whole command (log entry 5), and 0x00 is shifted out (R149). -/
def Obligations.ProbeFindsTheFirstHit : Prop :=
  ∀ s : State, s.CanWrite →
    (∀ cond p first last step : Byte,
      3 < cond.toNat ∨ 7 < p.toNat ∨ (cond = 3 ∧ p = 0) ∨ 31 < first.toNat ∨ 31 < last.toNat ∨
        last.toNat < first.toNat ∨ ¬ (step = 1 ∨ step = 2) →
      exec (.probeZones cond p first last step) s = .next (s.answers [0x01])) ∧
    ∀ (cond : ProbeCondition) (p : Priority) (first last : Zone) (step : Nat),
      (step = 1 ∨ step = 2) → first ≤ last → (cond = .wouldLead → p ≠ 0) →
      let code : Byte := match cond with
        | .equal => 0
        | .atMost => 1
        | .atLeast => 2
        | .wouldLead => 3
      let hit : Zone → Prop := fun k => ZoneHit cond p s.zs.me s.zs.table.zones[k]
      (∀ (k : Zone) (i : Nat), k.val = first.val + i * step → k ≤ last → hit k →
        (∀ (j : Zone) (i' : Nat), i' < i → j.val = first.val + i' * step → ¬ hit j) →
        exec (.probeZones code (byte p.val) (byte first.val) (byte last.val) (byte step)) s =
          .next (s.answers [0x00, byte k.val, byte (i + 1)])) ∧
      ((∀ (k : Zone) (i : Nat), k.val = first.val + i * step → k ≤ last → ¬ hit k) →
        exec (.probeZones code (byte p.val) (byte first.val) (byte last.val) (byte step)) s =
          .next (s.answers [0x00, 0xFF, byte ((last.val - first.val) / step + 1)]))

/-- SENSE gives the oldest record and removes it; a gap count becomes a GAP record at the tail when the rest holds
none; an empty log gives NONE (R171, R172, R199). A notice of a masked kind leaves no trace; one of an enabled kind is
appended while there is room and nothing was lost, and is dropped and counted otherwise, the count staying at 255; GAP
and CLASHED cannot be masked (R167, R169, R170). The code of every notice kind and the nine bytes of every record are
those of R199 (R168). The row writes the whole command (log entry 5), and 0x00 is shifted out (R149). -/
def Obligations.SenseAndTheNoticeLog : Prop :=
  (∀ s : State, s.CanWrite →
     (s.zs.notices.records = [] →
       exec .sense s = .next (s.answers [0x00, 0, 0xFF, 0, 0, 0xFF, 0, 0, 0, 0])) ∧
     (∀ n rest, s.zs.notices.records = n :: rest →
       ((s.zs.notices.gap = 0 ∨ rest.any Notice.isGap = true) →
         exec .sense s = .next { s with zs := { s.zs with
           notices := { s.zs.notices with records := rest }
           port := s.zs.port.withResult (0x00 :: n.bytes) } }) ∧
       (s.zs.notices.gap ≠ 0 → rest.any Notice.isGap = false →
         exec .sense s = .next { s with zs := { s.zs with
           notices := { s.zs.notices with records := rest ++ [.gap s.zs.notices.gap], gap := 0 }
           port := s.zs.port.withResult (0x00 :: n.bytes) } }))) ∧
  (∀ (l : NoticeLog) (n : Notice),
     (l.masks n = true ↔ l.mask.getLsbD n.code = true ∧ n.code ≠ 12 ∧ n.code ≠ 15) ∧
     (l.masks n = true → l.log n = l) ∧
     (l.masks n = false → l.records.length < 16 → l.gap = 0 → l.log n = { l with records := l.records ++ [n] }) ∧
     (l.masks n = false → 16 ≤ l.records.length ∨ l.gap ≠ 0 → l.gap < 255 →
       l.log n = { l with gap := l.gap + 1 }) ∧
     (l.masks n = false → l.gap = 255 → l.log n = l)) ∧
  ((∀ (k : Zone) (i : Ident) (p : Priority) (prev : Option StationNo) (cause : ZoneCause),
      (Notice.zoneChange k (some (i, p)) prev cause).bytes =
        [1, byte k.val, byte i.station.val, prev.elim 0 (byte ·.val), byte i.channel.val, byte p.val,
          match cause with
          | .claimed => 1
          | .dropped => 2
          | .closed => 3
          | .purged => 4
          | .displaced => 5, 0, 0]) ∧
   (∀ (k : Zone) (prev : Option StationNo) (cause : ZoneCause),
      (Notice.zoneChange k none prev cause).bytes =
        [1, byte k.val, 0, prev.elim 0 (byte ·.val), 0xFF, 0,
          match cause with
          | .claimed => 1
          | .dropped => 2
          | .closed => 3
          | .purged => 4
          | .displaced => 5, 0, 0]) ∧
   (∀ (k : Zone) (x : StationNo) (c : Channel) (p : Priority),
      (Notice.claimStartedLate k x c p).bytes = [2, byte k.val, byte x.val, 0, byte c.val, byte p.val, 0, 0, 0] ∧
      (Notice.claimPreempted k x c p).bytes = [3, byte k.val, byte x.val, 0, byte c.val, byte p.val, 0, 0, 0] ∧
      (Notice.claimDisplaced k x c p).bytes = [4, byte k.val, byte x.val, 0, byte c.val, byte p.val, 0, 0, 0]) ∧
   (∀ (x : StationNo) (c : Channel),
      (Notice.channelExpired x c).bytes = [5, 0xFF, byte x.val, 0, byte c.val, 0, 0, 0, 0]) ∧
   (∀ x : StationNo, (Notice.peerJoined x).bytes = [6, 0xFF, byte x.val, 0, 0xFF, 0, 0, 0, 0] ∧
      (Notice.peerLost x .restart).bytes = [7, 0xFF, byte x.val, 0, 0xFF, 0, 1, 0, 0] ∧
      (Notice.peerLost x .bye).bytes = [7, 0xFF, byte x.val, 0, 0xFF, 0, 2, 0, 0] ∧
      (Notice.peerLost x .evict).bytes = [7, 0xFF, byte x.val, 0, 0xFF, 0, 3, 0, 0] ∧
      (Notice.selfEvicted x).bytes = [9, 0xFF, byte x.val, 0, 0xFF, 0, 0, 0, 0]) ∧
   (∀ n : Nat, (Notice.joined n).bytes = [8, 0xFF, 0, 0, 0xFF, 0, 0, byte (n / 256), byte n] ∧
      (Notice.gap n).bytes = [15, 0xFF, 0, 0, 0xFF, 0, 0, byte (n / 256), byte n]) ∧
   (∀ kind : LineKind, (Notice.isolated kind).bytes = [10, 0xFF, 0, 0, 0xFF, 0, byte kind.code, 0, 0]) ∧
   (∀ x : Option StationNo,
      (Notice.resync .diverged x).bytes = [11, 0xFF, x.elim 0 (byte ·.val), 0, 0xFF, 0, 1, 0, 0] ∧
      (Notice.resync .stranger x).bytes = [11, 0xFF, x.elim 0 (byte ·.val), 0, 0xFF, 0, 2, 0, 0] ∧
      (Notice.resync .vetoLimit x).bytes = [11, 0xFF, x.elim 0 (byte ·.val), 0, 0xFF, 0, 3, 0, 0]) ∧
   (Notice.clashed .readBack).bytes = [12, 0xFF, 0, 0, 0xFF, 0, 1, 0, 0] ∧
   (Notice.clashed .received).bytes = [12, 0xFF, 0, 0, 0xFF, 0, 2, 0, 0] ∧
   (∀ (x : StationNo) (d : Digest),
      (Notice.digestMismatch x d).bytes =
        [13, 0xFF, byte x.val, 0, 0xFF, 0, 0, byte (d.toNat / 256), byte d.toNat]) ∧
   (∀ (kind : LineKind) (x : Option StationNo) (c : Option Channel),
      (Notice.lineFault kind x c).bytes =
        [14, 0xFF, x.elim 0 (byte ·.val), 0, c.elim 0xFF (byte ·.val), 0, byte kind.code, 0, 0]) ∧
   (∀ n : Notice, n.bytes.head? = some (byte n.code) ∧ 1 ≤ n.code ∧ n.code ≤ 15) ∧
   (LineKind.hello.code = 1 ∧ LineKind.bye.code = 2 ∧ LineKind.evict.code = 3 ∧ LineKind.close.code = 4 ∧
    LineKind.drop.code = 5 ∧ LineKind.openCh.code = 6 ∧ LineKind.claim.code = 7 ∧ LineKind.presence.code = 8))

/-- The ABORT code written in READY gives NO_COMMAND, and a code that names no command gives INVALID (R153). The
result codes are those of R199. The row writes the whole command (log entry 5), and 0x00 is shifted out (R149). -/
def Obligations.UnknownCodesAndNoCommand : Prop :=
  (∀ s : State, s.CanWrite →
    exec .noCommand s = .next (s.answers [0x03]) ∧
    ∀ code : Byte, code ∉ commandCodes → exec (.invalid code) s = .next (s.answers [0x02])) ∧
  (ResultCode.done.code = 0x00 ∧ ResultCode.badParam.code = 0x01 ∧ ResultCode.invalid.code = 0x02 ∧
   ResultCode.noCommand.code = 0x03 ∧ ResultCode.notConfigured.code = 0x04 ∧ ResultCode.onLine.code = 0x05 ∧
   ResultCode.offLine.code = 0x06 ∧ ResultCode.notJoined.code = 0x07 ∧ ResultCode.clashed.code = 0x08 ∧
   ResultCode.inputBusy.code = 0x09 ∧ ResultCode.queueFull.code = 0x0A ∧ ResultCode.notOwner.code = 0x0B ∧
   ResultCode.channelTaken.code = 0x0C ∧ ResultCode.alreadyOwned.code = 0x0D ∧ ResultCode.noChannel.code = 0x0E ∧
   ResultCode.nothingHeld.code = 0x0F ∧ ResultCode.lineFault.code = 0x10 ∧ ResultCode.isolated.code = 0x11 ∧
   ResultCode.evicted.code = 0x12 ∧ ResultCode.resync.code = 0x13 ∧ ResultCode.aborted.code = 0x14)

/-! ### The control pair -/

/-- The receiver on bits between frames: eleven recessive bit times take GAP to IDLE, a dominant bit restarts the
count, a start bit takes IDLE to FRAME (R2). That a START_BIT in GAP counts as a dominant bit is the model's choice
(log entry 25). -/
def Obligations.ReceiverBetweenFrames : Prop :=
  ∀ s : State, s.Awake →
    (∀ n : Nat, s.zs.line.receiver = .gap →
      (11 ≤ s.zs.line.gapBits + n → exec (.idleGap n) s =
        .next { s with zs := { s.zs with line := { s.zs.line with receiver := .idle, gapBits := 0 } } }) ∧
      (s.zs.line.gapBits + n < 11 → exec (.idleGap n) s =
        .next { s with zs := { s.zs with line := { s.zs.line with gapBits := s.zs.line.gapBits + n } } })) ∧
    (∀ n : Nat, s.zs.line.receiver ≠ .gap → exec (.idleGap n) s = .next s) ∧
    (s.zs.line.receiver = .gap → exec .dominantBitDuringGap s =
      .next { s with zs := { s.zs with line := { s.zs.line with gapBits := 0 } } }) ∧
    (s.zs.line.receiver ≠ .gap → exec .dominantBitDuringGap s = .next s) ∧
    (s.zs.line.receiver = .idle → exec .startBit s =
      .next { s with zs := { s.zs with line := { s.zs.line with receiver := .frame } } }) ∧
    (s.zs.line.receiver = .gap → exec .startBit s =
      .next { s with zs := { s.zs with line := { s.zs.line with gapBits := 0 } } }) ∧
    (s.zs.line.receiver ≠ .idle → s.zs.line.receiver ≠ .gap → exec .startBit s = .next s)

/-- The arbitration value is (3 − class) × 32 + sender, ranges from 1 to 127, is sent as seven bits most significant
first, and the lowest value wins (R4, R23). -/
def Obligations.LowestArbitrationValueWins : Prop :=
  (∀ f : Frame, f.arbitration = (3 - f.cls.val) * 32 + f.sender.val ∧ f.arbitration ≤ 127 ∧
    (f.sender ≠ 0 → 1 ≤ f.arbitration) ∧
    f.encode.take 7 = [f.arbitration.testBit 6, f.arbitration.testBit 5, f.arbitration.testBit 4,
      f.arbitration.testBit 3, f.arbitration.testBit 2, f.arbitration.testBit 1, f.arbitration.testBit 0]) ∧
  (∀ (f : Frame) (rivals : List (BitVec 7)), f.wins rivals = true ↔ ∀ v ∈ rivals, f.arbitration ≤ v.toNat) ∧
  (∀ f g : Frame, (g.cls < f.cls ∨ (f.cls = g.cls ∧ f.sender < g.sender)) → f.arbitration < g.arbitration)

/-- ATTEMPT_BEGIN: with every condition of R12 met the head is finalized and a ready frame begins its arbitration
field; a head that waits changes nothing; with a condition missing nothing happens (R12, R13). ATTEMPT_BEGIN with a
single entry that finalization withdraws: the entry leaves the queue, and a host command ends with the result of its
kind's rule (R8, R13, R139). With further entries behind it or requests held, the freed slots are granted in the order
of R7, and the occasion goes on at once with the new head: its outcome is that of ATTEMPT_BEGIN in the state the
withdrawal leaves (R13). A generator that ends while the queue is full is log entry 14 (DEDUCED), remaining times are
log entry 22 (DESIGN CHOICE). -/
def Obligations.AttemptBeginsOrWithdrawsTheHead : Prop :=
  (∀ s : State, s.Awake →
     (∀ e rest, s.zs.onLine = true → s.zs.line.inq = [] → s.zs.line.receiver = .idle →
       s.zs.line.outq = e :: rest → s.zs.line.halt = false →
       (∀ f, s.zs.finalize e = .ready f → exec .attemptBegin s = .next { s with zs := { s.zs with
         line := { s.zs.line with
           attempt := some { frame := f, origin := e.origin, stage := .arbitration, dropped := false }
           receiver := .frame } } }) ∧
       (s.zs.finalize e = .wait → exec .attemptBegin s = .next s)) ∧
     (s.zs.onLine = false ∨ s.zs.line.inq ≠ [] ∨ s.zs.line.receiver ≠ .idle ∨ s.zs.line.outq = [] ∨
       s.zs.line.halt = true → exec .attemptBegin s = .next s)) ∧
  (∀ (s : State) (e : OutEntry) (r : Option ResultCode), s.Awake → s.zs.onLine = true → s.zs.line.inq = [] →
     s.zs.line.receiver = .idle → s.zs.line.outq = [e] → s.zs.line.halt = false → s.zs.NothingHeld →
     s.zs.finalize e = .withdraw r → ∃ t, exec .attemptBegin s = .next t ∧ t.pending = s.pending ∧
       t.zs.line = { s.zs.line with outq := [], fails := 0, vetoSeen := false } ∧
       (∀ code, e.origin = .host → r = some code → EndedWith s.zs.port t.zs.port [code.code]) ∧
       (e.origin ≠ .host ∨ r = none → t.zs.port = s.zs.port) ∧
       t.zs.table = s.zs.table ∧ t.zs.source = s.zs.source ∧ t.zs.mixer = s.zs.mixer ∧
       t.zs.notices = s.zs.notices ∧
       t.zs.memb = { s.zs.memb with evictQueued := match e.placed with
         | .evict x => s.zs.memb.evictQueued.filter (· ≠ x)
         | _ => s.zs.memb.evictQueued }) ∧
  (∀ (s : State) (e : OutEntry) (rest : List OutEntry) (r : Option ResultCode), s.Awake → s.zs.onLine = true →
     s.zs.line.inq = [] → s.zs.line.receiver = .idle → s.zs.line.outq = e :: rest → s.zs.line.halt = false →
     s.zs.finalize e = .withdraw r → ∃ u : State, u.pending = s.pending ∧
       exec .attemptBegin s = exec .attemptBegin u ∧
       (∀ code, e.origin = .host → r = some code → EndedWith s.zs.port u.zs.port [code.code]) ∧
       (e.origin ≠ .host ∨ r = none → u.zs.port = s.zs.port) ∧
       let z : Zs32 := { s.zs with
         line := { s.zs.line with outq := rest, fails := 0, vetoSeen := false }
         memb := { s.zs.memb with evictQueued := match e.placed with
           | .evict x => s.zs.memb.evictQueued.filter (· ≠ x)
           | _ => s.zs.memb.evictQueued }
         port := u.zs.port }
       GrantFrame z u.zs ∧ GrantedTo z u.zs rest)

/-- The finalization of PRESENCE, EVICT, HELLO, BYE and CLOSE (R13, R15, R16, R20). A restate OPEN is refreshed from
the input record and the remaining time in units of 100 ms rounded up, at least 1; a CLAIM is judged by the ownership
of its channel, and a restate CLAIM's zone set is rebuilt (R19, R21). The class of a PRESENCE by the model's clock
(log entry 21) and a remaining time from the model's milliseconds (log entry 22) are the model's choices (DESIGN
CHOICE). -/
def Obligations.FinalizationOfTheOtherKinds : Prop :=
  (∀ (z : Zs32) (e : OutEntry),
     (e.placed = .hello → z.finalize e = .ready { cls := 3, sender := z.me, body := .hello }) ∧
     (e.placed = .bye → z.finalize e = .ready { cls := 3, sender := z.me, body := .bye }) ∧
     (∀ c auto, e.placed = .close c auto →
       z.finalize e = .ready { cls := 2, sender := z.me, body := .close c auto }) ∧
     (∀ setup, e.placed = .presence → z.setup = some setup → z.finalize e = .ready
       { cls := if e.aged ∨ 10 * setup.interval.val < z.clock - e.placedAt then 3 else 0
         sender := setup.station, body := .presence setup.interval z.table.digest }) ∧
     (∀ x, e.placed = .evict x →
       ((∃ r, z.entry x = some r ∧ r.silence = .expired) →
         z.finalize e = .ready { cls := 3, sender := z.me, body := .evict x }) ∧
       ((∀ r, z.entry x = some r → r.silence ≠ .expired) → z.finalize e = .withdraw none))) ∧
  ((∀ (z : Zs32) (e : OutEntry) (c : Channel) (i i' : Input) (n : Option TimedLength),
     e.placed = .openCh (some c) i n true →
     (z.table.channels[c].owner ≠ some z.me → z.finalize e = .withdraw none) ∧
     (z.table.channels[c].owner = some z.me → z.source.inputOf c = some i' →
       ((z.source.get i').timer = .stopped →
         z.finalize e = .ready { cls := 1, sender := z.me, body := .openCh c i' none true }) ∧
       (∀ ms, (z.source.get i').timer = .running ms → z.finalize e =
         .ready { cls := 1, sender := z.me,
                  body := .openCh c i' (some (BitVec.ofNat 16 (max 1 ((ms + 99) / 100)))) true }) ∧
       ((z.source.get i').timer = .expired →
         z.finalize e = .ready { cls := 1, sender := z.me, body := .openCh c i' (some 1) true }))) ∧
   (∀ (z : Zs32) (e : OutEntry) (c : Channel) (p : Priority) (d : DuckLevel) (chime : Bool) (zones : ZoneSet),
     (e.placed = .claim c p d chime zones false →
       (z.table.channels[c].owner ≠ some z.me → z.finalize e = .withdraw (some .notOwner)) ∧
       (z.table.channels[c].owner = some z.me →
         z.finalize e = .ready { cls := 1, sender := z.me, body := .claim c p d chime zones false })) ∧
     (e.placed = .claim c p d chime zones true →
       (z.table.channels[c].owner ≠ some z.me → z.finalize e = .withdraw none) ∧
       ∀ held : ZoneSet,
         (∀ k : Zone, held.getLsbD k.val = true ↔ z.ownClaim k =
           some { station := z.me, channel := c, priority := p, duck := d, chime := chime }) →
         z.table.channels[c].owner = some z.me →
         (held = 0 → z.finalize e = .withdraw none) ∧
         (held ≠ 0 →
           z.finalize e = .ready { cls := 1, sender := z.me, body := .claim c p d chime held true }))))

/-- An OPEN that names an explicit channel and is not a restate: withdrawn with CHANNEL_TAKEN if the channel has an
owner, waiting if it is DRAINING, ready as placed if it is FREE (R17). An OPEN that names ANY: ready with the
lowest-numbered FREE channel, waiting if none is FREE and some is DRAINING, withdrawn with NO_CHANNEL otherwise (R18).
-/
def Obligations.FinalizationOfFreshOpens : Prop :=
  (∀ (z : Zs32) (e : OutEntry) (c : Channel) (i : Input) (n : Option TimedLength),
     e.placed = .openCh (some c) i n false →
     (∀ x, z.table.channels[c].owner = some x → z.finalize e = .withdraw (some .channelTaken)) ∧
     (z.table.channels[c].owner = none → z.table.channels[c].phase = .draining → z.finalize e = .wait) ∧
     (z.table.channels[c].owner = none → z.table.channels[c].phase = .free →
       z.finalize e = .ready { cls := 1, sender := z.me, body := .openCh c i n false })) ∧
  (∀ (z : Zs32) (e : OutEntry) (i : Input) (n : Option TimedLength), e.placed = .openCh none i n false →
     (∀ c : Channel, z.table.channels[c].phase = .free → (∀ k : Channel, k < c → z.table.channels[k].phase ≠ .free) →
       z.finalize e = .ready { cls := 1, sender := z.me, body := .openCh c i n false }) ∧
     ((∀ k : Channel, z.table.channels[k].phase ≠ .free) → (∃ k : Channel, z.table.channels[k].phase = .draining) →
       z.finalize e = .wait) ∧
     ((∀ k : Channel, z.table.channels[k].phase = .opening ∨ z.table.channels[k].phase = .live) →
       z.finalize e = .withdraw (some .noChannel)))

/-- A DROP is narrowed to the zones in which this station holds a claim, or the zones where it holds one on the
channel; withdrawn with NOTHING_HELD when the set is empty, ready with it otherwise; the entry stays as placed, so the
next attempt narrows it afresh (R22). -/
def Obligations.FinalizationOfDrops : Prop :=
  ∀ (z : Zs32) (e : OutEntry) (set : ZoneSet),
    ((∃ zones : ZoneSet, e.placed = .dropZones zones ∧ ∀ k : Zone, set.getLsbD k.val = true ↔
        zones.getLsbD k.val = true ∧ ∃ cl ∈ z.table.zones[k], cl.station = z.me) ∨
      (∃ c : Channel, e.placed = .dropChannel c ∧ ∀ k : Zone, set.getLsbD k.val = true ↔
        ∃ cl, z.ownClaim k = some cl ∧ cl.channel = c)) →
    (set = 0 → z.finalize e = .withdraw (some .nothingHeld)) ∧
    (set ≠ 0 → z.finalize e = .ready { cls := 2, sender := z.me, body := .drop set }) ∧
    (∀ (s t : State) (rest : List OutEntry), s.zs = z → set ≠ 0 → z.line.outq = e :: rest →
      exec .attemptBegin s = .next t → t.zs.line.outq = e :: rest)

/-- The end of the arbitration field: the winner goes on sending, with its command in SENDING and a held ABORT
discarded; the loser keeps its entry and attempt record, unless an ABORT was held: then the entry leaves and the
command ends with ABORTED (R23, R123, R144, R145), whatever the command: the free slots go to the held requests (R7),
a CLOSE whose timed channel has run out is followed by its automatic CLOSE (R84), a JOIN goes back to OFFLINE and a
LEAVE makes a rejoin (R147). That the grants come first is log entry 27 (DEDUCED); a generator that ends while the
queue is full is log entry 14 (DEDUCED), remaining times are log entry 22 (DESIGN CHOICE). -/
def Obligations.ArbitrationEndsWonOrLost : Prop :=
  ∀ (s : State) (a : Attempt) (rivals : List (BitVec 7)), s.Awake → s.zs.line.attempt = some a →
    a.stage = .arbitration →
    ((∀ v ∈ rivals, a.frame.arbitration ≤ v.toNat) →
      (a.carriesHost = false → exec (.arbitrationEnd rivals) s = .next { s with zs := { s.zs with
        line := { s.zs.line with attempt := some { a with stage := .sending } } } }) ∧
      (a.carriesHost = true → exec (.arbitrationEnd rivals) s = .next { s with zs := { s.zs with
        line := { s.zs.line with attempt := some { a with stage := .sending } }
        port := { s.zs.port with
          cmd := s.zs.port.cmd.map fun e => { e with stage := .sending, heldAbort := false } } } })) ∧
    ((∃ v ∈ rivals, v.toNat < a.frame.arbitration) →
      (a.carriesHost && s.zs.abortHeld) = false →
      exec (.arbitrationEnd rivals) s =
        .next { s with zs := { s.zs with line := { s.zs.line with attempt := none } } }) ∧
    (∀ e, (∃ v ∈ rivals, v.toNat < a.frame.arbitration) → a.carriesHost = true → s.zs.port.cmd = some e →
      e.heldAbort = true → (∀ c, e.command ≠ .close c) → e.command ≠ .join → e.command ≠ .leave →
      s.zs.NothingHeld → s.zs.line.outq = [] ∨ (∃ x rest, s.zs.line.outq = x :: rest ∧ x.origin = .host) →
      exec (.arbitrationEnd rivals) s = .next { s with zs := { s.zs with
        line := { s.zs.line with
          attempt := none, outq := s.zs.line.outq.tail
          fails := if s.zs.line.outq = [] then s.zs.line.fails else 0
          vetoSeen := if s.zs.line.outq = [] then s.zs.line.vetoSeen else false }
        port := { s.zs.port with
          phase := .result, cmdBuf := [], resBuf := [0x14], readPos := 0, firstByte := false, cmd := none } } }) ∧
    (∀ e, (∃ v ∈ rivals, v.toNat < a.frame.arbitration) → a.carriesHost = true → s.zs.port.cmd = some e →
      e.heldAbort = true → (s.zs.line.outq.filter fun x => x.origin = .host).length = 1 →
      ∃ t, exec (.arbitrationEnd rivals) s = .next t ∧ t.pending = s.pending ∧
        AbortTaken { s.zs with line := { s.zs.line with attempt := none } } t.zs e.command ∧
        EndedWith s.zs.port t.zs.port [0x14])

/-- A clash read back: table clear, CLASHED, the receiver OFF, the notice CLASHED with READ_BACK, then CLASHED for the
command in execution (R24, R184, R142). The sender check in JOINED and in LISTENING: a frame under this station's
number that it did not send is a clash; a frame of another kind than HELLO from a station not in the roster is a
stranger's in JOINED (R39, R185, R188). In LISTENING a frame of another kind than HELLO from an unknown sender is
processed as though the sender had just been added to the roster, without a notice (R38, R39). That a clash read back
while the own frame was dropped is still a clash is log entry 11. -/
def Obligations.ClashesAndStrangers : Prop :=
  (∀ (s : State) (a : Attempt), s.Awake → s.zs.line.attempt = some a → a.stage = .sending →
     ∃ t, exec .clashReadBack s = .next t ∧ t.pending = s.pending ∧ WentOff s.zs t.zs .clashed ∧
       t.zs.notices = s.zs.notices.log (.clashed .readBack) ∧
       (s.zs.port.cmd ≠ none → EndedWith s.zs.port t.zs.port [0x08]) ∧
       (s.zs.port.cmd = none → t.zs.port = s.zs.port)) ∧
  (∀ (s : State) (f : InFrame) (rest : List InFrame), s.Processes f rest → f.mark = none →
     (f.frame.sender = s.zs.me → ∃ t, exec f.frame.body.row s = .next t ∧ t.pending = s.pending ∧
       WentOff s.zs t.zs .clashed ∧ t.zs.notices = s.zs.notices.log (.clashed .received) ∧
       EndedWith s.zs.port t.zs.port [0x08]) ∧
     (f.frame.sender ≠ s.zs.me → f.frame.body ≠ .hello → s.zs.knows f.frame.sender = false →
       s.zs.memb.state = .joined →
       (s.zs.leaving = false → ∃ t, exec f.frame.body.row s = .next t ∧ t.pending = s.pending ∧
         RejoinedWith s.zs t.zs (.resync .stranger (some f.frame.sender)) ∧
         t.zs.line.receiver = s.zs.line.receiver ∧ EndedWith s.zs.port t.zs.port [0x13, 2]) ∧
       (s.zs.leaving = true → ∃ t, exec f.frame.body.row s = .next t ∧ t.pending = s.pending ∧
         WentOff s.zs t.zs .offline ∧ t.zs.notices = s.zs.notices ∧ EndedWith s.zs.port t.zs.port [0x13, 2]))) ∧
  (∀ (s : State) (f : InFrame) (rest : List InFrame), s.Processes f rest → f.mark = none →
     f.frame.sender ≠ s.zs.me → f.frame.body ≠ .hello → s.zs.knows f.frame.sender = false →
     s.zs.memb.state = .listening →
     ∃ before after : List RosterEntry,
       (s.zs.RosterOk → s.zs.memb.roster = before ++ after ∧ (∀ e ∈ before, e.station < f.frame.sender) ∧
         (∀ e ∈ after, f.frame.sender < e.station)) ∧
       exec f.frame.body.row s = exec f.frame.body.row { s with zs := { s.zs with memb := { s.zs.memb with
         roster := before ++ { station := f.frame.sender, interval := none, silence := .stopped, digest := none }
           :: after } } })

/-- The last bit of the CRC: a receiver drives heard for a frame that passes its check while it has room, and veto for
every other; the sender drives neither slot (R2, R25, R176). The verdict is made at this row (log entry 9). -/
def Obligations.SlotsAnswerTheReceivedFrame : Prop :=
  ∀ (s : State) (bits : List Bool), s.Awake → s.zs.line.receiver = .frame →
    (s.zs.line.attempt = none → ∃ t, exec (.frameReceived bits) s = .next t ∧ t.pending = s.pending ∧
      t.zs = { s.zs with line := { s.zs.line with receiver := .slots, reception := t.zs.line.reception } } ∧
      (t.zs.drivesHeard = true ↔
        (∃ f : Frame, f.wellFormed = true ∧ bits = f.encode) ∧ s.zs.line.inq.length < 4) ∧
      (t.zs.drivesVeto = true ↔
        ¬ ((∃ f : Frame, f.wellFormed = true ∧ bits = f.encode) ∧ s.zs.line.inq.length < 4))) ∧
    (∀ a, s.zs.line.attempt = some a → a.stage = .sending → s.zs.line.reception = none →
      ∃ t, exec (.frameReceived bits) s = .next t ∧
        t = { s with zs := { s.zs with
          line := { s.zs.line with receiver := .slots, attempt := some { a with stage := .slots } } } } ∧
        t.zs.drivesHeard = false ∧ t.zs.drivesVeto = false)

/-- Every well-formed frame is read back from its 89 bits on the line, with every field (R196). The length and the
groups of a frame on the line: 89 bits after the start bit, a dominant sync bit after each of the first nine groups of
eight, and the CRC of the generator x¹⁶ + x¹² + x⁵ + 1 over frame bits 1 to 64, started from all ones (R196). Those 64
bits are 3 − class, the sender, the kind and the field area of each kind bit by bit, most significant bit first, a
zone set from zone 31 to zone 0 (R196). -/
def Obligations.FramesSurviveTheLine : Prop :=
  (∀ f : Frame, f.wellFormed = true → decodeFrame f.encode = some f) ∧
  (∀ f : Frame, f.encode.length = 89 ∧ f.head64.length = 64 ∧
     (∀ g : Fin 9, f.encode[9 * g.val + 8]? = some false) ∧
     (∀ n : Fin 80, f.encode[n.val + n.val / 8]? = f.bits80[n.val]?) ∧
     f.bits80 = f.head64 ++ bitsOf 16 (crc16 f.head64).toNat ∧
     crc16 f.head64 = f.head64.foldl crcStep 0xFFFF ∧
     (∀ (c : BitVec 16) (b : Bool), crcStep c b = (c <<< 1) ^^^ (if c.msb = b then 0 else 0x1021))) ∧
  (let bits : Nat → Nat → List Bool := fun w n => List.ofFn fun i : Fin w => n.testBit (w - 1 - i.val)
   let flag : Bool → List Bool := fun b => [b]
   let zoneBits : ZoneSet → List Bool := fun zones => List.ofFn fun i : Fin 32 => zones.getLsbD (31 - i.val)
   let zeros : Nat → List Bool := fun n => List.replicate n false
   ∀ f : Frame, f.bits80 = f.head64 ++ bits 16 (crc16 f.head64).toNat ∧
     f.head64 = bits 2 (3 - f.cls.val) ++ bits 5 f.sender.val ++ match f.body with
       | .hello => bits 5 1 ++ zeros 52
       | .bye => bits 5 2 ++ zeros 52
       | .evict x => bits 5 3 ++ bits 5 x.val ++ zeros 47
       | .close c auto => bits 5 4 ++ bits 5 c.val ++ flag auto ++ zeros 46
       | .drop zones => bits 5 5 ++ zoneBits zones ++ zeros 20
       | .openCh c i n restate => bits 5 6 ++ bits 5 c.val ++ (match i with
           | .a => [false, true]
           | .b => [true, false]) ++ flag restate ++ (match n with
           | none => flag false ++ zeros 16
           | some len => flag true ++ bits 16 len.toNat) ++ zeros 27
       | .claim c p d chime zones restate =>
         bits 5 7 ++ bits 5 c.val ++ bits 3 p.val ++ bits 5 d.val ++ flag chime ++ flag restate ++ zoneBits zones ++
           zeros 5
       | .presence iv dg => bits 5 8 ++ bits 7 iv.val ++ bits 16 dg.toNat ++ zeros 29)

/-- A receiver takes nothing but the exact bits of a well-formed frame: sync bits, CRC, zero bits and ranges all hold
(R176, R196). -/
def Obligations.OnlyExactFramesPassTheCheck : Prop :=
  ∀ (bits : List Bool) (f : Frame), decodeFrame bits = some f → f.wellFormed = true ∧ bits = f.encode

/-- The own frame is accepted when its veto slot passed undriven and its heard slot was driven or the roster is empty:
it enters the inbound queue with its mark, leaves the outbound queue, and the attempt record starts anew (R26, R27,
R183). The unit that asked for it takes up the acceptance: the join window of a HELLO, the mark of a PRESENCE, the
target of an EVICT, the input of an OPEN or a CLOSE (R48, R51, R52, R74, R76). Then the free slots go to the held
requests in the order of R7: the PRESENCE, the EVICTs, the automatic CLOSEs of input A and input B, the restate
generator. Remaining times are in the model's milliseconds (log entry 22, DESIGN CHOICE); that the generator's run
flag stays set while the queue is full though its sequence is done is log entry 14 (DEDUCED); the slot operands tell
what other stations drove (log entry 8). -/
def Obligations.OwnFrameIsAccepted : Prop :=
  ∀ (s : State) (a : Attempt) (heard : Bool), s.Awake → s.zs.line.receiver = .slots →
    s.zs.line.attempt = some a → a.dropped = false → (heard = true ∨ s.zs.memb.roster = []) →
    let memb : Membership := match a.frame.body with
      | .hello => if s.zs.memb.state = .listening then
          { s.zs.memb with joinWindow := .running (max (s.zs.setup.elim 0 fun p => 30 * p.interval.val) 500) }
        else s.zs.memb
      | .presence _ _ => { s.zs.memb with presenceQueued := false }
      | .evict x => { s.zs.memb with evictQueued := s.zs.memb.evictQueued.filter fun y => y ≠ x }
      | _ => s.zs.memb
    let source : Source := match a.frame.body with
      | .openCh c i n false => s.zs.source.set i { s.zs.source.get i with
          starting := some c, driving := some c
          timer := n.elim .stopped fun w => .running (100 * w.toNat) }
      | .close c _ => (s.zs.source.inputOf c).elim s.zs.source fun i =>
          s.zs.source.set i { s.zs.source.get i with driving := none }
      | _ => s.zs.source
    ∃ t, exec (.vetoSlotEnd heard false) s = .next t ∧ t.pending = s.pending ∧
      t.zs.line.inq = s.zs.line.inq ++ [{ frame := a.frame, mark := some a.origin }] ∧
      GrantedTo { s.zs with memb := memb, source := source } t.zs s.zs.line.outq.tail ∧
      t.zs.line.fails = 0 ∧ t.zs.line.vetoSeen = false ∧ t.zs.line.vetoCount = 0 ∧
      t.zs.line.receiver = .gap ∧ t.zs.line.attempt = none ∧ t.zs.line.halt = s.zs.line.halt ∧
      (a.origin ≠ .host → t.zs.port = s.zs.port) ∧
      (∀ e, a.origin = .host → s.zs.port.cmd = some e →
        t.zs.port = { s.zs.port with cmd := some { e with stage := .inbound } }) ∧
      t.zs.memb.joinWindow = memb.joinWindow ∧ t.zs.memb.presenceTimer = s.zs.memb.presenceTimer ∧
      t.zs.memb.disagreement = s.zs.memb.disagreement ∧
      t.zs.table = s.zs.table ∧ t.zs.mixer = s.zs.mixer ∧ t.zs.notices = s.zs.notices ∧
      t.zs.setup = s.zs.setup ∧ t.zs.memb.roster = s.zs.memb.roster ∧ t.zs.memb.state = s.zs.memb.state

/-- A failed attempt below the eighth: vetoed, or unheard while the roster is not empty; the count rises by one, a
veto sets the mark, the frame stays at the head and a host command is in QUEUED again (R28, R123). The outcome of a
frame that an emptying dropped while it was on the line is disregarded, but a CLOSE that was heard and not vetoed
stops the driving of its slot (R9, R76). The slot operands tell what other stations drove (log entry 8). -/
def Obligations.FailedAndDroppedAttempts : Prop :=
  (∀ (s : State) (a : Attempt) (heard veto : Bool), s.Awake → s.zs.line.receiver = .slots →
     s.zs.line.attempt = some a → a.dropped = false → (veto = true ∨ (heard = false ∧ s.zs.memb.roster ≠ [])) →
     s.zs.line.fails < 7 →
     exec (.vetoSlotEnd heard veto) s = .next { s with zs := { s.zs with
       line := { s.zs.line with receiver := .gap, gapBits := 0, attempt := none, reception := none,
                                fails := s.zs.line.fails + 1, vetoSeen := s.zs.line.vetoSeen || veto }
       port := if a.origin = .host then
           { s.zs.port with cmd := s.zs.port.cmd.map fun e => { e with stage := .queued } }
         else s.zs.port } }) ∧
  (∀ (s : State) (a : Attempt) (heard veto : Bool), s.Awake → s.zs.line.receiver = .slots →
     s.zs.line.attempt = some a → a.dropped = true →
     ((∀ c auto, a.frame.body ≠ .close c auto) ∨ heard = false ∨ veto = true →
       exec (.vetoSlotEnd heard veto) s = .next { s with zs := { s.zs with
         line := { s.zs.line with receiver := .gap, gapBits := 0, attempt := none, reception := none } } }) ∧
     (∀ c auto i, a.frame.body = .close c auto → s.zs.source.inputOf c = some i →
       exec (.vetoSlotEnd true false) s = .next { s with zs := { s.zs with
         line := { s.zs.line with receiver := .gap, gapBits := 0, attempt := none, reception := none }
         source := s.zs.source.set i { s.zs.source.get i with driving := none } } }))

/-- A peer's good frame is accepted by a station with room unless another station vetoed it; then it leaves no trace
(R26, R27). An EVICT naming this station acts at its acceptance: the outbound queue is emptied, the send halt set and
driving turned off at both inputs; then the eight free slots are granted to the held requests, and the frame waits for
its processing (R7, R9, R29, R76). A request whose automatic CLOSE the emptying drops becomes none; one whose CLOSE
waits in the inbound queue stays queued (R81). The slot operands and the moment at which the room is read are log
entries 8 and 9; a generator that ends while the queue is full is log entry 14 (DEDUCED), remaining times are log entry
22 (DESIGN CHOICE). -/
def Obligations.PeerFrameIsAccepted : Prop :=
  (∀ (s : State) (f : Frame) (heard : Bool), s.Awake → s.zs.line.receiver = .slots → s.zs.line.attempt = none →
     s.zs.line.reception = some (.good f) → s.zs.line.inq.length < 4 →
     (f.body ≠ .evict s.zs.me → exec (.vetoSlotEnd heard false) s = .next { s with zs := { s.zs with
       line := { s.zs.line with receiver := .gap, gapBits := 0, attempt := none, reception := none,
                                inq := s.zs.line.inq ++ [{ frame := f, mark := none }], vetoCount := 0 } } }) ∧
     (exec (.vetoSlotEnd heard true) s = .next { s with zs := { s.zs with
       line := { s.zs.line with receiver := .gap, gapBits := 0, attempt := none, reception := none } } })) ∧
  (∀ (s : State) (f : Frame) (heard : Bool), s.Awake → s.zs.line.receiver = .slots → s.zs.line.attempt = none →
     s.zs.line.reception = some (.good f) → s.zs.line.inq.length < 4 → f.body = .evict s.zs.me →
     let dropped : Input → InputRec := fun i => { s.zs.source.get i with
       driving := none
       request := if (s.zs.source.get i).request = .queued ∧ ∃ e ∈ s.zs.line.outq, e.origin = .source i then .none
         else (s.zs.source.get i).request }
     let z : Zs32 := { s.zs with
       line := { s.zs.line with
         outq := [], inq := s.zs.line.inq ++ [{ frame := f, mark := none }], halt := true, fails := 0
         vetoSeen := false, vetoCount := 0, receiver := .gap, gapBits := 0, attempt := none, reception := none }
       memb := { s.zs.memb with presenceQueued := false, evictQueued := [] }
       source := { inA := dropped .a, inB := dropped .b }
       port := { s.zs.port with cmd := s.zs.port.cmd.map fun e =>
         { e with stage := if e.stage = .queued ∨ e.stage = .sending then .detached else e.stage } } }
     ∃ t, exec (.vetoSlotEnd heard false) s = .next t ∧ t.pending = s.pending ∧ GrantFrame z t.zs ∧
       GrantedTo z t.zs [] ∧ (s.zs.NothingHeld → t.zs = z))

/-- The own veto counts at the end of its veto slot; at the sixteenth in a row the station makes a rejoin with RESYNC
VETO_LIMIT, or with a LEAVE in execution goes OFFLINE with the result RESYNC and without the notice (R26, R34, R178).
That the VETO_LIMIT row is the same end of a veto slot as VETO_SLOT_END, and so counts below the sixteenth too, is log
entry 7 (DEDUCED); that the room is read at the end of the slot is log entry 9 (DEDUCED). -/
def Obligations.SixteenthOwnVetoResynchronizes : Prop :=
  ∀ (s : State) (r : Reception) (row : Instr), s.Awake → s.zs.line.receiver = .slots → s.zs.line.attempt = none →
    s.zs.line.reception = some r → (r = .bad ∨ 4 ≤ s.zs.line.inq.length) →
    (row = .vetoLimit ∨ ∃ heard veto, row = .vetoSlotEnd heard veto) →
    (s.zs.line.vetoCount < 15 → exec row s = .next { s with zs := { s.zs with
      line := { s.zs.line with receiver := .gap, gapBits := 0, attempt := none, reception := none,
                               vetoCount := s.zs.line.vetoCount + 1 } } }) ∧
    (s.zs.line.vetoCount = 15 → s.zs.leaving = false → ∃ t, exec row s = .next t ∧ t.pending = s.pending ∧
      RejoinedWith s.zs t.zs (.resync .vetoLimit none) ∧ t.zs.line.receiver = .gap ∧
      EndedWith s.zs.port t.zs.port [0x13, 3]) ∧
    (s.zs.line.vetoCount = 15 → s.zs.leaving = true → ∃ t, exec row s = .next t ∧ t.pending = s.pending ∧
      WentOff s.zs t.zs .offline ∧ t.zs.notices = s.zs.notices ∧ EndedWith s.zs.port t.zs.port [0x13, 3])

/-- The eighth failed attempt with no veto in any of them is isolation: a rejoin with ISOLATED, or OFFLINE with
LINE_FAULT for a LEAVE (R28, R140, R180, R182). The row is the end of the veto slot (log entry 7). -/
def Obligations.EighthUnheardAttemptIsIsolation : Prop :=
  ∀ (s : State) (a : Attempt), s.Awake → s.zs.line.receiver = .slots → s.zs.line.attempt = some a →
    a.dropped = false → s.zs.line.fails = 7 → s.zs.line.vetoSeen = false → s.zs.memb.roster ≠ [] →
    (s.zs.leaving = false → ∃ t, exec (.eighthFailedAttempt false false) s = .next t ∧ t.pending = s.pending ∧
      RejoinedWith s.zs t.zs (.isolated a.frame.body.kind) ∧ t.zs.line.receiver = .gap ∧
      EndedWith s.zs.port t.zs.port [0x11]) ∧
    (s.zs.leaving = true → ∃ t, exec (.eighthFailedAttempt false false) s = .next t ∧ t.pending = s.pending ∧
      WentOff s.zs t.zs .offline ∧ t.zs.notices = s.zs.notices ∧ EndedWith s.zs.port t.zs.port [0x10])

/-- The eighth failed attempt with a veto among the eight is a line fault: the frame leaves the queue with the mark of
the block that asked for it, the free slots are handed out in the order of R7, and then the follow-up is made (R28,
R180, R181). A host frame: LINE_FAULT for the command without a notice, and for a JOIN or a LEAVE table clear and
OFFLINE (R140); after a CLOSE whose timed channel has run out the source unit asks for the automatic CLOSE at the same
event (R84). The membership unit's PRESENCE, EVICT, HELLO or restate: LINE_FAULT is logged with its kind; a HELLO is
renewed, an EVICT is asked for again while its target is silent, placed or held (R36, R48, R50, R51). An automatic
CLOSE: LINE_FAULT is logged with its channel and given to a merged command; while the channel is bound it is asked for
again, placed or held (R79, R81). The row is the end of the veto slot (log entry 7); a generator that ends while the
queue is full is log entry 14 (DEDUCED), remaining times are log entry 22 (DESIGN CHOICE); that a slot is left for a
renewed HELLO in every state of a run is log entry 32 (DEDUCED). -/
def Obligations.EighthVetoedAttemptIsALineFault : Prop :=
  ∀ (s : State) (a : Attempt) (heard veto : Bool), s.Awake → s.zs.line.receiver = .slots →
    s.zs.line.attempt = some a → a.dropped = false → s.zs.line.fails = 7 →
    (veto = true ∨ (s.zs.line.vetoSeen = true ∧ heard = false ∧ s.zs.memb.roster ≠ [])) →
    let body := a.frame.body
    (a.origin = .host → body = .hello ∨ body = .bye → ∃ t, exec (.eighthFailedAttempt heard veto) s = .next t ∧
      t.pending = s.pending ∧ WentOff s.zs t.zs .offline ∧ t.zs.notices = s.zs.notices ∧
      EndedWith s.zs.port t.zs.port [0x10]) ∧
    ∃ t u, exec (.eighthFailedAttempt heard veto) s = .next t ∧ t.pending = s.pending ∧ FailedHeadGone s.zs u a ∧
      (a.origin = .host →
        ((∃ zones, body = .drop zones) ∨ (∃ c i n, body = .openCh c i n false) ∨
            (∃ c p d ch zones, body = .claim c p d ch zones false) →
          t.zs = { u with port := t.zs.port } ∧ EndedWith s.zs.port t.zs.port [0x10]) ∧
        (∀ c auto, body = .close c auto → EndedWith s.zs.port t.zs.port [0x10] ∧
          (∀ i, s.zs.source.inputOf c = some i → (s.zs.source.get i).pending = true →
            AutoCloseAsked { u with port := t.zs.port } t.zs i c) ∧
          ((∀ i, s.zs.source.inputOf c = some i → (s.zs.source.get i).pending = false) →
            t.zs = { u with port := t.zs.port }))) ∧
      (a.origin = .membership →
        let v : LineKind → Option StationNo → Option Channel → Zs32 := fun k x c =>
          { u with notices := s.zs.notices.log (.lineFault k x c) }
        (body = .hello → u.line.outq.length < 8 → t.zs = { v .hello none none with
          line := { u.line with outq := u.line.outq ++ [entryOf .hello .membership s.zs.clock] } }) ∧
        (∀ iv d, body = .presence iv d → t.zs = v .presence none none) ∧
        (∀ c i n, body = .openCh c i n true → t.zs = v .openCh none (some c)) ∧
        (∀ c p d ch zones, body = .claim c p d ch zones true → t.zs = v .claim none (some c)) ∧
        (∀ x, body = .evict x →
          let asks := s.zs.memb.state = .joined ∧ s.zs.leaving = false ∧
            (∃ r, s.zs.entry x = some r ∧ r.silence = .expired) ∧ x ∉ u.memb.evictQueued ∧ x ∉ u.memb.evictHeld
          (asks → EvictAsked (v .evict (some x) none) t.zs x) ∧ (¬ asks → t.zs = v .evict (some x) none))) ∧
      (∀ i c auto, a.origin = .source i → body = .close c auto →
        let v : Zs32 := { u with
          source := u.source.set i { u.source.get i with merged := false }
          port := t.zs.port
          notices := s.zs.notices.log (.lineFault .close none (some c)) }
        let asks := (s.zs.source.get i).bound = some c ∧
          ((s.zs.source.get i).merged = true ∨ (s.zs.leaving = false ∧ s.zs.hostCloseRunning c = false))
        ((s.zs.source.get i).merged = true → EndedWith s.zs.port t.zs.port [0x10]) ∧
        ((s.zs.source.get i).merged = false → t.zs.port = s.zs.port) ∧
        (asks → AutoCloseAsked v t.zs i c) ∧ (¬ asks → t.zs = v))

/-! ### Frame processing -/

/-- A HELLO from a peer not in the roster adds its entry, its silence timer at 3000 ms in JOINED, and logs
PEER_JOINED; in JOINED with no LEAVE in execution the restate generator starts at the lowest own channel and places
its frames, an OPEN for each own channel and then a CLAIM for each tuple of own claims, while slots are free and no
other request waits (R7, R38, R40, R55 to R58). Remaining times are in the model's milliseconds (log entry 22, DESIGN
CHOICE); that the run flag stays set while the queue is full though the sequence is done is log entry 14 (DEDUCED). -/
def Obligations.HelloAddsThePeer : Prop :=
  (∀ (s : State) (f : InFrame) (rest : List InFrame), s.Processes f rest → f.mark = none →
    f.frame.body = .hello → f.frame.sender ≠ s.zs.me → s.zs.knows f.frame.sender = false →
    ∃ t, exec .hello s = .next t ∧ t.pending = s.pending ∧ t.zs.line.inq = rest ∧
      t.zs.knows f.frame.sender = true ∧
      t.zs.entry f.frame.sender = some { station := f.frame.sender, interval := none, digest := none
                                         silence := if s.zs.memb.state = .joined then .running 3000 else .stopped } ∧
      (t.zs.memb.roster.filter fun e => e.station ≠ f.frame.sender) = s.zs.memb.roster ∧
      t.zs.notices = s.zs.notices.log (.peerJoined f.frame.sender) ∧
      t.zs.table = s.zs.table ∧ t.zs.mixer = s.zs.mixer ∧ t.zs.port = s.zs.port ∧ t.zs.audio = s.zs.audio ∧
      t.zs.memb.state = s.zs.memb.state ∧
      (s.zs.memb.state = .listening ∨ s.zs.leaving = true →
        t.zs.line.outq = s.zs.line.outq ∧ t.zs.source = s.zs.source ∧
        t.zs.memb.restateRun = s.zs.memb.restateRun ∧ t.zs.memb.cursor = s.zs.memb.cursor) ∧
      (s.zs.memb.state = .joined → s.zs.leaving = false →
        GrantedTo { s.zs with memb := { s.zs.memb with restateRun := true, cursor := .openStep 0 } } t.zs
          s.zs.line.outq)) ∧
  (∀ (p : Zone → Bool) (k : Zone), (zonesWhere p).getLsbD k.val = p k)

/-- A peer leaves the roster by its own BYE, by an EVICT of a station of the line, or by a HELLO that says it has
restarted: its channels drain, its claims go, the outputs of the zones concerned follow, its entry goes with a held
EVICT request for it and a disagreement record that names it, a queued EVICT stays, and PEER_LOST is logged after the
notices of the comparison, whose cause is PURGED (R38, R40, R42, R44, R69, R96 to R105, R107, R190). A restarted peer
is added anew, and in JOINED with no LEAVE in execution the restate generator starts and the free slots are handed out
(R7, R40, R55); that the generator's run flag stays set while the queue is full though its sequence is done is log
entry 14 (DEDUCED), and remaining times are in the model's milliseconds (log entry 22, DESIGN CHOICE). An EVICT of
this station's own, come back with its mark, does the same to its target, and nothing where the target is not in the
roster (R44, R183). -/
def Obligations.PeersLeaveWithAPurge : Prop :=
  (∀ (s : State) (f : InFrame) (rest : List InFrame) (x : StationNo), s.Processes f rest → s.FromPeer f →
    s.zs.knows x = true →
    (f.frame.body = .bye → f.frame.sender = x → ∃ t, exec .bye s = .next t ∧ t.pending = s.pending ∧
      PeerRemoved s.zs t.zs (s.zs.memb.heardFrom x) x .bye rest ∧ t.zs.knows x = false) ∧
    (f.frame.body = .evict x → x ≠ s.zs.me → f.frame.sender ≠ x → ∃ t, exec .evict s = .next t ∧
      t.pending = s.pending ∧ PeerRemoved s.zs t.zs (s.zs.memb.heardFrom f.frame.sender) x .evict rest ∧
      t.zs.knows x = false) ∧
    (f.frame.body = .hello → f.frame.sender = x → ∃ (t : State) (log : NoticeLog), exec .hello s = .next t ∧
      t.pending = s.pending ∧ PurgedAndLost s.zs t.zs x .restart log ∧ t.zs.notices = log.log (.peerJoined x) ∧
      t.zs.entry x = some { station := x, interval := none, digest := none
                            silence := if s.zs.memb.state = .joined then .running 3000 else .stopped } ∧
      (t.zs.memb.roster.filter fun e => e.station ≠ x) = (s.zs.memb.without x).roster ∧
      let z : Zs32 := { s.zs with
        line := { s.zs.line with inq := rest }
        memb := { s.zs.memb.without x with roster := t.zs.memb.roster }
        table := t.zs.table, mixer := t.zs.mixer, notices := t.zs.notices }
      (s.zs.memb.state ≠ .joined ∨ s.zs.leaving = true → t.zs = z) ∧
      (s.zs.memb.state = .joined → s.zs.leaving = false →
        let z := { z with memb := { z.memb with restateRun := true, cursor := .openStep 0 } }
        GrantFrame z t.zs ∧ GrantedTo z t.zs s.zs.line.outq))) ∧
  (∀ (s : State) (f : InFrame) (rest : List InFrame) (x : StationNo), s.Processes f rest → f.mark ≠ none →
    f.frame.body = .evict x → x ≠ s.zs.me →
    (s.zs.knows x = true → ∃ t, exec .evict s = .next t ∧ t.pending = s.pending ∧
      PeerRemoved s.zs t.zs s.zs.memb x .evict rest ∧ t.zs.knows x = false) ∧
    (s.zs.knows x = false →
      exec .evict s = .next { s with zs := { s.zs with line := { s.zs.line with inq := rest } } }))

/-- The own HELLO and the own BYE come back: the JOIN ends with DONE and the roster stays; the LEAVE ends with DONE
after table clear and OFFLINE (R41, R42, R128, R130). The own HELLO of a rejoin changes nothing and forms no result
(R41). An EVICT naming this station is processed: a rejoin with
SELF_EVICTED and EVICTED for the command in execution, or OFFLINE and DONE for a LEAVE; an EVICT of a station not in
the roster has no further effect (R44, R45). -/
def Obligations.OwnHelloByeAndEvict : Prop :=
  (∀ (s : State) (f : InFrame) (rest : List InFrame), s.Processes f rest → f.mark = some .host →
     (f.frame.body = .hello → ∃ t, exec .hello s = .next t ∧ t.pending = s.pending ∧
       t.zs = { s.zs with line := { s.zs.line with inq := rest }, port := t.zs.port } ∧
       EndedWith s.zs.port t.zs.port [0x00]) ∧
     (f.frame.body = .bye → ∃ t, exec .bye s = .next t ∧ t.pending = s.pending ∧ WentOff s.zs t.zs .offline ∧
       t.zs.notices = s.zs.notices ∧ EndedWith s.zs.port t.zs.port [0x00])) ∧
  (∀ (s : State) (f : InFrame) (rest : List InFrame), s.Processes f rest → f.mark = some .membership →
     f.frame.body = .hello →
     exec .hello s = .next { s with zs := { s.zs with line := { s.zs.line with inq := rest } } }) ∧
  (∀ (s : State) (f : InFrame) (rest : List InFrame) (x : StationNo), s.Processes f rest → s.FromPeer f →
     f.frame.body = .evict x →
     (x = s.zs.me → s.zs.leaving = false → ∃ t, exec .evict s = .next t ∧ t.pending = s.pending ∧
       RejoinedWith s.zs t.zs (.selfEvicted f.frame.sender) ∧ t.zs.line.receiver = s.zs.line.receiver ∧
       EndedWith s.zs.port t.zs.port [0x12]) ∧
     (x = s.zs.me → s.zs.leaving = true → ∃ t, exec .evict s = .next t ∧ t.pending = s.pending ∧
       WentOff s.zs t.zs .offline ∧ t.zs.notices = s.zs.notices ∧ EndedWith s.zs.port t.zs.port [0x00]) ∧
     (x ≠ s.zs.me → s.zs.knows x = false → exec .evict s = .next { s with zs := { s.zs with
       line := { s.zs.line with inq := rest }, memb := s.zs.memb.heardFrom f.frame.sender } }))

/-- A PRESENCE from a peer in LISTENING records interval and digest and nothing else (R43, R189). In JOINED a PRESENCE
also restarts the silence timer at three times the interval, and its digest is compared: an equal one clears the
disagreement record, a differing one is logged and recorded, and a second peer that differs in the same way makes this
station resynchronize (R43, R189, R191). This station's own PRESENCE coming back changes nothing and is not compared
(R43, R189). -/
def Obligations.PresenceIsRecordedAndCompared : Prop :=
  (∀ (s : State) (f : InFrame) (rest : List InFrame) (iv : Interval) (d : Digest), s.Processes f rest →
     s.FromPeer f → f.frame.body = .presence iv d → s.zs.memb.state = .listening →
     exec .presence s = .next { s with zs := { s.zs with
       line := { s.zs.line with inq := rest }
       memb := { s.zs.memb with roster := s.zs.memb.roster.map fun e =>
         if e.station = f.frame.sender then { e with interval := some iv, digest := some d } else e } } }) ∧
  (∀ (s : State) (f : InFrame) (rest : List InFrame) (iv : Interval) (d : Digest), s.Processes f rest →
     s.FromPeer f → f.frame.body = .presence iv d → s.zs.memb.state = .joined →
     let roster := s.zs.memb.roster.map fun e =>
       if e.station = f.frame.sender then
         { e with interval := some iv, digest := some d, silence := .running (30 * iv.val) }
       else e
     (d = s.zs.table.digest → exec .presence s = .next { s with zs := { s.zs with
       line := { s.zs.line with inq := rest }
       memb := { s.zs.memb with roster := roster, disagreement := none } } }) ∧
     (d ≠ s.zs.table.digest →
       (∀ x, s.zs.memb.disagreement = some (x, d) → x = f.frame.sender) →
       exec .presence s = .next { s with zs := { s.zs with
         line := { s.zs.line with inq := rest }
         memb := { s.zs.memb with roster := roster, disagreement := some (f.frame.sender, d) }
         notices := s.zs.notices.log (.digestMismatch f.frame.sender d) } }) ∧
     (∀ x, d ≠ s.zs.table.digest → s.zs.memb.disagreement = some (x, d) → x ≠ f.frame.sender →
       (s.zs.leaving = false → ∃ t, exec .presence s = .next t ∧ t.pending = s.pending ∧
         RejoinedWith s.zs t.zs (.resync .diverged (some f.frame.sender)) ∧ EndedWith s.zs.port t.zs.port [0x13, 1]) ∧
       (s.zs.leaving = true → ∃ t, exec .presence s = .next t ∧ t.pending = s.pending ∧
         WentOff s.zs t.zs .offline ∧ t.zs.notices = s.zs.notices ∧ EndedWith s.zs.port t.zs.port [0x13, 1]))) ∧
  (∀ (s : State) (f : InFrame) (rest : List InFrame) (iv : Interval) (d : Digest), s.Processes f rest →
     f.mark ≠ none → f.frame.body = .presence iv d →
     exec .presence s = .next { s with zs := { s.zs with line := { s.zs.line with inq := rest } } })

/-- A fresh OPEN takes a channel without an owner: owner, timed length, OPENING, open guard of 8 ms; an owned channel
is left as it was. For the own OPEN the starting channel becomes the bound one and the command ends with DONE and the
channel, or with CHANNEL_TAKEN or ALREADY_OWNED (R61, R75, R132). A restate OPEN records an unknown owner with the
channel LIVE at once and its outputs in HUSH playing; at a station that shows an owner it changes nothing; it forms no
result (R62, R63, R116). -/
def Obligations.OpenFramesByChannelRecord : Prop :=
  (∀ (s : State) (f : InFrame) (rest : List InFrame) (c : Channel) (i : Input) (n : Option TimedLength),
     s.Processes f rest → f.frame.body = .openCh c i n false →
     (s.FromPeer f → ∃ t, exec .openFrame s = .next t ∧ t.pending = s.pending ∧
       ProcessedWith s.zs t.zs f rest ∧ t.zs.mixer = s.zs.mixer ∧ t.zs.notices = s.zs.notices ∧
       t.zs.table.zones = s.zs.table.zones ∧ t.zs.table.leads = s.zs.table.leads ∧
       (∀ x, s.zs.table.channels[c].owner = some x → t.zs.table = s.zs.table) ∧
       (s.zs.table.channels[c].owner = none → ∀ k : Channel, t.zs.table.channels[k] =
         if k = c then { owner := some f.frame.sender, length := n, phase := .opening, guard := .openGuard 8 }
         else s.zs.table.channels[k])) ∧
     (f.mark = some .host → ∃ t, exec .openFrame s = .next t ∧ t.pending = s.pending ∧
       t.zs.line = { s.zs.line with inq := rest } ∧ t.zs.memb = s.zs.memb ∧ t.zs.mixer = s.zs.mixer ∧
       t.zs.notices = s.zs.notices ∧
       (s.zs.table.channels[c].owner = none →
         t.zs.table.channels[c] =
           { owner := some f.frame.sender, length := n, phase := .opening, guard := .openGuard 8 } ∧
         t.zs.source.get i = { s.zs.source.get i with bound := (s.zs.source.get i).starting, starting := none } ∧
         EndedWith s.zs.port t.zs.port [0x00, byte c.val]) ∧
       (∀ x, s.zs.table.channels[c].owner = some x → t.zs.table = s.zs.table ∧
         EndedWith s.zs.port t.zs.port [if x = f.frame.sender then 0x0D else 0x0C]))) ∧
  (∀ (s : State) (f : InFrame) (rest : List InFrame) (c : Channel) (i : Input) (n : Option TimedLength),
     s.Processes f rest → f.frame.body = .openCh c i n true →
     (s.FromPeer f → ∃ t, exec .restateOpen s = .next t ∧ t.pending = s.pending ∧
       ProcessedWith s.zs t.zs f rest ∧ t.zs.notices = s.zs.notices ∧
       t.zs.table.zones = s.zs.table.zones ∧ t.zs.table.leads = s.zs.table.leads ∧
       (∀ x, s.zs.table.channels[c].owner = some x → t.zs.table = s.zs.table ∧ t.zs.mixer = s.zs.mixer) ∧
       (s.zs.table.channels[c].owner = none →
         (∀ k : Channel, t.zs.table.channels[k] =
           if k = c then { owner := some f.frame.sender, length := n, phase := .live, guard := .stopped }
           else s.zs.table.channels[k]) ∧
         (∀ o : Fin 4, t.zs.mixer.outputs[o] =
           if s.zs.mixer.outputs[o].state = .hush ∧ s.zs.mixer.outputs[o].fg.map (·.channel) = some c then
             { s.zs.mixer.outputs[o] with state := .playing }
           else s.zs.mixer.outputs[o]))) ∧
     (f.mark ≠ none → ∀ x, s.zs.table.channels[c].owner = some x →
       exec .restateOpen s = .next { s with zs := { s.zs with line := { s.zs.line with inq := rest } } }))

/-- A CLOSE by the owner: the channel goes to DRAINING without an owner, its drain guard starts, and every claim on it
leaves every list in its order; the outputs and the notices follow the comparison, whose cause is CLOSED. A CLOSE by
another station changes no table (R67, R68, R97 to R105, R107). -/
def Obligations.CloseDrainsTheChannelWithItsClaims : Prop :=
  ∀ (s : State) (f : InFrame) (rest : List InFrame) (c : Channel) (auto : Bool), s.Processes f rest →
    s.FromPeer f → f.frame.body = .close c auto →
    ∃ t, exec .closeFrame s = .next t ∧ t.pending = s.pending ∧ ProcessedWith s.zs t.zs f rest ∧
      (s.zs.table.channels[c].owner ≠ some f.frame.sender →
        t.zs.table = s.zs.table ∧ t.zs.mixer = s.zs.mixer ∧ t.zs.notices = s.zs.notices) ∧
      (s.zs.table.channels[c].owner = some f.frame.sender →
        (∀ k : Channel, t.zs.table.channels[k] =
          if k = c then { owner := none, length := none, phase := .draining, guard := .drainGuard 12 }
          else s.zs.table.channels[k]) ∧
        (∀ k : Zone, t.zs.table.zones[k] = s.zs.table.zones[k].filter fun cl => cl.channel ≠ c) ∧
        t.zs.table.digest = digestOf t.zs.table.channels t.zs.table.zones ∧ Compared .closed s.zs t.zs ∧
        t.zs.notices = loggedAll s.zs.notices (comparedNotices (CompareContext.plain .closed) s.zs t.zs))

/-- The own CLOSE is taken: its input is released, the outputs and the notices follow the comparison; a host CLOSE
ends with DONE, and an automatic one logs CHANNEL_EXPIRED after the comparison and gives DONE to a merged command
(R67, R77, R81, R97 to R105). -/
def Obligations.OwnCloseReleasesTheInput : Prop :=
  ∀ (s : State) (f : InFrame) (rest : List InFrame) (c : Channel) (auto : Bool) (i : Input), s.Processes f rest →
    f.frame.body = .close c auto → f.frame.sender = s.zs.me → s.zs.table.channels[c].owner = some s.zs.me →
    s.zs.source.inputOf c = some i →
    (f.mark = some .host → ∃ t, exec .closeFrame s = .next t ∧ t.pending = s.pending ∧
      t.zs.source.get i = { s.zs.source.get i with
        bound := none, driving := none, timer := .stopped, pending := false, request := .none } ∧
      t.zs.table.channels[c].owner = none ∧ t.zs.table.channels[c].phase = .draining ∧
      (∀ k : Zone, t.zs.table.zones[k] = s.zs.table.zones[k].filter fun cl => cl.channel ≠ c) ∧
      Compared .closed s.zs t.zs ∧
      t.zs.notices = loggedAll s.zs.notices (comparedNotices (CompareContext.plain .closed) s.zs t.zs) ∧
      t.zs.line = { s.zs.line with inq := rest } ∧ t.zs.memb = s.zs.memb ∧
      EndedWith s.zs.port t.zs.port [0x00]) ∧
    (f.mark = some (.source i) → ∃ t, exec .closeFrame s = .next t ∧ t.pending = s.pending ∧
      t.zs.source.get i = { s.zs.source.get i with
        bound := none, driving := none, timer := .stopped, pending := false, request := .none, merged := false } ∧
      t.zs.table.channels[c].owner = none ∧ t.zs.table.channels[c].phase = .draining ∧
      (∀ k : Zone, t.zs.table.zones[k] = s.zs.table.zones[k].filter fun cl => cl.channel ≠ c) ∧
      Compared .closed s.zs t.zs ∧
      t.zs.notices = (loggedAll s.zs.notices (comparedNotices (CompareContext.plain .closed) s.zs t.zs)).log
        (.channelExpired s.zs.me c) ∧
      t.zs.line = { s.zs.line with inq := rest } ∧ t.zs.memb = s.zs.memb ∧
      ((s.zs.source.get i).merged = true → EndedWith s.zs.port t.zs.port [0x00]) ∧
      ((s.zs.source.get i).merged = false → t.zs.port = s.zs.port))

/-- What a CLAIM does to the ordered list of one zone: the outcome by the rows of R90, the new claim at its place, the
others kept in order, and the last of a full list displaced where the new one sorts above it, by higher priority or by
equal priority and lower station number (R86, R90, R91). -/
def Obligations.ClaimOutcomesByZone : Prop :=
  (∀ a b : Claim, a.sortsAbove b = true ↔
    b.priority < a.priority ∨ (a.priority = b.priority ∧ a.station < b.station)) ∧
  ∀ (cl : Claim) (l : List Claim), ClaimListOk l →
    ClaimListOk (applyClaim cl l).list ∧
    (cl ∈ l → applyClaim cl l = { list := l, outcome := .unchanged, displaced := false }) ∧
    (∀ old ∈ l, old.station = cl.station → old ≠ cl →
      (∀ x, x ∈ (applyClaim cl l).list ↔ x = cl ∨ (x ∈ l ∧ x ≠ old)) ∧ (applyClaim cl l).displaced = false ∧
      (applyClaim cl l).outcome = if (applyClaim cl l).list.head? = some cl then .lead else .replaced) ∧
    ((∀ old ∈ l, old.station ≠ cl.station) → l.length < 6 →
      (∀ x, x ∈ (applyClaim cl l).list ↔ x = cl ∨ x ∈ l) ∧ (applyClaim cl l).displaced = false ∧
      (applyClaim cl l).outcome = if (applyClaim cl l).list.head? = some cl then .lead else .below) ∧
    (∀ last, (∀ old ∈ l, old.station ≠ cl.station) → l.length = 6 → l[5]? = some last →
      (cl.sortsAbove last = true →
        (∀ x, x ∈ (applyClaim cl l).list ↔ x = cl ∨ x ∈ l.take 5) ∧ (applyClaim cl l).displaced = true ∧
        (applyClaim cl l).outcome = if (applyClaim cl l).list.head? = some cl then .lead else .below) ∧
      (cl.sortsAbove last = false → applyClaim cl l = { list := l, outcome := .full, displaced := false }))

/-- A CLAIM, fresh or restate, is taken zone by zone when its sender owns the channel, the outputs and the notices
following the comparison, whose cause is DISPLACED in the zones where a claim was displaced and CLAIMED in the others;
it is refused as a whole, changing no list, no mark, no digest, no output and logging nothing, when its sender does
not (R89, R90, R92, R97 to R105, R107). -/
def Obligations.ClaimFrameIsTakenOrRefused : Prop :=
  ∀ (s : State) (f : InFrame) (rest : List InFrame) (c : Channel) (p : Priority) (d : DuckLevel) (chime : Bool)
    (zones : ZoneSet) (restate : Bool), s.Processes f rest → s.FromPeer f →
    f.frame.body = .claim c p d chime zones restate →
    let cl : Claim := { station := f.frame.sender, channel := c, priority := p, duck := d, chime := chime }
    ∃ t, exec (if restate then .restateClaim else .claimFrame) s = .next t ∧ t.pending = s.pending ∧
      ProcessedWith s.zs t.zs f rest ∧ t.zs.table.channels = s.zs.table.channels ∧
      (s.zs.table.channels[c].owner ≠ some f.frame.sender →
        t.zs.table = s.zs.table ∧ t.zs.mixer = s.zs.mixer ∧ t.zs.notices = s.zs.notices) ∧
      (s.zs.table.channels[c].owner = some f.frame.sender →
        (∀ k : Zone, t.zs.table.zones[k] =
          if zones.getLsbD k.val then (applyClaim cl s.zs.table.zones[k]).list else s.zs.table.zones[k]) ∧
        t.zs.table.digest = digestOf t.zs.table.channels t.zs.table.zones ∧ OutputsTold s.zs t.zs ∧
        ∃ displaced : ZoneSet,
          (∀ k : Zone, displaced.getLsbD k.val =
            (zones.getLsbD k.val && (applyClaim cl s.zs.table.zones[k]).displaced)) ∧
          let x : CompareContext := { cause := .claimed, displaced := displaced, placed := 0, by_ := some cl }
          LeadsCompared x s.zs t.zs ∧ t.zs.notices = loggedAll s.zs.notices (comparedNotices x s.zs t.zs))

/-- The own CLAIM of a host command: the lists and the lead marks follow the outcomes, the outputs and the notices the
comparison, and the result is DONE with the zones in ascending order and their outcomes (R90, R93, R97 to R102, R107,
R136). The own restate CLAIM is processed by the same steps and forms no result (R92, R102). In the zones of its set
its outcome is UNCHANGED where this station's claim has its fields, and where that is so in all of them it changes
nothing (R21, R92); one that does not find its channel owned is refused and changes nothing (R89). -/
def Obligations.OwnClaimReportsItsOutcomes : Prop :=
  (∀ (s : State) (f : InFrame) (rest : List InFrame) (c : Channel) (p : Priority) (d : DuckLevel) (chime : Bool)
    (zones : ZoneSet), s.Processes f rest → f.mark = some .host → f.frame.sender = s.zs.me →
    f.frame.body = .claim c p d chime zones false → s.zs.table.channels[c].owner = some s.zs.me →
    let cl : Claim := { station := s.zs.me, channel := c, priority := p, duck := d, chime := chime }
    ∃ t, exec .claimFrame s = .next t ∧ t.pending = s.pending ∧ OwnClaimTaken s.zs t.zs cl zones rest ∧
      EndedWith s.zs.port t.zs.port ([0x00, byte (zonesOf zones).length] ++ (zonesOf zones).flatMap fun k =>
        [byte k.val, match (applyClaim cl s.zs.table.zones[k]).outcome with
          | .lead => 1
          | .below => 2
          | .replaced => 3
          | .unchanged => 4
          | .full => 5])) ∧
  (∀ (s : State) (f : InFrame) (rest : List InFrame) (c : Channel) (p : Priority) (d : DuckLevel) (chime : Bool)
    (zones : ZoneSet), s.Processes f rest → f.mark ≠ none → f.frame.sender = s.zs.me →
    f.frame.body = .claim c p d chime zones true →
    let cl : Claim := { station := s.zs.me, channel := c, priority := p, duck := d, chime := chime }
    let unchanged := exec .restateClaim s = .next { s with zs := { s.zs with line := { s.zs.line with inq := rest } } }
    (s.zs.table.channels[c].owner = some s.zs.me →
      (∃ t, exec .restateClaim s = .next t ∧ t.pending = s.pending ∧ OwnClaimTaken s.zs t.zs cl zones rest ∧
        t.zs.port = s.zs.port) ∧
      (∀ k : Zone, zones.getLsbD k.val = true → s.zs.ownClaim k = some cl →
        applyClaim cl s.zs.table.zones[k] = { list := s.zs.table.zones[k], outcome := .unchanged, displaced := false }) ∧
      ((∀ k : Zone, zones.getLsbD k.val = true → s.zs.ownClaim k = some cl) → s.zs.table.DigestCurrent →
        s.zs.table.comparison = none → unchanged)) ∧
    (s.zs.table.channels[c].owner ≠ some s.zs.me → unchanged))

/-- A DROP removes its sender's claims, on any channel, from the zones of its set, is never refused and does not
consult the channel table; the outputs and the notices follow the comparison, whose cause is DROPPED (R94, R97 to
R105, R107). The own DROP of a host command ends with DONE and the zones from which an own claim was removed, in
ascending order; the lead marks there are cleared (R95, R102, R138). -/
def Obligations.DropRemovesTheSendersClaims : Prop :=
  (∀ (s : State) (f : InFrame) (rest : List InFrame) (zones : ZoneSet), s.Processes f rest → s.FromPeer f →
     f.frame.body = .drop zones →
     ∃ t, exec .dropFrame s = .next t ∧ t.pending = s.pending ∧ ProcessedWith s.zs t.zs f rest ∧
       t.zs.table.channels = s.zs.table.channels ∧
       (∀ k : Zone, t.zs.table.zones[k] =
         if zones.getLsbD k.val then s.zs.table.zones[k].filter fun cl => cl.station ≠ f.frame.sender
         else s.zs.table.zones[k]) ∧
       t.zs.table.digest = digestOf t.zs.table.channels t.zs.table.zones ∧ Compared .dropped s.zs t.zs ∧
       t.zs.notices = loggedAll s.zs.notices (comparedNotices (CompareContext.plain .dropped) s.zs t.zs)) ∧
  (∀ (s : State) (f : InFrame) (rest : List InFrame) (zones : ZoneSet), s.Processes f rest → f.mark = some .host →
     f.frame.sender = s.zs.me → f.frame.body = .drop zones →
     ∃ (t : State) (removed : List Zone), exec .dropFrame s = .next t ∧ t.pending = s.pending ∧
       removed.Pairwise (· < ·) ∧
       (∀ k, k ∈ removed ↔ zones.getLsbD k.val = true ∧ ∃ cl ∈ s.zs.table.zones[k], cl.station = s.zs.me) ∧
       (∀ k ∈ removed, t.zs.table.leads[k] = false) ∧
       (∀ k : Zone, t.zs.table.zones[k] =
         if zones.getLsbD k.val then s.zs.table.zones[k].filter fun cl => cl.station ≠ s.zs.me
         else s.zs.table.zones[k]) ∧
       Compared .dropped s.zs t.zs ∧
       t.zs.notices = loggedAll s.zs.notices (comparedNotices (CompareContext.plain .dropped) s.zs t.zs) ∧
       t.zs.line = { s.zs.line with inq := rest } ∧ t.zs.memb = s.zs.memb ∧ t.zs.source = s.zs.source ∧
       EndedWith s.zs.port t.zs.port (0x00 :: byte removed.length :: removed.map (byte ·.val)))

/-- What the comparison records of one list: its foreground, its background and the own claim with its position (R97;
that the record holds the own claim itself, and not only where it stands, is log entry 23, DEDUCED). A changed
foreground identity of a zone that an output binds gives a ZONE_CHANGE with the new foreground, the previous station
and the cause, DISPLACED where a claim was displaced (R98 to R100). The lead-mark notices of one zone: a preempted own
claim, a displaced one, and one first again with its mark set; none in the zones of an own CLAIM, and none where no
own claim stood or its standing is as before (R102 to R105). A DROP that brings the own claim of a bound zone to the
front for the first time logs ZONE_CHANGE with the cause DROPPED and then CLAIM_STARTED_LATE, and sets the lead mark
(R98 to R103). -/
def Obligations.LeadMarksAndTheirNotices : Prop :=
  (∀ (me : StationNo) (l : List Claim), (recordOf me l).fg = l.head? ∧ (recordOf me l).bg = l[1]?.map Claim.ident ∧
     (∀ i cl, (recordOf me l).own = some (i, cl) ↔ l[i]? = some cl ∧ cl.station = me ∧
       ∀ j old, j < i → l[j]? = some old → old.station ≠ me)) ∧
  (∀ cause : ZoneCause, CompareContext.plain cause = { cause := cause, displaced := 0, placed := 0, by_ := none }) ∧
  (∀ (x : CompareContext) (k : Zone) (bound : Bool) (was now : Option Claim),
     (bound = false ∨ was.map Claim.ident = now.map Claim.ident → zoneChangeNotice x k bound was now = []) ∧
     (bound = true → was.map Claim.ident ≠ now.map Claim.ident → zoneChangeNotice x k bound was now =
       [.zoneChange k (now.map fun cl => ({ station := cl.station, channel := cl.channel }, cl.priority))
         (was.map (·.station)) (if x.displaced.getLsbD k.val then .displaced else x.cause)])) ∧
  (∀ (x : CompareContext) (k : Zone) (was now : ZoneRecord) (mark : Bool),
     x.placed.getLsbD k.val = true ∨ was.own = none ∨
       (∃ i j old new, was.own = some (i, old) ∧ now.own = some (j, new) ∧ (i = 0 ↔ j = 0)) →
     leadNotice x k was now mark = [] ∧ leadAfter x k was now mark = mark) ∧
  (∀ (x : CompareContext) (k : Zone) (was now : ZoneRecord) (mark : Bool), x.placed.getLsbD k.val = false →
     (∀ i j old new f, was.own = some (i, old) → now.own = some (j, new) → now.fg = some f →
       (i = 0 → j ≠ 0 → leadNotice x k was now mark = [.claimPreempted k f.station new.channel f.priority] ∧
         leadAfter x k was now mark = mark) ∧
       (i ≠ 0 → j = 0 → mark = false →
         leadNotice x k was now mark = [.claimStartedLate k new.station new.channel new.priority] ∧
         leadAfter x k was now mark = true) ∧
       (i ≠ 0 → j = 0 → mark = true → leadNotice x k was now mark = [] ∧ leadAfter x k was now mark = true)) ∧
     (∀ i old, was.own = some (i, old) → now.own = none →
       leadAfter x k was now mark = false ∧
       (∀ by_, x.displaced.getLsbD k.val = true → x.by_ = some by_ →
         leadNotice x k was now mark = [.claimDisplaced k by_.station old.channel by_.priority]) ∧
       (x.displaced.getLsbD k.val = false → leadNotice x k was now mark = []))) ∧
  (∀ (s : State) (f : InFrame) (rest : List InFrame) (k : Zone) (o : Fin 4) (top own : Claim) (below : List Claim),
     s.Processes f rest → s.FromPeer f → f.frame.body = .drop (1#32 <<< k.val) →
     s.zs.mixer.outputs[o].zone = some k → s.zs.table.zones[k] = top :: own :: below →
     top.station = f.frame.sender → own.station = s.zs.me → (∀ cl ∈ below, cl.station ≠ top.station) →
     s.zs.table.leads[k] = false →
     ∃ t, exec .dropFrame s = .next t ∧ t.pending = s.pending ∧
       t.zs.notices = (s.zs.notices.log
         (.zoneChange k (some (own.ident, own.priority)) (some top.station) .dropped)).log
           (.claimStartedLate k s.zs.me own.channel own.priority) ∧
       t.zs.table.leads[k] = true ∧
       (∀ j : Zone, j ≠ k → t.zs.table.leads[j] = s.zs.table.leads[j]))

/-! ### Outputs -/

/-- An output told a new foreground records it and goes to CHIME, PLAYING or HUSH, whichever fits first, or to SILENT
when the zone is empty; the same foreground with other fields changes the duck level alone; a new background changes
nothing but itself, and a zone that is as before changes nothing (R112, R113, R117, R118). -/
def Obligations.OutputsFollowTheForeground : Prop :=
  ∀ (r : OutputRec) (was : Option Claim) (live : Channel → Bool) (ms : Nat),
    (was ≠ none → r.tellForeground was none live ms =
      { r with state := .silent, chime := .stopped, fg := none, duck := none, bg := none }) ∧
    (∀ cl : Claim, was.map Claim.ident ≠ some cl.ident →
      (cl.chime = true → 0 < ms → r.tellForeground was (some cl) live ms =
        { r with fg := some cl.ident, duck := some cl.duck, state := .chime, chime := .running ms, tonePos := 0 }) ∧
      (cl.chime = false ∨ ms = 0 → live cl.channel = true → r.tellForeground was (some cl) live ms =
        { r with fg := some cl.ident, duck := some cl.duck, state := .playing, chime := .stopped }) ∧
      (cl.chime = false ∨ ms = 0 → live cl.channel = false → r.tellForeground was (some cl) live ms =
        { r with fg := some cl.ident, duck := some cl.duck, state := .hush, chime := .stopped })) ∧
    (∀ old cl : Claim, was = some old → old.ident = cl.ident → old ≠ cl →
      r.tellForeground was (some cl) live ms = { r with duck := some cl.duck }) ∧
    (∀ x : Option Claim, r.tellForeground x x live ms = r) ∧
    (∀ a b : Option Ident, a ≠ b → r.tellBackground a b = { r with bg := b }) ∧
    (∀ a : Option Ident, r.tellBackground a a = r)

/-- One audio frame: an output emits 0 in SILENT and HUSH, the next sample of the chime tone in CHIME, and the duck
mix truncated toward zero in PLAYING, from the samples received in the frame before, of LIVE channels; an input whose
driving is on drives its slot; the station drives the frame marks in JOINED with no lower station number in its roster
(R72, R73, R119, R120). The chime tone is a free value (log entry 1); that one row is both a frame of the audio pair
and a period of the audio ports is log entry 15; slots nobody drives are operands (log entry 16). -/
def Obligations.AudioFrameEmitsTheMix : Prop :=
  (∀ z : Zs32, z.drivesMarks = true ↔ z.memb.state = .joined ∧ ∀ e ∈ z.memb.roster, ¬ e.station < z.me) ∧
  ∀ (s : State) (marks : Bool) (slots : Vector Sample 16) (inA inB : Sample), s.Awake → s.zs.onLine = true →
    ∃ t, exec (.audioFrame marks slots inA inB) s = .next t ∧ t.pending = s.pending ∧
      t.zs.table = s.zs.table ∧ t.zs.line = s.zs.line ∧ t.zs.memb = s.zs.memb ∧ t.zs.source = s.zs.source ∧
      t.zs.port = s.zs.port ∧ t.zs.notices = s.zs.notices ∧
      (∀ c : Channel, marks = false → s.zs.drivesMarks = false →
        t.zs.audio.driven[c] = none ∧ t.zs.audio.received[c] = 0) ∧
      (∀ c : Channel, marks = true ∨ s.zs.drivesMarks = true →
        (s.zs.source.inA.driving = some c →
          t.zs.audio.driven[c] = some inA ∧ t.zs.audio.received[c] = inA) ∧
        (s.zs.source.inA.driving ≠ some c → s.zs.source.inB.driving = some c →
          t.zs.audio.driven[c] = some inB ∧ t.zs.audio.received[c] = inB) ∧
        (s.zs.source.inA.driving ≠ some c → s.zs.source.inB.driving ≠ some c →
          t.zs.audio.driven[c] = none ∧ t.zs.audio.received[c] = slots[c])) ∧
      (∀ o : Fin 4,
        (s.zs.mixer.outputs[o].state = .silent ∨ s.zs.mixer.outputs[o].state = .hush →
          t.zs.mixer.outputs[o] = { s.zs.mixer.outputs[o] with sample := 0 }) ∧
        (s.zs.mixer.outputs[o].state = .chime →
          t.zs.mixer.outputs[o] = { s.zs.mixer.outputs[o] with
            sample := Config.chimeTone s.zs.mixer.outputs[o].tonePos
            tonePos := s.zs.mixer.outputs[o].tonePos + 1 }) ∧
        (∀ (fg : Ident) (d : DuckLevel), s.zs.mixer.outputs[o].state = .playing →
          s.zs.mixer.outputs[o].fg = some fg → s.zs.mixer.outputs[o].duck = some d →
          let level : Channel → Int := fun c =>
            if s.zs.table.channels[c].phase = .live then (s.zs.audio.received[c]).toInt else 0
          let f := level fg.channel
          let b := s.zs.mixer.outputs[o].bg.elim 0 fun i => level i.channel
          (t.zs.mixer.outputs[o].sample).toInt =
            (f * (32 - (d.val : Int)) + b * (d.val : Int)).tdiv 32 ∧
          t.zs.mixer.outputs[o] = { s.zs.mixer.outputs[o] with sample := t.zs.mixer.outputs[o].sample }))

/-! ### Timers (the expiry rows do not look at the time left; log entry 4) -/

/-- The chime timer of an output expires: PLAYING if the foreground's channel is LIVE, HUSH otherwise (R115). The
guards expire: OPENING goes to LIVE and outputs in HUSH on the channel play; DRAINING goes to FREE; owner and timed
length stay (R63 to R65, R116). An expiry row acts whenever its timer runs (log entry 4). -/
def Obligations.ChimeAndGuardsExpire : Prop :=
  (∀ (s : State) (o : Fin 4) (ms : Nat) (fg : Ident), s.Awake → s.zs.mixer.outputs[o].chime = .running ms →
     s.zs.mixer.outputs[o].fg = some fg →
     ∃ t, exec (.chimeTimerExpiry o) s = .next t ∧
       t = { s with zs := { s.zs with mixer := t.zs.mixer } } ∧
       (∀ p : Fin 4, p ≠ o → t.zs.mixer.outputs[p] = s.zs.mixer.outputs[p]) ∧
       t.zs.mixer.outputs[o] = { s.zs.mixer.outputs[o] with
         chime := .stopped
         state := if s.zs.table.channels[fg.channel].phase = .live then .playing else .hush }) ∧
  (∀ (s : State) (c : Channel) (ms : Nat), s.Awake →
     (s.zs.table.channels[c].guard = .openGuard ms → ∃ t, exec (.openGuardExpiry c) s = .next t ∧
       t = { s with zs := { s.zs with table := t.zs.table, mixer := t.zs.mixer } } ∧
       t.zs.table.zones = s.zs.table.zones ∧ t.zs.table.leads = s.zs.table.leads ∧
       (∀ k : Channel, t.zs.table.channels[k] =
         if k = c then { s.zs.table.channels[c] with phase := .live, guard := .stopped }
         else s.zs.table.channels[k]) ∧
       (∀ o : Fin 4, t.zs.mixer.outputs[o] =
         if s.zs.mixer.outputs[o].state = .hush ∧ s.zs.mixer.outputs[o].fg.map (·.channel) = some c then
           { s.zs.mixer.outputs[o] with state := .playing }
         else s.zs.mixer.outputs[o])) ∧
     (s.zs.table.channels[c].guard = .drainGuard ms → ∃ t, exec (.drainGuardExpiry c) s = .next t ∧
       t = { s with zs := { s.zs with table := t.zs.table } } ∧
       t.zs.table.zones = s.zs.table.zones ∧ t.zs.table.leads = s.zs.table.leads ∧
       (∀ k : Channel, t.zs.table.channels[k] =
         if k = c then { s.zs.table.channels[c] with phase := .free, guard := .stopped }
         else s.zs.table.channels[k])))

/-- The presence timer expires: it runs again for P, and a PRESENCE is placed or held unless one is queued or held; a
waiting PRESENCE ages (R46, R47). A silence timer expires: its entry is marked, and in JOINED with no LEAVE in
execution an EVICT is placed or held once for each target (R50). An expiry row acts whenever its timer runs (log entry
4), and PRESENCE_AGING marks what it ages (log entry 21). -/
def Obligations.PresenceAndSilenceTimersExpire : Prop :=
  ((∀ (s : State) (ms : Nat) (setup : Setup), s.Awake → s.zs.memb.presenceTimer = .running ms →
     s.zs.setup = some setup →
     (s.zs.memb.presenceQueued = true ∨ s.zs.memb.presenceHeld = true →
       exec .presenceTimerExpiry s = .next { s with zs := { s.zs with
         memb := { s.zs.memb with presenceTimer := .running (10 * setup.interval.val) } } }) ∧
     (s.zs.memb.presenceQueued = false → s.zs.memb.presenceHeld = false → s.zs.line.outq.length < 8 →
       exec .presenceTimerExpiry s = .next { s with zs := { s.zs with
         memb := { s.zs.memb with presenceTimer := .running (10 * setup.interval.val), presenceQueued := true }
         line := { s.zs.line with outq := s.zs.line.outq ++ [entryOf .presence .membership s.zs.clock] } } }) ∧
     (s.zs.memb.presenceQueued = false → s.zs.memb.presenceHeld = false → 8 ≤ s.zs.line.outq.length →
       exec .presenceTimerExpiry s = .next { s with zs := { s.zs with
         memb := { s.zs.memb with presenceTimer := .running (10 * setup.interval.val), presenceHeld := true } } })) ∧
   (∀ s : State, s.Awake → exec .presenceAging s = .next { s with zs := { s.zs with
     line := { s.zs.line with outq := s.zs.line.outq.map fun e =>
       if e.placed = .presence then { e with aged := true } else e } } })) ∧
  (∀ (s : State) (x : StationNo) (r : RosterEntry) (ms : Nat), s.Awake → s.zs.entry x = some r →
     r.silence = .running ms →
     ∃ t, exec (.silenceTimerExpiry x) s = .next t ∧ t.pending = s.pending ∧
       t.zs.memb.roster = s.zs.memb.roster.map (fun e =>
         if e.station = x then { e with silence := .expired } else e) ∧
       t.zs.table = s.zs.table ∧ t.zs.port = s.zs.port ∧ t.zs.notices = s.zs.notices ∧ t.zs.source = s.zs.source ∧
       t.zs.memb.state = s.zs.memb.state ∧
       (s.zs.memb.state = .joined → s.zs.leaving = false → x ∉ s.zs.memb.evictQueued → x ∉ s.zs.memb.evictHeld →
         (s.zs.line.outq.length < 8 →
           t.zs.line.outq = s.zs.line.outq ++ [entryOf (.evict x) .membership s.zs.clock] ∧
           (∀ y, y ∈ t.zs.memb.evictQueued ↔ y = x ∨ y ∈ s.zs.memb.evictQueued)) ∧
         (8 ≤ s.zs.line.outq.length → t.zs.line = s.zs.line ∧
           (∀ y, y ∈ t.zs.memb.evictHeld ↔ y = x ∨ y ∈ s.zs.memb.evictHeld))) ∧
       (s.zs.memb.state ≠ .joined ∨ s.zs.leaving = true ∨ x ∈ s.zs.memb.evictQueued ∨ x ∈ s.zs.memb.evictHeld →
         t.zs.line = s.zs.line ∧ t.zs.memb.evictQueued = s.zs.memb.evictQueued ∧
         t.zs.memb.evictHeld = s.zs.memb.evictHeld))

/-- The join window expires in LISTENING with no LEAVE in execution: JOINED, a PRESENCE placed, or held while the
outbound queue is full, the presence and silence timers started, JOINED logged with the count of roster entries (R46,
R49, R53). In any other state or with a LEAVE in execution the window only stops. The row acts whenever the window
runs (log entry 4). -/
def Obligations.JoinWindowEndsInJoined : Prop :=
  ∀ (s : State) (ms : Nat) (setup : Setup), s.Awake → s.zs.memb.joinWindow = .running ms → s.zs.setup = some setup →
    let roster := s.zs.memb.roster.map fun e =>
      { e with silence := .running (e.interval.elim 3000 fun i => 30 * i.val) }
    (s.zs.memb.state = .listening → s.zs.leaving = false → s.zs.line.outq.length < 8 →
      exec .joinWindowExpiry s = .next { s with zs := { s.zs with
        memb := { s.zs.memb with
          state := .joined, joinWindow := .stopped, presenceQueued := true
          presenceTimer := .running (10 * setup.interval.val), roster := roster }
        line := { s.zs.line with outq := s.zs.line.outq ++ [entryOf .presence .membership s.zs.clock] }
        notices := s.zs.notices.log (.joined s.zs.memb.roster.length) } }) ∧
    (s.zs.memb.state = .listening → s.zs.leaving = false → 8 ≤ s.zs.line.outq.length →
      exec .joinWindowExpiry s = .next { s with zs := { s.zs with
        memb := { s.zs.memb with
          state := .joined, joinWindow := .stopped, presenceHeld := true
          presenceTimer := .running (10 * setup.interval.val), roster := roster }
        notices := s.zs.notices.log (.joined s.zs.memb.roster.length) } }) ∧
    (s.zs.memb.state ≠ .listening ∨ s.zs.leaving = true →
      exec .joinWindowExpiry s = .next { s with zs := { s.zs with
        memb := { s.zs.memb with joinWindow := .stopped } } })

/-- A duration timer expires: marked, the pending flag set; then no request while a LEAVE or a host CLOSE of the
channel is under way, an automatic CLOSE at the tail if a slot is free, and a held request otherwise; the channel is
the bound one, or the starting one before the own OPEN is processed (R79). The row acts whenever the timer runs (log
entry 4). -/
def Obligations.DurationAsksForAnAutomaticClose : Prop :=
  ∀ (s : State) (i : Input) (ms : Nat) (c : Channel), s.Awake → (s.zs.source.get i).timer = .running ms →
    (s.zs.source.get i).bound = some c ∨
      ((s.zs.source.get i).bound = none ∧ (s.zs.source.get i).starting = some c) →
    (s.zs.leaving = true ∨ s.zs.hostCloseRunning c = true →
      exec (.durationTimerExpiry i) s = .next { s with zs := { s.zs with
        source := s.zs.source.set i { s.zs.source.get i with timer := .expired, pending := true } } }) ∧
    (s.zs.leaving = false → s.zs.hostCloseRunning c = false → s.zs.line.outq.length < 8 →
      exec (.durationTimerExpiry i) s = .next { s with zs := { s.zs with
        source := s.zs.source.set i
          { s.zs.source.get i with timer := .expired, pending := true, request := .queued }
        line := { s.zs.line with
          outq := s.zs.line.outq ++ [entryOf (.close c true) (.source i) s.zs.clock] } } }) ∧
    (s.zs.leaving = false → s.zs.hostCloseRunning c = false → 8 ≤ s.zs.line.outq.length →
      exec (.durationTimerExpiry i) s = .next { s with zs := { s.zs with
        source := s.zs.source.set i
          { s.zs.source.get i with timer := .expired, pending := true, request := .held } } })

/-! ### The digest and the invariants -/

/-- The digest is the sum modulo 65536 of 4096 + 32 × c + s for every owned channel and of (z + 1) × (i + 1) + 37 × s
+ 11 × p + 3 × d + c for every claim at position i of zone z (R106). -/
def Obligations.DigestIsTheSumOfItsTerms : Prop :=
  ∀ (channels : Vector ChannelRec 16) (zones : Vector (List Claim) 32),
    (digestOf channels zones).toNat =
      ((∑ c : Channel, match channels[c].owner with
          | none => 0
          | some s => 4096 + 32 * c.val + s.val) +
        ∑ z : Zone, ∑ i : Fin (zones[z]).length,
          ((z.val + 1) * (i.val + 1) + 37 * (zones[z])[i].station.val + 11 * (zones[z])[i].priority.val
            + 3 * (zones[z])[i].duck.val + (zones[z])[i].channel.val)) % 65536

/-- Every step keeps the digest that of the channel owners and the claim lists (R107). Every step keeps every claim
list in order, with at most six claims and at most one from any station (R86). Every step keeps every channel record
as R60 describes it, and every claim naming a channel whose owner is the claim's station (R60, R68). Every step leaves
no comparison record behind, where there was none before (R97). -/
def Obligations.StepsKeepTheSharedTables : Prop :=
  (∀ s t : State, s.zs.table.DigestCurrent → step s = .next t → t.zs.table.DigestCurrent) ∧
  (∀ s t : State, s.zs.table.ListsOk → step s = .next t → t.zs.table.ListsOk) ∧
  ((∀ s t : State, s.zs.table.ChannelsOk → step s = .next t → t.zs.table.ChannelsOk) ∧
   (∀ s t : State, s.zs.table.ClaimsOwned → step s = .next t → t.zs.table.ClaimsOwned)) ∧
  (∀ s t : State, s.zs.table.comparison = none → step s = .next t → t.zs.table.comparison = none)

/-- Every step keeps the notice log within its bounds, with at most one GAP, and full or holding a GAP while records
are lost (R167, R170, R171). -/
def Obligations.StepsKeepTheNoticeLog : Prop :=
  ∀ s t : State, s.zs.notices.Ok → step s = .next t → t.zs.notices.Ok

/-- Every step keeps the host port's buffers, mark and command in execution those of its phase (R148). -/
def Obligations.StepsKeepTheHostPort : Prop :=
  ∀ s t : State, s.zs.port.Ok → step s = .next t → t.zs.port.Ok

/-- Every step keeps the queues within their bounds and a station off the line empty and silent (R1, R10, R12, R32,
R186). -/
def Obligations.StepsKeepTheQueuesAndTheQuiet : Prop :=
  ∀ s t : State, s.zs.LineOk → step s = .next t → t.zs.LineOk

/-- Every step keeps the roster in ascending order of station numbers 1 to 31 without this station's own (R37). Every
step keeps the held EVICT requests in ascending order of target, the order in which R7 serves them (R50). -/
def Obligations.StepsKeepTheRosterInOrder : Prop :=
  (∀ s t : State, s.zs.PeersOk → step s = .next t → t.zs.PeersOk) ∧
  (∀ s t : State, s.zs.memb.evictHeld.Pairwise (· < ·) → step s = .next t → t.zs.memb.evictHeld.Pairwise (· < ·))

end
end

