-- ==== Sys2Proof/Laws/State.lean ====
section
/-! SUPPORT. One lemma per field and update of the station, true by rfl: what each unconditional operation of
Machine/ leaves alone, and what it writes. -/

namespace Sys2Proof.Machine

@[simp] theorem tabulate_get {α : Type} {n : Nat} (f : Fin n → α) (i : Fin n) : (tabulate f)[i] = f i := by
  simp [tabulate]

/-! ### Fields left alone -/

@[simp] theorem Zs32.log_rst (n : Notice) (z : Zs32) :
    (Zs32.log n z).rst = z.rst := rfl
@[simp] theorem Zs32.log_clock (n : Notice) (z : Zs32) :
    (Zs32.log n z).clock = z.clock := rfl
@[simp] theorem Zs32.log_setup (n : Notice) (z : Zs32) :
    (Zs32.log n z).setup = z.setup := rfl
@[simp] theorem Zs32.log_line (n : Notice) (z : Zs32) :
    (Zs32.log n z).line = z.line := rfl
@[simp] theorem Zs32.log_memb (n : Notice) (z : Zs32) :
    (Zs32.log n z).memb = z.memb := rfl
@[simp] theorem Zs32.log_table (n : Notice) (z : Zs32) :
    (Zs32.log n z).table = z.table := rfl
@[simp] theorem Zs32.log_source (n : Notice) (z : Zs32) :
    (Zs32.log n z).source = z.source := rfl
@[simp] theorem Zs32.log_mixer (n : Notice) (z : Zs32) :
    (Zs32.log n z).mixer = z.mixer := rfl
@[simp] theorem Zs32.log_audio (n : Notice) (z : Zs32) :
    (Zs32.log n z).audio = z.audio := rfl
@[simp] theorem Zs32.log_port (n : Notice) (z : Zs32) :
    (Zs32.log n z).port = z.port := rfl
@[simp] theorem Zs32.formResult_rst (r : Result) (z : Zs32) :
    (Zs32.formResult r z).rst = z.rst := rfl
@[simp] theorem Zs32.formResult_clock (r : Result) (z : Zs32) :
    (Zs32.formResult r z).clock = z.clock := rfl
@[simp] theorem Zs32.formResult_setup (r : Result) (z : Zs32) :
    (Zs32.formResult r z).setup = z.setup := rfl
@[simp] theorem Zs32.formResult_line (r : Result) (z : Zs32) :
    (Zs32.formResult r z).line = z.line := rfl
@[simp] theorem Zs32.formResult_memb (r : Result) (z : Zs32) :
    (Zs32.formResult r z).memb = z.memb := rfl
@[simp] theorem Zs32.formResult_table (r : Result) (z : Zs32) :
    (Zs32.formResult r z).table = z.table := rfl
@[simp] theorem Zs32.formResult_source (r : Result) (z : Zs32) :
    (Zs32.formResult r z).source = z.source := rfl
@[simp] theorem Zs32.formResult_mixer (r : Result) (z : Zs32) :
    (Zs32.formResult r z).mixer = z.mixer := rfl
@[simp] theorem Zs32.formResult_audio (r : Result) (z : Zs32) :
    (Zs32.formResult r z).audio = z.audio := rfl
@[simp] theorem Zs32.formResult_notices (r : Result) (z : Zs32) :
    (Zs32.formResult r z).notices = z.notices := rfl
@[simp] theorem Zs32.setStage_rst (st : Stage) (z : Zs32) :
    (Zs32.setStage st z).rst = z.rst := rfl
@[simp] theorem Zs32.setStage_clock (st : Stage) (z : Zs32) :
    (Zs32.setStage st z).clock = z.clock := rfl
@[simp] theorem Zs32.setStage_setup (st : Stage) (z : Zs32) :
    (Zs32.setStage st z).setup = z.setup := rfl
@[simp] theorem Zs32.setStage_line (st : Stage) (z : Zs32) :
    (Zs32.setStage st z).line = z.line := rfl
@[simp] theorem Zs32.setStage_memb (st : Stage) (z : Zs32) :
    (Zs32.setStage st z).memb = z.memb := rfl
@[simp] theorem Zs32.setStage_table (st : Stage) (z : Zs32) :
    (Zs32.setStage st z).table = z.table := rfl
@[simp] theorem Zs32.setStage_source (st : Stage) (z : Zs32) :
    (Zs32.setStage st z).source = z.source := rfl
@[simp] theorem Zs32.setStage_mixer (st : Stage) (z : Zs32) :
    (Zs32.setStage st z).mixer = z.mixer := rfl
@[simp] theorem Zs32.setStage_audio (st : Stage) (z : Zs32) :
    (Zs32.setStage st z).audio = z.audio := rfl
@[simp] theorem Zs32.setStage_notices (st : Stage) (z : Zs32) :
    (Zs32.setStage st z).notices = z.notices := rfl
@[simp] theorem Zs32.enqueue_rst (p : Placed) (o : Origin) (z : Zs32) :
    (Zs32.enqueue p o z).rst = z.rst := rfl
@[simp] theorem Zs32.enqueue_clock (p : Placed) (o : Origin) (z : Zs32) :
    (Zs32.enqueue p o z).clock = z.clock := rfl
@[simp] theorem Zs32.enqueue_setup (p : Placed) (o : Origin) (z : Zs32) :
    (Zs32.enqueue p o z).setup = z.setup := rfl
@[simp] theorem Zs32.enqueue_memb (p : Placed) (o : Origin) (z : Zs32) :
    (Zs32.enqueue p o z).memb = z.memb := rfl
@[simp] theorem Zs32.enqueue_table (p : Placed) (o : Origin) (z : Zs32) :
    (Zs32.enqueue p o z).table = z.table := rfl
@[simp] theorem Zs32.enqueue_source (p : Placed) (o : Origin) (z : Zs32) :
    (Zs32.enqueue p o z).source = z.source := rfl
@[simp] theorem Zs32.enqueue_mixer (p : Placed) (o : Origin) (z : Zs32) :
    (Zs32.enqueue p o z).mixer = z.mixer := rfl
@[simp] theorem Zs32.enqueue_audio (p : Placed) (o : Origin) (z : Zs32) :
    (Zs32.enqueue p o z).audio = z.audio := rfl
@[simp] theorem Zs32.enqueue_port (p : Placed) (o : Origin) (z : Zs32) :
    (Zs32.enqueue p o z).port = z.port := rfl
@[simp] theorem Zs32.enqueue_notices (p : Placed) (o : Origin) (z : Zs32) :
    (Zs32.enqueue p o z).notices = z.notices := rfl
@[simp] theorem Zs32.dropHead_rst  (z : Zs32) :
    (Zs32.dropHead z).rst = z.rst := rfl
@[simp] theorem Zs32.dropHead_clock  (z : Zs32) :
    (Zs32.dropHead z).clock = z.clock := rfl
@[simp] theorem Zs32.dropHead_setup  (z : Zs32) :
    (Zs32.dropHead z).setup = z.setup := rfl
@[simp] theorem Zs32.dropHead_memb  (z : Zs32) :
    (Zs32.dropHead z).memb = z.memb := rfl
@[simp] theorem Zs32.dropHead_table  (z : Zs32) :
    (Zs32.dropHead z).table = z.table := rfl
@[simp] theorem Zs32.dropHead_source  (z : Zs32) :
    (Zs32.dropHead z).source = z.source := rfl
@[simp] theorem Zs32.dropHead_mixer  (z : Zs32) :
    (Zs32.dropHead z).mixer = z.mixer := rfl
@[simp] theorem Zs32.dropHead_audio  (z : Zs32) :
    (Zs32.dropHead z).audio = z.audio := rfl
@[simp] theorem Zs32.dropHead_port  (z : Zs32) :
    (Zs32.dropHead z).port = z.port := rfl
@[simp] theorem Zs32.dropHead_notices  (z : Zs32) :
    (Zs32.dropHead z).notices = z.notices := rfl
@[simp] theorem Zs32.onInput_rst (i : Input) (f : InputRec → InputRec) (z : Zs32) :
    (Zs32.onInput i f z).rst = z.rst := rfl
@[simp] theorem Zs32.onInput_clock (i : Input) (f : InputRec → InputRec) (z : Zs32) :
    (Zs32.onInput i f z).clock = z.clock := rfl
@[simp] theorem Zs32.onInput_setup (i : Input) (f : InputRec → InputRec) (z : Zs32) :
    (Zs32.onInput i f z).setup = z.setup := rfl
@[simp] theorem Zs32.onInput_line (i : Input) (f : InputRec → InputRec) (z : Zs32) :
    (Zs32.onInput i f z).line = z.line := rfl
@[simp] theorem Zs32.onInput_memb (i : Input) (f : InputRec → InputRec) (z : Zs32) :
    (Zs32.onInput i f z).memb = z.memb := rfl
@[simp] theorem Zs32.onInput_table (i : Input) (f : InputRec → InputRec) (z : Zs32) :
    (Zs32.onInput i f z).table = z.table := rfl
@[simp] theorem Zs32.onInput_mixer (i : Input) (f : InputRec → InputRec) (z : Zs32) :
    (Zs32.onInput i f z).mixer = z.mixer := rfl
@[simp] theorem Zs32.onInput_audio (i : Input) (f : InputRec → InputRec) (z : Zs32) :
    (Zs32.onInput i f z).audio = z.audio := rfl
@[simp] theorem Zs32.onInput_port (i : Input) (f : InputRec → InputRec) (z : Zs32) :
    (Zs32.onInput i f z).port = z.port := rfl
@[simp] theorem Zs32.onInput_notices (i : Input) (f : InputRec → InputRec) (z : Zs32) :
    (Zs32.onInput i f z).notices = z.notices := rfl
@[simp] theorem Zs32.onInputs_rst (f : InputRec → InputRec) (z : Zs32) :
    (Zs32.onInputs f z).rst = z.rst := rfl
@[simp] theorem Zs32.onInputs_clock (f : InputRec → InputRec) (z : Zs32) :
    (Zs32.onInputs f z).clock = z.clock := rfl
@[simp] theorem Zs32.onInputs_setup (f : InputRec → InputRec) (z : Zs32) :
    (Zs32.onInputs f z).setup = z.setup := rfl
@[simp] theorem Zs32.onInputs_line (f : InputRec → InputRec) (z : Zs32) :
    (Zs32.onInputs f z).line = z.line := rfl
@[simp] theorem Zs32.onInputs_memb (f : InputRec → InputRec) (z : Zs32) :
    (Zs32.onInputs f z).memb = z.memb := rfl
@[simp] theorem Zs32.onInputs_table (f : InputRec → InputRec) (z : Zs32) :
    (Zs32.onInputs f z).table = z.table := rfl
@[simp] theorem Zs32.onInputs_mixer (f : InputRec → InputRec) (z : Zs32) :
    (Zs32.onInputs f z).mixer = z.mixer := rfl
@[simp] theorem Zs32.onInputs_audio (f : InputRec → InputRec) (z : Zs32) :
    (Zs32.onInputs f z).audio = z.audio := rfl
@[simp] theorem Zs32.onInputs_port (f : InputRec → InputRec) (z : Zs32) :
    (Zs32.onInputs f z).port = z.port := rfl
@[simp] theorem Zs32.onInputs_notices (f : InputRec → InputRec) (z : Zs32) :
    (Zs32.onInputs f z).notices = z.notices := rfl
@[simp] theorem Zs32.placeAutoClose_rst (i : Input) (c : Channel) (z : Zs32) :
    (Zs32.placeAutoClose i c z).rst = z.rst := rfl
@[simp] theorem Zs32.placeAutoClose_clock (i : Input) (c : Channel) (z : Zs32) :
    (Zs32.placeAutoClose i c z).clock = z.clock := rfl
@[simp] theorem Zs32.placeAutoClose_setup (i : Input) (c : Channel) (z : Zs32) :
    (Zs32.placeAutoClose i c z).setup = z.setup := rfl
@[simp] theorem Zs32.placeAutoClose_memb (i : Input) (c : Channel) (z : Zs32) :
    (Zs32.placeAutoClose i c z).memb = z.memb := rfl
@[simp] theorem Zs32.placeAutoClose_table (i : Input) (c : Channel) (z : Zs32) :
    (Zs32.placeAutoClose i c z).table = z.table := rfl
@[simp] theorem Zs32.placeAutoClose_mixer (i : Input) (c : Channel) (z : Zs32) :
    (Zs32.placeAutoClose i c z).mixer = z.mixer := rfl
@[simp] theorem Zs32.placeAutoClose_audio (i : Input) (c : Channel) (z : Zs32) :
    (Zs32.placeAutoClose i c z).audio = z.audio := rfl
@[simp] theorem Zs32.placeAutoClose_port (i : Input) (c : Channel) (z : Zs32) :
    (Zs32.placeAutoClose i c z).port = z.port := rfl
@[simp] theorem Zs32.placeAutoClose_notices (i : Input) (c : Channel) (z : Zs32) :
    (Zs32.placeAutoClose i c z).notices = z.notices := rfl
@[simp] theorem Zs32.emptyOutbound_rst  (z : Zs32) :
    (Zs32.emptyOutbound z).rst = z.rst := rfl
@[simp] theorem Zs32.emptyOutbound_clock  (z : Zs32) :
    (Zs32.emptyOutbound z).clock = z.clock := rfl
@[simp] theorem Zs32.emptyOutbound_setup  (z : Zs32) :
    (Zs32.emptyOutbound z).setup = z.setup := rfl
@[simp] theorem Zs32.emptyOutbound_table  (z : Zs32) :
    (Zs32.emptyOutbound z).table = z.table := rfl
@[simp] theorem Zs32.emptyOutbound_mixer  (z : Zs32) :
    (Zs32.emptyOutbound z).mixer = z.mixer := rfl
@[simp] theorem Zs32.emptyOutbound_audio  (z : Zs32) :
    (Zs32.emptyOutbound z).audio = z.audio := rfl
@[simp] theorem Zs32.emptyOutbound_notices  (z : Zs32) :
    (Zs32.emptyOutbound z).notices = z.notices := rfl
@[simp] theorem Zs32.tableClear_rst  (z : Zs32) :
    (Zs32.tableClear z).rst = z.rst := rfl
@[simp] theorem Zs32.tableClear_clock  (z : Zs32) :
    (Zs32.tableClear z).clock = z.clock := rfl
@[simp] theorem Zs32.tableClear_setup  (z : Zs32) :
    (Zs32.tableClear z).setup = z.setup := rfl
@[simp] theorem Zs32.tableClear_audio  (z : Zs32) :
    (Zs32.tableClear z).audio = z.audio := rfl
@[simp] theorem Zs32.tableClear_notices  (z : Zs32) :
    (Zs32.tableClear z).notices = z.notices := rfl
@[simp] theorem Zs32.goOff_rst (st : StationState) (z : Zs32) :
    (Zs32.goOff st z).rst = z.rst := rfl
@[simp] theorem Zs32.goOff_clock (st : StationState) (z : Zs32) :
    (Zs32.goOff st z).clock = z.clock := rfl
@[simp] theorem Zs32.goOff_setup (st : StationState) (z : Zs32) :
    (Zs32.goOff st z).setup = z.setup := rfl
@[simp] theorem Zs32.goOff_table (st : StationState) (z : Zs32) :
    (Zs32.goOff st z).table = z.table := rfl
@[simp] theorem Zs32.goOff_source (st : StationState) (z : Zs32) :
    (Zs32.goOff st z).source = z.source := rfl
@[simp] theorem Zs32.goOff_mixer (st : StationState) (z : Zs32) :
    (Zs32.goOff st z).mixer = z.mixer := rfl
@[simp] theorem Zs32.goOff_audio (st : StationState) (z : Zs32) :
    (Zs32.goOff st z).audio = z.audio := rfl
@[simp] theorem Zs32.goOff_port (st : StationState) (z : Zs32) :
    (Zs32.goOff st z).port = z.port := rfl
@[simp] theorem Zs32.goOff_notices (st : StationState) (z : Zs32) :
    (Zs32.goOff st z).notices = z.notices := rfl
@[simp] theorem Zs32.leaveLine_rst (st : StationState) (z : Zs32) :
    (Zs32.leaveLine st z).rst = z.rst := rfl
@[simp] theorem Zs32.leaveLine_clock (st : StationState) (z : Zs32) :
    (Zs32.leaveLine st z).clock = z.clock := rfl
@[simp] theorem Zs32.leaveLine_setup (st : StationState) (z : Zs32) :
    (Zs32.leaveLine st z).setup = z.setup := rfl
@[simp] theorem Zs32.leaveLine_audio (st : StationState) (z : Zs32) :
    (Zs32.leaveLine st z).audio = z.audio := rfl
@[simp] theorem Zs32.leaveLine_notices (st : StationState) (z : Zs32) :
    (Zs32.leaveLine st z).notices = z.notices := rfl
@[simp] theorem Zs32.addEntry_rst (x : StationNo) (z : Zs32) :
    (Zs32.addEntry x z).rst = z.rst := rfl
@[simp] theorem Zs32.addEntry_clock (x : StationNo) (z : Zs32) :
    (Zs32.addEntry x z).clock = z.clock := rfl
@[simp] theorem Zs32.addEntry_setup (x : StationNo) (z : Zs32) :
    (Zs32.addEntry x z).setup = z.setup := rfl
@[simp] theorem Zs32.addEntry_line (x : StationNo) (z : Zs32) :
    (Zs32.addEntry x z).line = z.line := rfl
@[simp] theorem Zs32.addEntry_table (x : StationNo) (z : Zs32) :
    (Zs32.addEntry x z).table = z.table := rfl
@[simp] theorem Zs32.addEntry_source (x : StationNo) (z : Zs32) :
    (Zs32.addEntry x z).source = z.source := rfl
@[simp] theorem Zs32.addEntry_mixer (x : StationNo) (z : Zs32) :
    (Zs32.addEntry x z).mixer = z.mixer := rfl
@[simp] theorem Zs32.addEntry_audio (x : StationNo) (z : Zs32) :
    (Zs32.addEntry x z).audio = z.audio := rfl
@[simp] theorem Zs32.addEntry_port (x : StationNo) (z : Zs32) :
    (Zs32.addEntry x z).port = z.port := rfl
@[simp] theorem Zs32.addEntry_notices (x : StationNo) (z : Zs32) :
    (Zs32.addEntry x z).notices = z.notices := rfl
@[simp] theorem Zs32.onEntry_rst (x : StationNo) (f : RosterEntry → RosterEntry) (z : Zs32) :
    (Zs32.onEntry x f z).rst = z.rst := rfl
@[simp] theorem Zs32.onEntry_clock (x : StationNo) (f : RosterEntry → RosterEntry) (z : Zs32) :
    (Zs32.onEntry x f z).clock = z.clock := rfl
@[simp] theorem Zs32.onEntry_setup (x : StationNo) (f : RosterEntry → RosterEntry) (z : Zs32) :
    (Zs32.onEntry x f z).setup = z.setup := rfl
@[simp] theorem Zs32.onEntry_line (x : StationNo) (f : RosterEntry → RosterEntry) (z : Zs32) :
    (Zs32.onEntry x f z).line = z.line := rfl
@[simp] theorem Zs32.onEntry_table (x : StationNo) (f : RosterEntry → RosterEntry) (z : Zs32) :
    (Zs32.onEntry x f z).table = z.table := rfl
@[simp] theorem Zs32.onEntry_source (x : StationNo) (f : RosterEntry → RosterEntry) (z : Zs32) :
    (Zs32.onEntry x f z).source = z.source := rfl
@[simp] theorem Zs32.onEntry_mixer (x : StationNo) (f : RosterEntry → RosterEntry) (z : Zs32) :
    (Zs32.onEntry x f z).mixer = z.mixer := rfl
@[simp] theorem Zs32.onEntry_audio (x : StationNo) (f : RosterEntry → RosterEntry) (z : Zs32) :
    (Zs32.onEntry x f z).audio = z.audio := rfl
@[simp] theorem Zs32.onEntry_port (x : StationNo) (f : RosterEntry → RosterEntry) (z : Zs32) :
    (Zs32.onEntry x f z).port = z.port := rfl
@[simp] theorem Zs32.onEntry_notices (x : StationNo) (f : RosterEntry → RosterEntry) (z : Zs32) :
    (Zs32.onEntry x f z).notices = z.notices := rfl
@[simp] theorem Zs32.eraseEntry_rst (x : StationNo) (z : Zs32) :
    (Zs32.eraseEntry x z).rst = z.rst := rfl
@[simp] theorem Zs32.eraseEntry_clock (x : StationNo) (z : Zs32) :
    (Zs32.eraseEntry x z).clock = z.clock := rfl
@[simp] theorem Zs32.eraseEntry_setup (x : StationNo) (z : Zs32) :
    (Zs32.eraseEntry x z).setup = z.setup := rfl
@[simp] theorem Zs32.eraseEntry_line (x : StationNo) (z : Zs32) :
    (Zs32.eraseEntry x z).line = z.line := rfl
@[simp] theorem Zs32.eraseEntry_table (x : StationNo) (z : Zs32) :
    (Zs32.eraseEntry x z).table = z.table := rfl
@[simp] theorem Zs32.eraseEntry_source (x : StationNo) (z : Zs32) :
    (Zs32.eraseEntry x z).source = z.source := rfl
@[simp] theorem Zs32.eraseEntry_mixer (x : StationNo) (z : Zs32) :
    (Zs32.eraseEntry x z).mixer = z.mixer := rfl
@[simp] theorem Zs32.eraseEntry_audio (x : StationNo) (z : Zs32) :
    (Zs32.eraseEntry x z).audio = z.audio := rfl
@[simp] theorem Zs32.eraseEntry_port (x : StationNo) (z : Zs32) :
    (Zs32.eraseEntry x z).port = z.port := rfl
@[simp] theorem Zs32.eraseEntry_notices (x : StationNo) (z : Zs32) :
    (Zs32.eraseEntry x z).notices = z.notices := rfl
@[simp] theorem Zs32.setTables_rst (channels : Vector ChannelRec 16) (zones : Vector (List Claim) 32) (z : Zs32) :
    (Zs32.setTables channels zones z).rst = z.rst := rfl
@[simp] theorem Zs32.setTables_clock (channels : Vector ChannelRec 16) (zones : Vector (List Claim) 32) (z : Zs32) :
    (Zs32.setTables channels zones z).clock = z.clock := rfl
@[simp] theorem Zs32.setTables_setup (channels : Vector ChannelRec 16) (zones : Vector (List Claim) 32) (z : Zs32) :
    (Zs32.setTables channels zones z).setup = z.setup := rfl
@[simp] theorem Zs32.setTables_line (channels : Vector ChannelRec 16) (zones : Vector (List Claim) 32) (z : Zs32) :
    (Zs32.setTables channels zones z).line = z.line := rfl
@[simp] theorem Zs32.setTables_memb (channels : Vector ChannelRec 16) (zones : Vector (List Claim) 32) (z : Zs32) :
    (Zs32.setTables channels zones z).memb = z.memb := rfl
@[simp] theorem Zs32.setTables_source (channels : Vector ChannelRec 16) (zones : Vector (List Claim) 32) (z : Zs32) :
    (Zs32.setTables channels zones z).source = z.source := rfl
@[simp] theorem Zs32.setTables_mixer (channels : Vector ChannelRec 16) (zones : Vector (List Claim) 32) (z : Zs32) :
    (Zs32.setTables channels zones z).mixer = z.mixer := rfl
@[simp] theorem Zs32.setTables_audio (channels : Vector ChannelRec 16) (zones : Vector (List Claim) 32) (z : Zs32) :
    (Zs32.setTables channels zones z).audio = z.audio := rfl
@[simp] theorem Zs32.setTables_port (channels : Vector ChannelRec 16) (zones : Vector (List Claim) 32) (z : Zs32) :
    (Zs32.setTables channels zones z).port = z.port := rfl
@[simp] theorem Zs32.setTables_notices (channels : Vector ChannelRec 16) (zones : Vector (List Claim) 32) (z : Zs32) :
    (Zs32.setTables channels zones z).notices = z.notices := rfl
@[simp] theorem Zs32.setChannel_rst (c : Channel) (r : ChannelRec) (z : Zs32) :
    (Zs32.setChannel c r z).rst = z.rst := rfl
@[simp] theorem Zs32.setChannel_clock (c : Channel) (r : ChannelRec) (z : Zs32) :
    (Zs32.setChannel c r z).clock = z.clock := rfl
@[simp] theorem Zs32.setChannel_setup (c : Channel) (r : ChannelRec) (z : Zs32) :
    (Zs32.setChannel c r z).setup = z.setup := rfl
@[simp] theorem Zs32.setChannel_line (c : Channel) (r : ChannelRec) (z : Zs32) :
    (Zs32.setChannel c r z).line = z.line := rfl
@[simp] theorem Zs32.setChannel_memb (c : Channel) (r : ChannelRec) (z : Zs32) :
    (Zs32.setChannel c r z).memb = z.memb := rfl
@[simp] theorem Zs32.setChannel_source (c : Channel) (r : ChannelRec) (z : Zs32) :
    (Zs32.setChannel c r z).source = z.source := rfl
@[simp] theorem Zs32.setChannel_mixer (c : Channel) (r : ChannelRec) (z : Zs32) :
    (Zs32.setChannel c r z).mixer = z.mixer := rfl
@[simp] theorem Zs32.setChannel_audio (c : Channel) (r : ChannelRec) (z : Zs32) :
    (Zs32.setChannel c r z).audio = z.audio := rfl
@[simp] theorem Zs32.setChannel_port (c : Channel) (r : ChannelRec) (z : Zs32) :
    (Zs32.setChannel c r z).port = z.port := rfl
@[simp] theorem Zs32.setChannel_notices (c : Channel) (r : ChannelRec) (z : Zs32) :
    (Zs32.setChannel c r z).notices = z.notices := rfl
@[simp] theorem Zs32.shiftOut_rst (b : Option Byte) (z : Zs32) :
    (Zs32.shiftOut b z).rst = z.rst := rfl
@[simp] theorem Zs32.shiftOut_clock (b : Option Byte) (z : Zs32) :
    (Zs32.shiftOut b z).clock = z.clock := rfl
@[simp] theorem Zs32.shiftOut_setup (b : Option Byte) (z : Zs32) :
    (Zs32.shiftOut b z).setup = z.setup := rfl
@[simp] theorem Zs32.shiftOut_line (b : Option Byte) (z : Zs32) :
    (Zs32.shiftOut b z).line = z.line := rfl
@[simp] theorem Zs32.shiftOut_memb (b : Option Byte) (z : Zs32) :
    (Zs32.shiftOut b z).memb = z.memb := rfl
@[simp] theorem Zs32.shiftOut_table (b : Option Byte) (z : Zs32) :
    (Zs32.shiftOut b z).table = z.table := rfl
@[simp] theorem Zs32.shiftOut_source (b : Option Byte) (z : Zs32) :
    (Zs32.shiftOut b z).source = z.source := rfl
@[simp] theorem Zs32.shiftOut_mixer (b : Option Byte) (z : Zs32) :
    (Zs32.shiftOut b z).mixer = z.mixer := rfl
@[simp] theorem Zs32.shiftOut_audio (b : Option Byte) (z : Zs32) :
    (Zs32.shiftOut b z).audio = z.audio := rfl
@[simp] theorem Zs32.shiftOut_notices (b : Option Byte) (z : Zs32) :
    (Zs32.shiftOut b z).notices = z.notices := rfl
@[simp] theorem Zs32.refuseByte_rst  (z : Zs32) :
    (Zs32.refuseByte z).rst = z.rst := rfl
@[simp] theorem Zs32.refuseByte_clock  (z : Zs32) :
    (Zs32.refuseByte z).clock = z.clock := rfl
@[simp] theorem Zs32.refuseByte_setup  (z : Zs32) :
    (Zs32.refuseByte z).setup = z.setup := rfl
@[simp] theorem Zs32.refuseByte_line  (z : Zs32) :
    (Zs32.refuseByte z).line = z.line := rfl
@[simp] theorem Zs32.refuseByte_memb  (z : Zs32) :
    (Zs32.refuseByte z).memb = z.memb := rfl
@[simp] theorem Zs32.refuseByte_table  (z : Zs32) :
    (Zs32.refuseByte z).table = z.table := rfl
@[simp] theorem Zs32.refuseByte_source  (z : Zs32) :
    (Zs32.refuseByte z).source = z.source := rfl
@[simp] theorem Zs32.refuseByte_mixer  (z : Zs32) :
    (Zs32.refuseByte z).mixer = z.mixer := rfl
@[simp] theorem Zs32.refuseByte_audio  (z : Zs32) :
    (Zs32.refuseByte z).audio = z.audio := rfl
@[simp] theorem Zs32.refuseByte_notices  (z : Zs32) :
    (Zs32.refuseByte z).notices = z.notices := rfl
@[simp] theorem Zs32.openTransaction_clock (header : Byte) (z : Zs32) :
    (Zs32.openTransaction header z).clock = z.clock := rfl
@[simp] theorem Zs32.openTransaction_setup (header : Byte) (z : Zs32) :
    (Zs32.openTransaction header z).setup = z.setup := rfl
@[simp] theorem Zs32.openTransaction_line (header : Byte) (z : Zs32) :
    (Zs32.openTransaction header z).line = z.line := rfl
@[simp] theorem Zs32.openTransaction_memb (header : Byte) (z : Zs32) :
    (Zs32.openTransaction header z).memb = z.memb := rfl
@[simp] theorem Zs32.openTransaction_table (header : Byte) (z : Zs32) :
    (Zs32.openTransaction header z).table = z.table := rfl
@[simp] theorem Zs32.openTransaction_source (header : Byte) (z : Zs32) :
    (Zs32.openTransaction header z).source = z.source := rfl
@[simp] theorem Zs32.openTransaction_mixer (header : Byte) (z : Zs32) :
    (Zs32.openTransaction header z).mixer = z.mixer := rfl
@[simp] theorem Zs32.openTransaction_audio (header : Byte) (z : Zs32) :
    (Zs32.openTransaction header z).audio = z.audio := rfl
@[simp] theorem Zs32.openTransaction_notices (header : Byte) (z : Zs32) :
    (Zs32.openTransaction header z).notices = z.notices := rfl
@[simp] theorem Zs32.disregard_rst  (z : Zs32) :
    (Zs32.disregard z).rst = z.rst := rfl
@[simp] theorem Zs32.disregard_clock  (z : Zs32) :
    (Zs32.disregard z).clock = z.clock := rfl
@[simp] theorem Zs32.disregard_setup  (z : Zs32) :
    (Zs32.disregard z).setup = z.setup := rfl
@[simp] theorem Zs32.disregard_line  (z : Zs32) :
    (Zs32.disregard z).line = z.line := rfl
@[simp] theorem Zs32.disregard_memb  (z : Zs32) :
    (Zs32.disregard z).memb = z.memb := rfl
@[simp] theorem Zs32.disregard_table  (z : Zs32) :
    (Zs32.disregard z).table = z.table := rfl
@[simp] theorem Zs32.disregard_source  (z : Zs32) :
    (Zs32.disregard z).source = z.source := rfl
@[simp] theorem Zs32.disregard_mixer  (z : Zs32) :
    (Zs32.disregard z).mixer = z.mixer := rfl
@[simp] theorem Zs32.disregard_audio  (z : Zs32) :
    (Zs32.disregard z).audio = z.audio := rfl
@[simp] theorem Zs32.disregard_notices  (z : Zs32) :
    (Zs32.disregard z).notices = z.notices := rfl
@[simp] theorem Zs32.transactionEnd_rst  (z : Zs32) :
    (Zs32.transactionEnd z).rst = z.rst := rfl
@[simp] theorem Zs32.transactionEnd_clock  (z : Zs32) :
    (Zs32.transactionEnd z).clock = z.clock := rfl
@[simp] theorem Zs32.transactionEnd_setup  (z : Zs32) :
    (Zs32.transactionEnd z).setup = z.setup := rfl
@[simp] theorem Zs32.transactionEnd_line  (z : Zs32) :
    (Zs32.transactionEnd z).line = z.line := rfl
@[simp] theorem Zs32.transactionEnd_memb  (z : Zs32) :
    (Zs32.transactionEnd z).memb = z.memb := rfl
@[simp] theorem Zs32.transactionEnd_table  (z : Zs32) :
    (Zs32.transactionEnd z).table = z.table := rfl
@[simp] theorem Zs32.transactionEnd_source  (z : Zs32) :
    (Zs32.transactionEnd z).source = z.source := rfl
@[simp] theorem Zs32.transactionEnd_mixer  (z : Zs32) :
    (Zs32.transactionEnd z).mixer = z.mixer := rfl
@[simp] theorem Zs32.transactionEnd_audio  (z : Zs32) :
    (Zs32.transactionEnd z).audio = z.audio := rfl
@[simp] theorem Zs32.transactionEnd_notices  (z : Zs32) :
    (Zs32.transactionEnd z).notices = z.notices := rfl
@[simp] theorem Zs32.configured_rst (setup : Setup) (binds : Vector (Option Zone) 4) (mask : BitVec 16) (z : Zs32) :
    (Zs32.configured setup binds mask z).rst = z.rst := rfl
@[simp] theorem Zs32.configured_clock (setup : Setup) (binds : Vector (Option Zone) 4) (mask : BitVec 16) (z : Zs32) :
    (Zs32.configured setup binds mask z).clock = z.clock := rfl
@[simp] theorem Zs32.configured_line (setup : Setup) (binds : Vector (Option Zone) 4) (mask : BitVec 16) (z : Zs32) :
    (Zs32.configured setup binds mask z).line = z.line := rfl
@[simp] theorem Zs32.configured_table (setup : Setup) (binds : Vector (Option Zone) 4) (mask : BitVec 16) (z : Zs32) :
    (Zs32.configured setup binds mask z).table = z.table := rfl
@[simp] theorem Zs32.configured_source (setup : Setup) (binds : Vector (Option Zone) 4) (mask : BitVec 16) (z : Zs32) :
    (Zs32.configured setup binds mask z).source = z.source := rfl
@[simp] theorem Zs32.configured_audio (setup : Setup) (binds : Vector (Option Zone) 4) (mask : BitVec 16) (z : Zs32) :
    (Zs32.configured setup binds mask z).audio = z.audio := rfl
@[simp] theorem Zs32.configured_port (setup : Setup) (binds : Vector (Option Zone) 4) (mask : BitVec 16) (z : Zs32) :
    (Zs32.configured setup binds mask z).port = z.port := rfl
@[simp] theorem Zs32.finishFrame_rst  (z : Zs32) :
    (Zs32.finishFrame z).rst = z.rst := rfl
@[simp] theorem Zs32.finishFrame_clock  (z : Zs32) :
    (Zs32.finishFrame z).clock = z.clock := rfl
@[simp] theorem Zs32.finishFrame_setup  (z : Zs32) :
    (Zs32.finishFrame z).setup = z.setup := rfl
@[simp] theorem Zs32.finishFrame_memb  (z : Zs32) :
    (Zs32.finishFrame z).memb = z.memb := rfl
@[simp] theorem Zs32.finishFrame_table  (z : Zs32) :
    (Zs32.finishFrame z).table = z.table := rfl
@[simp] theorem Zs32.finishFrame_source  (z : Zs32) :
    (Zs32.finishFrame z).source = z.source := rfl
@[simp] theorem Zs32.finishFrame_mixer  (z : Zs32) :
    (Zs32.finishFrame z).mixer = z.mixer := rfl
@[simp] theorem Zs32.finishFrame_audio  (z : Zs32) :
    (Zs32.finishFrame z).audio = z.audio := rfl
@[simp] theorem Zs32.finishFrame_port  (z : Zs32) :
    (Zs32.finishFrame z).port = z.port := rfl
@[simp] theorem Zs32.finishFrame_notices  (z : Zs32) :
    (Zs32.finishFrame z).notices = z.notices := rfl
@[simp] theorem Zs32.appendFrame_rst (f : Frame) (mark : Option Origin) (z : Zs32) :
    (Zs32.appendFrame f mark z).rst = z.rst := rfl
@[simp] theorem Zs32.appendFrame_clock (f : Frame) (mark : Option Origin) (z : Zs32) :
    (Zs32.appendFrame f mark z).clock = z.clock := rfl
@[simp] theorem Zs32.appendFrame_setup (f : Frame) (mark : Option Origin) (z : Zs32) :
    (Zs32.appendFrame f mark z).setup = z.setup := rfl
@[simp] theorem Zs32.appendFrame_memb (f : Frame) (mark : Option Origin) (z : Zs32) :
    (Zs32.appendFrame f mark z).memb = z.memb := rfl
@[simp] theorem Zs32.appendFrame_table (f : Frame) (mark : Option Origin) (z : Zs32) :
    (Zs32.appendFrame f mark z).table = z.table := rfl
@[simp] theorem Zs32.appendFrame_source (f : Frame) (mark : Option Origin) (z : Zs32) :
    (Zs32.appendFrame f mark z).source = z.source := rfl
@[simp] theorem Zs32.appendFrame_mixer (f : Frame) (mark : Option Origin) (z : Zs32) :
    (Zs32.appendFrame f mark z).mixer = z.mixer := rfl
@[simp] theorem Zs32.appendFrame_audio (f : Frame) (mark : Option Origin) (z : Zs32) :
    (Zs32.appendFrame f mark z).audio = z.audio := rfl
@[simp] theorem Zs32.appendFrame_port (f : Frame) (mark : Option Origin) (z : Zs32) :
    (Zs32.appendFrame f mark z).port = z.port := rfl
@[simp] theorem Zs32.appendFrame_notices (f : Frame) (mark : Option Origin) (z : Zs32) :
    (Zs32.appendFrame f mark z).notices = z.notices := rfl
@[simp] theorem Zs32.endSlots_rst  (z : Zs32) :
    (Zs32.endSlots z).rst = z.rst := rfl
@[simp] theorem Zs32.endSlots_clock  (z : Zs32) :
    (Zs32.endSlots z).clock = z.clock := rfl
@[simp] theorem Zs32.endSlots_setup  (z : Zs32) :
    (Zs32.endSlots z).setup = z.setup := rfl
@[simp] theorem Zs32.endSlots_memb  (z : Zs32) :
    (Zs32.endSlots z).memb = z.memb := rfl
@[simp] theorem Zs32.endSlots_table  (z : Zs32) :
    (Zs32.endSlots z).table = z.table := rfl
@[simp] theorem Zs32.endSlots_source  (z : Zs32) :
    (Zs32.endSlots z).source = z.source := rfl
@[simp] theorem Zs32.endSlots_mixer  (z : Zs32) :
    (Zs32.endSlots z).mixer = z.mixer := rfl
@[simp] theorem Zs32.endSlots_audio  (z : Zs32) :
    (Zs32.endSlots z).audio = z.audio := rfl
@[simp] theorem Zs32.endSlots_port  (z : Zs32) :
    (Zs32.endSlots z).port = z.port := rfl
@[simp] theorem Zs32.endSlots_notices  (z : Zs32) :
    (Zs32.endSlots z).notices = z.notices := rfl
@[simp] theorem Zs32.enterExecution_rst (cmd : LineCommand) (st : Stage) (z : Zs32) :
    (Zs32.enterExecution cmd st z).rst = z.rst := rfl
@[simp] theorem Zs32.enterExecution_clock (cmd : LineCommand) (st : Stage) (z : Zs32) :
    (Zs32.enterExecution cmd st z).clock = z.clock := rfl
@[simp] theorem Zs32.enterExecution_setup (cmd : LineCommand) (st : Stage) (z : Zs32) :
    (Zs32.enterExecution cmd st z).setup = z.setup := rfl
@[simp] theorem Zs32.enterExecution_line (cmd : LineCommand) (st : Stage) (z : Zs32) :
    (Zs32.enterExecution cmd st z).line = z.line := rfl
@[simp] theorem Zs32.enterExecution_memb (cmd : LineCommand) (st : Stage) (z : Zs32) :
    (Zs32.enterExecution cmd st z).memb = z.memb := rfl
@[simp] theorem Zs32.enterExecution_table (cmd : LineCommand) (st : Stage) (z : Zs32) :
    (Zs32.enterExecution cmd st z).table = z.table := rfl
@[simp] theorem Zs32.enterExecution_source (cmd : LineCommand) (st : Stage) (z : Zs32) :
    (Zs32.enterExecution cmd st z).source = z.source := rfl
@[simp] theorem Zs32.enterExecution_mixer (cmd : LineCommand) (st : Stage) (z : Zs32) :
    (Zs32.enterExecution cmd st z).mixer = z.mixer := rfl
@[simp] theorem Zs32.enterExecution_audio (cmd : LineCommand) (st : Stage) (z : Zs32) :
    (Zs32.enterExecution cmd st z).audio = z.audio := rfl
@[simp] theorem Zs32.enterExecution_notices (cmd : LineCommand) (st : Stage) (z : Zs32) :
    (Zs32.enterExecution cmd st z).notices = z.notices := rfl
@[simp] theorem Zs32.refuse_rst (code : ResultCode) (z : Zs32) :
    (Zs32.refuse code z).rst = z.rst := rfl
@[simp] theorem Zs32.refuse_clock (code : ResultCode) (z : Zs32) :
    (Zs32.refuse code z).clock = z.clock := rfl
@[simp] theorem Zs32.refuse_setup (code : ResultCode) (z : Zs32) :
    (Zs32.refuse code z).setup = z.setup := rfl
@[simp] theorem Zs32.refuse_line (code : ResultCode) (z : Zs32) :
    (Zs32.refuse code z).line = z.line := rfl
@[simp] theorem Zs32.refuse_memb (code : ResultCode) (z : Zs32) :
    (Zs32.refuse code z).memb = z.memb := rfl
@[simp] theorem Zs32.refuse_table (code : ResultCode) (z : Zs32) :
    (Zs32.refuse code z).table = z.table := rfl
@[simp] theorem Zs32.refuse_source (code : ResultCode) (z : Zs32) :
    (Zs32.refuse code z).source = z.source := rfl
@[simp] theorem Zs32.refuse_mixer (code : ResultCode) (z : Zs32) :
    (Zs32.refuse code z).mixer = z.mixer := rfl
@[simp] theorem Zs32.refuse_audio (code : ResultCode) (z : Zs32) :
    (Zs32.refuse code z).audio = z.audio := rfl
@[simp] theorem Zs32.refuse_notices (code : ResultCode) (z : Zs32) :
    (Zs32.refuse code z).notices = z.notices := rfl
@[simp] theorem Zs32.mergeClose_rst (c : Channel) (i : Input) (z : Zs32) :
    (Zs32.mergeClose c i z).rst = z.rst := rfl
@[simp] theorem Zs32.mergeClose_clock (c : Channel) (i : Input) (z : Zs32) :
    (Zs32.mergeClose c i z).clock = z.clock := rfl
@[simp] theorem Zs32.mergeClose_setup (c : Channel) (i : Input) (z : Zs32) :
    (Zs32.mergeClose c i z).setup = z.setup := rfl
@[simp] theorem Zs32.mergeClose_line (c : Channel) (i : Input) (z : Zs32) :
    (Zs32.mergeClose c i z).line = z.line := rfl
@[simp] theorem Zs32.mergeClose_memb (c : Channel) (i : Input) (z : Zs32) :
    (Zs32.mergeClose c i z).memb = z.memb := rfl
@[simp] theorem Zs32.mergeClose_table (c : Channel) (i : Input) (z : Zs32) :
    (Zs32.mergeClose c i z).table = z.table := rfl
@[simp] theorem Zs32.mergeClose_mixer (c : Channel) (i : Input) (z : Zs32) :
    (Zs32.mergeClose c i z).mixer = z.mixer := rfl
@[simp] theorem Zs32.mergeClose_audio (c : Channel) (i : Input) (z : Zs32) :
    (Zs32.mergeClose c i z).audio = z.audio := rfl
@[simp] theorem Zs32.mergeClose_notices (c : Channel) (i : Input) (z : Zs32) :
    (Zs32.mergeClose c i z).notices = z.notices := rfl
@[simp] theorem Zs32.channelLive_rst (c : Channel) (z : Zs32) :
    (Zs32.channelLive c z).rst = z.rst := rfl
@[simp] theorem Zs32.channelLive_clock (c : Channel) (z : Zs32) :
    (Zs32.channelLive c z).clock = z.clock := rfl
@[simp] theorem Zs32.channelLive_setup (c : Channel) (z : Zs32) :
    (Zs32.channelLive c z).setup = z.setup := rfl
@[simp] theorem Zs32.channelLive_line (c : Channel) (z : Zs32) :
    (Zs32.channelLive c z).line = z.line := rfl
@[simp] theorem Zs32.channelLive_memb (c : Channel) (z : Zs32) :
    (Zs32.channelLive c z).memb = z.memb := rfl
@[simp] theorem Zs32.channelLive_table (c : Channel) (z : Zs32) :
    (Zs32.channelLive c z).table = z.table := rfl
@[simp] theorem Zs32.channelLive_source (c : Channel) (z : Zs32) :
    (Zs32.channelLive c z).source = z.source := rfl
@[simp] theorem Zs32.channelLive_audio (c : Channel) (z : Zs32) :
    (Zs32.channelLive c z).audio = z.audio := rfl
@[simp] theorem Zs32.channelLive_port (c : Channel) (z : Zs32) :
    (Zs32.channelLive c z).port = z.port := rfl
@[simp] theorem Zs32.channelLive_notices (c : Channel) (z : Zs32) :
    (Zs32.channelLive c z).notices = z.notices := rfl
@[simp] theorem Zs32.endOwnership_rst (c : Channel) (z : Zs32) :
    (Zs32.endOwnership c z).rst = z.rst := rfl
@[simp] theorem Zs32.endOwnership_clock (c : Channel) (z : Zs32) :
    (Zs32.endOwnership c z).clock = z.clock := rfl
@[simp] theorem Zs32.endOwnership_setup (c : Channel) (z : Zs32) :
    (Zs32.endOwnership c z).setup = z.setup := rfl
@[simp] theorem Zs32.endOwnership_line (c : Channel) (z : Zs32) :
    (Zs32.endOwnership c z).line = z.line := rfl
@[simp] theorem Zs32.endOwnership_memb (c : Channel) (z : Zs32) :
    (Zs32.endOwnership c z).memb = z.memb := rfl
@[simp] theorem Zs32.endOwnership_source (c : Channel) (z : Zs32) :
    (Zs32.endOwnership c z).source = z.source := rfl
@[simp] theorem Zs32.endOwnership_mixer (c : Channel) (z : Zs32) :
    (Zs32.endOwnership c z).mixer = z.mixer := rfl
@[simp] theorem Zs32.endOwnership_audio (c : Channel) (z : Zs32) :
    (Zs32.endOwnership c z).audio = z.audio := rfl
@[simp] theorem Zs32.endOwnership_port (c : Channel) (z : Zs32) :
    (Zs32.endOwnership c z).port = z.port := rfl
@[simp] theorem Zs32.endOwnership_notices (c : Channel) (z : Zs32) :
    (Zs32.endOwnership c z).notices = z.notices := rfl
@[simp] theorem Zs32.presenceAging_rst  (z : Zs32) :
    (Zs32.presenceAging z).rst = z.rst := rfl
@[simp] theorem Zs32.presenceAging_clock  (z : Zs32) :
    (Zs32.presenceAging z).clock = z.clock := rfl
@[simp] theorem Zs32.presenceAging_setup  (z : Zs32) :
    (Zs32.presenceAging z).setup = z.setup := rfl
@[simp] theorem Zs32.presenceAging_memb  (z : Zs32) :
    (Zs32.presenceAging z).memb = z.memb := rfl
@[simp] theorem Zs32.presenceAging_table  (z : Zs32) :
    (Zs32.presenceAging z).table = z.table := rfl
@[simp] theorem Zs32.presenceAging_source  (z : Zs32) :
    (Zs32.presenceAging z).source = z.source := rfl
@[simp] theorem Zs32.presenceAging_mixer  (z : Zs32) :
    (Zs32.presenceAging z).mixer = z.mixer := rfl
@[simp] theorem Zs32.presenceAging_audio  (z : Zs32) :
    (Zs32.presenceAging z).audio = z.audio := rfl
@[simp] theorem Zs32.presenceAging_port  (z : Zs32) :
    (Zs32.presenceAging z).port = z.port := rfl
@[simp] theorem Zs32.presenceAging_notices  (z : Zs32) :
    (Zs32.presenceAging z).notices = z.notices := rfl
@[simp] theorem Zs32.startSilence_rst  (z : Zs32) :
    (Zs32.startSilence z).rst = z.rst := rfl
@[simp] theorem Zs32.startSilence_clock  (z : Zs32) :
    (Zs32.startSilence z).clock = z.clock := rfl
@[simp] theorem Zs32.startSilence_setup  (z : Zs32) :
    (Zs32.startSilence z).setup = z.setup := rfl
@[simp] theorem Zs32.startSilence_line  (z : Zs32) :
    (Zs32.startSilence z).line = z.line := rfl
@[simp] theorem Zs32.startSilence_table  (z : Zs32) :
    (Zs32.startSilence z).table = z.table := rfl
@[simp] theorem Zs32.startSilence_source  (z : Zs32) :
    (Zs32.startSilence z).source = z.source := rfl
@[simp] theorem Zs32.startSilence_mixer  (z : Zs32) :
    (Zs32.startSilence z).mixer = z.mixer := rfl
@[simp] theorem Zs32.startSilence_audio  (z : Zs32) :
    (Zs32.startSilence z).audio = z.audio := rfl
@[simp] theorem Zs32.startSilence_port  (z : Zs32) :
    (Zs32.startSilence z).port = z.port := rfl
@[simp] theorem Zs32.startSilence_notices  (z : Zs32) :
    (Zs32.startSilence z).notices = z.notices := rfl

/-! ### Parts of a changed field left alone -/

@[simp] theorem Zs32.setStage_port_phase (st : Stage) (z : Zs32) :
    (Zs32.setStage st z).port.phase = z.port.phase := rfl
@[simp] theorem Zs32.setStage_port_cmdBuf (st : Stage) (z : Zs32) :
    (Zs32.setStage st z).port.cmdBuf = z.port.cmdBuf := rfl
@[simp] theorem Zs32.setStage_port_resBuf (st : Stage) (z : Zs32) :
    (Zs32.setStage st z).port.resBuf = z.port.resBuf := rfl
@[simp] theorem Zs32.setStage_port_readPos (st : Stage) (z : Zs32) :
    (Zs32.setStage st z).port.readPos = z.port.readPos := rfl
@[simp] theorem Zs32.setStage_port_firstByte (st : Stage) (z : Zs32) :
    (Zs32.setStage st z).port.firstByte = z.port.firstByte := rfl
@[simp] theorem Zs32.setStage_port_refused (st : Stage) (z : Zs32) :
    (Zs32.setStage st z).port.refused = z.port.refused := rfl
@[simp] theorem Zs32.setStage_port_transaction (st : Stage) (z : Zs32) :
    (Zs32.setStage st z).port.transaction = z.port.transaction := rfl
@[simp] theorem Zs32.setStage_port_sdo (st : Stage) (z : Zs32) :
    (Zs32.setStage st z).port.sdo = z.port.sdo := rfl
@[simp] theorem Zs32.enqueue_line_inq (p : Placed) (o : Origin) (z : Zs32) :
    (Zs32.enqueue p o z).line.inq = z.line.inq := rfl
@[simp] theorem Zs32.enqueue_line_fails (p : Placed) (o : Origin) (z : Zs32) :
    (Zs32.enqueue p o z).line.fails = z.line.fails := rfl
@[simp] theorem Zs32.enqueue_line_vetoSeen (p : Placed) (o : Origin) (z : Zs32) :
    (Zs32.enqueue p o z).line.vetoSeen = z.line.vetoSeen := rfl
@[simp] theorem Zs32.enqueue_line_vetoCount (p : Placed) (o : Origin) (z : Zs32) :
    (Zs32.enqueue p o z).line.vetoCount = z.line.vetoCount := rfl
@[simp] theorem Zs32.enqueue_line_receiver (p : Placed) (o : Origin) (z : Zs32) :
    (Zs32.enqueue p o z).line.receiver = z.line.receiver := rfl
@[simp] theorem Zs32.enqueue_line_gapBits (p : Placed) (o : Origin) (z : Zs32) :
    (Zs32.enqueue p o z).line.gapBits = z.line.gapBits := rfl
@[simp] theorem Zs32.enqueue_line_halt (p : Placed) (o : Origin) (z : Zs32) :
    (Zs32.enqueue p o z).line.halt = z.line.halt := rfl
@[simp] theorem Zs32.enqueue_line_attempt (p : Placed) (o : Origin) (z : Zs32) :
    (Zs32.enqueue p o z).line.attempt = z.line.attempt := rfl
@[simp] theorem Zs32.enqueue_line_reception (p : Placed) (o : Origin) (z : Zs32) :
    (Zs32.enqueue p o z).line.reception = z.line.reception := rfl
@[simp] theorem Zs32.placeAutoClose_line_inq (i : Input) (c : Channel) (z : Zs32) :
    (Zs32.placeAutoClose i c z).line.inq = z.line.inq := rfl
@[simp] theorem Zs32.placeAutoClose_line_fails (i : Input) (c : Channel) (z : Zs32) :
    (Zs32.placeAutoClose i c z).line.fails = z.line.fails := rfl
@[simp] theorem Zs32.placeAutoClose_line_vetoSeen (i : Input) (c : Channel) (z : Zs32) :
    (Zs32.placeAutoClose i c z).line.vetoSeen = z.line.vetoSeen := rfl
@[simp] theorem Zs32.placeAutoClose_line_vetoCount (i : Input) (c : Channel) (z : Zs32) :
    (Zs32.placeAutoClose i c z).line.vetoCount = z.line.vetoCount := rfl
@[simp] theorem Zs32.placeAutoClose_line_receiver (i : Input) (c : Channel) (z : Zs32) :
    (Zs32.placeAutoClose i c z).line.receiver = z.line.receiver := rfl
@[simp] theorem Zs32.placeAutoClose_line_gapBits (i : Input) (c : Channel) (z : Zs32) :
    (Zs32.placeAutoClose i c z).line.gapBits = z.line.gapBits := rfl
@[simp] theorem Zs32.placeAutoClose_line_halt (i : Input) (c : Channel) (z : Zs32) :
    (Zs32.placeAutoClose i c z).line.halt = z.line.halt := rfl
@[simp] theorem Zs32.placeAutoClose_line_attempt (i : Input) (c : Channel) (z : Zs32) :
    (Zs32.placeAutoClose i c z).line.attempt = z.line.attempt := rfl
@[simp] theorem Zs32.placeAutoClose_line_reception (i : Input) (c : Channel) (z : Zs32) :
    (Zs32.placeAutoClose i c z).line.reception = z.line.reception := rfl
@[simp] theorem Zs32.emptyOutbound_line_inq  (z : Zs32) :
    (Zs32.emptyOutbound z).line.inq = z.line.inq := rfl
@[simp] theorem Zs32.emptyOutbound_line_vetoCount  (z : Zs32) :
    (Zs32.emptyOutbound z).line.vetoCount = z.line.vetoCount := rfl
@[simp] theorem Zs32.emptyOutbound_line_receiver  (z : Zs32) :
    (Zs32.emptyOutbound z).line.receiver = z.line.receiver := rfl
@[simp] theorem Zs32.emptyOutbound_line_gapBits  (z : Zs32) :
    (Zs32.emptyOutbound z).line.gapBits = z.line.gapBits := rfl
@[simp] theorem Zs32.emptyOutbound_line_halt  (z : Zs32) :
    (Zs32.emptyOutbound z).line.halt = z.line.halt := rfl
@[simp] theorem Zs32.emptyOutbound_line_reception  (z : Zs32) :
    (Zs32.emptyOutbound z).line.reception = z.line.reception := rfl
@[simp] theorem Zs32.emptyOutbound_memb_state  (z : Zs32) :
    (Zs32.emptyOutbound z).memb.state = z.memb.state := rfl
@[simp] theorem Zs32.emptyOutbound_memb_roster  (z : Zs32) :
    (Zs32.emptyOutbound z).memb.roster = z.memb.roster := rfl
@[simp] theorem Zs32.emptyOutbound_memb_presenceTimer  (z : Zs32) :
    (Zs32.emptyOutbound z).memb.presenceTimer = z.memb.presenceTimer := rfl
@[simp] theorem Zs32.emptyOutbound_memb_presenceHeld  (z : Zs32) :
    (Zs32.emptyOutbound z).memb.presenceHeld = z.memb.presenceHeld := rfl
@[simp] theorem Zs32.emptyOutbound_memb_joinWindow  (z : Zs32) :
    (Zs32.emptyOutbound z).memb.joinWindow = z.memb.joinWindow := rfl
@[simp] theorem Zs32.emptyOutbound_memb_evictHeld  (z : Zs32) :
    (Zs32.emptyOutbound z).memb.evictHeld = z.memb.evictHeld := rfl
@[simp] theorem Zs32.emptyOutbound_memb_restateRun  (z : Zs32) :
    (Zs32.emptyOutbound z).memb.restateRun = z.memb.restateRun := rfl
@[simp] theorem Zs32.emptyOutbound_memb_cursor  (z : Zs32) :
    (Zs32.emptyOutbound z).memb.cursor = z.memb.cursor := rfl
@[simp] theorem Zs32.emptyOutbound_memb_disagreement  (z : Zs32) :
    (Zs32.emptyOutbound z).memb.disagreement = z.memb.disagreement := rfl
@[simp] theorem Zs32.emptyOutbound_port_phase  (z : Zs32) :
    (Zs32.emptyOutbound z).port.phase = z.port.phase := rfl
@[simp] theorem Zs32.emptyOutbound_port_cmdBuf  (z : Zs32) :
    (Zs32.emptyOutbound z).port.cmdBuf = z.port.cmdBuf := rfl
@[simp] theorem Zs32.emptyOutbound_port_resBuf  (z : Zs32) :
    (Zs32.emptyOutbound z).port.resBuf = z.port.resBuf := rfl
@[simp] theorem Zs32.emptyOutbound_port_readPos  (z : Zs32) :
    (Zs32.emptyOutbound z).port.readPos = z.port.readPos := rfl
@[simp] theorem Zs32.emptyOutbound_port_firstByte  (z : Zs32) :
    (Zs32.emptyOutbound z).port.firstByte = z.port.firstByte := rfl
@[simp] theorem Zs32.emptyOutbound_port_refused  (z : Zs32) :
    (Zs32.emptyOutbound z).port.refused = z.port.refused := rfl
@[simp] theorem Zs32.emptyOutbound_port_transaction  (z : Zs32) :
    (Zs32.emptyOutbound z).port.transaction = z.port.transaction := rfl
@[simp] theorem Zs32.emptyOutbound_port_sdo  (z : Zs32) :
    (Zs32.emptyOutbound z).port.sdo = z.port.sdo := rfl
@[simp] theorem Zs32.tableClear_line_receiver  (z : Zs32) :
    (Zs32.tableClear z).line.receiver = z.line.receiver := rfl
@[simp] theorem Zs32.tableClear_line_gapBits  (z : Zs32) :
    (Zs32.tableClear z).line.gapBits = z.line.gapBits := rfl
@[simp] theorem Zs32.tableClear_line_reception  (z : Zs32) :
    (Zs32.tableClear z).line.reception = z.line.reception := rfl
@[simp] theorem Zs32.tableClear_port_phase  (z : Zs32) :
    (Zs32.tableClear z).port.phase = z.port.phase := rfl
@[simp] theorem Zs32.tableClear_port_cmdBuf  (z : Zs32) :
    (Zs32.tableClear z).port.cmdBuf = z.port.cmdBuf := rfl
@[simp] theorem Zs32.tableClear_port_resBuf  (z : Zs32) :
    (Zs32.tableClear z).port.resBuf = z.port.resBuf := rfl
@[simp] theorem Zs32.tableClear_port_readPos  (z : Zs32) :
    (Zs32.tableClear z).port.readPos = z.port.readPos := rfl
@[simp] theorem Zs32.tableClear_port_firstByte  (z : Zs32) :
    (Zs32.tableClear z).port.firstByte = z.port.firstByte := rfl
@[simp] theorem Zs32.tableClear_port_refused  (z : Zs32) :
    (Zs32.tableClear z).port.refused = z.port.refused := rfl
@[simp] theorem Zs32.tableClear_port_transaction  (z : Zs32) :
    (Zs32.tableClear z).port.transaction = z.port.transaction := rfl
@[simp] theorem Zs32.tableClear_port_sdo  (z : Zs32) :
    (Zs32.tableClear z).port.sdo = z.port.sdo := rfl
@[simp] theorem Zs32.leaveLine_port_phase (st : StationState) (z : Zs32) :
    (Zs32.leaveLine st z).port.phase = z.port.phase := rfl
@[simp] theorem Zs32.leaveLine_port_cmdBuf (st : StationState) (z : Zs32) :
    (Zs32.leaveLine st z).port.cmdBuf = z.port.cmdBuf := rfl
@[simp] theorem Zs32.leaveLine_port_resBuf (st : StationState) (z : Zs32) :
    (Zs32.leaveLine st z).port.resBuf = z.port.resBuf := rfl
@[simp] theorem Zs32.leaveLine_port_readPos (st : StationState) (z : Zs32) :
    (Zs32.leaveLine st z).port.readPos = z.port.readPos := rfl
@[simp] theorem Zs32.leaveLine_port_firstByte (st : StationState) (z : Zs32) :
    (Zs32.leaveLine st z).port.firstByte = z.port.firstByte := rfl
@[simp] theorem Zs32.leaveLine_port_refused (st : StationState) (z : Zs32) :
    (Zs32.leaveLine st z).port.refused = z.port.refused := rfl
@[simp] theorem Zs32.leaveLine_port_transaction (st : StationState) (z : Zs32) :
    (Zs32.leaveLine st z).port.transaction = z.port.transaction := rfl
@[simp] theorem Zs32.leaveLine_port_sdo (st : StationState) (z : Zs32) :
    (Zs32.leaveLine st z).port.sdo = z.port.sdo := rfl
@[simp] theorem Zs32.addEntry_memb_state (x : StationNo) (z : Zs32) :
    (Zs32.addEntry x z).memb.state = z.memb.state := rfl
@[simp] theorem Zs32.addEntry_memb_presenceTimer (x : StationNo) (z : Zs32) :
    (Zs32.addEntry x z).memb.presenceTimer = z.memb.presenceTimer := rfl
@[simp] theorem Zs32.addEntry_memb_presenceQueued (x : StationNo) (z : Zs32) :
    (Zs32.addEntry x z).memb.presenceQueued = z.memb.presenceQueued := rfl
@[simp] theorem Zs32.addEntry_memb_presenceHeld (x : StationNo) (z : Zs32) :
    (Zs32.addEntry x z).memb.presenceHeld = z.memb.presenceHeld := rfl
@[simp] theorem Zs32.addEntry_memb_joinWindow (x : StationNo) (z : Zs32) :
    (Zs32.addEntry x z).memb.joinWindow = z.memb.joinWindow := rfl
@[simp] theorem Zs32.addEntry_memb_evictQueued (x : StationNo) (z : Zs32) :
    (Zs32.addEntry x z).memb.evictQueued = z.memb.evictQueued := rfl
@[simp] theorem Zs32.addEntry_memb_evictHeld (x : StationNo) (z : Zs32) :
    (Zs32.addEntry x z).memb.evictHeld = z.memb.evictHeld := rfl
@[simp] theorem Zs32.addEntry_memb_restateRun (x : StationNo) (z : Zs32) :
    (Zs32.addEntry x z).memb.restateRun = z.memb.restateRun := rfl
@[simp] theorem Zs32.addEntry_memb_cursor (x : StationNo) (z : Zs32) :
    (Zs32.addEntry x z).memb.cursor = z.memb.cursor := rfl
@[simp] theorem Zs32.addEntry_memb_disagreement (x : StationNo) (z : Zs32) :
    (Zs32.addEntry x z).memb.disagreement = z.memb.disagreement := rfl
@[simp] theorem Zs32.onEntry_memb_state (x : StationNo) (f : RosterEntry → RosterEntry) (z : Zs32) :
    (Zs32.onEntry x f z).memb.state = z.memb.state := rfl
@[simp] theorem Zs32.onEntry_memb_presenceTimer (x : StationNo) (f : RosterEntry → RosterEntry) (z : Zs32) :
    (Zs32.onEntry x f z).memb.presenceTimer = z.memb.presenceTimer := rfl
@[simp] theorem Zs32.onEntry_memb_presenceQueued (x : StationNo) (f : RosterEntry → RosterEntry) (z : Zs32) :
    (Zs32.onEntry x f z).memb.presenceQueued = z.memb.presenceQueued := rfl
@[simp] theorem Zs32.onEntry_memb_presenceHeld (x : StationNo) (f : RosterEntry → RosterEntry) (z : Zs32) :
    (Zs32.onEntry x f z).memb.presenceHeld = z.memb.presenceHeld := rfl
@[simp] theorem Zs32.onEntry_memb_joinWindow (x : StationNo) (f : RosterEntry → RosterEntry) (z : Zs32) :
    (Zs32.onEntry x f z).memb.joinWindow = z.memb.joinWindow := rfl
@[simp] theorem Zs32.onEntry_memb_evictQueued (x : StationNo) (f : RosterEntry → RosterEntry) (z : Zs32) :
    (Zs32.onEntry x f z).memb.evictQueued = z.memb.evictQueued := rfl
@[simp] theorem Zs32.onEntry_memb_evictHeld (x : StationNo) (f : RosterEntry → RosterEntry) (z : Zs32) :
    (Zs32.onEntry x f z).memb.evictHeld = z.memb.evictHeld := rfl
@[simp] theorem Zs32.onEntry_memb_restateRun (x : StationNo) (f : RosterEntry → RosterEntry) (z : Zs32) :
    (Zs32.onEntry x f z).memb.restateRun = z.memb.restateRun := rfl
@[simp] theorem Zs32.onEntry_memb_cursor (x : StationNo) (f : RosterEntry → RosterEntry) (z : Zs32) :
    (Zs32.onEntry x f z).memb.cursor = z.memb.cursor := rfl
@[simp] theorem Zs32.onEntry_memb_disagreement (x : StationNo) (f : RosterEntry → RosterEntry) (z : Zs32) :
    (Zs32.onEntry x f z).memb.disagreement = z.memb.disagreement := rfl
@[simp] theorem Zs32.eraseEntry_memb_state (x : StationNo) (z : Zs32) :
    (Zs32.eraseEntry x z).memb.state = z.memb.state := rfl
@[simp] theorem Zs32.eraseEntry_memb_presenceTimer (x : StationNo) (z : Zs32) :
    (Zs32.eraseEntry x z).memb.presenceTimer = z.memb.presenceTimer := rfl
@[simp] theorem Zs32.eraseEntry_memb_presenceQueued (x : StationNo) (z : Zs32) :
    (Zs32.eraseEntry x z).memb.presenceQueued = z.memb.presenceQueued := rfl
@[simp] theorem Zs32.eraseEntry_memb_presenceHeld (x : StationNo) (z : Zs32) :
    (Zs32.eraseEntry x z).memb.presenceHeld = z.memb.presenceHeld := rfl
@[simp] theorem Zs32.eraseEntry_memb_joinWindow (x : StationNo) (z : Zs32) :
    (Zs32.eraseEntry x z).memb.joinWindow = z.memb.joinWindow := rfl
@[simp] theorem Zs32.eraseEntry_memb_evictQueued (x : StationNo) (z : Zs32) :
    (Zs32.eraseEntry x z).memb.evictQueued = z.memb.evictQueued := rfl
@[simp] theorem Zs32.eraseEntry_memb_restateRun (x : StationNo) (z : Zs32) :
    (Zs32.eraseEntry x z).memb.restateRun = z.memb.restateRun := rfl
@[simp] theorem Zs32.eraseEntry_memb_cursor (x : StationNo) (z : Zs32) :
    (Zs32.eraseEntry x z).memb.cursor = z.memb.cursor := rfl
@[simp] theorem Zs32.setTables_table_leads (channels : Vector ChannelRec 16) (zones : Vector (List Claim) 32) (z : Zs32) :
    (Zs32.setTables channels zones z).table.leads = z.table.leads := rfl
@[simp] theorem Zs32.setTables_table_comparison (channels : Vector ChannelRec 16) (zones : Vector (List Claim) 32) (z : Zs32) :
    (Zs32.setTables channels zones z).table.comparison = z.table.comparison := rfl
@[simp] theorem Zs32.setChannel_table_zones (c : Channel) (r : ChannelRec) (z : Zs32) :
    (Zs32.setChannel c r z).table.zones = z.table.zones := rfl
@[simp] theorem Zs32.setChannel_table_leads (c : Channel) (r : ChannelRec) (z : Zs32) :
    (Zs32.setChannel c r z).table.leads = z.table.leads := rfl
@[simp] theorem Zs32.setChannel_table_comparison (c : Channel) (r : ChannelRec) (z : Zs32) :
    (Zs32.setChannel c r z).table.comparison = z.table.comparison := rfl
@[simp] theorem Zs32.shiftOut_port_phase (b : Option Byte) (z : Zs32) :
    (Zs32.shiftOut b z).port.phase = z.port.phase := rfl
@[simp] theorem Zs32.shiftOut_port_cmdBuf (b : Option Byte) (z : Zs32) :
    (Zs32.shiftOut b z).port.cmdBuf = z.port.cmdBuf := rfl
@[simp] theorem Zs32.shiftOut_port_resBuf (b : Option Byte) (z : Zs32) :
    (Zs32.shiftOut b z).port.resBuf = z.port.resBuf := rfl
@[simp] theorem Zs32.shiftOut_port_readPos (b : Option Byte) (z : Zs32) :
    (Zs32.shiftOut b z).port.readPos = z.port.readPos := rfl
@[simp] theorem Zs32.shiftOut_port_firstByte (b : Option Byte) (z : Zs32) :
    (Zs32.shiftOut b z).port.firstByte = z.port.firstByte := rfl
@[simp] theorem Zs32.shiftOut_port_refused (b : Option Byte) (z : Zs32) :
    (Zs32.shiftOut b z).port.refused = z.port.refused := rfl
@[simp] theorem Zs32.shiftOut_port_cmd (b : Option Byte) (z : Zs32) :
    (Zs32.shiftOut b z).port.cmd = z.port.cmd := rfl
@[simp] theorem Zs32.shiftOut_port_transaction (b : Option Byte) (z : Zs32) :
    (Zs32.shiftOut b z).port.transaction = z.port.transaction := rfl
@[simp] theorem Zs32.refuseByte_port_phase  (z : Zs32) :
    (Zs32.refuseByte z).port.phase = z.port.phase := rfl
@[simp] theorem Zs32.refuseByte_port_cmdBuf  (z : Zs32) :
    (Zs32.refuseByte z).port.cmdBuf = z.port.cmdBuf := rfl
@[simp] theorem Zs32.refuseByte_port_resBuf  (z : Zs32) :
    (Zs32.refuseByte z).port.resBuf = z.port.resBuf := rfl
@[simp] theorem Zs32.refuseByte_port_readPos  (z : Zs32) :
    (Zs32.refuseByte z).port.readPos = z.port.readPos := rfl
@[simp] theorem Zs32.refuseByte_port_firstByte  (z : Zs32) :
    (Zs32.refuseByte z).port.firstByte = z.port.firstByte := rfl
@[simp] theorem Zs32.refuseByte_port_cmd  (z : Zs32) :
    (Zs32.refuseByte z).port.cmd = z.port.cmd := rfl
@[simp] theorem Zs32.refuseByte_port_transaction  (z : Zs32) :
    (Zs32.refuseByte z).port.transaction = z.port.transaction := rfl
@[simp] theorem Zs32.refuseByte_port_sdo  (z : Zs32) :
    (Zs32.refuseByte z).port.sdo = z.port.sdo := rfl
@[simp] theorem Zs32.openTransaction_port_phase (header : Byte) (z : Zs32) :
    (Zs32.openTransaction header z).port.phase = z.port.phase := rfl
@[simp] theorem Zs32.openTransaction_port_cmdBuf (header : Byte) (z : Zs32) :
    (Zs32.openTransaction header z).port.cmdBuf = z.port.cmdBuf := rfl
@[simp] theorem Zs32.openTransaction_port_resBuf (header : Byte) (z : Zs32) :
    (Zs32.openTransaction header z).port.resBuf = z.port.resBuf := rfl
@[simp] theorem Zs32.openTransaction_port_readPos (header : Byte) (z : Zs32) :
    (Zs32.openTransaction header z).port.readPos = z.port.readPos := rfl
@[simp] theorem Zs32.openTransaction_port_firstByte (header : Byte) (z : Zs32) :
    (Zs32.openTransaction header z).port.firstByte = z.port.firstByte := rfl
@[simp] theorem Zs32.openTransaction_port_cmd (header : Byte) (z : Zs32) :
    (Zs32.openTransaction header z).port.cmd = z.port.cmd := rfl
@[simp] theorem Zs32.configured_memb_roster (setup : Setup) (binds : Vector (Option Zone) 4) (mask : BitVec 16) (z : Zs32) :
    (Zs32.configured setup binds mask z).memb.roster = z.memb.roster := rfl
@[simp] theorem Zs32.configured_memb_presenceTimer (setup : Setup) (binds : Vector (Option Zone) 4) (mask : BitVec 16) (z : Zs32) :
    (Zs32.configured setup binds mask z).memb.presenceTimer = z.memb.presenceTimer := rfl
@[simp] theorem Zs32.configured_memb_presenceQueued (setup : Setup) (binds : Vector (Option Zone) 4) (mask : BitVec 16) (z : Zs32) :
    (Zs32.configured setup binds mask z).memb.presenceQueued = z.memb.presenceQueued := rfl
@[simp] theorem Zs32.configured_memb_presenceHeld (setup : Setup) (binds : Vector (Option Zone) 4) (mask : BitVec 16) (z : Zs32) :
    (Zs32.configured setup binds mask z).memb.presenceHeld = z.memb.presenceHeld := rfl
@[simp] theorem Zs32.configured_memb_joinWindow (setup : Setup) (binds : Vector (Option Zone) 4) (mask : BitVec 16) (z : Zs32) :
    (Zs32.configured setup binds mask z).memb.joinWindow = z.memb.joinWindow := rfl
@[simp] theorem Zs32.configured_memb_evictQueued (setup : Setup) (binds : Vector (Option Zone) 4) (mask : BitVec 16) (z : Zs32) :
    (Zs32.configured setup binds mask z).memb.evictQueued = z.memb.evictQueued := rfl
@[simp] theorem Zs32.configured_memb_evictHeld (setup : Setup) (binds : Vector (Option Zone) 4) (mask : BitVec 16) (z : Zs32) :
    (Zs32.configured setup binds mask z).memb.evictHeld = z.memb.evictHeld := rfl
@[simp] theorem Zs32.configured_memb_restateRun (setup : Setup) (binds : Vector (Option Zone) 4) (mask : BitVec 16) (z : Zs32) :
    (Zs32.configured setup binds mask z).memb.restateRun = z.memb.restateRun := rfl
@[simp] theorem Zs32.configured_memb_cursor (setup : Setup) (binds : Vector (Option Zone) 4) (mask : BitVec 16) (z : Zs32) :
    (Zs32.configured setup binds mask z).memb.cursor = z.memb.cursor := rfl
@[simp] theorem Zs32.configured_memb_disagreement (setup : Setup) (binds : Vector (Option Zone) 4) (mask : BitVec 16) (z : Zs32) :
    (Zs32.configured setup binds mask z).memb.disagreement = z.memb.disagreement := rfl
@[simp] theorem Zs32.finishFrame_line_outq  (z : Zs32) :
    (Zs32.finishFrame z).line.outq = z.line.outq := rfl
@[simp] theorem Zs32.finishFrame_line_fails  (z : Zs32) :
    (Zs32.finishFrame z).line.fails = z.line.fails := rfl
@[simp] theorem Zs32.finishFrame_line_vetoSeen  (z : Zs32) :
    (Zs32.finishFrame z).line.vetoSeen = z.line.vetoSeen := rfl
@[simp] theorem Zs32.finishFrame_line_vetoCount  (z : Zs32) :
    (Zs32.finishFrame z).line.vetoCount = z.line.vetoCount := rfl
@[simp] theorem Zs32.finishFrame_line_receiver  (z : Zs32) :
    (Zs32.finishFrame z).line.receiver = z.line.receiver := rfl
@[simp] theorem Zs32.finishFrame_line_gapBits  (z : Zs32) :
    (Zs32.finishFrame z).line.gapBits = z.line.gapBits := rfl
@[simp] theorem Zs32.finishFrame_line_halt  (z : Zs32) :
    (Zs32.finishFrame z).line.halt = z.line.halt := rfl
@[simp] theorem Zs32.finishFrame_line_attempt  (z : Zs32) :
    (Zs32.finishFrame z).line.attempt = z.line.attempt := rfl
@[simp] theorem Zs32.finishFrame_line_reception  (z : Zs32) :
    (Zs32.finishFrame z).line.reception = z.line.reception := rfl
@[simp] theorem Zs32.appendFrame_line_outq (f : Frame) (mark : Option Origin) (z : Zs32) :
    (Zs32.appendFrame f mark z).line.outq = z.line.outq := rfl
@[simp] theorem Zs32.appendFrame_line_fails (f : Frame) (mark : Option Origin) (z : Zs32) :
    (Zs32.appendFrame f mark z).line.fails = z.line.fails := rfl
@[simp] theorem Zs32.appendFrame_line_vetoSeen (f : Frame) (mark : Option Origin) (z : Zs32) :
    (Zs32.appendFrame f mark z).line.vetoSeen = z.line.vetoSeen := rfl
@[simp] theorem Zs32.appendFrame_line_receiver (f : Frame) (mark : Option Origin) (z : Zs32) :
    (Zs32.appendFrame f mark z).line.receiver = z.line.receiver := rfl
@[simp] theorem Zs32.appendFrame_line_gapBits (f : Frame) (mark : Option Origin) (z : Zs32) :
    (Zs32.appendFrame f mark z).line.gapBits = z.line.gapBits := rfl
@[simp] theorem Zs32.appendFrame_line_halt (f : Frame) (mark : Option Origin) (z : Zs32) :
    (Zs32.appendFrame f mark z).line.halt = z.line.halt := rfl
@[simp] theorem Zs32.appendFrame_line_attempt (f : Frame) (mark : Option Origin) (z : Zs32) :
    (Zs32.appendFrame f mark z).line.attempt = z.line.attempt := rfl
@[simp] theorem Zs32.appendFrame_line_reception (f : Frame) (mark : Option Origin) (z : Zs32) :
    (Zs32.appendFrame f mark z).line.reception = z.line.reception := rfl
@[simp] theorem Zs32.enterExecution_port_resBuf (cmd : LineCommand) (st : Stage) (z : Zs32) :
    (Zs32.enterExecution cmd st z).port.resBuf = z.port.resBuf := rfl
@[simp] theorem Zs32.enterExecution_port_readPos (cmd : LineCommand) (st : Stage) (z : Zs32) :
    (Zs32.enterExecution cmd st z).port.readPos = z.port.readPos := rfl
@[simp] theorem Zs32.enterExecution_port_firstByte (cmd : LineCommand) (st : Stage) (z : Zs32) :
    (Zs32.enterExecution cmd st z).port.firstByte = z.port.firstByte := rfl
@[simp] theorem Zs32.enterExecution_port_refused (cmd : LineCommand) (st : Stage) (z : Zs32) :
    (Zs32.enterExecution cmd st z).port.refused = z.port.refused := rfl
@[simp] theorem Zs32.enterExecution_port_transaction (cmd : LineCommand) (st : Stage) (z : Zs32) :
    (Zs32.enterExecution cmd st z).port.transaction = z.port.transaction := rfl
@[simp] theorem Zs32.enterExecution_port_sdo (cmd : LineCommand) (st : Stage) (z : Zs32) :
    (Zs32.enterExecution cmd st z).port.sdo = z.port.sdo := rfl
@[simp] theorem Zs32.refuse_port_refused (code : ResultCode) (z : Zs32) :
    (Zs32.refuse code z).port.refused = z.port.refused := rfl
@[simp] theorem Zs32.refuse_port_transaction (code : ResultCode) (z : Zs32) :
    (Zs32.refuse code z).port.transaction = z.port.transaction := rfl
@[simp] theorem Zs32.refuse_port_sdo (code : ResultCode) (z : Zs32) :
    (Zs32.refuse code z).port.sdo = z.port.sdo := rfl
@[simp] theorem Zs32.mergeClose_port_resBuf (c : Channel) (i : Input) (z : Zs32) :
    (Zs32.mergeClose c i z).port.resBuf = z.port.resBuf := rfl
@[simp] theorem Zs32.mergeClose_port_readPos (c : Channel) (i : Input) (z : Zs32) :
    (Zs32.mergeClose c i z).port.readPos = z.port.readPos := rfl
@[simp] theorem Zs32.mergeClose_port_firstByte (c : Channel) (i : Input) (z : Zs32) :
    (Zs32.mergeClose c i z).port.firstByte = z.port.firstByte := rfl
@[simp] theorem Zs32.mergeClose_port_refused (c : Channel) (i : Input) (z : Zs32) :
    (Zs32.mergeClose c i z).port.refused = z.port.refused := rfl
@[simp] theorem Zs32.mergeClose_port_transaction (c : Channel) (i : Input) (z : Zs32) :
    (Zs32.mergeClose c i z).port.transaction = z.port.transaction := rfl
@[simp] theorem Zs32.mergeClose_port_sdo (c : Channel) (i : Input) (z : Zs32) :
    (Zs32.mergeClose c i z).port.sdo = z.port.sdo := rfl
@[simp] theorem Zs32.endOwnership_table_leads (c : Channel) (z : Zs32) :
    (Zs32.endOwnership c z).table.leads = z.table.leads := rfl
@[simp] theorem Zs32.endOwnership_table_comparison (c : Channel) (z : Zs32) :
    (Zs32.endOwnership c z).table.comparison = z.table.comparison := rfl
@[simp] theorem Zs32.removeClaimsOf_line_outq (x : StationNo) (z : Zs32) :
    (Zs32.removeClaimsOf x z).line.outq = z.line.outq := rfl
@[simp] theorem Zs32.removeClaimsOf_line_inq (x : StationNo) (z : Zs32) :
    (Zs32.removeClaimsOf x z).line.inq = z.line.inq := rfl
@[simp] theorem Zs32.removeClaimsOf_line_fails (x : StationNo) (z : Zs32) :
    (Zs32.removeClaimsOf x z).line.fails = z.line.fails := rfl
@[simp] theorem Zs32.removeClaimsOf_line_vetoSeen (x : StationNo) (z : Zs32) :
    (Zs32.removeClaimsOf x z).line.vetoSeen = z.line.vetoSeen := rfl
@[simp] theorem Zs32.removeClaimsOf_line_vetoCount (x : StationNo) (z : Zs32) :
    (Zs32.removeClaimsOf x z).line.vetoCount = z.line.vetoCount := rfl
@[simp] theorem Zs32.removeClaimsOf_line_receiver (x : StationNo) (z : Zs32) :
    (Zs32.removeClaimsOf x z).line.receiver = z.line.receiver := rfl
@[simp] theorem Zs32.removeClaimsOf_line_gapBits (x : StationNo) (z : Zs32) :
    (Zs32.removeClaimsOf x z).line.gapBits = z.line.gapBits := rfl
@[simp] theorem Zs32.removeClaimsOf_line_halt (x : StationNo) (z : Zs32) :
    (Zs32.removeClaimsOf x z).line.halt = z.line.halt := rfl
@[simp] theorem Zs32.removeClaimsOf_line_attempt (x : StationNo) (z : Zs32) :
    (Zs32.removeClaimsOf x z).line.attempt = z.line.attempt := rfl
@[simp] theorem Zs32.removeClaimsOf_line_reception (x : StationNo) (z : Zs32) :
    (Zs32.removeClaimsOf x z).line.reception = z.line.reception := rfl
@[simp] theorem Zs32.removeClaimsOf_memb_state (x : StationNo) (z : Zs32) :
    (Zs32.removeClaimsOf x z).memb.state = z.memb.state := rfl
@[simp] theorem Zs32.removeClaimsOf_memb_roster (x : StationNo) (z : Zs32) :
    (Zs32.removeClaimsOf x z).memb.roster = z.memb.roster := rfl
@[simp] theorem Zs32.removeClaimsOf_memb_presenceTimer (x : StationNo) (z : Zs32) :
    (Zs32.removeClaimsOf x z).memb.presenceTimer = z.memb.presenceTimer := rfl
@[simp] theorem Zs32.removeClaimsOf_memb_presenceQueued (x : StationNo) (z : Zs32) :
    (Zs32.removeClaimsOf x z).memb.presenceQueued = z.memb.presenceQueued := rfl
@[simp] theorem Zs32.removeClaimsOf_memb_presenceHeld (x : StationNo) (z : Zs32) :
    (Zs32.removeClaimsOf x z).memb.presenceHeld = z.memb.presenceHeld := rfl
@[simp] theorem Zs32.removeClaimsOf_memb_joinWindow (x : StationNo) (z : Zs32) :
    (Zs32.removeClaimsOf x z).memb.joinWindow = z.memb.joinWindow := rfl
@[simp] theorem Zs32.removeClaimsOf_memb_evictQueued (x : StationNo) (z : Zs32) :
    (Zs32.removeClaimsOf x z).memb.evictQueued = z.memb.evictQueued := rfl
@[simp] theorem Zs32.removeClaimsOf_memb_evictHeld (x : StationNo) (z : Zs32) :
    (Zs32.removeClaimsOf x z).memb.evictHeld = z.memb.evictHeld := rfl
@[simp] theorem Zs32.removeClaimsOf_memb_restateRun (x : StationNo) (z : Zs32) :
    (Zs32.removeClaimsOf x z).memb.restateRun = z.memb.restateRun := rfl
@[simp] theorem Zs32.removeClaimsOf_memb_cursor (x : StationNo) (z : Zs32) :
    (Zs32.removeClaimsOf x z).memb.cursor = z.memb.cursor := rfl
@[simp] theorem Zs32.removeClaimsOf_memb_disagreement (x : StationNo) (z : Zs32) :
    (Zs32.removeClaimsOf x z).memb.disagreement = z.memb.disagreement := rfl
@[simp] theorem Zs32.removeClaimsOf_port_phase (x : StationNo) (z : Zs32) :
    (Zs32.removeClaimsOf x z).port.phase = z.port.phase := rfl
@[simp] theorem Zs32.removeClaimsOf_port_cmdBuf (x : StationNo) (z : Zs32) :
    (Zs32.removeClaimsOf x z).port.cmdBuf = z.port.cmdBuf := rfl
@[simp] theorem Zs32.removeClaimsOf_port_resBuf (x : StationNo) (z : Zs32) :
    (Zs32.removeClaimsOf x z).port.resBuf = z.port.resBuf := rfl
@[simp] theorem Zs32.removeClaimsOf_port_readPos (x : StationNo) (z : Zs32) :
    (Zs32.removeClaimsOf x z).port.readPos = z.port.readPos := rfl
@[simp] theorem Zs32.removeClaimsOf_port_firstByte (x : StationNo) (z : Zs32) :
    (Zs32.removeClaimsOf x z).port.firstByte = z.port.firstByte := rfl
@[simp] theorem Zs32.removeClaimsOf_port_refused (x : StationNo) (z : Zs32) :
    (Zs32.removeClaimsOf x z).port.refused = z.port.refused := rfl
@[simp] theorem Zs32.removeClaimsOf_port_cmd (x : StationNo) (z : Zs32) :
    (Zs32.removeClaimsOf x z).port.cmd = z.port.cmd := rfl
@[simp] theorem Zs32.removeClaimsOf_port_transaction (x : StationNo) (z : Zs32) :
    (Zs32.removeClaimsOf x z).port.transaction = z.port.transaction := rfl
@[simp] theorem Zs32.removeClaimsOf_port_sdo (x : StationNo) (z : Zs32) :
    (Zs32.removeClaimsOf x z).port.sdo = z.port.sdo := rfl
@[simp] theorem Zs32.dropClaims_line_outq (s : StationNo) (zones : ZoneSet) (z : Zs32) :
    (Zs32.dropClaims s zones z).line.outq = z.line.outq := rfl
@[simp] theorem Zs32.dropClaims_line_inq (s : StationNo) (zones : ZoneSet) (z : Zs32) :
    (Zs32.dropClaims s zones z).line.inq = z.line.inq := rfl
@[simp] theorem Zs32.dropClaims_line_fails (s : StationNo) (zones : ZoneSet) (z : Zs32) :
    (Zs32.dropClaims s zones z).line.fails = z.line.fails := rfl
@[simp] theorem Zs32.dropClaims_line_vetoSeen (s : StationNo) (zones : ZoneSet) (z : Zs32) :
    (Zs32.dropClaims s zones z).line.vetoSeen = z.line.vetoSeen := rfl
@[simp] theorem Zs32.dropClaims_line_vetoCount (s : StationNo) (zones : ZoneSet) (z : Zs32) :
    (Zs32.dropClaims s zones z).line.vetoCount = z.line.vetoCount := rfl
@[simp] theorem Zs32.dropClaims_line_receiver (s : StationNo) (zones : ZoneSet) (z : Zs32) :
    (Zs32.dropClaims s zones z).line.receiver = z.line.receiver := rfl
@[simp] theorem Zs32.dropClaims_line_gapBits (s : StationNo) (zones : ZoneSet) (z : Zs32) :
    (Zs32.dropClaims s zones z).line.gapBits = z.line.gapBits := rfl
@[simp] theorem Zs32.dropClaims_line_halt (s : StationNo) (zones : ZoneSet) (z : Zs32) :
    (Zs32.dropClaims s zones z).line.halt = z.line.halt := rfl
@[simp] theorem Zs32.dropClaims_line_attempt (s : StationNo) (zones : ZoneSet) (z : Zs32) :
    (Zs32.dropClaims s zones z).line.attempt = z.line.attempt := rfl
@[simp] theorem Zs32.dropClaims_line_reception (s : StationNo) (zones : ZoneSet) (z : Zs32) :
    (Zs32.dropClaims s zones z).line.reception = z.line.reception := rfl
@[simp] theorem Zs32.dropClaims_memb_state (s : StationNo) (zones : ZoneSet) (z : Zs32) :
    (Zs32.dropClaims s zones z).memb.state = z.memb.state := rfl
@[simp] theorem Zs32.dropClaims_memb_roster (s : StationNo) (zones : ZoneSet) (z : Zs32) :
    (Zs32.dropClaims s zones z).memb.roster = z.memb.roster := rfl
@[simp] theorem Zs32.dropClaims_memb_presenceTimer (s : StationNo) (zones : ZoneSet) (z : Zs32) :
    (Zs32.dropClaims s zones z).memb.presenceTimer = z.memb.presenceTimer := rfl
@[simp] theorem Zs32.dropClaims_memb_presenceQueued (s : StationNo) (zones : ZoneSet) (z : Zs32) :
    (Zs32.dropClaims s zones z).memb.presenceQueued = z.memb.presenceQueued := rfl
@[simp] theorem Zs32.dropClaims_memb_presenceHeld (s : StationNo) (zones : ZoneSet) (z : Zs32) :
    (Zs32.dropClaims s zones z).memb.presenceHeld = z.memb.presenceHeld := rfl
@[simp] theorem Zs32.dropClaims_memb_joinWindow (s : StationNo) (zones : ZoneSet) (z : Zs32) :
    (Zs32.dropClaims s zones z).memb.joinWindow = z.memb.joinWindow := rfl
@[simp] theorem Zs32.dropClaims_memb_evictQueued (s : StationNo) (zones : ZoneSet) (z : Zs32) :
    (Zs32.dropClaims s zones z).memb.evictQueued = z.memb.evictQueued := rfl
@[simp] theorem Zs32.dropClaims_memb_evictHeld (s : StationNo) (zones : ZoneSet) (z : Zs32) :
    (Zs32.dropClaims s zones z).memb.evictHeld = z.memb.evictHeld := rfl
@[simp] theorem Zs32.dropClaims_memb_restateRun (s : StationNo) (zones : ZoneSet) (z : Zs32) :
    (Zs32.dropClaims s zones z).memb.restateRun = z.memb.restateRun := rfl
@[simp] theorem Zs32.dropClaims_memb_cursor (s : StationNo) (zones : ZoneSet) (z : Zs32) :
    (Zs32.dropClaims s zones z).memb.cursor = z.memb.cursor := rfl
@[simp] theorem Zs32.dropClaims_memb_disagreement (s : StationNo) (zones : ZoneSet) (z : Zs32) :
    (Zs32.dropClaims s zones z).memb.disagreement = z.memb.disagreement := rfl
@[simp] theorem Zs32.dropClaims_port_phase (s : StationNo) (zones : ZoneSet) (z : Zs32) :
    (Zs32.dropClaims s zones z).port.phase = z.port.phase := rfl
@[simp] theorem Zs32.dropClaims_port_cmdBuf (s : StationNo) (zones : ZoneSet) (z : Zs32) :
    (Zs32.dropClaims s zones z).port.cmdBuf = z.port.cmdBuf := rfl
@[simp] theorem Zs32.dropClaims_port_resBuf (s : StationNo) (zones : ZoneSet) (z : Zs32) :
    (Zs32.dropClaims s zones z).port.resBuf = z.port.resBuf := rfl
@[simp] theorem Zs32.dropClaims_port_readPos (s : StationNo) (zones : ZoneSet) (z : Zs32) :
    (Zs32.dropClaims s zones z).port.readPos = z.port.readPos := rfl
@[simp] theorem Zs32.dropClaims_port_firstByte (s : StationNo) (zones : ZoneSet) (z : Zs32) :
    (Zs32.dropClaims s zones z).port.firstByte = z.port.firstByte := rfl
@[simp] theorem Zs32.dropClaims_port_refused (s : StationNo) (zones : ZoneSet) (z : Zs32) :
    (Zs32.dropClaims s zones z).port.refused = z.port.refused := rfl
@[simp] theorem Zs32.dropClaims_port_cmd (s : StationNo) (zones : ZoneSet) (z : Zs32) :
    (Zs32.dropClaims s zones z).port.cmd = z.port.cmd := rfl
@[simp] theorem Zs32.dropClaims_port_transaction (s : StationNo) (zones : ZoneSet) (z : Zs32) :
    (Zs32.dropClaims s zones z).port.transaction = z.port.transaction := rfl
@[simp] theorem Zs32.dropClaims_port_sdo (s : StationNo) (zones : ZoneSet) (z : Zs32) :
    (Zs32.dropClaims s zones z).port.sdo = z.port.sdo := rfl
@[simp] theorem Zs32.placeLeads_line_outq (changes : Vector ZoneChange 32) (zones : ZoneSet) (z : Zs32) :
    (Zs32.placeLeads changes zones z).line.outq = z.line.outq := rfl
@[simp] theorem Zs32.placeLeads_line_inq (changes : Vector ZoneChange 32) (zones : ZoneSet) (z : Zs32) :
    (Zs32.placeLeads changes zones z).line.inq = z.line.inq := rfl
@[simp] theorem Zs32.placeLeads_line_fails (changes : Vector ZoneChange 32) (zones : ZoneSet) (z : Zs32) :
    (Zs32.placeLeads changes zones z).line.fails = z.line.fails := rfl
@[simp] theorem Zs32.placeLeads_line_vetoSeen (changes : Vector ZoneChange 32) (zones : ZoneSet) (z : Zs32) :
    (Zs32.placeLeads changes zones z).line.vetoSeen = z.line.vetoSeen := rfl
@[simp] theorem Zs32.placeLeads_line_vetoCount (changes : Vector ZoneChange 32) (zones : ZoneSet) (z : Zs32) :
    (Zs32.placeLeads changes zones z).line.vetoCount = z.line.vetoCount := rfl
@[simp] theorem Zs32.placeLeads_line_receiver (changes : Vector ZoneChange 32) (zones : ZoneSet) (z : Zs32) :
    (Zs32.placeLeads changes zones z).line.receiver = z.line.receiver := rfl
@[simp] theorem Zs32.placeLeads_line_gapBits (changes : Vector ZoneChange 32) (zones : ZoneSet) (z : Zs32) :
    (Zs32.placeLeads changes zones z).line.gapBits = z.line.gapBits := rfl
@[simp] theorem Zs32.placeLeads_line_halt (changes : Vector ZoneChange 32) (zones : ZoneSet) (z : Zs32) :
    (Zs32.placeLeads changes zones z).line.halt = z.line.halt := rfl
@[simp] theorem Zs32.placeLeads_line_attempt (changes : Vector ZoneChange 32) (zones : ZoneSet) (z : Zs32) :
    (Zs32.placeLeads changes zones z).line.attempt = z.line.attempt := rfl
@[simp] theorem Zs32.placeLeads_line_reception (changes : Vector ZoneChange 32) (zones : ZoneSet) (z : Zs32) :
    (Zs32.placeLeads changes zones z).line.reception = z.line.reception := rfl
@[simp] theorem Zs32.placeLeads_memb_state (changes : Vector ZoneChange 32) (zones : ZoneSet) (z : Zs32) :
    (Zs32.placeLeads changes zones z).memb.state = z.memb.state := rfl
@[simp] theorem Zs32.placeLeads_memb_roster (changes : Vector ZoneChange 32) (zones : ZoneSet) (z : Zs32) :
    (Zs32.placeLeads changes zones z).memb.roster = z.memb.roster := rfl
@[simp] theorem Zs32.placeLeads_memb_presenceTimer (changes : Vector ZoneChange 32) (zones : ZoneSet) (z : Zs32) :
    (Zs32.placeLeads changes zones z).memb.presenceTimer = z.memb.presenceTimer := rfl
@[simp] theorem Zs32.placeLeads_memb_presenceQueued (changes : Vector ZoneChange 32) (zones : ZoneSet) (z : Zs32) :
    (Zs32.placeLeads changes zones z).memb.presenceQueued = z.memb.presenceQueued := rfl
@[simp] theorem Zs32.placeLeads_memb_presenceHeld (changes : Vector ZoneChange 32) (zones : ZoneSet) (z : Zs32) :
    (Zs32.placeLeads changes zones z).memb.presenceHeld = z.memb.presenceHeld := rfl
@[simp] theorem Zs32.placeLeads_memb_joinWindow (changes : Vector ZoneChange 32) (zones : ZoneSet) (z : Zs32) :
    (Zs32.placeLeads changes zones z).memb.joinWindow = z.memb.joinWindow := rfl
@[simp] theorem Zs32.placeLeads_memb_evictQueued (changes : Vector ZoneChange 32) (zones : ZoneSet) (z : Zs32) :
    (Zs32.placeLeads changes zones z).memb.evictQueued = z.memb.evictQueued := rfl
@[simp] theorem Zs32.placeLeads_memb_evictHeld (changes : Vector ZoneChange 32) (zones : ZoneSet) (z : Zs32) :
    (Zs32.placeLeads changes zones z).memb.evictHeld = z.memb.evictHeld := rfl
@[simp] theorem Zs32.placeLeads_memb_restateRun (changes : Vector ZoneChange 32) (zones : ZoneSet) (z : Zs32) :
    (Zs32.placeLeads changes zones z).memb.restateRun = z.memb.restateRun := rfl
@[simp] theorem Zs32.placeLeads_memb_cursor (changes : Vector ZoneChange 32) (zones : ZoneSet) (z : Zs32) :
    (Zs32.placeLeads changes zones z).memb.cursor = z.memb.cursor := rfl
@[simp] theorem Zs32.placeLeads_memb_disagreement (changes : Vector ZoneChange 32) (zones : ZoneSet) (z : Zs32) :
    (Zs32.placeLeads changes zones z).memb.disagreement = z.memb.disagreement := rfl
@[simp] theorem Zs32.placeLeads_port_phase (changes : Vector ZoneChange 32) (zones : ZoneSet) (z : Zs32) :
    (Zs32.placeLeads changes zones z).port.phase = z.port.phase := rfl
@[simp] theorem Zs32.placeLeads_port_cmdBuf (changes : Vector ZoneChange 32) (zones : ZoneSet) (z : Zs32) :
    (Zs32.placeLeads changes zones z).port.cmdBuf = z.port.cmdBuf := rfl
@[simp] theorem Zs32.placeLeads_port_resBuf (changes : Vector ZoneChange 32) (zones : ZoneSet) (z : Zs32) :
    (Zs32.placeLeads changes zones z).port.resBuf = z.port.resBuf := rfl
@[simp] theorem Zs32.placeLeads_port_readPos (changes : Vector ZoneChange 32) (zones : ZoneSet) (z : Zs32) :
    (Zs32.placeLeads changes zones z).port.readPos = z.port.readPos := rfl
@[simp] theorem Zs32.placeLeads_port_firstByte (changes : Vector ZoneChange 32) (zones : ZoneSet) (z : Zs32) :
    (Zs32.placeLeads changes zones z).port.firstByte = z.port.firstByte := rfl
@[simp] theorem Zs32.placeLeads_port_refused (changes : Vector ZoneChange 32) (zones : ZoneSet) (z : Zs32) :
    (Zs32.placeLeads changes zones z).port.refused = z.port.refused := rfl
@[simp] theorem Zs32.placeLeads_port_cmd (changes : Vector ZoneChange 32) (zones : ZoneSet) (z : Zs32) :
    (Zs32.placeLeads changes zones z).port.cmd = z.port.cmd := rfl
@[simp] theorem Zs32.placeLeads_port_transaction (changes : Vector ZoneChange 32) (zones : ZoneSet) (z : Zs32) :
    (Zs32.placeLeads changes zones z).port.transaction = z.port.transaction := rfl
@[simp] theorem Zs32.placeLeads_port_sdo (changes : Vector ZoneChange 32) (zones : ZoneSet) (z : Zs32) :
    (Zs32.placeLeads changes zones z).port.sdo = z.port.sdo := rfl
@[simp] theorem Zs32.presenceAging_line_inq  (z : Zs32) :
    (Zs32.presenceAging z).line.inq = z.line.inq := rfl
@[simp] theorem Zs32.presenceAging_line_fails  (z : Zs32) :
    (Zs32.presenceAging z).line.fails = z.line.fails := rfl
@[simp] theorem Zs32.presenceAging_line_vetoSeen  (z : Zs32) :
    (Zs32.presenceAging z).line.vetoSeen = z.line.vetoSeen := rfl
@[simp] theorem Zs32.presenceAging_line_vetoCount  (z : Zs32) :
    (Zs32.presenceAging z).line.vetoCount = z.line.vetoCount := rfl
@[simp] theorem Zs32.presenceAging_line_receiver  (z : Zs32) :
    (Zs32.presenceAging z).line.receiver = z.line.receiver := rfl
@[simp] theorem Zs32.presenceAging_line_gapBits  (z : Zs32) :
    (Zs32.presenceAging z).line.gapBits = z.line.gapBits := rfl
@[simp] theorem Zs32.presenceAging_line_halt  (z : Zs32) :
    (Zs32.presenceAging z).line.halt = z.line.halt := rfl
@[simp] theorem Zs32.presenceAging_line_attempt  (z : Zs32) :
    (Zs32.presenceAging z).line.attempt = z.line.attempt := rfl
@[simp] theorem Zs32.presenceAging_line_reception  (z : Zs32) :
    (Zs32.presenceAging z).line.reception = z.line.reception := rfl
@[simp] theorem Zs32.startSilence_memb_state  (z : Zs32) :
    (Zs32.startSilence z).memb.state = z.memb.state := rfl
@[simp] theorem Zs32.startSilence_memb_presenceTimer  (z : Zs32) :
    (Zs32.startSilence z).memb.presenceTimer = z.memb.presenceTimer := rfl
@[simp] theorem Zs32.startSilence_memb_presenceQueued  (z : Zs32) :
    (Zs32.startSilence z).memb.presenceQueued = z.memb.presenceQueued := rfl
@[simp] theorem Zs32.startSilence_memb_presenceHeld  (z : Zs32) :
    (Zs32.startSilence z).memb.presenceHeld = z.memb.presenceHeld := rfl
@[simp] theorem Zs32.startSilence_memb_joinWindow  (z : Zs32) :
    (Zs32.startSilence z).memb.joinWindow = z.memb.joinWindow := rfl
@[simp] theorem Zs32.startSilence_memb_evictQueued  (z : Zs32) :
    (Zs32.startSilence z).memb.evictQueued = z.memb.evictQueued := rfl
@[simp] theorem Zs32.startSilence_memb_evictHeld  (z : Zs32) :
    (Zs32.startSilence z).memb.evictHeld = z.memb.evictHeld := rfl
@[simp] theorem Zs32.startSilence_memb_restateRun  (z : Zs32) :
    (Zs32.startSilence z).memb.restateRun = z.memb.restateRun := rfl
@[simp] theorem Zs32.startSilence_memb_cursor  (z : Zs32) :
    (Zs32.startSilence z).memb.cursor = z.memb.cursor := rfl
@[simp] theorem Zs32.startSilence_memb_disagreement  (z : Zs32) :
    (Zs32.startSilence z).memb.disagreement = z.memb.disagreement := rfl

/-! ### What is written -/

@[simp] theorem Zs32.log_notices (n : Notice) (z : Zs32) : (z.log n).notices = z.notices.log n := rfl
@[simp] theorem Zs32.formResult_port (r : Result) (z : Zs32) : (z.formResult r).port = { z.port with
    phase := .result, cmdBuf := [], resBuf := r.bytes, readPos := 0, firstByte := false, cmd := none } := rfl
@[simp] theorem Zs32.setStage_port_cmd (st : Stage) (z : Zs32) :
    (z.setStage st).port.cmd = z.port.cmd.map fun c => { c with stage := st } := rfl
@[simp] theorem Zs32.enqueue_outq (p : Placed) (o : Origin) (z : Zs32) : (z.enqueue p o).line.outq =
    z.line.outq ++ [{ placed := p, origin := o, placedAt := z.clock, aged := false }] := rfl
@[simp] theorem Zs32.dropHead_line (z : Zs32) :
    z.dropHead.line = { z.line with outq := z.line.outq.tail, fails := 0, vetoSeen := false } := rfl
@[simp] theorem Zs32.onInput_source (i : Input) (f : InputRec → InputRec) (z : Zs32) :
    (z.onInput i f).source = z.source.set i (f (z.source.get i)) := rfl
@[simp] theorem Zs32.tableClear_outq (z : Zs32) : z.tableClear.line.outq = [] := rfl
@[simp] theorem Zs32.tableClear_inq (z : Zs32) : z.tableClear.line.inq = [] := rfl
@[simp] theorem Zs32.tableClear_fails (z : Zs32) : z.tableClear.line.fails = 0 := rfl
@[simp] theorem Zs32.tableClear_vetoSeen (z : Zs32) : z.tableClear.line.vetoSeen = false := rfl
@[simp] theorem Zs32.tableClear_vetoCount (z : Zs32) : z.tableClear.line.vetoCount = 0 := rfl
@[simp] theorem Zs32.tableClear_halt (z : Zs32) : z.tableClear.line.halt = false := rfl
@[simp] theorem Zs32.tableClear_table (z : Zs32) : z.tableClear.table = ClaimTable.cleared := rfl
@[simp] theorem Zs32.tableClear_memb (z : Zs32) : z.tableClear.memb = Membership.clearedIn z.memb.state := rfl
@[simp] theorem Zs32.tableClear_source (z : Zs32) : z.tableClear.source = Source.cleared := rfl
@[simp] theorem Zs32.tableClear_mixer (z : Zs32) : z.tableClear.mixer = z.mixer.silenced := rfl
@[simp] theorem Zs32.goOff_memb (st : StationState) (z : Zs32) :
    (z.goOff st).memb = { z.memb with state := st } := rfl
@[simp] theorem Zs32.goOff_line (st : StationState) (z : Zs32) : (z.goOff st).line =
    { z.line with receiver := .off, gapBits := 0, attempt := none, reception := none } := rfl
@[simp] theorem Zs32.leaveLine_table (st : StationState) (z : Zs32) :
    (z.leaveLine st).table = ClaimTable.cleared := rfl
@[simp] theorem Zs32.leaveLine_memb (st : StationState) (z : Zs32) :
    (z.leaveLine st).memb = Membership.clearedIn st := rfl
@[simp] theorem Zs32.leaveLine_source (st : StationState) (z : Zs32) :
    (z.leaveLine st).source = Source.cleared := rfl
@[simp] theorem Zs32.leaveLine_mixer (st : StationState) (z : Zs32) : (z.leaveLine st).mixer = z.mixer.silenced := rfl
@[simp] theorem Zs32.leaveLine_line (st : StationState) (z : Zs32) : (z.leaveLine st).line = Line.afterReset := rfl
@[simp] theorem Zs32.addEntry_roster (x : StationNo) (z : Zs32) : (z.addEntry x).memb.roster =
    insertEntry { station := x, interval := none, digest := none
                  silence := if z.memb.state = .joined then .running (silenceMs none) else .stopped }
      z.memb.roster := rfl
@[simp] theorem Zs32.onEntry_roster (x : StationNo) (f : RosterEntry → RosterEntry) (z : Zs32) :
    (z.onEntry x f).memb.roster = z.memb.roster.map fun e => if e.station = x then f e else e := rfl
@[simp] theorem Zs32.eraseEntry_roster (x : StationNo) (z : Zs32) :
    (z.eraseEntry x).memb.roster = z.memb.roster.filter fun e => e.station ≠ x := rfl
@[simp] theorem Zs32.setTables_channels (cs : Vector ChannelRec 16) (ls : Vector (List Claim) 32) (z : Zs32) :
    (z.setTables cs ls).table.channels = cs := rfl
@[simp] theorem Zs32.setTables_zones (cs : Vector ChannelRec 16) (ls : Vector (List Claim) 32) (z : Zs32) :
    (z.setTables cs ls).table.zones = ls := rfl
@[simp] theorem Zs32.setTables_digest (cs : Vector ChannelRec 16) (ls : Vector (List Claim) 32) (z : Zs32) :
    (z.setTables cs ls).table.digest = digestOf cs ls := rfl
@[simp] theorem Zs32.setChannel_channels (c : Channel) (r : ChannelRec) (z : Zs32) :
    (z.setChannel c r).table.channels = z.table.channels.set c r := rfl
@[simp] theorem Zs32.setChannel_digest (c : Channel) (r : ChannelRec) (z : Zs32) :
    (z.setChannel c r).table.digest = digestOf (z.table.channels.set c r) z.table.zones := rfl
@[simp] theorem Zs32.shiftOut_sdo (b : Option Byte) (z : Zs32) : (z.shiftOut b).port.sdo = b := rfl
@[simp] theorem Zs32.refuseByte_refused (z : Zs32) : z.refuseByte.port.refused = true := rfl
@[simp] theorem Zs32.transactionEnd_port (z : Zs32) :
    z.transactionEnd.port = { z.port with transaction := .idle, sdo := none } := rfl
@[simp] theorem Zs32.disregard_port (z : Zs32) :
    z.disregard.port = { z.port with transaction := .disregarded, sdo := none } := rfl
@[simp] theorem Zs32.finishFrame_inq (z : Zs32) : z.finishFrame.line.inq = z.line.inq.tail := rfl
@[simp] theorem Zs32.appendFrame_inq (f : Frame) (m : Option Origin) (z : Zs32) :
    (z.appendFrame f m).line.inq = z.line.inq ++ [{ frame := f, mark := m }] := rfl
@[simp] theorem Zs32.appendFrame_vetoCount (f : Frame) (m : Option Origin) (z : Zs32) :
    (z.appendFrame f m).line.vetoCount = 0 := rfl
@[simp] theorem Zs32.endSlots_line (z : Zs32) : z.endSlots.line =
    { z.line with receiver := .gap, gapBits := 0, attempt := none, reception := none } := rfl

end Sys2Proof.Machine
end

