-- ==== Sys2Proof/Laws/Grants.lean ====
section
/-! SUPPORT. What the grants of free slots (R7) can do: what they leave alone, and what they append. -/

namespace Sys2Proof.Machine

theorem GrantFrame.refl (z : Zs32) : GrantFrame z z := ⟨rfl, rfl, rfl, rfl, rfl, rfl, rfl, rfl, rfl, rfl, rfl, rfl⟩

theorem GrantFrame.trans {a b c : Zs32} (h : GrantFrame a b) (k : GrantFrame b c) : GrantFrame a c := by
  obtain ⟨h1, h2, h3, h4, h5, h6, h7, h8, h9, h10, h11, h12⟩ := h
  obtain ⟨k1, k2, k3, k4, k5, k6, k7, k8, k9, k10, k11, k12⟩ := k
  refine ⟨k1.trans h1, k2.trans h2, k3.trans h3, k4.trans h4, k5.trans h5, k6.trans h6, k7.trans h7,
    k8.trans h8, ?_, ?_, ?_, ?_⟩
  · rw [k9, h9]
  · rw [k10, h10]
  · rw [k11, h11]
  · rw [k12, h12]

/-- Grants bind no input and release none. -/
theorem GrantFrame.inputOf {z u : Zs32} (h : GrantFrame z u) (c : Channel) :
    u.source.inputOf c = z.source.inputOf c := by
  obtain ⟨-, -, -, -, -, -, -, -, -, -, ha, hb⟩ := h
  unfold Source.inputOf
  rw [ha, hb]

/-- Of an input grants change the request alone. -/
theorem GrantFrame.get {z u : Zs32} (h : GrantFrame z u) (i : Input) :
    u.source.get i = { z.source.get i with request := (u.source.get i).request } := by
  obtain ⟨-, -, -, -, -, -, -, -, -, -, ha, hb⟩ := h
  cases i
  · exact ha
  · exact hb

theorem Zs32.grantOne_frame {z z' : Zs32} (h : z.grantOne = some z') : GrantFrame z z' := by
  unfold Zs32.grantOne at h
  repeat' split at h
  all_goals cases h
  all_goals refine ⟨rfl, rfl, rfl, rfl, rfl, rfl, rfl, rfl, rfl, ?_, ?_, ?_⟩
  all_goals rfl

theorem Zs32.grantUpTo_frame (n : Nat) : ∀ z : Zs32, GrantFrame z (z.grantUpTo n) := by
  induction n with
  | zero => exact GrantFrame.refl
  | succ n ih =>
    intro z
    rw [Zs32.grantUpTo]
    split
    · exact GrantFrame.refl z
    · next z' h => exact (Zs32.grantOne_frame h).trans (ih z')

/-- What grants leave alone (R7). -/
theorem Zs32.grants_frame (z : Zs32) : GrantFrame z z.grants := Zs32.grantUpTo_frame 9 z

/-- With nothing held and the generator at rest, grants change nothing (R7). -/
theorem Zs32.grants_of_nothingHeld {z : Zs32} (h : z.NothingHeld) : z.grants = z := by
  obtain ⟨hp, he, ha, hb, hr⟩ := h
  have one : z.grantOne = none := by
    unfold Zs32.grantOne
    split
    · rfl
    · simp only [hp, he, hr, Bool.false_eq_true, if_false]
      cases h1 : z.source.inA.request <;> cases h2 : z.source.inB.request <;>
        cases z.source.inA.channel <;> cases z.source.inB.channel <;> simp_all
  simp [Zs32.grants, Zs32.grantUpTo, one]

@[simp] theorem Zs32.grants_rst (z : Zs32) : z.grants.rst = z.rst := z.grants_frame.1
@[simp] theorem Zs32.grants_clock (z : Zs32) : z.grants.clock = z.clock := z.grants_frame.2.1
@[simp] theorem Zs32.grants_setup (z : Zs32) : z.grants.setup = z.setup := z.grants_frame.2.2.1
@[simp] theorem Zs32.grants_table (z : Zs32) : z.grants.table = z.table := z.grants_frame.2.2.2.1
@[simp] theorem Zs32.grants_mixer (z : Zs32) : z.grants.mixer = z.mixer := z.grants_frame.2.2.2.2.1
@[simp] theorem Zs32.grants_audio (z : Zs32) : z.grants.audio = z.audio := z.grants_frame.2.2.2.2.2.1
@[simp] theorem Zs32.grants_port (z : Zs32) : z.grants.port = z.port := z.grants_frame.2.2.2.2.2.2.1
@[simp] theorem Zs32.grants_notices (z : Zs32) : z.grants.notices = z.notices :=
  z.grants_frame.2.2.2.2.2.2.2.1
theorem Zs32.grants_line (z : Zs32) : z.grants.line = { z.line with outq := z.grants.line.outq } :=
  z.grants_frame.2.2.2.2.2.2.2.2.1
theorem Zs32.grants_memb (z : Zs32) : z.grants.memb = { z.memb with
    presenceQueued := z.grants.memb.presenceQueued, presenceHeld := z.grants.memb.presenceHeld
    evictQueued := z.grants.memb.evictQueued, evictHeld := z.grants.memb.evictHeld
    restateRun := z.grants.memb.restateRun, cursor := z.grants.memb.cursor } :=
  z.grants_frame.2.2.2.2.2.2.2.2.2.1
@[simp] theorem Zs32.grants_inq (z : Zs32) : z.grants.line.inq = z.line.inq := by rw [z.grants_line]
@[simp] theorem Zs32.grants_fails (z : Zs32) : z.grants.line.fails = z.line.fails := by rw [z.grants_line]
@[simp] theorem Zs32.grants_vetoSeen (z : Zs32) : z.grants.line.vetoSeen = z.line.vetoSeen := by
  rw [z.grants_line]
@[simp] theorem Zs32.grants_vetoCount (z : Zs32) : z.grants.line.vetoCount = z.line.vetoCount := by
  rw [z.grants_line]
@[simp] theorem Zs32.grants_receiver (z : Zs32) : z.grants.line.receiver = z.line.receiver := by
  rw [z.grants_line]
@[simp] theorem Zs32.grants_gapBits (z : Zs32) : z.grants.line.gapBits = z.line.gapBits := by rw [z.grants_line]
@[simp] theorem Zs32.grants_halt (z : Zs32) : z.grants.line.halt = z.line.halt := by rw [z.grants_line]
@[simp] theorem Zs32.grants_attempt (z : Zs32) : z.grants.line.attempt = z.line.attempt := by rw [z.grants_line]
@[simp] theorem Zs32.grants_reception (z : Zs32) : z.grants.line.reception = z.line.reception := by
  rw [z.grants_line]
@[simp] theorem Zs32.grants_state (z : Zs32) : z.grants.memb.state = z.memb.state := by rw [z.grants_memb]
@[simp] theorem Zs32.grants_roster (z : Zs32) : z.grants.memb.roster = z.memb.roster := by rw [z.grants_memb]
@[simp] theorem Zs32.grants_presenceTimer (z : Zs32) : z.grants.memb.presenceTimer = z.memb.presenceTimer := by
  rw [z.grants_memb]
@[simp] theorem Zs32.grants_joinWindow (z : Zs32) : z.grants.memb.joinWindow = z.memb.joinWindow := by
  rw [z.grants_memb]
@[simp] theorem Zs32.grants_disagreement (z : Zs32) : z.grants.memb.disagreement = z.memb.disagreement := by
  rw [z.grants_memb]

/-- An entry appended by a grant was not placed by the host. -/
def GrantedTail (z z' : Zs32) : Prop :=
  (∃ g, z'.line.outq = z.line.outq ++ g ∧ ∀ e ∈ g, e.origin ≠ .host) ∧
    (z.line.outq.length ≤ outCapacity → z'.line.outq.length ≤ outCapacity)

theorem GrantedTail.refl (z : Zs32) : GrantedTail z z := ⟨⟨[], by simp, by simp⟩, id⟩

theorem GrantedTail.trans {a b c : Zs32} (h : GrantedTail a b) (k : GrantedTail b c) : GrantedTail a c := by
  obtain ⟨⟨g, hg, hh⟩, hl⟩ := h
  obtain ⟨⟨g', hg', hh'⟩, hl'⟩ := k
  refine ⟨⟨g ++ g', by rw [hg', hg, List.append_assoc], ?_⟩, fun x => hl' (hl x)⟩
  intro e he
  rcases List.mem_append.1 he with h1 | h1
  · exact hh e h1
  · exact hh' e h1

theorem Zs32.grantOne_tail {z z' : Zs32} (h : z.grantOne = some z') : GrantedTail z z' := by
  unfold Zs32.grantOne at h
  split at h
  · cases h
  · next room =>
    have r : z.line.outq.length < outCapacity := by simpa [Zs32.hasRoom] using room
    repeat' split at h
    all_goals cases h
    all_goals first
      | exact ⟨⟨[], by simp, by simp⟩, id⟩
      | exact ⟨⟨[_], rfl, by simp⟩, fun _ => by simp [Zs32.placeAutoClose]; omega⟩

theorem Zs32.grantUpTo_tail (n : Nat) : ∀ z : Zs32, GrantedTail z (z.grantUpTo n) := by
  induction n with
  | zero => exact GrantedTail.refl
  | succ n ih =>
    intro z
    rw [Zs32.grantUpTo]
    split
    · exact GrantedTail.refl z
    · next z' h => exact (Zs32.grantOne_tail h).trans (ih z')

/-- What grants append to the outbound queue, within its bound (R7). -/
theorem Zs32.grants_tail (z : Zs32) : GrantedTail z z.grants := Zs32.grantUpTo_tail 9 z

end Sys2Proof.Machine
end

