-- ==== Sys2Proof/Laws/GrantOrder.lean ====
section
/-! SUPPORT. The order in which the grants hand out free slots (R7), and the sequence of the restate generator (R56):
`Zs32.grants_grantedTo` says everything the grants of one event do to what waits. -/

namespace Sys2Proof.Machine

/-! ### The generator's sequence -/

/-- What a function gives on the numbers from c on, in the order of the list. -/
def fromIndex {n : Nat} {β : Type} (f : Fin n → Option β) (c : Nat) (l : List (Fin n)) : List β :=
  l.filterMap fun k => if c ≤ k.val then f k else none

/-- The first number from c on that gives something heads the sequence, and the numbers after it give the rest. -/
theorem fromIndex_eq {n : Nat} {β : Type} (f : Fin n → Option β) (c : Nat) :
    ∀ l : List (Fin n), l.Pairwise (· < ·) →
      match l.find? fun k => decide (c ≤ k.val) && (f k).isSome with
      | none => fromIndex f c l = []
      | some k => ∃ b, f k = some b ∧ fromIndex f c l = b :: fromIndex f (k.val + 1) l := by
  intro l
  induction l with
  | nil => intro _; rfl
  | cons a t ih =>
    intro hp
    obtain ⟨ha, ht⟩ := List.pairwise_cons.1 hp
    have ih := ih ht
    by_cases h : c ≤ a.val ∧ (f a).isSome
    · obtain ⟨hc, hf⟩ := h
      obtain ⟨b, hb⟩ := Option.isSome_iff_exists.1 hf
      rw [List.find?_cons_of_pos (by simp [hc, hf])]
      refine ⟨b, hb, ?_⟩
      have tail : fromIndex f c t = fromIndex f (a.val + 1) t := by
        refine List.filterMap_congr fun k hk => ?_
        have := ha k hk
        have h1 : c ≤ k.val := by omega
        have h2 : a.val + 1 ≤ k.val := by omega
        simp [h1, h2]
      have head : fromIndex f (a.val + 1) (a :: t) = fromIndex f (a.val + 1) t := by simp [fromIndex]
      rw [head, ← tail]
      simp [fromIndex, hc, hb]
    · have none_a : (if c ≤ a.val then f a else none) = none := by
        split
        · next hc => simpa [hc] using h
        · rfl
      have skip : fromIndex f c (a :: t) = fromIndex f c t := by simp [fromIndex, none_a]
      rw [List.find?_cons_of_neg (by simpa using h), skip]
      split at ih
      · exact ih
      · next k hk =>
        obtain ⟨b, hb, he⟩ := ih
        refine ⟨b, hb, he.trans ?_⟩
        have hak : a.val < k.val := ha k (List.mem_of_find?_eq_some hk)
        have past : ¬ k.val + 1 ≤ a.val := by omega
        rw [show fromIndex f (k.val + 1) (a :: t) = fromIndex f (k.val + 1) t by
          exact List.filterMap_cons_none (if_neg past)]

theorem finRange_sorted (n : Nat) : (List.finRange n).Pairwise (· < ·) := List.pairwise_lt_finRange n

/-- The entry of a restate OPEN of channel k, if this station owns it (R56). -/
def Zs32.openRestate (z : Zs32) (k : Channel) : Option OutEntry :=
  if z.table.channels[k].owner = some z.me then
    some (entryOf (.openCh (some k) ((z.source.inputOf k).getD .a)
      (z.source.get ((z.source.inputOf k).getD .a)).remaining true) .membership z.clock)
  else none

/-- The entry of a restate CLAIM whose tuple has its lowest zone in k (R56). -/
def Zs32.claimRestate (z : Zs32) (k : Zone) : Option OutEntry :=
  if z.lowestOfTuple k then
    (z.ownClaim k).map fun cl =>
      entryOf (.claim cl.channel cl.priority cl.duck cl.chime (z.zonesOfTuple cl) true) .membership z.clock
  else none

theorem Zs32.openRestates_eq (z : Zs32) (c : Nat) :
    z.openRestates c = fromIndex z.openRestate c (List.finRange 16) := by
  refine List.filterMap_congr fun k _ => ?_
  have hi : (if z.source.inA.bound ≠ some k ∧ z.source.inB.bound = some k then Input.b else Input.a) =
      (z.source.inputOf k).getD .a := by
    unfold Source.inputOf
    by_cases h1 : z.source.inA.bound = some k <;> by_cases h2 : z.source.inB.bound = some k <;> simp [h1, h2]
  simp only [hi, Zs32.openRestate, InputRec.remaining, ite_and]
  all_goals rfl

theorem Zs32.claimRestates_eq (z : Zs32) (p : Nat) :
    z.claimRestates p = fromIndex z.claimRestate p (List.finRange 32) := by
  refine List.filterMap_congr fun k _ => ?_
  have hl : z.lowestOfTuple k = true ↔ (z.ownClaim k).isSome ∧ ∀ j : Zone, j < k → z.ownClaim j ≠ z.ownClaim k := by
    simp only [Zs32.lowestOfTuple, Bool.and_eq_true, List.all_eq_true, List.mem_finRange,
      Bool.not_eq_true', Bool.and_eq_false_iff, decide_eq_false_iff_not, imp_iff_not_or, ne_eq, not_true_eq_false, false_or]
  by_cases hp : p ≤ k.val
  · simp only [hp, true_and, if_true, Zs32.claimRestate, hl]
    change (if ∀ j : Zone, j < k → z.ownClaim j ≠ z.ownClaim k then
      (z.ownClaim k).map fun cl => entryOf (.claim cl.channel cl.priority cl.duck cl.chime (z.zonesOfTuple cl) true)
        .membership z.clock else none) = _
    cases z.ownClaim k <;> simp
  · simp [hp]

theorem Zs32.restateClaimFrom_eq (z : Zs32) (p : Nat) :
    match z.restateClaimFrom p with
    | none => z.claimRestates p = []
    | some (placed, cur) =>
      z.claimRestates p = entryOf placed .membership z.clock :: z.restatesFrom cur := by
  have h := fromIndex_eq z.claimRestate p _ (finRange_sorted 32)
  have hs : (fun k : Zone => decide (p ≤ k.val) && (z.claimRestate k).isSome) =
      fun k : Zone => decide (p ≤ k.val) && z.lowestOfTuple k := by
    funext k
    have : (z.claimRestate k).isSome = z.lowestOfTuple k := by
      unfold Zs32.claimRestate
      by_cases hl : z.lowestOfTuple k = true
      · have : (z.ownClaim k).isSome = true := by
          simp only [Zs32.lowestOfTuple, Bool.and_eq_true] at hl
          exact hl.1
        simp [hl, this]
      · simp [hl]
    rw [this]
  rw [hs] at h
  rw [Zs32.claimRestates_eq]
  unfold Zs32.restateClaimFrom
  split at h
  · next hf => rw [hf]; exact h
  · next k hf =>
    obtain ⟨b, hb, he⟩ := h
    rw [hf]
    unfold Zs32.claimRestate at hb
    split at hb
    · cases ho : z.ownClaim k with
      | none => rw [ho] at hb; cases hb
      | some cl =>
        rw [ho] at hb
        cases hb
        simp only [ho, Option.map_some]
        rw [he, Zs32.restatesFrom, Zs32.claimRestates_eq]
    · cases hb

/-- The generator's next frame heads its sequence, and the new cursor gives the rest (R56). -/
theorem Zs32.nextRestate_eq (z : Zs32) :
    match z.nextRestate with
    | none => z.restatesFrom z.memb.cursor = []
    | some (placed, cur) =>
      z.restatesFrom z.memb.cursor = entryOf placed .membership z.clock :: z.restatesFrom cur := by
  unfold Zs32.nextRestate
  cases hc : z.memb.cursor with
  | claimStep p => exact z.restateClaimFrom_eq p
  | openStep c =>
    have h := fromIndex_eq z.openRestate c _ (finRange_sorted 16)
    have hs : (fun k : Channel => decide (c ≤ k.val) && (z.openRestate k).isSome) =
        fun k : Channel => decide (c ≤ k.val) && decide (z.table.channels[k].owner = some z.me) := by
      funext k
      unfold Zs32.openRestate
      by_cases ho : z.table.channels[k].owner = some z.me
      · simp only [ho, if_true, Option.isSome_some, decide_true]
      · simp only [ho, if_false, Option.isSome_none, decide_false]
    rw [hs] at h
    have from_c (n : Nat) : z.restatesFrom (.openStep n) =
        fromIndex z.openRestate n (List.finRange 16) ++ z.claimRestates 0 := by
      rw [Zs32.restatesFrom, Zs32.openRestates_eq]
    rw [from_c]
    simp only [Zs32.ownChannelFrom]
    split at h
    · next hf =>
      simp only [hf, h, List.nil_append]
      exact z.restateClaimFrom_eq 0
    · next k hf =>
      obtain ⟨b, hb, he⟩ := h
      unfold Zs32.openRestate at hb
      split at hb
      · cases hb
        simp only [hf, he, List.cons_append, from_c]
      · cases hb

/-- Grants leave the generator's sequence from a given cursor alone. -/
theorem GrantFrame.restatesFrom {z z' : Zs32} (h : GrantFrame z z') (cur : RestateCursor) :
    z'.restatesFrom cur = z.restatesFrom cur := by
  obtain ⟨-, hclock, hsetup, htable, -, -, -, -, -, -, ha, hb⟩ := h
  have hme : z'.me = z.me := by simp only [Zs32.me, hsetup]
  have bound_a : z'.source.inA.bound = z.source.inA.bound := by rw [ha]
  have bound_b : z'.source.inB.bound = z.source.inB.bound := by rw [hb]
  have timer : ∀ i, (z'.source.get i).timer = (z.source.get i).timer
    | .a => by simp only [Source.get]; rw [ha]
    | .b => by simp only [Source.get]; rw [hb]
  cases cur <;> simp only [Zs32.restatesFrom, Zs32.openRestates, Zs32.claimRestates, hclock, htable, hme, bound_a,
    bound_b, timer]

/-! ### One grant -/

/-- The entry of a held automatic CLOSE. -/
def Zs32.heldClose (z : Zs32) (i : Input) : Option OutEntry :=
  if (z.source.get i).request = .held then
    (z.source.get i).channel.map fun c => entryOf (.close c true) (.source i) z.clock
  else none

theorem Zs32.heldEntries_eq (z : Zs32) : z.heldEntries =
    (if z.memb.presenceHeld then [entryOf .presence .membership z.clock] else []) ++
      z.memb.evictHeld.map (fun x => entryOf (.evict x) .membership z.clock) ++
      ((z.heldClose .a).toList ++ (z.heldClose .b).toList) := by
  have h : [Input.a, Input.b].filterMap z.heldClose = (z.heldClose .a).toList ++ (z.heldClose .b).toList := by
    cases ha : z.heldClose .a <;> cases hb : z.heldClose .b <;> simp [ha, hb]
  rw [← h]
  rfl

theorem Zs32.heldClose_some {z : Zs32} {i : Input} {e : OutEntry} (h : z.heldClose i = some e) :
    ∃ c, (z.source.get i).request = .held ∧ (z.source.get i).channel = some c ∧
      e = entryOf (.close c true) (.source i) z.clock := by
  unfold Zs32.heldClose at h
  split at h
  · next hh =>
    cases hc : (z.source.get i).channel with
    | none => rw [hc] at h; cases h
    | some c => rw [hc] at h; exact ⟨c, hh, rfl, (Option.some.inj h).symm⟩
  · cases h

/-- The grant when neither the PRESENCE nor an EVICT is held (R7). -/
theorem Zs32.grantOne_inputs {z : Zs32} (hr : z.hasRoom = true) (hp : z.memb.presenceHeld = false)
    (he : z.memb.evictHeld = []) :
    (∀ c, z.source.inA.request = .held → z.source.inA.channel = some c → z.grantOne = some (z.placeAutoClose .a c)) ∧
    (∀ c, z.heldClose .a = none → z.source.inB.request = .held → z.source.inB.channel = some c →
      z.grantOne = some (z.placeAutoClose .b c)) ∧
    (z.heldClose .a = none → z.heldClose .b = none → z.grantOne =
      if z.memb.restateRun then
        match z.nextRestate with
        | some (p, cur) =>
          some { z.enqueue p .membership with memb := { z.memb with cursor := cur } }
        | none => some { z with memb := z.memb.stopRestate }
      else none) := by
  refine ⟨fun c h1 h2 => ?_, fun c h1 h2 h3 => ?_, fun h1 h2 => ?_⟩
  · simp [Zs32.grantOne, hr, hp, he, h1, h2]
  · simp only [Zs32.heldClose, Source.get] at h1
    cases ha : z.source.inA.request <;> cases hc : z.source.inA.channel <;>
      simp_all [Zs32.grantOne]
  · simp only [Zs32.heldClose, Source.get] at h1 h2
    cases ha : z.source.inA.request <;> cases hc : z.source.inA.channel <;>
      cases hb : z.source.inB.request <;> cases hd : z.source.inB.channel <;>
      simp_all [Zs32.grantOne, Zs32.enqueue]
    all_goals rfl

/-- What waits first in z was granted as the entry e, which leaves z1: the PRESENCE, the lowest EVICT, an automatic
CLOSE, or the generator's next frame (R7). -/
def FirstGranted (z z1 : Zs32) (e : OutEntry) : Prop :=
      (e.origin = .membership ∧ z.memb.presenceHeld = true ∧ z.heldEntries = e :: z1.heldEntries ∧
      z1.memb = { z.memb with presenceHeld := false, presenceQueued := true } ∧ z1.source = z.source) ∨
    (∃ x rest, e.origin = .membership ∧ z.memb.presenceHeld = false ∧ z.memb.evictHeld = x :: rest ∧
      z.heldEntries = e :: z1.heldEntries ∧
      z1.memb = { z.memb with evictHeld := rest, evictQueued := insertStation x z.memb.evictQueued } ∧
      z1.source = z.source) ∨
    (∃ i, e.origin = .source i ∧ z.memb.presenceHeld = false ∧ z.memb.evictHeld = [] ∧
      z.heldEntries = e :: z1.heldEntries ∧ z1.memb = z.memb ∧
      z1.source = z.source.set i { z.source.get i with request := .queued }) ∨
    (∃ cur, e.origin = .membership ∧ z.memb.presenceHeld = false ∧ z.memb.evictHeld = [] ∧
      z.heldEntries = [] ∧ z1.heldEntries = [] ∧ z.memb.restateRun = true ∧
      z.restatesFrom z.memb.cursor = e :: z.restatesFrom cur ∧
      z1.memb = { z.memb with cursor := cur } ∧ z1.source = z.source)

/-- What one grant does when a slot is free: the first of what waits is appended, and the rest waits on; with nothing
waiting the generator stops (R7, R58). -/
theorem Zs32.grantOne_cases (z : Zs32) (room : z.line.outq.length < 8) :
    (∃ z1 e, z.grantOne = some z1 ∧ z1.line.outq = z.line.outq ++ [e] ∧
      FirstGranted z z1 e) ∨
    (z.waiting = [] ∧ z.memb.presenceHeld = false ∧ z.memb.evictHeld = [] ∧
      ((z.memb.restateRun = false ∧ z.grantOne = none) ∨
        (z.memb.restateRun = true ∧ z.grantOne = some { z with memb := z.memb.stopRestate }))) := by
  unfold FirstGranted
  have hr : z.hasRoom = true := by simp [Zs32.hasRoom, outCapacity, room]
  cases hp : z.memb.presenceHeld with
  | true =>
    refine .inl ⟨{ z.enqueue .presence .membership with
      memb := { z.memb with presenceHeld := false, presenceQueued := true } },
      entryOf .presence .membership z.clock, ?_, rfl, .inl ⟨rfl, rfl, ?_, rfl, rfl⟩⟩
    · simp [Zs32.grantOne, hr, hp, Zs32.enqueue]
    · simp [Zs32.heldEntries_eq, Zs32.heldClose, Zs32.enqueue, hp]
  | false =>
    cases he : z.memb.evictHeld with
    | cons x rest =>
      refine .inl ⟨{ z.enqueue (.evict x) .membership with
        memb := { z.memb with evictHeld := rest, evictQueued := insertStation x z.memb.evictQueued } },
        entryOf (.evict x) .membership z.clock, ?_, rfl, .inr (.inl ⟨x, rest, rfl, rfl, rfl, ?_, rfl, rfl⟩)⟩
      · simp [Zs32.grantOne, hr, hp, he, Zs32.enqueue]
      · simp [Zs32.heldEntries_eq, Zs32.heldClose, Zs32.enqueue, hp, he]
    | nil =>
      obtain ⟨on_a, on_b, on_generator⟩ := Zs32.grantOne_inputs hr hp he
      cases ha : z.heldClose .a with
      | some e =>
        obtain ⟨c, h1, h2, rfl⟩ := Zs32.heldClose_some ha
        refine .inl ⟨z.placeAutoClose .a c, _, on_a c h1 h2, rfl,
          .inr (.inr (.inl ⟨.a, rfl, rfl, rfl, ?_, rfl, rfl⟩))⟩
        have h3 : (z.placeAutoClose .a c).heldClose .a = none := rfl
        have h4 : (z.placeAutoClose .a c).heldClose .b = z.heldClose .b := rfl
        simp [Zs32.heldEntries_eq, ha, h3, h4, hp, he]
        rfl
      | none =>
        cases hb : z.heldClose .b with
        | some e =>
          obtain ⟨c, h1, h2, rfl⟩ := Zs32.heldClose_some hb
          refine .inl ⟨z.placeAutoClose .b c, _, on_b c ha h1 h2, rfl,
            .inr (.inr (.inl ⟨.b, rfl, rfl, rfl, ?_, rfl, rfl⟩))⟩
          have h3 : (z.placeAutoClose .b c).heldClose .a = z.heldClose .a := rfl
          have h4 : (z.placeAutoClose .b c).heldClose .b = none := rfl
          simp [Zs32.heldEntries_eq, ha, hb, h3, h4, hp, he]
          rfl
        | none =>
          have held : z.heldEntries = [] := by simp [Zs32.heldEntries_eq, ha, hb, hp, he]
          have grant := on_generator ha hb
          cases hrun : z.memb.restateRun with
          | false =>
            refine .inr ⟨by simp [Zs32.waiting, held, hrun], rfl, rfl, .inl ⟨rfl, ?_⟩⟩
            rw [grant, hrun]; rfl
          | true =>
            have next := z.nextRestate_eq
            rw [hrun, if_pos rfl] at grant
            split at next
            · next hn =>
              rw [hn] at grant
              exact .inr ⟨by simp [Zs32.waiting, held, hrun, next], rfl, rfl, .inr ⟨rfl, grant⟩⟩
            · next p cur hn =>
              rw [hn] at grant
              refine .inl ⟨_, _, grant, rfl, .inr (.inr (.inr ⟨cur, rfl, rfl, rfl, held, ?_, rfl, next, rfl, rfl⟩))⟩
              exact held

/-! ### All grants of one event -/

theorem mem_insertStation (x y : StationNo) (l : List StationNo) : y ∈ insertStation x l ↔ y = x ∨ y ∈ l := by
  induction l with
  | nil => simp [insertStation]
  | cons a t ih =>
    unfold insertStation
    split
    · simp
    · simp only [List.mem_cons, ih]
      tauto

theorem grantedTo_of_full {z : Zs32} (full : 8 ≤ z.line.outq.length) : GrantedTo z z z.line.outq := by
  have room : 8 - z.line.outq.length = 0 := by omega
  simp only [GrantedTo, room, List.take_zero, List.append_nil, Nat.zero_sub, List.drop_zero, decide_true, ne_eq,
    not_true_eq_false, decide_false, Bool.and_true, Bool.and_false, Bool.or_false, List.not_mem_nil, or_false,
    false_and, exists_false, if_false, Nat.zero_le, and_true, true_and, implies_true]
  exact fun h1 h2 => absurd (h1.symm.trans h2) (by decide)

theorem FirstGranted.waiting {z z1 : Zs32} {e : OutEntry} (h : FirstGranted z z1 e)
    (seq : ∀ cur, z1.restatesFrom cur = z.restatesFrom cur) : z.waiting = e :: z1.waiting := by
  rcases h with ⟨-, -, hh, hm, -⟩ | ⟨x, l, -, -, -, hh, hm, -⟩ | ⟨i, -, -, -, hh, hm, -⟩ |
    ⟨cur, -, -, -, hh, hh1, hrun, hs, hm, -⟩
  · simp only [Zs32.waiting, hh, hm, seq, List.cons_append]
  · simp only [Zs32.waiting, hh, hm, seq, List.cons_append]
  · simp only [Zs32.waiting, hh, hm, seq, List.cons_append]
  · simp only [Zs32.waiting, hh, hh1, hm, hrun, hs, seq, if_true, List.nil_append]

/-- With nothing waiting, grants at most stop the generator (R7, R58). -/
theorem grantedTo_of_idle {z : Zs32} {r n : Nat} (room : z.line.outq.length < 8) (hr : 8 - z.line.outq.length = r + 1)
    (hn : 0 < n) (hw : z.waiting = []) (hp : z.memb.presenceHeld = false) (he : z.memb.evictHeld = [])
    (hrun : (z.memb.restateRun = false ∧ z.grantOne = none) ∨
      (z.memb.restateRun = true ∧ z.grantOne = some { z with memb := z.memb.stopRestate })) :
    GrantedTo z (z.grantUpTo (n + 1)) z.line.outq := by
  have held : z.heldEntries = [] := (List.append_eq_nil_iff.1 hw).1
  rcases hrun with ⟨hrun, h1⟩ | ⟨hrun, h1⟩
  · rw [Zs32.grantUpTo, h1]
    simp [GrantedTo, hw, hp, he, hrun]
  · have stop : Zs32.grantUpTo n { z with memb := z.memb.stopRestate } =
        { z with memb := z.memb.stopRestate } := by
      obtain ⟨m, rfl⟩ : ∃ m, n = m + 1 := ⟨n - 1, by omega⟩
      have h2 : Zs32.grantOne { z with memb := z.memb.stopRestate } = none := by
        rcases Zs32.grantOne_cases { z with memb := z.memb.stopRestate }
          (by change z.line.outq.length < 8; omega) with
          ⟨z1, e, -, -, ⟨-, hp1, -⟩ | ⟨x, l, -, -, he1, -⟩ | ⟨i, -, -, -, hh, -⟩ | ⟨cur, -, -, -, -, -, hr1, -⟩⟩ |
          ⟨-, -, -, ⟨-, h2⟩ | ⟨hr1, -⟩⟩
        · exact absurd (hp1.symm.trans hp) (by decide)
        · exact absurd (he1.symm.trans he) (by simp)
        · exact absurd (hh.symm.trans held) (by simp)
        · exact absurd hr1 (by simp [Membership.stopRestate])
        · exact h2
        · exact absurd hr1 (by simp [Membership.stopRestate])
      rw [Zs32.grantUpTo, h2]
    rw [Zs32.grantUpTo, h1]
    change GrantedTo z (Zs32.grantUpTo n { z with memb := z.memb.stopRestate }) z.line.outq
    rw [stop]
    simp only [GrantedTo, hw, hr, List.take_nil, List.append_nil, hp, he, Membership.stopRestate, List.drop_nil,
      List.not_mem_nil, or_false, false_and, exists_false, if_false, List.length_nil, Bool.false_and,
      Bool.or_false, Bool.false_eq_true, false_implies, implies_true, true_and]
    exact ⟨⟨False.elim, fun h => absurd h.2 (Nat.not_succ_le_zero r)⟩, fun h => absurd (hrun.symm.trans h) (by decide)⟩

set_option maxHeartbeats 800000 in
/-- The first of what waits gets a slot, and the other slots go to the rest (R7). -/
theorem grantedTo_of_first {z z1 z' : Zs32} {e : OutEntry} {r : Nat} (hr : 8 - z.line.outq.length = r + 1)
    (h1 : z.grantOne = some z1) (hq : z1.line.outq = z.line.outq ++ [e])
    (hcase : FirstGranted z z1 e)
    (rest : GrantedTo z1 z' z1.line.outq) : GrantedTo z z' z.line.outq := by
  have hr1 : 8 - z1.line.outq.length = r := by rw [hq, List.length_append, List.length_singleton]; omega
  have frame := Zs32.grantOne_frame h1
  have seq := frame.restatesFrom
  simp only [GrantedTo, hr, hr1] at rest ⊢
  rw [hq, List.append_assoc] at rest
  obtain ⟨q1, q2, q3, q4, q5, q6, q7, q8, q9, q10⟩ := rest
  have waits := hcase.waiting seq
  rw [waits, List.take_succ_cons]
  refine ⟨q1, ?_⟩
  have len : r + 1 ≤ (e :: z1.waiting).length ↔ r ≤ z1.waiting.length := by simp
  rw [len]
  rcases hcase with ⟨ho, hp, hh, hm, hsrc⟩ | ⟨x, l, ho, hp, he, hh, hm, hsrc⟩ | ⟨i, ho, hp, he, hh, hm, hsrc⟩ |
      ⟨cur, ho, hp, he, hh, hh1, hrun, hs, hm, hsrc⟩
  · rw [hm] at q2 q3 q4 q5 q7 q8 q9 q10
    rw [hsrc] at q6
    refine ⟨by simpa [hp] using q2, by simpa [hp] using q3, by simpa [hp] using q4, by simpa [hp] using q5,
      fun i => ?_, q7, fun h => ?_, q9, q10⟩
    · simpa [ho] using q6 i
    · rw [q8 h, seq, hh, List.length_cons, Nat.add_sub_add_right]
  · rw [hm] at q2 q3 q4 q5 q7 q8 q9 q10
    rw [hsrc] at q6
    refine ⟨by simpa [hp] using q2, by simpa [hp] using q3, by simpa [hp, he] using q4, fun y => ?_,
      fun i => ?_, q7, fun h => ?_, q9, q10⟩
    · rw [q5 y, mem_insertStation]
      simp only [hp, he, Bool.false_eq_true, if_false, Nat.sub_zero, List.take_succ_cons, List.mem_cons]
      tauto
    · simpa [ho] using q6 i
    · rw [q8 h, seq, hh, List.length_cons, Nat.add_sub_add_right]
  · rw [hm] at q2 q3 q4 q5 q7 q8 q9 q10
    refine ⟨by simpa [hp] using q2, by simpa [hp] using q3, by simpa [hp, he] using q4,
      by simpa [hp, he] using q5, fun j => ?_, q7, fun h => ?_, q9, q10⟩
    · rw [q6 j, hsrc]
      cases i <;> cases j <;> simp [Source.get, Source.set, ho]
    · rw [q8 h, seq, hh, List.length_cons, Nat.add_sub_add_right]
  · rw [hm] at q2 q3 q4 q5 q7 q8 q9 q10
    rw [hsrc] at q6
    refine ⟨by simpa [hp] using q2, by simpa [hp] using q3, by simpa [hp, he] using q4,
      by simpa [hp, he] using q5, fun i => ?_, q7, fun h => ?_, q9, fun h => absurd (hrun.symm.trans h) (by decide)⟩
    · simpa [ho] using q6 i
    · rw [q8 h, seq, hh1, hh, hs]; rfl

/-- Grants hand the free slots to what waits, in the order of R7, until none is free or nothing waits; `n` exceeds
the number of free slots. -/
theorem Zs32.grantUpTo_grantedTo (n : Nat) : ∀ z : Zs32, 8 - z.line.outq.length < n →
    GrantedTo z (z.grantUpTo n) z.line.outq := by
  induction n with
  | zero => intro z h; omega
  | succ n ih =>
    intro z hn
    by_cases full : 8 ≤ z.line.outq.length
    · have : z.grantOne = none := by
        have hr : z.hasRoom = false := decide_eq_false (by unfold outCapacity; omega)
        simp only [Zs32.grantOne, hr, Bool.not_false, if_true]
      rw [Zs32.grantUpTo, this]
      exact grantedTo_of_full full
    · obtain ⟨r, hr⟩ : ∃ r, 8 - z.line.outq.length = r + 1 := ⟨7 - z.line.outq.length, by omega⟩
      rcases z.grantOne_cases (by omega) with ⟨z1, e, h1, hq, hcase⟩ | ⟨hw, hp, he, hrun⟩
      · rw [Zs32.grantUpTo, h1]
        refine grantedTo_of_first hr h1 hq hcase (ih z1 ?_)
        rw [hq, List.length_append, List.length_singleton]
        omega
      · exact grantedTo_of_idle (by omega) hr (by omega) hw hp he hrun

/-- What the grants of one event do (R7). -/
theorem Zs32.grants_grantedTo (z : Zs32) : GrantedTo z z.grants z.line.outq :=
  Zs32.grantUpTo_grantedTo 9 z (by omega)

end Sys2Proof.Machine
end

