-- ==== Sys2Proof/Laws/Ops.lean ====
section
/-! SUPPORT. What the shared operations with cases can do: the fields each leaves alone, the ends of commands, rejoin
and clash, the end of an ownership, purge, the notice log, the shared tables. -/

namespace Sys2Proof.Machine

set_option linter.unusedTactic false
set_option linter.unnecessarySeqFocus false
set_option linter.unreachableTactic false

/-! ### Fields left alone -/

@[simp] theorem Zs32.removeClaimsOf_rst (x : StationNo) (z : Zs32) :
    (Zs32.removeClaimsOf x z).rst = z.rst := by unfold Zs32.removeClaimsOf; (repeat' split) <;> simp
@[simp] theorem Zs32.removeClaimsOf_clock (x : StationNo) (z : Zs32) :
    (Zs32.removeClaimsOf x z).clock = z.clock := by unfold Zs32.removeClaimsOf; (repeat' split) <;> simp
@[simp] theorem Zs32.removeClaimsOf_setup (x : StationNo) (z : Zs32) :
    (Zs32.removeClaimsOf x z).setup = z.setup := by unfold Zs32.removeClaimsOf; (repeat' split) <;> simp
@[simp] theorem Zs32.removeClaimsOf_line (x : StationNo) (z : Zs32) :
    (Zs32.removeClaimsOf x z).line = z.line := by unfold Zs32.removeClaimsOf; (repeat' split) <;> simp
@[simp] theorem Zs32.removeClaimsOf_memb (x : StationNo) (z : Zs32) :
    (Zs32.removeClaimsOf x z).memb = z.memb := by unfold Zs32.removeClaimsOf; (repeat' split) <;> simp
@[simp] theorem Zs32.removeClaimsOf_source (x : StationNo) (z : Zs32) :
    (Zs32.removeClaimsOf x z).source = z.source := by unfold Zs32.removeClaimsOf; (repeat' split) <;> simp
@[simp] theorem Zs32.removeClaimsOf_mixer (x : StationNo) (z : Zs32) :
    (Zs32.removeClaimsOf x z).mixer = z.mixer := by unfold Zs32.removeClaimsOf; (repeat' split) <;> simp
@[simp] theorem Zs32.removeClaimsOf_audio (x : StationNo) (z : Zs32) :
    (Zs32.removeClaimsOf x z).audio = z.audio := by unfold Zs32.removeClaimsOf; (repeat' split) <;> simp
@[simp] theorem Zs32.removeClaimsOf_port (x : StationNo) (z : Zs32) :
    (Zs32.removeClaimsOf x z).port = z.port := by unfold Zs32.removeClaimsOf; (repeat' split) <;> simp
@[simp] theorem Zs32.removeClaimsOf_notices (x : StationNo) (z : Zs32) :
    (Zs32.removeClaimsOf x z).notices = z.notices := by unfold Zs32.removeClaimsOf; (repeat' split) <;> simp
@[simp] theorem Zs32.removeClaimsOf_table_channels (x : StationNo) (z : Zs32) :
    (Zs32.removeClaimsOf x z).table.channels = z.table.channels := by unfold Zs32.removeClaimsOf; (repeat' split) <;> simp
@[simp] theorem Zs32.applyClaims_line_inq (cl : Claim) (zones : ZoneSet) (own : Bool) (z : Zs32) :
    (Zs32.applyClaims cl zones own z).line.inq = z.line.inq := by unfold Zs32.applyClaims; (repeat' split) <;> rfl
@[simp] theorem Zs32.applyClaims_line_receiver (cl : Claim) (zones : ZoneSet) (own : Bool) (z : Zs32) :
    (Zs32.applyClaims cl zones own z).line.receiver = z.line.receiver := by unfold Zs32.applyClaims; (repeat' split) <;> rfl
@[simp] theorem Zs32.applyClaims_line_attempt (cl : Claim) (zones : ZoneSet) (own : Bool) (z : Zs32) :
    (Zs32.applyClaims cl zones own z).line.attempt = z.line.attempt := by unfold Zs32.applyClaims; (repeat' split) <;> rfl
@[simp] theorem Zs32.applyClaims_line_reception (cl : Claim) (zones : ZoneSet) (own : Bool) (z : Zs32) :
    (Zs32.applyClaims cl zones own z).line.reception = z.line.reception := by unfold Zs32.applyClaims; (repeat' split) <;> rfl
@[simp] theorem Zs32.applyClaims_memb_state (cl : Claim) (zones : ZoneSet) (own : Bool) (z : Zs32) :
    (Zs32.applyClaims cl zones own z).memb.state = z.memb.state := by unfold Zs32.applyClaims; (repeat' split) <;> rfl
@[simp] theorem Zs32.applyClaims_memb_roster (cl : Claim) (zones : ZoneSet) (own : Bool) (z : Zs32) :
    (Zs32.applyClaims cl zones own z).memb.roster = z.memb.roster := by unfold Zs32.applyClaims; (repeat' split) <;> rfl
@[simp] theorem Zs32.applyClaims_port_transaction (cl : Claim) (zones : ZoneSet) (own : Bool) (z : Zs32) :
    (Zs32.applyClaims cl zones own z).port.transaction = z.port.transaction := by unfold Zs32.applyClaims; (repeat' split) <;> rfl
@[simp] theorem Zs32.applyClaims_port_sdo (cl : Claim) (zones : ZoneSet) (own : Bool) (z : Zs32) :
    (Zs32.applyClaims cl zones own z).port.sdo = z.port.sdo := by unfold Zs32.applyClaims; (repeat' split) <;> rfl
@[simp] theorem Zs32.applyClaims_port_refused (cl : Claim) (zones : ZoneSet) (own : Bool) (z : Zs32) :
    (Zs32.applyClaims cl zones own z).port.refused = z.port.refused := by unfold Zs32.applyClaims; (repeat' split) <;> rfl
@[simp] theorem Zs32.dropClaims_rst (s : StationNo) (zones : ZoneSet) (z : Zs32) :
    (Zs32.dropClaims s zones z).rst = z.rst := by unfold Zs32.dropClaims; (repeat' split) <;> simp
@[simp] theorem Zs32.dropClaims_clock (s : StationNo) (zones : ZoneSet) (z : Zs32) :
    (Zs32.dropClaims s zones z).clock = z.clock := by unfold Zs32.dropClaims; (repeat' split) <;> simp
@[simp] theorem Zs32.dropClaims_setup (s : StationNo) (zones : ZoneSet) (z : Zs32) :
    (Zs32.dropClaims s zones z).setup = z.setup := by unfold Zs32.dropClaims; (repeat' split) <;> simp
@[simp] theorem Zs32.dropClaims_line (s : StationNo) (zones : ZoneSet) (z : Zs32) :
    (Zs32.dropClaims s zones z).line = z.line := by unfold Zs32.dropClaims; (repeat' split) <;> simp
@[simp] theorem Zs32.dropClaims_memb (s : StationNo) (zones : ZoneSet) (z : Zs32) :
    (Zs32.dropClaims s zones z).memb = z.memb := by unfold Zs32.dropClaims; (repeat' split) <;> simp
@[simp] theorem Zs32.dropClaims_source (s : StationNo) (zones : ZoneSet) (z : Zs32) :
    (Zs32.dropClaims s zones z).source = z.source := by unfold Zs32.dropClaims; (repeat' split) <;> simp
@[simp] theorem Zs32.dropClaims_mixer (s : StationNo) (zones : ZoneSet) (z : Zs32) :
    (Zs32.dropClaims s zones z).mixer = z.mixer := by unfold Zs32.dropClaims; (repeat' split) <;> simp
@[simp] theorem Zs32.dropClaims_audio (s : StationNo) (zones : ZoneSet) (z : Zs32) :
    (Zs32.dropClaims s zones z).audio = z.audio := by unfold Zs32.dropClaims; (repeat' split) <;> simp
@[simp] theorem Zs32.dropClaims_port (s : StationNo) (zones : ZoneSet) (z : Zs32) :
    (Zs32.dropClaims s zones z).port = z.port := by unfold Zs32.dropClaims; (repeat' split) <;> simp
@[simp] theorem Zs32.dropClaims_notices (s : StationNo) (zones : ZoneSet) (z : Zs32) :
    (Zs32.dropClaims s zones z).notices = z.notices := by unfold Zs32.dropClaims; (repeat' split) <;> simp
@[simp] theorem Zs32.dropClaims_table_channels (s : StationNo) (zones : ZoneSet) (z : Zs32) :
    (Zs32.dropClaims s zones z).table.channels = z.table.channels := by unfold Zs32.dropClaims; (repeat' split) <;> simp
@[simp] theorem Zs32.placeLeads_rst (changes : Vector ZoneChange 32) (zones : ZoneSet) (z : Zs32) :
    (Zs32.placeLeads changes zones z).rst = z.rst := by unfold Zs32.placeLeads; (repeat' split) <;> simp
@[simp] theorem Zs32.placeLeads_clock (changes : Vector ZoneChange 32) (zones : ZoneSet) (z : Zs32) :
    (Zs32.placeLeads changes zones z).clock = z.clock := by unfold Zs32.placeLeads; (repeat' split) <;> simp
@[simp] theorem Zs32.placeLeads_setup (changes : Vector ZoneChange 32) (zones : ZoneSet) (z : Zs32) :
    (Zs32.placeLeads changes zones z).setup = z.setup := by unfold Zs32.placeLeads; (repeat' split) <;> simp
@[simp] theorem Zs32.placeLeads_line (changes : Vector ZoneChange 32) (zones : ZoneSet) (z : Zs32) :
    (Zs32.placeLeads changes zones z).line = z.line := by unfold Zs32.placeLeads; (repeat' split) <;> simp
@[simp] theorem Zs32.placeLeads_memb (changes : Vector ZoneChange 32) (zones : ZoneSet) (z : Zs32) :
    (Zs32.placeLeads changes zones z).memb = z.memb := by unfold Zs32.placeLeads; (repeat' split) <;> simp
@[simp] theorem Zs32.placeLeads_source (changes : Vector ZoneChange 32) (zones : ZoneSet) (z : Zs32) :
    (Zs32.placeLeads changes zones z).source = z.source := by unfold Zs32.placeLeads; (repeat' split) <;> simp
@[simp] theorem Zs32.placeLeads_mixer (changes : Vector ZoneChange 32) (zones : ZoneSet) (z : Zs32) :
    (Zs32.placeLeads changes zones z).mixer = z.mixer := by unfold Zs32.placeLeads; (repeat' split) <;> simp
@[simp] theorem Zs32.placeLeads_audio (changes : Vector ZoneChange 32) (zones : ZoneSet) (z : Zs32) :
    (Zs32.placeLeads changes zones z).audio = z.audio := by unfold Zs32.placeLeads; (repeat' split) <;> simp
@[simp] theorem Zs32.placeLeads_port (changes : Vector ZoneChange 32) (zones : ZoneSet) (z : Zs32) :
    (Zs32.placeLeads changes zones z).port = z.port := by unfold Zs32.placeLeads; (repeat' split) <;> simp
@[simp] theorem Zs32.placeLeads_notices (changes : Vector ZoneChange 32) (zones : ZoneSet) (z : Zs32) :
    (Zs32.placeLeads changes zones z).notices = z.notices := by unfold Zs32.placeLeads; (repeat' split) <;> simp
@[simp] theorem Zs32.placeLeads_table_channels (changes : Vector ZoneChange 32) (zones : ZoneSet) (z : Zs32) :
    (Zs32.placeLeads changes zones z).table.channels = z.table.channels := by unfold Zs32.placeLeads; (repeat' split) <;> simp
@[simp] theorem Zs32.placeLeads_table_zones (changes : Vector ZoneChange 32) (zones : ZoneSet) (z : Zs32) :
    (Zs32.placeLeads changes zones z).table.zones = z.table.zones := by unfold Zs32.placeLeads; (repeat' split) <;> simp
@[simp] theorem Zs32.placeLeads_table_digest (changes : Vector ZoneChange 32) (zones : ZoneSet) (z : Zs32) :
    (Zs32.placeLeads changes zones z).table.digest = z.table.digest := by unfold Zs32.placeLeads; (repeat' split) <;> simp
@[simp] theorem Zs32.haltForEvict_rst  (z : Zs32) :
    (Zs32.haltForEvict z).rst = z.rst := by unfold Zs32.haltForEvict; (repeat' split) <;> simp
@[simp] theorem Zs32.haltForEvict_clock  (z : Zs32) :
    (Zs32.haltForEvict z).clock = z.clock := by unfold Zs32.haltForEvict; (repeat' split) <;> simp
@[simp] theorem Zs32.haltForEvict_setup  (z : Zs32) :
    (Zs32.haltForEvict z).setup = z.setup := by unfold Zs32.haltForEvict; (repeat' split) <;> simp
@[simp] theorem Zs32.haltForEvict_table  (z : Zs32) :
    (Zs32.haltForEvict z).table = z.table := by unfold Zs32.haltForEvict; (repeat' split) <;> simp
@[simp] theorem Zs32.haltForEvict_mixer  (z : Zs32) :
    (Zs32.haltForEvict z).mixer = z.mixer := by unfold Zs32.haltForEvict; (repeat' split) <;> simp
@[simp] theorem Zs32.haltForEvict_audio  (z : Zs32) :
    (Zs32.haltForEvict z).audio = z.audio := by unfold Zs32.haltForEvict; (repeat' split) <;> simp
@[simp] theorem Zs32.haltForEvict_notices  (z : Zs32) :
    (Zs32.haltForEvict z).notices = z.notices := by unfold Zs32.haltForEvict; (repeat' split) <;> simp
@[simp] theorem Zs32.haltForEvict_line_inq  (z : Zs32) :
    (Zs32.haltForEvict z).line.inq = z.line.inq := by unfold Zs32.haltForEvict; (repeat' split) <;> simp
@[simp] theorem Zs32.haltForEvict_line_receiver  (z : Zs32) :
    (Zs32.haltForEvict z).line.receiver = z.line.receiver := by unfold Zs32.haltForEvict; (repeat' split) <;> simp
@[simp] theorem Zs32.haltForEvict_line_reception  (z : Zs32) :
    (Zs32.haltForEvict z).line.reception = z.line.reception := by unfold Zs32.haltForEvict; (repeat' split) <;> simp
@[simp] theorem Zs32.haltForEvict_memb_state  (z : Zs32) :
    (Zs32.haltForEvict z).memb.state = z.memb.state := by unfold Zs32.haltForEvict; (repeat' split) <;> simp
@[simp] theorem Zs32.haltForEvict_memb_roster  (z : Zs32) :
    (Zs32.haltForEvict z).memb.roster = z.memb.roster := by unfold Zs32.haltForEvict; (repeat' split) <;> simp
@[simp] theorem Zs32.haltForEvict_port_transaction  (z : Zs32) :
    (Zs32.haltForEvict z).port.transaction = z.port.transaction := by unfold Zs32.haltForEvict; (repeat' split) <;> simp
@[simp] theorem Zs32.haltForEvict_port_sdo  (z : Zs32) :
    (Zs32.haltForEvict z).port.sdo = z.port.sdo := by unfold Zs32.haltForEvict; (repeat' split) <;> simp
@[simp] theorem Zs32.haltForEvict_port_refused  (z : Zs32) :
    (Zs32.haltForEvict z).port.refused = z.port.refused := by unfold Zs32.haltForEvict; (repeat' split) <;> simp
@[simp] theorem Zs32.failedAttempt_rst (a : Attempt) (veto : Bool) (z : Zs32) :
    (Zs32.failedAttempt a veto z).rst = z.rst := by unfold Zs32.failedAttempt; split <;> simp
@[simp] theorem Zs32.failedAttempt_clock (a : Attempt) (veto : Bool) (z : Zs32) :
    (Zs32.failedAttempt a veto z).clock = z.clock := by unfold Zs32.failedAttempt; split <;> simp
@[simp] theorem Zs32.failedAttempt_setup (a : Attempt) (veto : Bool) (z : Zs32) :
    (Zs32.failedAttempt a veto z).setup = z.setup := by unfold Zs32.failedAttempt; split <;> simp
@[simp] theorem Zs32.failedAttempt_memb (a : Attempt) (veto : Bool) (z : Zs32) :
    (Zs32.failedAttempt a veto z).memb = z.memb := by unfold Zs32.failedAttempt; split <;> simp
@[simp] theorem Zs32.failedAttempt_table (a : Attempt) (veto : Bool) (z : Zs32) :
    (Zs32.failedAttempt a veto z).table = z.table := by unfold Zs32.failedAttempt; split <;> simp
@[simp] theorem Zs32.failedAttempt_source (a : Attempt) (veto : Bool) (z : Zs32) :
    (Zs32.failedAttempt a veto z).source = z.source := by unfold Zs32.failedAttempt; split <;> simp
@[simp] theorem Zs32.failedAttempt_mixer (a : Attempt) (veto : Bool) (z : Zs32) :
    (Zs32.failedAttempt a veto z).mixer = z.mixer := by unfold Zs32.failedAttempt; split <;> simp
@[simp] theorem Zs32.failedAttempt_audio (a : Attempt) (veto : Bool) (z : Zs32) :
    (Zs32.failedAttempt a veto z).audio = z.audio := by unfold Zs32.failedAttempt; split <;> simp
@[simp] theorem Zs32.failedAttempt_notices (a : Attempt) (veto : Bool) (z : Zs32) :
    (Zs32.failedAttempt a veto z).notices = z.notices := by unfold Zs32.failedAttempt; split <;> simp
@[simp] theorem Zs32.failedAttempt_line_inq (a : Attempt) (veto : Bool) (z : Zs32) :
    (Zs32.failedAttempt a veto z).line.inq = z.line.inq := by unfold Zs32.failedAttempt; split <;> simp
@[simp] theorem Zs32.failedAttempt_line_receiver (a : Attempt) (veto : Bool) (z : Zs32) :
    (Zs32.failedAttempt a veto z).line.receiver = z.line.receiver := by unfold Zs32.failedAttempt; split <;> simp
@[simp] theorem Zs32.failedAttempt_line_attempt (a : Attempt) (veto : Bool) (z : Zs32) :
    (Zs32.failedAttempt a veto z).line.attempt = z.line.attempt := by unfold Zs32.failedAttempt; split <;> simp
@[simp] theorem Zs32.failedAttempt_line_reception (a : Attempt) (veto : Bool) (z : Zs32) :
    (Zs32.failedAttempt a veto z).line.reception = z.line.reception := by unfold Zs32.failedAttempt; split <;> simp
@[simp] theorem Zs32.failedAttempt_port_transaction (a : Attempt) (veto : Bool) (z : Zs32) :
    (Zs32.failedAttempt a veto z).port.transaction = z.port.transaction := by unfold Zs32.failedAttempt; split <;> simp
@[simp] theorem Zs32.failedAttempt_port_sdo (a : Attempt) (veto : Bool) (z : Zs32) :
    (Zs32.failedAttempt a veto z).port.sdo = z.port.sdo := by unfold Zs32.failedAttempt; split <;> simp
@[simp] theorem Zs32.failedAttempt_port_refused (a : Attempt) (veto : Bool) (z : Zs32) :
    (Zs32.failedAttempt a veto z).port.refused = z.port.refused := by unfold Zs32.failedAttempt; split <;> simp
@[simp] theorem Zs32.removedEffect_rst (b : FrameBody) (origin : Origin) (z : Zs32) :
    (Zs32.removedEffect b origin z).rst = z.rst := by unfold Zs32.removedEffect; (repeat' split) <;> simp
@[simp] theorem Zs32.removedEffect_clock (b : FrameBody) (origin : Origin) (z : Zs32) :
    (Zs32.removedEffect b origin z).clock = z.clock := by unfold Zs32.removedEffect; (repeat' split) <;> simp
@[simp] theorem Zs32.removedEffect_setup (b : FrameBody) (origin : Origin) (z : Zs32) :
    (Zs32.removedEffect b origin z).setup = z.setup := by unfold Zs32.removedEffect; (repeat' split) <;> simp
@[simp] theorem Zs32.removedEffect_line (b : FrameBody) (origin : Origin) (z : Zs32) :
    (Zs32.removedEffect b origin z).line = z.line := by unfold Zs32.removedEffect; (repeat' split) <;> simp
@[simp] theorem Zs32.removedEffect_table (b : FrameBody) (origin : Origin) (z : Zs32) :
    (Zs32.removedEffect b origin z).table = z.table := by unfold Zs32.removedEffect; (repeat' split) <;> simp
@[simp] theorem Zs32.removedEffect_mixer (b : FrameBody) (origin : Origin) (z : Zs32) :
    (Zs32.removedEffect b origin z).mixer = z.mixer := by unfold Zs32.removedEffect; (repeat' split) <;> simp
@[simp] theorem Zs32.removedEffect_audio (b : FrameBody) (origin : Origin) (z : Zs32) :
    (Zs32.removedEffect b origin z).audio = z.audio := by unfold Zs32.removedEffect; (repeat' split) <;> simp
@[simp] theorem Zs32.removedEffect_port (b : FrameBody) (origin : Origin) (z : Zs32) :
    (Zs32.removedEffect b origin z).port = z.port := by unfold Zs32.removedEffect; (repeat' split) <;> simp
@[simp] theorem Zs32.removedEffect_notices (b : FrameBody) (origin : Origin) (z : Zs32) :
    (Zs32.removedEffect b origin z).notices = z.notices := by unfold Zs32.removedEffect; (repeat' split) <;> simp
@[simp] theorem Zs32.removedEffect_memb_state (b : FrameBody) (origin : Origin) (z : Zs32) :
    (Zs32.removedEffect b origin z).memb.state = z.memb.state := by unfold Zs32.removedEffect; (repeat' split) <;> simp
@[simp] theorem Zs32.removedEffect_memb_roster (b : FrameBody) (origin : Origin) (z : Zs32) :
    (Zs32.removedEffect b origin z).memb.roster = z.memb.roster := by unfold Zs32.removedEffect; (repeat' split) <;> simp
@[simp] theorem Zs32.arbitrationWon_rst (a : Attempt) (z : Zs32) :
    (Zs32.arbitrationWon a z).rst = z.rst := by unfold Zs32.arbitrationWon; split <;> simp
@[simp] theorem Zs32.arbitrationWon_clock (a : Attempt) (z : Zs32) :
    (Zs32.arbitrationWon a z).clock = z.clock := by unfold Zs32.arbitrationWon; split <;> simp
@[simp] theorem Zs32.arbitrationWon_setup (a : Attempt) (z : Zs32) :
    (Zs32.arbitrationWon a z).setup = z.setup := by unfold Zs32.arbitrationWon; split <;> simp
@[simp] theorem Zs32.arbitrationWon_memb (a : Attempt) (z : Zs32) :
    (Zs32.arbitrationWon a z).memb = z.memb := by unfold Zs32.arbitrationWon; split <;> simp
@[simp] theorem Zs32.arbitrationWon_table (a : Attempt) (z : Zs32) :
    (Zs32.arbitrationWon a z).table = z.table := by unfold Zs32.arbitrationWon; split <;> simp
@[simp] theorem Zs32.arbitrationWon_source (a : Attempt) (z : Zs32) :
    (Zs32.arbitrationWon a z).source = z.source := by unfold Zs32.arbitrationWon; split <;> simp
@[simp] theorem Zs32.arbitrationWon_mixer (a : Attempt) (z : Zs32) :
    (Zs32.arbitrationWon a z).mixer = z.mixer := by unfold Zs32.arbitrationWon; split <;> simp
@[simp] theorem Zs32.arbitrationWon_audio (a : Attempt) (z : Zs32) :
    (Zs32.arbitrationWon a z).audio = z.audio := by unfold Zs32.arbitrationWon; split <;> simp
@[simp] theorem Zs32.arbitrationWon_notices (a : Attempt) (z : Zs32) :
    (Zs32.arbitrationWon a z).notices = z.notices := by unfold Zs32.arbitrationWon; split <;> simp
@[simp] theorem Zs32.arbitrationWon_line_inq (a : Attempt) (z : Zs32) :
    (Zs32.arbitrationWon a z).line.inq = z.line.inq := by unfold Zs32.arbitrationWon; split <;> simp
@[simp] theorem Zs32.arbitrationWon_line_receiver (a : Attempt) (z : Zs32) :
    (Zs32.arbitrationWon a z).line.receiver = z.line.receiver := by unfold Zs32.arbitrationWon; split <;> simp
@[simp] theorem Zs32.arbitrationWon_line_reception (a : Attempt) (z : Zs32) :
    (Zs32.arbitrationWon a z).line.reception = z.line.reception := by unfold Zs32.arbitrationWon; split <;> simp
@[simp] theorem Zs32.arbitrationWon_port_transaction (a : Attempt) (z : Zs32) :
    (Zs32.arbitrationWon a z).port.transaction = z.port.transaction := by unfold Zs32.arbitrationWon; split <;> simp
@[simp] theorem Zs32.arbitrationWon_port_sdo (a : Attempt) (z : Zs32) :
    (Zs32.arbitrationWon a z).port.sdo = z.port.sdo := by unfold Zs32.arbitrationWon; split <;> simp
@[simp] theorem Zs32.arbitrationWon_port_refused (a : Attempt) (z : Zs32) :
    (Zs32.arbitrationWon a z).port.refused = z.port.refused := by unfold Zs32.arbitrationWon; split <;> simp
@[simp] theorem Zs32.endCommand_rst (r : Result) (z : Zs32) :
    (Zs32.endCommand r z).rst = z.rst := by unfold Zs32.endCommand; split <;> simp
@[simp] theorem Zs32.endCommand_clock (r : Result) (z : Zs32) :
    (Zs32.endCommand r z).clock = z.clock := by unfold Zs32.endCommand; split <;> simp
@[simp] theorem Zs32.endCommand_setup (r : Result) (z : Zs32) :
    (Zs32.endCommand r z).setup = z.setup := by unfold Zs32.endCommand; split <;> simp
@[simp] theorem Zs32.endCommand_line (r : Result) (z : Zs32) :
    (Zs32.endCommand r z).line = z.line := by unfold Zs32.endCommand; split <;> simp
@[simp] theorem Zs32.endCommand_memb (r : Result) (z : Zs32) :
    (Zs32.endCommand r z).memb = z.memb := by unfold Zs32.endCommand; split <;> simp
@[simp] theorem Zs32.endCommand_table (r : Result) (z : Zs32) :
    (Zs32.endCommand r z).table = z.table := by unfold Zs32.endCommand; split <;> simp
@[simp] theorem Zs32.endCommand_source (r : Result) (z : Zs32) :
    (Zs32.endCommand r z).source = z.source := by unfold Zs32.endCommand; split <;> simp
@[simp] theorem Zs32.endCommand_mixer (r : Result) (z : Zs32) :
    (Zs32.endCommand r z).mixer = z.mixer := by unfold Zs32.endCommand; split <;> simp
@[simp] theorem Zs32.endCommand_audio (r : Result) (z : Zs32) :
    (Zs32.endCommand r z).audio = z.audio := by unfold Zs32.endCommand; split <;> simp
@[simp] theorem Zs32.endCommand_notices (r : Result) (z : Zs32) :
    (Zs32.endCommand r z).notices = z.notices := by unfold Zs32.endCommand; split <;> simp
@[simp] theorem Zs32.endCommand_port_transaction (r : Result) (z : Zs32) :
    (Zs32.endCommand r z).port.transaction = z.port.transaction := by unfold Zs32.endCommand; split <;> simp
@[simp] theorem Zs32.endCommand_port_sdo (r : Result) (z : Zs32) :
    (Zs32.endCommand r z).port.sdo = z.port.sdo := by unfold Zs32.endCommand; split <;> simp
@[simp] theorem Zs32.endCommand_port_refused (r : Result) (z : Zs32) :
    (Zs32.endCommand r z).port.refused = z.port.refused := by unfold Zs32.endCommand; split <;> simp
@[simp] theorem Zs32.askPresence_rst  (z : Zs32) :
    (Zs32.askPresence z).rst = z.rst := by unfold Zs32.askPresence; split <;> simp
@[simp] theorem Zs32.askPresence_clock  (z : Zs32) :
    (Zs32.askPresence z).clock = z.clock := by unfold Zs32.askPresence; split <;> simp
@[simp] theorem Zs32.askPresence_setup  (z : Zs32) :
    (Zs32.askPresence z).setup = z.setup := by unfold Zs32.askPresence; split <;> simp
@[simp] theorem Zs32.askPresence_table  (z : Zs32) :
    (Zs32.askPresence z).table = z.table := by unfold Zs32.askPresence; split <;> simp
@[simp] theorem Zs32.askPresence_source  (z : Zs32) :
    (Zs32.askPresence z).source = z.source := by unfold Zs32.askPresence; split <;> simp
@[simp] theorem Zs32.askPresence_mixer  (z : Zs32) :
    (Zs32.askPresence z).mixer = z.mixer := by unfold Zs32.askPresence; split <;> simp
@[simp] theorem Zs32.askPresence_audio  (z : Zs32) :
    (Zs32.askPresence z).audio = z.audio := by unfold Zs32.askPresence; split <;> simp
@[simp] theorem Zs32.askPresence_port  (z : Zs32) :
    (Zs32.askPresence z).port = z.port := by unfold Zs32.askPresence; split <;> simp
@[simp] theorem Zs32.askPresence_notices  (z : Zs32) :
    (Zs32.askPresence z).notices = z.notices := by unfold Zs32.askPresence; split <;> simp
@[simp] theorem Zs32.askPresence_line_inq  (z : Zs32) :
    (Zs32.askPresence z).line.inq = z.line.inq := by unfold Zs32.askPresence; split <;> simp
@[simp] theorem Zs32.askPresence_line_receiver  (z : Zs32) :
    (Zs32.askPresence z).line.receiver = z.line.receiver := by unfold Zs32.askPresence; split <;> simp
@[simp] theorem Zs32.askPresence_line_attempt  (z : Zs32) :
    (Zs32.askPresence z).line.attempt = z.line.attempt := by unfold Zs32.askPresence; split <;> simp
@[simp] theorem Zs32.askPresence_line_reception  (z : Zs32) :
    (Zs32.askPresence z).line.reception = z.line.reception := by unfold Zs32.askPresence; split <;> simp
@[simp] theorem Zs32.askPresence_memb_state  (z : Zs32) :
    (Zs32.askPresence z).memb.state = z.memb.state := by unfold Zs32.askPresence; split <;> simp
@[simp] theorem Zs32.askPresence_memb_roster  (z : Zs32) :
    (Zs32.askPresence z).memb.roster = z.memb.roster := by unfold Zs32.askPresence; split <;> simp
@[simp] theorem Zs32.askEvict_rst (x : StationNo) (z : Zs32) :
    (Zs32.askEvict x z).rst = z.rst := by unfold Zs32.askEvict; (repeat' split) <;> simp
@[simp] theorem Zs32.askEvict_clock (x : StationNo) (z : Zs32) :
    (Zs32.askEvict x z).clock = z.clock := by unfold Zs32.askEvict; (repeat' split) <;> simp
@[simp] theorem Zs32.askEvict_setup (x : StationNo) (z : Zs32) :
    (Zs32.askEvict x z).setup = z.setup := by unfold Zs32.askEvict; (repeat' split) <;> simp
@[simp] theorem Zs32.askEvict_table (x : StationNo) (z : Zs32) :
    (Zs32.askEvict x z).table = z.table := by unfold Zs32.askEvict; (repeat' split) <;> simp
@[simp] theorem Zs32.askEvict_source (x : StationNo) (z : Zs32) :
    (Zs32.askEvict x z).source = z.source := by unfold Zs32.askEvict; (repeat' split) <;> simp
@[simp] theorem Zs32.askEvict_mixer (x : StationNo) (z : Zs32) :
    (Zs32.askEvict x z).mixer = z.mixer := by unfold Zs32.askEvict; (repeat' split) <;> simp
@[simp] theorem Zs32.askEvict_audio (x : StationNo) (z : Zs32) :
    (Zs32.askEvict x z).audio = z.audio := by unfold Zs32.askEvict; (repeat' split) <;> simp
@[simp] theorem Zs32.askEvict_port (x : StationNo) (z : Zs32) :
    (Zs32.askEvict x z).port = z.port := by unfold Zs32.askEvict; (repeat' split) <;> simp
@[simp] theorem Zs32.askEvict_notices (x : StationNo) (z : Zs32) :
    (Zs32.askEvict x z).notices = z.notices := by unfold Zs32.askEvict; (repeat' split) <;> simp
@[simp] theorem Zs32.askEvict_line_inq (x : StationNo) (z : Zs32) :
    (Zs32.askEvict x z).line.inq = z.line.inq := by unfold Zs32.askEvict; (repeat' split) <;> simp
@[simp] theorem Zs32.askEvict_line_receiver (x : StationNo) (z : Zs32) :
    (Zs32.askEvict x z).line.receiver = z.line.receiver := by unfold Zs32.askEvict; (repeat' split) <;> simp
@[simp] theorem Zs32.askEvict_line_attempt (x : StationNo) (z : Zs32) :
    (Zs32.askEvict x z).line.attempt = z.line.attempt := by unfold Zs32.askEvict; (repeat' split) <;> simp
@[simp] theorem Zs32.askEvict_line_reception (x : StationNo) (z : Zs32) :
    (Zs32.askEvict x z).line.reception = z.line.reception := by unfold Zs32.askEvict; (repeat' split) <;> simp
@[simp] theorem Zs32.askEvict_memb_state (x : StationNo) (z : Zs32) :
    (Zs32.askEvict x z).memb.state = z.memb.state := by unfold Zs32.askEvict; (repeat' split) <;> simp
@[simp] theorem Zs32.askEvict_memb_roster (x : StationNo) (z : Zs32) :
    (Zs32.askEvict x z).memb.roster = z.memb.roster := by unfold Zs32.askEvict; (repeat' split) <;> simp
@[simp] theorem Zs32.askAutoClose_rst (i : Input) (z : Zs32) :
    (Zs32.askAutoClose i z).rst = z.rst := by unfold Zs32.askAutoClose; (repeat' split) <;> simp
@[simp] theorem Zs32.askAutoClose_clock (i : Input) (z : Zs32) :
    (Zs32.askAutoClose i z).clock = z.clock := by unfold Zs32.askAutoClose; (repeat' split) <;> simp
@[simp] theorem Zs32.askAutoClose_setup (i : Input) (z : Zs32) :
    (Zs32.askAutoClose i z).setup = z.setup := by unfold Zs32.askAutoClose; (repeat' split) <;> simp
@[simp] theorem Zs32.askAutoClose_memb (i : Input) (z : Zs32) :
    (Zs32.askAutoClose i z).memb = z.memb := by unfold Zs32.askAutoClose; (repeat' split) <;> simp
@[simp] theorem Zs32.askAutoClose_table (i : Input) (z : Zs32) :
    (Zs32.askAutoClose i z).table = z.table := by unfold Zs32.askAutoClose; (repeat' split) <;> simp
@[simp] theorem Zs32.askAutoClose_mixer (i : Input) (z : Zs32) :
    (Zs32.askAutoClose i z).mixer = z.mixer := by unfold Zs32.askAutoClose; (repeat' split) <;> simp
@[simp] theorem Zs32.askAutoClose_audio (i : Input) (z : Zs32) :
    (Zs32.askAutoClose i z).audio = z.audio := by unfold Zs32.askAutoClose; (repeat' split) <;> simp
@[simp] theorem Zs32.askAutoClose_port (i : Input) (z : Zs32) :
    (Zs32.askAutoClose i z).port = z.port := by unfold Zs32.askAutoClose; (repeat' split) <;> simp
@[simp] theorem Zs32.askAutoClose_notices (i : Input) (z : Zs32) :
    (Zs32.askAutoClose i z).notices = z.notices := by unfold Zs32.askAutoClose; (repeat' split) <;> simp
@[simp] theorem Zs32.askAutoClose_line_inq (i : Input) (z : Zs32) :
    (Zs32.askAutoClose i z).line.inq = z.line.inq := by unfold Zs32.askAutoClose; (repeat' split) <;> simp
@[simp] theorem Zs32.askAutoClose_line_receiver (i : Input) (z : Zs32) :
    (Zs32.askAutoClose i z).line.receiver = z.line.receiver := by unfold Zs32.askAutoClose; (repeat' split) <;> simp
@[simp] theorem Zs32.askAutoClose_line_attempt (i : Input) (z : Zs32) :
    (Zs32.askAutoClose i z).line.attempt = z.line.attempt := by unfold Zs32.askAutoClose; (repeat' split) <;> simp
@[simp] theorem Zs32.askAutoClose_line_reception (i : Input) (z : Zs32) :
    (Zs32.askAutoClose i z).line.reception = z.line.reception := by unfold Zs32.askAutoClose; (repeat' split) <;> simp
@[simp] theorem Zs32.reaskAutoClose_rst (c : Channel) (z : Zs32) :
    (Zs32.reaskAutoClose c z).rst = z.rst := by unfold Zs32.reaskAutoClose; (repeat' split) <;> simp
@[simp] theorem Zs32.reaskAutoClose_clock (c : Channel) (z : Zs32) :
    (Zs32.reaskAutoClose c z).clock = z.clock := by unfold Zs32.reaskAutoClose; (repeat' split) <;> simp
@[simp] theorem Zs32.reaskAutoClose_setup (c : Channel) (z : Zs32) :
    (Zs32.reaskAutoClose c z).setup = z.setup := by unfold Zs32.reaskAutoClose; (repeat' split) <;> simp
@[simp] theorem Zs32.reaskAutoClose_memb (c : Channel) (z : Zs32) :
    (Zs32.reaskAutoClose c z).memb = z.memb := by unfold Zs32.reaskAutoClose; (repeat' split) <;> simp
@[simp] theorem Zs32.reaskAutoClose_table (c : Channel) (z : Zs32) :
    (Zs32.reaskAutoClose c z).table = z.table := by unfold Zs32.reaskAutoClose; (repeat' split) <;> simp
@[simp] theorem Zs32.reaskAutoClose_mixer (c : Channel) (z : Zs32) :
    (Zs32.reaskAutoClose c z).mixer = z.mixer := by unfold Zs32.reaskAutoClose; (repeat' split) <;> simp
@[simp] theorem Zs32.reaskAutoClose_audio (c : Channel) (z : Zs32) :
    (Zs32.reaskAutoClose c z).audio = z.audio := by unfold Zs32.reaskAutoClose; (repeat' split) <;> simp
@[simp] theorem Zs32.reaskAutoClose_port (c : Channel) (z : Zs32) :
    (Zs32.reaskAutoClose c z).port = z.port := by unfold Zs32.reaskAutoClose; (repeat' split) <;> simp
@[simp] theorem Zs32.reaskAutoClose_notices (c : Channel) (z : Zs32) :
    (Zs32.reaskAutoClose c z).notices = z.notices := by unfold Zs32.reaskAutoClose; (repeat' split) <;> simp
@[simp] theorem Zs32.reaskAutoClose_line_inq (c : Channel) (z : Zs32) :
    (Zs32.reaskAutoClose c z).line.inq = z.line.inq := by unfold Zs32.reaskAutoClose; (repeat' split) <;> simp
@[simp] theorem Zs32.reaskAutoClose_line_receiver (c : Channel) (z : Zs32) :
    (Zs32.reaskAutoClose c z).line.receiver = z.line.receiver := by unfold Zs32.reaskAutoClose; (repeat' split) <;> simp
@[simp] theorem Zs32.reaskAutoClose_line_attempt (c : Channel) (z : Zs32) :
    (Zs32.reaskAutoClose c z).line.attempt = z.line.attempt := by unfold Zs32.reaskAutoClose; (repeat' split) <;> simp
@[simp] theorem Zs32.reaskAutoClose_line_reception (c : Channel) (z : Zs32) :
    (Zs32.reaskAutoClose c z).line.reception = z.line.reception := by unfold Zs32.reaskAutoClose; (repeat' split) <;> simp
@[simp] theorem Zs32.startRestate_rst  (z : Zs32) :
    (Zs32.startRestate z).rst = z.rst := by unfold Zs32.startRestate; (repeat' split) <;> simp
@[simp] theorem Zs32.startRestate_clock  (z : Zs32) :
    (Zs32.startRestate z).clock = z.clock := by unfold Zs32.startRestate; (repeat' split) <;> simp
@[simp] theorem Zs32.startRestate_setup  (z : Zs32) :
    (Zs32.startRestate z).setup = z.setup := by unfold Zs32.startRestate; (repeat' split) <;> simp
@[simp] theorem Zs32.startRestate_table  (z : Zs32) :
    (Zs32.startRestate z).table = z.table := by unfold Zs32.startRestate; (repeat' split) <;> simp
@[simp] theorem Zs32.startRestate_mixer  (z : Zs32) :
    (Zs32.startRestate z).mixer = z.mixer := by unfold Zs32.startRestate; (repeat' split) <;> simp
@[simp] theorem Zs32.startRestate_audio  (z : Zs32) :
    (Zs32.startRestate z).audio = z.audio := by unfold Zs32.startRestate; (repeat' split) <;> simp
@[simp] theorem Zs32.startRestate_port  (z : Zs32) :
    (Zs32.startRestate z).port = z.port := by unfold Zs32.startRestate; (repeat' split) <;> simp
@[simp] theorem Zs32.startRestate_notices  (z : Zs32) :
    (Zs32.startRestate z).notices = z.notices := by unfold Zs32.startRestate; (repeat' split) <;> simp
@[simp] theorem Zs32.startRestate_line_inq  (z : Zs32) :
    (Zs32.startRestate z).line.inq = z.line.inq := by unfold Zs32.startRestate; (repeat' split) <;> simp
@[simp] theorem Zs32.startRestate_line_receiver  (z : Zs32) :
    (Zs32.startRestate z).line.receiver = z.line.receiver := by unfold Zs32.startRestate; (repeat' split) <;> simp
@[simp] theorem Zs32.startRestate_line_attempt  (z : Zs32) :
    (Zs32.startRestate z).line.attempt = z.line.attempt := by unfold Zs32.startRestate; (repeat' split) <;> simp
@[simp] theorem Zs32.startRestate_line_reception  (z : Zs32) :
    (Zs32.startRestate z).line.reception = z.line.reception := by unfold Zs32.startRestate; (repeat' split) <;> simp
@[simp] theorem Zs32.startRestate_memb_state  (z : Zs32) :
    (Zs32.startRestate z).memb.state = z.memb.state := by unfold Zs32.startRestate; (repeat' split) <;> simp
@[simp] theorem Zs32.startRestate_memb_roster  (z : Zs32) :
    (Zs32.startRestate z).memb.roster = z.memb.roster := by unfold Zs32.startRestate; (repeat' split) <;> simp
@[simp] theorem Zs32.clash_rst (reason : ClashReason) (z : Zs32) :
    (Zs32.clash reason z).rst = z.rst := by unfold Zs32.clash; (repeat' split) <;> simp
@[simp] theorem Zs32.clash_clock (reason : ClashReason) (z : Zs32) :
    (Zs32.clash reason z).clock = z.clock := by unfold Zs32.clash; (repeat' split) <;> simp
@[simp] theorem Zs32.clash_setup (reason : ClashReason) (z : Zs32) :
    (Zs32.clash reason z).setup = z.setup := by unfold Zs32.clash; (repeat' split) <;> simp
@[simp] theorem Zs32.clash_audio (reason : ClashReason) (z : Zs32) :
    (Zs32.clash reason z).audio = z.audio := by unfold Zs32.clash; (repeat' split) <;> simp
@[simp] theorem Zs32.clash_port_transaction (reason : ClashReason) (z : Zs32) :
    (Zs32.clash reason z).port.transaction = z.port.transaction := by unfold Zs32.clash; (repeat' split) <;> simp
@[simp] theorem Zs32.clash_port_sdo (reason : ClashReason) (z : Zs32) :
    (Zs32.clash reason z).port.sdo = z.port.sdo := by unfold Zs32.clash; (repeat' split) <;> simp
@[simp] theorem Zs32.clash_port_refused (reason : ClashReason) (z : Zs32) :
    (Zs32.clash reason z).port.refused = z.port.refused := by unfold Zs32.clash; (repeat' split) <;> simp
@[simp] theorem Zs32.takeComparison_rst  (z : Zs32) :
    (Zs32.takeComparison z).rst = z.rst := by unfold Zs32.takeComparison; (repeat' split) <;> simp
@[simp] theorem Zs32.takeComparison_clock  (z : Zs32) :
    (Zs32.takeComparison z).clock = z.clock := by unfold Zs32.takeComparison; (repeat' split) <;> simp
@[simp] theorem Zs32.takeComparison_setup  (z : Zs32) :
    (Zs32.takeComparison z).setup = z.setup := by unfold Zs32.takeComparison; (repeat' split) <;> simp
@[simp] theorem Zs32.takeComparison_line  (z : Zs32) :
    (Zs32.takeComparison z).line = z.line := by unfold Zs32.takeComparison; (repeat' split) <;> simp
@[simp] theorem Zs32.takeComparison_memb  (z : Zs32) :
    (Zs32.takeComparison z).memb = z.memb := by unfold Zs32.takeComparison; (repeat' split) <;> simp
@[simp] theorem Zs32.takeComparison_source  (z : Zs32) :
    (Zs32.takeComparison z).source = z.source := by unfold Zs32.takeComparison; (repeat' split) <;> simp
@[simp] theorem Zs32.takeComparison_mixer  (z : Zs32) :
    (Zs32.takeComparison z).mixer = z.mixer := by unfold Zs32.takeComparison; (repeat' split) <;> simp
@[simp] theorem Zs32.takeComparison_audio  (z : Zs32) :
    (Zs32.takeComparison z).audio = z.audio := by unfold Zs32.takeComparison; (repeat' split) <;> simp
@[simp] theorem Zs32.takeComparison_port  (z : Zs32) :
    (Zs32.takeComparison z).port = z.port := by unfold Zs32.takeComparison; (repeat' split) <;> simp
@[simp] theorem Zs32.takeComparison_notices  (z : Zs32) :
    (Zs32.takeComparison z).notices = z.notices := by unfold Zs32.takeComparison; (repeat' split) <;> simp
@[simp] theorem Zs32.takeComparison_table_channels  (z : Zs32) :
    (Zs32.takeComparison z).table.channels = z.table.channels := by unfold Zs32.takeComparison; (repeat' split) <;> simp
@[simp] theorem Zs32.takeComparison_table_zones  (z : Zs32) :
    (Zs32.takeComparison z).table.zones = z.table.zones := by unfold Zs32.takeComparison; (repeat' split) <;> simp
@[simp] theorem Zs32.takeComparison_table_digest  (z : Zs32) :
    (Zs32.takeComparison z).table.digest = z.table.digest := by unfold Zs32.takeComparison; (repeat' split) <;> simp
@[simp] theorem Zs32.compare_rst (x : CompareContext) (z : Zs32) :
    (Zs32.compare x z).rst = z.rst := by unfold Zs32.compare; split <;> simp
@[simp] theorem Zs32.compare_clock (x : CompareContext) (z : Zs32) :
    (Zs32.compare x z).clock = z.clock := by unfold Zs32.compare; split <;> simp
@[simp] theorem Zs32.compare_setup (x : CompareContext) (z : Zs32) :
    (Zs32.compare x z).setup = z.setup := by unfold Zs32.compare; split <;> simp
@[simp] theorem Zs32.compare_line (x : CompareContext) (z : Zs32) :
    (Zs32.compare x z).line = z.line := by unfold Zs32.compare; split <;> simp
@[simp] theorem Zs32.compare_memb (x : CompareContext) (z : Zs32) :
    (Zs32.compare x z).memb = z.memb := by unfold Zs32.compare; split <;> simp
@[simp] theorem Zs32.compare_source (x : CompareContext) (z : Zs32) :
    (Zs32.compare x z).source = z.source := by unfold Zs32.compare; split <;> simp
@[simp] theorem Zs32.compare_audio (x : CompareContext) (z : Zs32) :
    (Zs32.compare x z).audio = z.audio := by unfold Zs32.compare; split <;> simp
@[simp] theorem Zs32.compare_port (x : CompareContext) (z : Zs32) :
    (Zs32.compare x z).port = z.port := by unfold Zs32.compare; split <;> simp
@[simp] theorem Zs32.compare_table_channels (x : CompareContext) (z : Zs32) :
    (Zs32.compare x z).table.channels = z.table.channels := by unfold Zs32.compare; split <;> simp
@[simp] theorem Zs32.compare_table_zones (x : CompareContext) (z : Zs32) :
    (Zs32.compare x z).table.zones = z.table.zones := by unfold Zs32.compare; split <;> simp
@[simp] theorem Zs32.compare_table_digest (x : CompareContext) (z : Zs32) :
    (Zs32.compare x z).table.digest = z.table.digest := by unfold Zs32.compare; split <;> simp
@[simp] theorem Zs32.withdrawHead_rst (e : OutEntry) (result : Option ResultCode) (z : Zs32) :
    (Zs32.withdrawHead e result z).rst = z.rst := by unfold Zs32.withdrawHead; (repeat' split) <;> simp
@[simp] theorem Zs32.withdrawHead_clock (e : OutEntry) (result : Option ResultCode) (z : Zs32) :
    (Zs32.withdrawHead e result z).clock = z.clock := by unfold Zs32.withdrawHead; (repeat' split) <;> simp
@[simp] theorem Zs32.withdrawHead_setup (e : OutEntry) (result : Option ResultCode) (z : Zs32) :
    (Zs32.withdrawHead e result z).setup = z.setup := by unfold Zs32.withdrawHead; (repeat' split) <;> simp
@[simp] theorem Zs32.withdrawHead_table (e : OutEntry) (result : Option ResultCode) (z : Zs32) :
    (Zs32.withdrawHead e result z).table = z.table := by unfold Zs32.withdrawHead; (repeat' split) <;> simp
@[simp] theorem Zs32.withdrawHead_mixer (e : OutEntry) (result : Option ResultCode) (z : Zs32) :
    (Zs32.withdrawHead e result z).mixer = z.mixer := by unfold Zs32.withdrawHead; (repeat' split) <;> simp
@[simp] theorem Zs32.withdrawHead_audio (e : OutEntry) (result : Option ResultCode) (z : Zs32) :
    (Zs32.withdrawHead e result z).audio = z.audio := by unfold Zs32.withdrawHead; (repeat' split) <;> simp
@[simp] theorem Zs32.withdrawHead_notices (e : OutEntry) (result : Option ResultCode) (z : Zs32) :
    (Zs32.withdrawHead e result z).notices = z.notices := by unfold Zs32.withdrawHead; (repeat' split) <;> simp
@[simp] theorem Zs32.withdrawHead_line_inq (e : OutEntry) (result : Option ResultCode) (z : Zs32) :
    (Zs32.withdrawHead e result z).line.inq = z.line.inq := by unfold Zs32.withdrawHead; (repeat' split) <;> simp
@[simp] theorem Zs32.withdrawHead_line_receiver (e : OutEntry) (result : Option ResultCode) (z : Zs32) :
    (Zs32.withdrawHead e result z).line.receiver = z.line.receiver := by unfold Zs32.withdrawHead; (repeat' split) <;> simp
@[simp] theorem Zs32.withdrawHead_line_attempt (e : OutEntry) (result : Option ResultCode) (z : Zs32) :
    (Zs32.withdrawHead e result z).line.attempt = z.line.attempt := by unfold Zs32.withdrawHead; (repeat' split) <;> simp
@[simp] theorem Zs32.withdrawHead_line_reception (e : OutEntry) (result : Option ResultCode) (z : Zs32) :
    (Zs32.withdrawHead e result z).line.reception = z.line.reception := by unfold Zs32.withdrawHead; (repeat' split) <;> simp
@[simp] theorem Zs32.withdrawHead_memb_state (e : OutEntry) (result : Option ResultCode) (z : Zs32) :
    (Zs32.withdrawHead e result z).memb.state = z.memb.state := by unfold Zs32.withdrawHead; (repeat' split) <;> simp
@[simp] theorem Zs32.withdrawHead_memb_roster (e : OutEntry) (result : Option ResultCode) (z : Zs32) :
    (Zs32.withdrawHead e result z).memb.roster = z.memb.roster := by unfold Zs32.withdrawHead; (repeat' split) <;> simp
@[simp] theorem Zs32.withdrawHead_port_transaction (e : OutEntry) (result : Option ResultCode) (z : Zs32) :
    (Zs32.withdrawHead e result z).port.transaction = z.port.transaction := by unfold Zs32.withdrawHead; (repeat' split) <;> simp
@[simp] theorem Zs32.withdrawHead_port_sdo (e : OutEntry) (result : Option ResultCode) (z : Zs32) :
    (Zs32.withdrawHead e result z).port.sdo = z.port.sdo := by unfold Zs32.withdrawHead; (repeat' split) <;> simp
@[simp] theorem Zs32.withdrawHead_port_refused (e : OutEntry) (result : Option ResultCode) (z : Zs32) :
    (Zs32.withdrawHead e result z).port.refused = z.port.refused := by unfold Zs32.withdrawHead; (repeat' split) <;> simp
@[simp] theorem Zs32.placeHost_rst (cmd : LineCommand) (p : Placed) (z : Zs32) :
    (Zs32.placeHost cmd p z).rst = z.rst := by unfold Zs32.placeHost; split <;> simp
@[simp] theorem Zs32.placeHost_clock (cmd : LineCommand) (p : Placed) (z : Zs32) :
    (Zs32.placeHost cmd p z).clock = z.clock := by unfold Zs32.placeHost; split <;> simp
@[simp] theorem Zs32.placeHost_setup (cmd : LineCommand) (p : Placed) (z : Zs32) :
    (Zs32.placeHost cmd p z).setup = z.setup := by unfold Zs32.placeHost; split <;> simp
@[simp] theorem Zs32.placeHost_memb (cmd : LineCommand) (p : Placed) (z : Zs32) :
    (Zs32.placeHost cmd p z).memb = z.memb := by unfold Zs32.placeHost; split <;> simp
@[simp] theorem Zs32.placeHost_table (cmd : LineCommand) (p : Placed) (z : Zs32) :
    (Zs32.placeHost cmd p z).table = z.table := by unfold Zs32.placeHost; split <;> simp
@[simp] theorem Zs32.placeHost_source (cmd : LineCommand) (p : Placed) (z : Zs32) :
    (Zs32.placeHost cmd p z).source = z.source := by unfold Zs32.placeHost; split <;> simp
@[simp] theorem Zs32.placeHost_mixer (cmd : LineCommand) (p : Placed) (z : Zs32) :
    (Zs32.placeHost cmd p z).mixer = z.mixer := by unfold Zs32.placeHost; split <;> simp
@[simp] theorem Zs32.placeHost_audio (cmd : LineCommand) (p : Placed) (z : Zs32) :
    (Zs32.placeHost cmd p z).audio = z.audio := by unfold Zs32.placeHost; split <;> simp
@[simp] theorem Zs32.placeHost_notices (cmd : LineCommand) (p : Placed) (z : Zs32) :
    (Zs32.placeHost cmd p z).notices = z.notices := by unfold Zs32.placeHost; split <;> simp
@[simp] theorem Zs32.placeHost_line_inq (cmd : LineCommand) (p : Placed) (z : Zs32) :
    (Zs32.placeHost cmd p z).line.inq = z.line.inq := by unfold Zs32.placeHost; split <;> simp
@[simp] theorem Zs32.placeHost_line_receiver (cmd : LineCommand) (p : Placed) (z : Zs32) :
    (Zs32.placeHost cmd p z).line.receiver = z.line.receiver := by unfold Zs32.placeHost; split <;> simp
@[simp] theorem Zs32.placeHost_line_attempt (cmd : LineCommand) (p : Placed) (z : Zs32) :
    (Zs32.placeHost cmd p z).line.attempt = z.line.attempt := by unfold Zs32.placeHost; split <;> simp
@[simp] theorem Zs32.placeHost_line_reception (cmd : LineCommand) (p : Placed) (z : Zs32) :
    (Zs32.placeHost cmd p z).line.reception = z.line.reception := by unfold Zs32.placeHost; split <;> simp
@[simp] theorem Zs32.placeHost_port_transaction (cmd : LineCommand) (p : Placed) (z : Zs32) :
    (Zs32.placeHost cmd p z).port.transaction = z.port.transaction := by unfold Zs32.placeHost; split <;> simp
@[simp] theorem Zs32.placeHost_port_sdo (cmd : LineCommand) (p : Placed) (z : Zs32) :
    (Zs32.placeHost cmd p z).port.sdo = z.port.sdo := by unfold Zs32.placeHost; split <;> simp
@[simp] theorem Zs32.placeHost_port_refused (cmd : LineCommand) (p : Placed) (z : Zs32) :
    (Zs32.placeHost cmd p z).port.refused = z.port.refused := by unfold Zs32.placeHost; split <;> simp
@[simp] theorem Zs32.hearPeer_rst (x : StationNo) (z : Zs32) :
    (Zs32.hearPeer x z).rst = z.rst := by unfold Zs32.hearPeer; split <;> simp
@[simp] theorem Zs32.hearPeer_clock (x : StationNo) (z : Zs32) :
    (Zs32.hearPeer x z).clock = z.clock := by unfold Zs32.hearPeer; split <;> simp
@[simp] theorem Zs32.hearPeer_setup (x : StationNo) (z : Zs32) :
    (Zs32.hearPeer x z).setup = z.setup := by unfold Zs32.hearPeer; split <;> simp
@[simp] theorem Zs32.hearPeer_line (x : StationNo) (z : Zs32) :
    (Zs32.hearPeer x z).line = z.line := by unfold Zs32.hearPeer; split <;> simp
@[simp] theorem Zs32.hearPeer_table (x : StationNo) (z : Zs32) :
    (Zs32.hearPeer x z).table = z.table := by unfold Zs32.hearPeer; split <;> simp
@[simp] theorem Zs32.hearPeer_source (x : StationNo) (z : Zs32) :
    (Zs32.hearPeer x z).source = z.source := by unfold Zs32.hearPeer; split <;> simp
@[simp] theorem Zs32.hearPeer_mixer (x : StationNo) (z : Zs32) :
    (Zs32.hearPeer x z).mixer = z.mixer := by unfold Zs32.hearPeer; split <;> simp
@[simp] theorem Zs32.hearPeer_audio (x : StationNo) (z : Zs32) :
    (Zs32.hearPeer x z).audio = z.audio := by unfold Zs32.hearPeer; split <;> simp
@[simp] theorem Zs32.hearPeer_port (x : StationNo) (z : Zs32) :
    (Zs32.hearPeer x z).port = z.port := by unfold Zs32.hearPeer; split <;> simp
@[simp] theorem Zs32.hearPeer_notices (x : StationNo) (z : Zs32) :
    (Zs32.hearPeer x z).notices = z.notices := by unfold Zs32.hearPeer; split <;> simp
@[simp] theorem Zs32.hearPeer_memb_state (x : StationNo) (z : Zs32) :
    (Zs32.hearPeer x z).memb.state = z.memb.state := by unfold Zs32.hearPeer; split <;> simp
@[simp] theorem Zs32.removeHostEntry_rst  (z : Zs32) :
    (Zs32.removeHostEntry z).rst = z.rst := by unfold Zs32.removeHostEntry; (repeat' split) <;> simp
@[simp] theorem Zs32.removeHostEntry_clock  (z : Zs32) :
    (Zs32.removeHostEntry z).clock = z.clock := by unfold Zs32.removeHostEntry; (repeat' split) <;> simp
@[simp] theorem Zs32.removeHostEntry_setup  (z : Zs32) :
    (Zs32.removeHostEntry z).setup = z.setup := by unfold Zs32.removeHostEntry; (repeat' split) <;> simp
@[simp] theorem Zs32.removeHostEntry_memb  (z : Zs32) :
    (Zs32.removeHostEntry z).memb = z.memb := by unfold Zs32.removeHostEntry; (repeat' split) <;> simp
@[simp] theorem Zs32.removeHostEntry_table  (z : Zs32) :
    (Zs32.removeHostEntry z).table = z.table := by unfold Zs32.removeHostEntry; (repeat' split) <;> simp
@[simp] theorem Zs32.removeHostEntry_source  (z : Zs32) :
    (Zs32.removeHostEntry z).source = z.source := by unfold Zs32.removeHostEntry; (repeat' split) <;> simp
@[simp] theorem Zs32.removeHostEntry_mixer  (z : Zs32) :
    (Zs32.removeHostEntry z).mixer = z.mixer := by unfold Zs32.removeHostEntry; (repeat' split) <;> simp
@[simp] theorem Zs32.removeHostEntry_audio  (z : Zs32) :
    (Zs32.removeHostEntry z).audio = z.audio := by unfold Zs32.removeHostEntry; (repeat' split) <;> simp
@[simp] theorem Zs32.removeHostEntry_port  (z : Zs32) :
    (Zs32.removeHostEntry z).port = z.port := by unfold Zs32.removeHostEntry; (repeat' split) <;> simp
@[simp] theorem Zs32.removeHostEntry_notices  (z : Zs32) :
    (Zs32.removeHostEntry z).notices = z.notices := by unfold Zs32.removeHostEntry; (repeat' split) <;> simp
@[simp] theorem Zs32.removeHostEntry_line_inq  (z : Zs32) :
    (Zs32.removeHostEntry z).line.inq = z.line.inq := by unfold Zs32.removeHostEntry; (repeat' split) <;> simp
@[simp] theorem Zs32.removeHostEntry_line_receiver  (z : Zs32) :
    (Zs32.removeHostEntry z).line.receiver = z.line.receiver := by unfold Zs32.removeHostEntry; (repeat' split) <;> simp
@[simp] theorem Zs32.removeHostEntry_line_attempt  (z : Zs32) :
    (Zs32.removeHostEntry z).line.attempt = z.line.attempt := by unfold Zs32.removeHostEntry; (repeat' split) <;> simp
@[simp] theorem Zs32.removeHostEntry_line_reception  (z : Zs32) :
    (Zs32.removeHostEntry z).line.reception = z.line.reception := by unfold Zs32.removeHostEntry; (repeat' split) <;> simp
@[simp] theorem Zs32.abortMerged_rst (i : Input) (z : Zs32) :
    (Zs32.abortMerged i z).rst = z.rst := by unfold Zs32.abortMerged; split <;> simp
@[simp] theorem Zs32.abortMerged_clock (i : Input) (z : Zs32) :
    (Zs32.abortMerged i z).clock = z.clock := by unfold Zs32.abortMerged; split <;> simp
@[simp] theorem Zs32.abortMerged_setup (i : Input) (z : Zs32) :
    (Zs32.abortMerged i z).setup = z.setup := by unfold Zs32.abortMerged; split <;> simp
@[simp] theorem Zs32.abortMerged_line (i : Input) (z : Zs32) :
    (Zs32.abortMerged i z).line = z.line := by unfold Zs32.abortMerged; split <;> simp
@[simp] theorem Zs32.abortMerged_memb (i : Input) (z : Zs32) :
    (Zs32.abortMerged i z).memb = z.memb := by unfold Zs32.abortMerged; split <;> simp
@[simp] theorem Zs32.abortMerged_table (i : Input) (z : Zs32) :
    (Zs32.abortMerged i z).table = z.table := by unfold Zs32.abortMerged; split <;> simp
@[simp] theorem Zs32.abortMerged_mixer (i : Input) (z : Zs32) :
    (Zs32.abortMerged i z).mixer = z.mixer := by unfold Zs32.abortMerged; split <;> simp
@[simp] theorem Zs32.abortMerged_audio (i : Input) (z : Zs32) :
    (Zs32.abortMerged i z).audio = z.audio := by unfold Zs32.abortMerged; split <;> simp
@[simp] theorem Zs32.abortMerged_notices (i : Input) (z : Zs32) :
    (Zs32.abortMerged i z).notices = z.notices := by unfold Zs32.abortMerged; split <;> simp
@[simp] theorem Zs32.abortMerged_port_transaction (i : Input) (z : Zs32) :
    (Zs32.abortMerged i z).port.transaction = z.port.transaction := by unfold Zs32.abortMerged; split <;> simp
@[simp] theorem Zs32.abortMerged_port_sdo (i : Input) (z : Zs32) :
    (Zs32.abortMerged i z).port.sdo = z.port.sdo := by unfold Zs32.abortMerged; split <;> simp
@[simp] theorem Zs32.abortMerged_port_refused (i : Input) (z : Zs32) :
    (Zs32.abortMerged i z).port.refused = z.port.refused := by unfold Zs32.abortMerged; split <;> simp
@[simp] theorem Zs32.endMerged_rst (i : Input) (r : Result) (z : Zs32) :
    (Zs32.endMerged i r z).rst = z.rst := by unfold Zs32.endMerged; split <;> simp
@[simp] theorem Zs32.endMerged_clock (i : Input) (r : Result) (z : Zs32) :
    (Zs32.endMerged i r z).clock = z.clock := by unfold Zs32.endMerged; split <;> simp
@[simp] theorem Zs32.endMerged_setup (i : Input) (r : Result) (z : Zs32) :
    (Zs32.endMerged i r z).setup = z.setup := by unfold Zs32.endMerged; split <;> simp
@[simp] theorem Zs32.endMerged_line (i : Input) (r : Result) (z : Zs32) :
    (Zs32.endMerged i r z).line = z.line := by unfold Zs32.endMerged; split <;> simp
@[simp] theorem Zs32.endMerged_memb (i : Input) (r : Result) (z : Zs32) :
    (Zs32.endMerged i r z).memb = z.memb := by unfold Zs32.endMerged; split <;> simp
@[simp] theorem Zs32.endMerged_table (i : Input) (r : Result) (z : Zs32) :
    (Zs32.endMerged i r z).table = z.table := by unfold Zs32.endMerged; split <;> simp
@[simp] theorem Zs32.endMerged_mixer (i : Input) (r : Result) (z : Zs32) :
    (Zs32.endMerged i r z).mixer = z.mixer := by unfold Zs32.endMerged; split <;> simp
@[simp] theorem Zs32.endMerged_audio (i : Input) (r : Result) (z : Zs32) :
    (Zs32.endMerged i r z).audio = z.audio := by unfold Zs32.endMerged; split <;> simp
@[simp] theorem Zs32.endMerged_notices (i : Input) (r : Result) (z : Zs32) :
    (Zs32.endMerged i r z).notices = z.notices := by unfold Zs32.endMerged; split <;> simp
@[simp] theorem Zs32.endMerged_port_transaction (i : Input) (r : Result) (z : Zs32) :
    (Zs32.endMerged i r z).port.transaction = z.port.transaction := by unfold Zs32.endMerged; split <;> simp
@[simp] theorem Zs32.endMerged_port_sdo (i : Input) (r : Result) (z : Zs32) :
    (Zs32.endMerged i r z).port.sdo = z.port.sdo := by unfold Zs32.endMerged; split <;> simp
@[simp] theorem Zs32.endMerged_port_refused (i : Input) (r : Result) (z : Zs32) :
    (Zs32.endMerged i r z).port.refused = z.port.refused := by unfold Zs32.endMerged; split <;> simp
@[simp] theorem Zs32.hostLineFault_rst (b : FrameBody) (z : Zs32) :
    (Zs32.hostLineFault b z).rst = z.rst := by unfold Zs32.hostLineFault; split <;> simp
@[simp] theorem Zs32.hostLineFault_clock (b : FrameBody) (z : Zs32) :
    (Zs32.hostLineFault b z).clock = z.clock := by unfold Zs32.hostLineFault; split <;> simp
@[simp] theorem Zs32.hostLineFault_setup (b : FrameBody) (z : Zs32) :
    (Zs32.hostLineFault b z).setup = z.setup := by unfold Zs32.hostLineFault; split <;> simp
@[simp] theorem Zs32.hostLineFault_audio (b : FrameBody) (z : Zs32) :
    (Zs32.hostLineFault b z).audio = z.audio := by unfold Zs32.hostLineFault; split <;> simp
@[simp] theorem Zs32.hostLineFault_notices (b : FrameBody) (z : Zs32) :
    (Zs32.hostLineFault b z).notices = z.notices := by unfold Zs32.hostLineFault; split <;> simp
@[simp] theorem Zs32.hostLineFault_port_transaction (b : FrameBody) (z : Zs32) :
    (Zs32.hostLineFault b z).port.transaction = z.port.transaction := by unfold Zs32.hostLineFault; split <;> simp
@[simp] theorem Zs32.hostLineFault_port_sdo (b : FrameBody) (z : Zs32) :
    (Zs32.hostLineFault b z).port.sdo = z.port.sdo := by unfold Zs32.hostLineFault; split <;> simp
@[simp] theorem Zs32.hostLineFault_port_refused (b : FrameBody) (z : Zs32) :
    (Zs32.hostLineFault b z).port.refused = z.port.refused := by unfold Zs32.hostLineFault; split <;> simp
@[simp] theorem Zs32.renewHello_rst  (z : Zs32) :
    (Zs32.renewHello z).rst = z.rst := by unfold Zs32.renewHello; split <;> simp
@[simp] theorem Zs32.renewHello_clock  (z : Zs32) :
    (Zs32.renewHello z).clock = z.clock := by unfold Zs32.renewHello; split <;> simp
@[simp] theorem Zs32.renewHello_setup  (z : Zs32) :
    (Zs32.renewHello z).setup = z.setup := by unfold Zs32.renewHello; split <;> simp
@[simp] theorem Zs32.renewHello_memb  (z : Zs32) :
    (Zs32.renewHello z).memb = z.memb := by unfold Zs32.renewHello; split <;> simp
@[simp] theorem Zs32.renewHello_table  (z : Zs32) :
    (Zs32.renewHello z).table = z.table := by unfold Zs32.renewHello; split <;> simp
@[simp] theorem Zs32.renewHello_source  (z : Zs32) :
    (Zs32.renewHello z).source = z.source := by unfold Zs32.renewHello; split <;> simp
@[simp] theorem Zs32.renewHello_mixer  (z : Zs32) :
    (Zs32.renewHello z).mixer = z.mixer := by unfold Zs32.renewHello; split <;> simp
@[simp] theorem Zs32.renewHello_audio  (z : Zs32) :
    (Zs32.renewHello z).audio = z.audio := by unfold Zs32.renewHello; split <;> simp
@[simp] theorem Zs32.renewHello_port  (z : Zs32) :
    (Zs32.renewHello z).port = z.port := by unfold Zs32.renewHello; split <;> simp
@[simp] theorem Zs32.renewHello_notices  (z : Zs32) :
    (Zs32.renewHello z).notices = z.notices := by unfold Zs32.renewHello; split <;> simp
@[simp] theorem Zs32.renewHello_line_inq  (z : Zs32) :
    (Zs32.renewHello z).line.inq = z.line.inq := by unfold Zs32.renewHello; split <;> simp
@[simp] theorem Zs32.renewHello_line_receiver  (z : Zs32) :
    (Zs32.renewHello z).line.receiver = z.line.receiver := by unfold Zs32.renewHello; split <;> simp
@[simp] theorem Zs32.renewHello_line_attempt  (z : Zs32) :
    (Zs32.renewHello z).line.attempt = z.line.attempt := by unfold Zs32.renewHello; split <;> simp
@[simp] theorem Zs32.renewHello_line_reception  (z : Zs32) :
    (Zs32.renewHello z).line.reception = z.line.reception := by unfold Zs32.renewHello; split <;> simp
@[simp] theorem Zs32.renewAutoClose_rst (i : Input) (c : Channel) (z : Zs32) :
    (Zs32.renewAutoClose i c z).rst = z.rst := by unfold Zs32.renewAutoClose; split <;> simp
@[simp] theorem Zs32.renewAutoClose_clock (i : Input) (c : Channel) (z : Zs32) :
    (Zs32.renewAutoClose i c z).clock = z.clock := by unfold Zs32.renewAutoClose; split <;> simp
@[simp] theorem Zs32.renewAutoClose_setup (i : Input) (c : Channel) (z : Zs32) :
    (Zs32.renewAutoClose i c z).setup = z.setup := by unfold Zs32.renewAutoClose; split <;> simp
@[simp] theorem Zs32.renewAutoClose_memb (i : Input) (c : Channel) (z : Zs32) :
    (Zs32.renewAutoClose i c z).memb = z.memb := by unfold Zs32.renewAutoClose; split <;> simp
@[simp] theorem Zs32.renewAutoClose_table (i : Input) (c : Channel) (z : Zs32) :
    (Zs32.renewAutoClose i c z).table = z.table := by unfold Zs32.renewAutoClose; split <;> simp
@[simp] theorem Zs32.renewAutoClose_mixer (i : Input) (c : Channel) (z : Zs32) :
    (Zs32.renewAutoClose i c z).mixer = z.mixer := by unfold Zs32.renewAutoClose; split <;> simp
@[simp] theorem Zs32.renewAutoClose_audio (i : Input) (c : Channel) (z : Zs32) :
    (Zs32.renewAutoClose i c z).audio = z.audio := by unfold Zs32.renewAutoClose; split <;> simp
@[simp] theorem Zs32.renewAutoClose_port (i : Input) (c : Channel) (z : Zs32) :
    (Zs32.renewAutoClose i c z).port = z.port := by unfold Zs32.renewAutoClose; split <;> simp
@[simp] theorem Zs32.renewAutoClose_notices (i : Input) (c : Channel) (z : Zs32) :
    (Zs32.renewAutoClose i c z).notices = z.notices := by unfold Zs32.renewAutoClose; split <;> simp
@[simp] theorem Zs32.renewAutoClose_line_inq (i : Input) (c : Channel) (z : Zs32) :
    (Zs32.renewAutoClose i c z).line.inq = z.line.inq := by unfold Zs32.renewAutoClose; split <;> simp
@[simp] theorem Zs32.renewAutoClose_line_receiver (i : Input) (c : Channel) (z : Zs32) :
    (Zs32.renewAutoClose i c z).line.receiver = z.line.receiver := by unfold Zs32.renewAutoClose; split <;> simp
@[simp] theorem Zs32.renewAutoClose_line_attempt (i : Input) (c : Channel) (z : Zs32) :
    (Zs32.renewAutoClose i c z).line.attempt = z.line.attempt := by unfold Zs32.renewAutoClose; split <;> simp
@[simp] theorem Zs32.renewAutoClose_line_reception (i : Input) (c : Channel) (z : Zs32) :
    (Zs32.renewAutoClose i c z).line.reception = z.line.reception := by unfold Zs32.renewAutoClose; split <;> simp
@[simp] theorem Zs32.renewEvict_rst (t : StationNo) (z : Zs32) :
    (Zs32.renewEvict t z).rst = z.rst := by unfold Zs32.renewEvict; split <;> simp
@[simp] theorem Zs32.renewEvict_clock (t : StationNo) (z : Zs32) :
    (Zs32.renewEvict t z).clock = z.clock := by unfold Zs32.renewEvict; split <;> simp
@[simp] theorem Zs32.renewEvict_setup (t : StationNo) (z : Zs32) :
    (Zs32.renewEvict t z).setup = z.setup := by unfold Zs32.renewEvict; split <;> simp
@[simp] theorem Zs32.renewEvict_table (t : StationNo) (z : Zs32) :
    (Zs32.renewEvict t z).table = z.table := by unfold Zs32.renewEvict; split <;> simp
@[simp] theorem Zs32.renewEvict_source (t : StationNo) (z : Zs32) :
    (Zs32.renewEvict t z).source = z.source := by unfold Zs32.renewEvict; split <;> simp
@[simp] theorem Zs32.renewEvict_mixer (t : StationNo) (z : Zs32) :
    (Zs32.renewEvict t z).mixer = z.mixer := by unfold Zs32.renewEvict; split <;> simp
@[simp] theorem Zs32.renewEvict_audio (t : StationNo) (z : Zs32) :
    (Zs32.renewEvict t z).audio = z.audio := by unfold Zs32.renewEvict; split <;> simp
@[simp] theorem Zs32.renewEvict_port (t : StationNo) (z : Zs32) :
    (Zs32.renewEvict t z).port = z.port := by unfold Zs32.renewEvict; split <;> simp
@[simp] theorem Zs32.renewEvict_notices (t : StationNo) (z : Zs32) :
    (Zs32.renewEvict t z).notices = z.notices := by unfold Zs32.renewEvict; split <;> simp
@[simp] theorem Zs32.renewEvict_line_inq (t : StationNo) (z : Zs32) :
    (Zs32.renewEvict t z).line.inq = z.line.inq := by unfold Zs32.renewEvict; split <;> simp
@[simp] theorem Zs32.renewEvict_line_receiver (t : StationNo) (z : Zs32) :
    (Zs32.renewEvict t z).line.receiver = z.line.receiver := by unfold Zs32.renewEvict; split <;> simp
@[simp] theorem Zs32.renewEvict_line_attempt (t : StationNo) (z : Zs32) :
    (Zs32.renewEvict t z).line.attempt = z.line.attempt := by unfold Zs32.renewEvict; split <;> simp
@[simp] theorem Zs32.renewEvict_line_reception (t : StationNo) (z : Zs32) :
    (Zs32.renewEvict t z).line.reception = z.line.reception := by unfold Zs32.renewEvict; split <;> simp
@[simp] theorem Zs32.renewEvict_memb_state (t : StationNo) (z : Zs32) :
    (Zs32.renewEvict t z).memb.state = z.memb.state := by unfold Zs32.renewEvict; split <;> simp
@[simp] theorem Zs32.renewEvict_memb_roster (t : StationNo) (z : Zs32) :
    (Zs32.renewEvict t z).memb.roster = z.memb.roster := by unfold Zs32.renewEvict; split <;> simp
@[simp] theorem Zs32.ownLineFault_rst (b : FrameBody) (origin : Origin) (z : Zs32) :
    (Zs32.ownLineFault b origin z).rst = z.rst := by unfold Zs32.ownLineFault; split <;> simp
@[simp] theorem Zs32.ownLineFault_clock (b : FrameBody) (origin : Origin) (z : Zs32) :
    (Zs32.ownLineFault b origin z).clock = z.clock := by unfold Zs32.ownLineFault; split <;> simp
@[simp] theorem Zs32.ownLineFault_setup (b : FrameBody) (origin : Origin) (z : Zs32) :
    (Zs32.ownLineFault b origin z).setup = z.setup := by unfold Zs32.ownLineFault; split <;> simp
@[simp] theorem Zs32.ownLineFault_table (b : FrameBody) (origin : Origin) (z : Zs32) :
    (Zs32.ownLineFault b origin z).table = z.table := by unfold Zs32.ownLineFault; split <;> simp
@[simp] theorem Zs32.ownLineFault_mixer (b : FrameBody) (origin : Origin) (z : Zs32) :
    (Zs32.ownLineFault b origin z).mixer = z.mixer := by unfold Zs32.ownLineFault; split <;> simp
@[simp] theorem Zs32.ownLineFault_audio (b : FrameBody) (origin : Origin) (z : Zs32) :
    (Zs32.ownLineFault b origin z).audio = z.audio := by unfold Zs32.ownLineFault; split <;> simp
@[simp] theorem Zs32.ownLineFault_line_inq (b : FrameBody) (origin : Origin) (z : Zs32) :
    (Zs32.ownLineFault b origin z).line.inq = z.line.inq := by unfold Zs32.ownLineFault; split <;> simp
@[simp] theorem Zs32.ownLineFault_line_receiver (b : FrameBody) (origin : Origin) (z : Zs32) :
    (Zs32.ownLineFault b origin z).line.receiver = z.line.receiver := by unfold Zs32.ownLineFault; split <;> simp
@[simp] theorem Zs32.ownLineFault_line_attempt (b : FrameBody) (origin : Origin) (z : Zs32) :
    (Zs32.ownLineFault b origin z).line.attempt = z.line.attempt := by unfold Zs32.ownLineFault; split <;> simp
@[simp] theorem Zs32.ownLineFault_line_reception (b : FrameBody) (origin : Origin) (z : Zs32) :
    (Zs32.ownLineFault b origin z).line.reception = z.line.reception := by unfold Zs32.ownLineFault; split <;> simp
@[simp] theorem Zs32.ownLineFault_memb_state (b : FrameBody) (origin : Origin) (z : Zs32) :
    (Zs32.ownLineFault b origin z).memb.state = z.memb.state := by unfold Zs32.ownLineFault; split <;> simp
@[simp] theorem Zs32.ownLineFault_memb_roster (b : FrameBody) (origin : Origin) (z : Zs32) :
    (Zs32.ownLineFault b origin z).memb.roster = z.memb.roster := by unfold Zs32.ownLineFault; split <;> simp
@[simp] theorem Zs32.ownLineFault_port_transaction (b : FrameBody) (origin : Origin) (z : Zs32) :
    (Zs32.ownLineFault b origin z).port.transaction = z.port.transaction := by unfold Zs32.ownLineFault; split <;> simp
@[simp] theorem Zs32.ownLineFault_port_sdo (b : FrameBody) (origin : Origin) (z : Zs32) :
    (Zs32.ownLineFault b origin z).port.sdo = z.port.sdo := by unfold Zs32.ownLineFault; split <;> simp
@[simp] theorem Zs32.ownLineFault_port_refused (b : FrameBody) (origin : Origin) (z : Zs32) :
    (Zs32.ownLineFault b origin z).port.refused = z.port.refused := by unfold Zs32.ownLineFault; split <;> simp
@[simp] theorem Zs32.enterJoined_rst  (z : Zs32) :
    (Zs32.enterJoined z).rst = z.rst := by unfold Zs32.enterJoined; (repeat' split) <;> simp
@[simp] theorem Zs32.enterJoined_clock  (z : Zs32) :
    (Zs32.enterJoined z).clock = z.clock := by unfold Zs32.enterJoined; (repeat' split) <;> simp
@[simp] theorem Zs32.enterJoined_setup  (z : Zs32) :
    (Zs32.enterJoined z).setup = z.setup := by unfold Zs32.enterJoined; (repeat' split) <;> simp
@[simp] theorem Zs32.enterJoined_table  (z : Zs32) :
    (Zs32.enterJoined z).table = z.table := by unfold Zs32.enterJoined; (repeat' split) <;> simp
@[simp] theorem Zs32.enterJoined_source  (z : Zs32) :
    (Zs32.enterJoined z).source = z.source := by unfold Zs32.enterJoined; (repeat' split) <;> simp
@[simp] theorem Zs32.enterJoined_mixer  (z : Zs32) :
    (Zs32.enterJoined z).mixer = z.mixer := by unfold Zs32.enterJoined; (repeat' split) <;> simp
@[simp] theorem Zs32.enterJoined_audio  (z : Zs32) :
    (Zs32.enterJoined z).audio = z.audio := by unfold Zs32.enterJoined; (repeat' split) <;> simp
@[simp] theorem Zs32.enterJoined_port  (z : Zs32) :
    (Zs32.enterJoined z).port = z.port := by unfold Zs32.enterJoined; (repeat' split) <;> simp
@[simp] theorem Zs32.enterJoined_line_inq  (z : Zs32) :
    (Zs32.enterJoined z).line.inq = z.line.inq := by unfold Zs32.enterJoined; (repeat' split) <;> simp
@[simp] theorem Zs32.enterJoined_line_receiver  (z : Zs32) :
    (Zs32.enterJoined z).line.receiver = z.line.receiver := by unfold Zs32.enterJoined; (repeat' split) <;> simp
@[simp] theorem Zs32.enterJoined_line_attempt  (z : Zs32) :
    (Zs32.enterJoined z).line.attempt = z.line.attempt := by unfold Zs32.enterJoined; (repeat' split) <;> simp
@[simp] theorem Zs32.enterJoined_line_reception  (z : Zs32) :
    (Zs32.enterJoined z).line.reception = z.line.reception := by unfold Zs32.enterJoined; (repeat' split) <;> simp

/-! ### Ending a command -/

theorem Zs32.endCommand_of_none {z : Zs32} (h : z.port.cmd = none) (r : Result) : z.endCommand r = z := by
  simp [Zs32.endCommand, h]

theorem Zs32.endCommand_of_some {z : Zs32} {e : CmdExec} (h : z.port.cmd = some e) (r : Result) :
    z.endCommand r = z.formResult r := by
  simp [Zs32.endCommand, h]

/-- Ending a command changes nothing but the port (R139). -/
theorem Zs32.endCommand_eq (r : Result) (z : Zs32) : z.endCommand r = { z with port := (z.endCommand r).port } := by
  unfold Zs32.endCommand
  split <;> rfl

/-- No command is in execution once one has ended (R139). -/
theorem Zs32.endCommand_idle (r : Result) (z : Zs32) : (z.endCommand r).port.cmd = none := by
  unfold Zs32.endCommand
  split
  · rfl
  · next h => simpa using h

/-- The port after a command ended (R139). -/
theorem Zs32.endCommand_port (z : Zs32) (r : Result) : EndedWith z.port (z.endCommand r).port r.bytes := by
  unfold EndedWith
  cases h : z.port.cmd with
  | none => simp [Zs32.endCommand, h]
  | some e => simp [Zs32.endCommand, h]

/-! ### Rejoin and clash (R34, R184) -/

/-- A rejoin's notice, where it has one, is the one notice it logs. -/
theorem Zs32.rejoinWith_eq (n : Option Notice) (z : Zs32) : z.rejoinWith n =
    { z.tableClear with
      notices := n.elim z.notices z.notices.log
      memb := Membership.clearedIn .listening
      line := { z.tableClear.line with outq := [entryOf .hello .membership z.clock] } } := by
  cases n <;> rfl

/-- The outputs after table clear, with the position in the tone left open (R59, R109). -/
theorem Zs32.tableClear_outputs (z : Zs32) (o : Fin 4) : z.tableClear.mixer.outputs[o] =
    { z.mixer.outputs[o] with
      state := .silent, chime := .stopped, fg := none, duck := none, bg := none
      tonePos := z.tableClear.mixer.outputs[o].tonePos } := by
  have h : z.tableClear.mixer.outputs[o] = z.mixer.outputs[o].silenced := tabulate_get _ o
  rw [h]
  rfl

theorem Zs32.tableClear_cleared (z : Zs32) : TableCleared z z.tableClear :=
  ⟨rfl, rfl, rfl, rfl, rfl, rfl, rfl, rfl, z.tableClear_outputs, rfl, rfl, rfl, rfl⟩

/-- A rejoin without a notice (R147). -/
theorem Zs32.rejoinWith_none_cleared (z : Zs32) : TableCleared z (z.rejoinWith none) :=
  ⟨rfl, rfl, rfl, rfl, rfl, rfl, rfl, rfl, z.tableClear_outputs, rfl, rfl, rfl, rfl⟩

theorem Zs32.rejoinWith_rejoined (n : Notice) (z : Zs32) : RejoinedWith z (z.rejoinWith (some n)) n := by
  exact ⟨⟨rfl, rfl, rfl, rfl, rfl, rfl, rfl, rfl, z.tableClear_outputs, rfl, rfl, rfl, rfl⟩, rfl, rfl, rfl⟩

theorem Zs32.leaveLine_wentOff (st : StationState) (z : Zs32) : WentOff z (z.leaveLine st) st := by
  exact ⟨⟨rfl, rfl, rfl, rfl, rfl, rfl, rfl, rfl, z.tableClear_outputs, rfl, rfl, rfl, rfl⟩, rfl, rfl, rfl, rfl, rfl⟩

theorem Zs32.rejoin_of_leaving {z : Zs32} (h : z.leaving = true) (cause : RejoinCause) :
    z.rejoin cause = (z.leaveLine .offline).endCommand cause.leaveResult := by
  simp [Zs32.rejoin, h]

theorem Zs32.rejoin_of_not_leaving {z : Zs32} (h : z.leaving = false) (cause : RejoinCause) :
    z.rejoin cause = (z.rejoinWith (some cause.notice)).endCommand cause.result := by
  simp [Zs32.rejoin, h]

/-! ### The comparison, the end of an ownership and purge (R67 to R69, R96, R98) -/

@[simp] theorem Zs32.endOwnership_channels (c : Channel) (z : Zs32) :
    (z.endOwnership c).table.channels = z.table.channels.set c ChannelRec.drained := rfl

@[simp] theorem Zs32.endOwnership_leads (c : Channel) (z : Zs32) :
    (z.endOwnership c).table.leads = z.table.leads := rfl

@[simp] theorem Zs32.endOwnership_comparison (c : Channel) (z : Zs32) :
    (z.endOwnership c).table.comparison = z.table.comparison := rfl

theorem Zs32.endOwnership_zone (c : Channel) (z : Zs32) (k : Zone) :
    (z.endOwnership c).table.zones[k] = z.table.zones[k].filter fun cl => cl.channel ≠ c := tabulate_get _ k

/-- The end of several ownerships changes nothing but the tables. -/
theorem Zs32.foldl_endOwnership_frame (l : List Channel) : ∀ z : Zs32,
    l.foldl (fun z c => z.endOwnership c) z =
      { z with table := (l.foldl (fun z c => z.endOwnership c) z).table } := by
  induction l with
  | nil => intro z; rfl
  | cons c l ih =>
    intro z
    rw [List.foldl_cons, ih]
    rfl

theorem Zs32.foldl_endOwnership_leads (l : List Channel) : ∀ z : Zs32,
    (l.foldl (fun z c => z.endOwnership c) z).table.leads = z.table.leads ∧
      (l.foldl (fun z c => z.endOwnership c) z).table.comparison = z.table.comparison := by
  induction l with
  | nil => intro z; exact ⟨rfl, rfl⟩
  | cons c l ih => intro z; rw [List.foldl_cons]; exact ih _

theorem Zs32.foldl_endOwnership_channel (l : List Channel) (k : Channel) : ∀ z : Zs32,
    (l.foldl (fun z c => z.endOwnership c) z).table.channels[k] =
      if k ∈ l then ChannelRec.drained else z.table.channels[k] := by
  induction l with
  | nil => intro z; simp
  | cons c l ih =>
    intro z
    rw [List.foldl_cons, ih]
    by_cases h : k ∈ l
    · simp [h]
    · by_cases hc : k = c
      · subst hc; simp [h]
      · have : ¬ (c.val = k.val) := fun e => hc (Fin.ext e.symm)
        simp [h, hc, this]

theorem Zs32.foldl_endOwnership_zone (l : List Channel) (k : Zone) : ∀ z : Zs32,
    (l.foldl (fun z c => z.endOwnership c) z).table.zones[k] =
      z.table.zones[k].filter fun cl => cl.channel ∉ l := by
  induction l with
  | nil => intro z; simp
  | cons c l ih =>
    intro z
    rw [List.foldl_cons, ih, Zs32.endOwnership_zone, List.filter_filter]
    congr 1
    funext cl
    by_cases h1 : cl.channel = c <;> by_cases h2 : cl.channel ∈ l <;> simp [h1, h2]

/-- What the comparison at the end of a processing leaves alone (R98). -/
theorem Zs32.compare_frame (x : CompareContext) (z : Zs32) : z.compare x =
    { z with
      mixer := (z.compare x).mixer, notices := (z.compare x).notices
      table := { z.table with leads := (z.compare x).table.leads, comparison := none } } := by
  unfold Zs32.compare
  split
  · next h => rw [← h]
  · rfl

/-- Purge changes nothing but the tables, the outputs and the notices (R69, R96). -/
theorem Zs32.purge_frame (x : StationNo) (z : Zs32) : z.purge x =
    { z with mixer := (z.purge x).mixer, notices := (z.purge x).notices, table := (z.purge x).table } := by
  unfold Zs32.purge
  rw [Zs32.compare_frame]
  simp only [Zs32.removeClaimsOf, Zs32.setTables]
  rw [Zs32.foldl_endOwnership_frame]
  rfl

@[simp] theorem Zs32.purge_comparison (x : StationNo) (z : Zs32) : (z.purge x).table.comparison = none := by
  unfold Zs32.purge
  rw [Zs32.compare_frame]

/-- The channels of a purged station drain, the others stay (R69). -/
theorem Zs32.purge_channel (x : StationNo) (z : Zs32) (k : Channel) : (z.purge x).table.channels[k] =
    if z.table.channels[k].owner = some x then ChannelRec.drained else z.table.channels[k] := by
  simp only [Zs32.purge, Zs32.compare_table_channels, Zs32.removeClaimsOf_table_channels]
  rw [Zs32.foldl_endOwnership_channel]
  simp [Zs32.channelsOf]

/-- The claims on the channels of a purged station leave every list, and its own claims with them (R68, R96). -/
theorem Zs32.purge_zone (x : StationNo) (z : Zs32) (k : Zone) : (z.purge x).table.zones[k] =
    z.table.zones[k].filter fun cl =>
      decide (z.table.channels[cl.channel].owner ≠ some x) && decide (cl.station ≠ x) := by
  simp only [Zs32.purge, Zs32.compare_table_zones, Zs32.removeClaimsOf, Zs32.setTables_zones, tabulate_get,
    withoutStation]
  rw [Zs32.foldl_endOwnership_zone, List.filter_filter]
  congr 1
  funext cl
  simp [Zs32.channelsOf, Bool.and_comm]

/-- The removal of a roster entry (R38): purge, then the entry, then the notice. -/
theorem Zs32.removeEntry_eq (x : StationNo) (reason : LostReason) (z : Zs32) :
    z.removeEntry x reason = ((z.purge x).eraseEntry x).log (.peerLost x reason) := rfl

/-! ### The notice log -/

/-- A notice that is no GAP keeps the log within its bounds (R170). -/
theorem NoticeLog.log_ok {l : NoticeLog} {n : Notice} (h : l.Ok) (hn : n.isGap = false) : (l.log n).Ok := by
  obtain ⟨h1, h2, h3, h4⟩ := h
  unfold NoticeLog.log
  split
  · exact ⟨h1, h2, h3, h4⟩
  · split
    · next _ hr =>
      refine ⟨?_, ?_, h3, ?_⟩
      · simp [List.length_append]; exact hr.1
      · simpa [List.filter_append, hn] using h2
      · intro hg; exact absurd hr.2 hg
    · next _ hr =>
      refine ⟨h1, h2, Nat.min_le_left _ _, ?_⟩
      intro _
      by_cases hf : l.records.length < logCapacity
      · exact h4 fun hg => hr ⟨hf, hg⟩
      · exact Or.inl (show l.records.length = logCapacity by omega)

/-! ### The shared tables -/

/-- New tables carry their own digest (R107). -/
theorem ClaimTable.withTables_digest (t : ClaimTable) (cs : Vector ChannelRec 16) (ls : Vector (List Claim) 32) :
    (t.withTables cs ls).DigestCurrent := rfl

theorem ClaimTable.cleared_digest : ClaimTable.cleared.DigestCurrent := by
  unfold ClaimTable.DigestCurrent
  decide

/-- Removing claims keeps a list in order (R86). -/
theorem ClaimListOk.filter {l : List Claim} (h : ClaimListOk l) (p : Claim → Bool) : ClaimListOk (l.filter p) := by
  obtain ⟨h1, h2, h3⟩ := h
  refine ⟨(List.length_filter_le p l).trans h1, h2.filter p, ?_⟩
  exact h3.sublist (List.filter_sublist.map Claim.station)

/-! ### Emptying and audio frames -/

@[simp] theorem InputRec.unqueue_bound (dropped : Bool) (r : InputRec) : (r.unqueue dropped).bound = r.bound := rfl
@[simp] theorem InputRec.unqueue_starting (dropped : Bool) (r : InputRec) :
    (r.unqueue dropped).starting = r.starting := rfl
@[simp] theorem InputRec.unqueue_driving (dropped : Bool) (r : InputRec) :
    (r.unqueue dropped).driving = r.driving := rfl
@[simp] theorem InputRec.unqueue_timer (dropped : Bool) (r : InputRec) : (r.unqueue dropped).timer = r.timer := rfl
@[simp] theorem InputRec.unqueue_pending (dropped : Bool) (r : InputRec) :
    (r.unqueue dropped).pending = r.pending := rfl
@[simp] theorem InputRec.unqueue_merged (dropped : Bool) (r : InputRec) : (r.unqueue dropped).merged = r.merged := rfl

/-- An emptying that drops no automatic CLOSE of an input leaves its record alone (R81). -/
@[simp] theorem InputRec.unqueue_false (r : InputRec) : r.unqueue false = r := by simp [InputRec.unqueue]

/-- The input records after an emptying (R81). -/
theorem Zs32.emptyOutbound_source_get (z : Zs32) (i : Input) :
    z.emptyOutbound.source.get i = (z.source.get i).unqueue (z.line.holdsAutoClose i) := by
  cases i <;> rfl

/-- An output emits from the samples received in the frame before (R119). -/
theorem Zs32.audioFrame_output (marks : Bool) (slots : Vector Sample 16) (inA inB : Sample) (z : Zs32) (o : Fin 4) :
    (z.audioFrame marks slots inA inB).mixer.outputs[o] = z.mixer.outputs[o].emit z.audio.received z.isLive :=
  tabulate_get _ o

end Sys2Proof.Machine
end

