-- ==== Sys2Proof/Laws/Requests.lean ====
section
/-! SUPPORT. What a request for a slot does: the automatic CLOSE (R79, R84) and the EVICT (R50). -/

namespace Sys2Proof.Machine

/-- The automatic CLOSE of an input is asked for where no LEAVE and no host CLOSE of its channel holds it back (R79).
-/
theorem Zs32.askAutoClose_asked {z : Zs32} {i : Input} {c : Channel} (bound : (z.source.get i).channel = some c)
    (leaving : z.leaving = false) (running : z.hostCloseRunning c = false) :
    AutoCloseAsked z (z.askAutoClose i) i c := by
  constructor
  · intro room
    have hr : z.hasRoom = true := decide_eq_true room
    simp only [Zs32.askAutoClose, bound, leaving, running, hr, Bool.or_false, Bool.false_eq_true, if_false, if_true]
    rfl
  · intro full
    have hr : z.hasRoom = false := decide_eq_false (Nat.not_lt.2 full)
    simp only [Zs32.askAutoClose, bound, leaving, running, hr, Bool.or_false, Bool.false_eq_true, if_false]
    rfl

/-- With no command in execution nothing holds an automatic CLOSE back (R79). -/
theorem Zs32.leaving_of_idle {z : Zs32} (idle : z.port.cmd = none) : z.leaving = false := by
  simp [Zs32.leaving, idle]

theorem Zs32.hostCloseRunning_of_idle {z : Zs32} (idle : z.port.cmd = none) (c : Channel) :
    z.hostCloseRunning c = false := by simp [Zs32.hostCloseRunning, idle]

/-- The automatic CLOSE asked for after a host CLOSE of its channel ended, with no command in execution any more (R84).
-/
theorem Zs32.reaskAutoClose_cases {z : Zs32} (idle : z.port.cmd = none) (c : Channel) :
    (∀ i, z.source.inputOf c = some i → (z.source.get i).pending = true → AutoCloseAsked z (z.reaskAutoClose c) i c) ∧
    ((∀ i, z.source.inputOf c = some i → (z.source.get i).pending = false) → z.reaskAutoClose c = z) := by
  constructor
  · intro i hi hp
    have bound : (z.source.get i).channel = some c := by
      unfold Source.inputOf at hi
      split at hi
      · next h => cases hi; simp [Source.get, InputRec.channel, h]
      · split at hi
        · next h => cases hi; simp [Source.get, InputRec.channel, h]
        · cases hi
    have asks : z.reaskAutoClose c = z.askAutoClose i := by simp only [Zs32.reaskAutoClose, hi, hp, if_true]
    rw [asks]
    exact Zs32.askAutoClose_asked bound (Zs32.leaving_of_idle idle) (Zs32.hostCloseRunning_of_idle idle c)
  · intro h
    unfold Zs32.reaskAutoClose
    split
    · rfl
    · next i hi => rw [h i hi]; rfl

/-- An EVICT is asked for in JOINED with no LEAVE in execution, unless its target is in the eviction set (R50). -/
theorem Zs32.askEvict_cases (x : StationNo) (z : Zs32) :
    let asks := z.memb.state = .joined ∧ z.leaving = false ∧ x ∉ z.memb.evictQueued ∧ x ∉ z.memb.evictHeld
    (asks → EvictAsked z (z.askEvict x) x) ∧ (¬ asks → z.askEvict x = z) := by
  intro asks
  constructor
  · rintro ⟨h1, h2, h3, h4⟩
    have no : ¬ (z.memb.state ≠ .joined ∨ z.leaving = true ∨ x ∈ z.memb.evictQueued ∨ x ∈ z.memb.evictHeld) := by
      rw [h1, h2]; simp [h3, h4]
    constructor
    · intro room
      have hr : z.hasRoom = true := decide_eq_true room
      rw [Zs32.askEvict, if_neg no, hr, if_pos rfl]
      exact ⟨rfl, fun y => mem_insertStation x y _⟩
    · intro full
      have hr : z.hasRoom = false := decide_eq_false (Nat.not_lt.2 full)
      rw [Zs32.askEvict, if_neg no, hr, if_neg Bool.false_ne_true]
      exact ⟨rfl, fun y => mem_insertStation x y _⟩
  · intro h
    rw [Zs32.askEvict, if_pos]
    by_contra no
    apply h
    push Not at no
    exact ⟨no.1, by simpa using no.2.1, no.2.2.1, no.2.2.2⟩

end Sys2Proof.Machine
end

