-- ==== Sys2Proof/Laws/Abort.lean ====
section
/-! SUPPORT. What an ABORT of a command in QUEUED does, whatever the command and whatever waits for a slot (R144, R147,
R84, R7). -/

namespace Sys2Proof.Machine

/-- Where the queue holds one entry of the host, its removal is that of every such entry (R8). -/
theorem Zs32.removeHostEntry_eq {z : Zs32} (one : (z.line.outq.filter fun x => x.origin = .host).length = 1) :
    z.removeHostEntry = z.withoutHostEntry := by
  unfold Zs32.removeHostEntry Zs32.withoutHostEntry
  cases hq : z.line.outq with
  | nil => rw [hq] at one; cases one
  | cons e rest =>
    rw [hq] at one
    by_cases h : e.origin = .host
    · have none : rest.filter (fun x => decide (x.origin = .host)) = [] := by
        simpa [h] using one
      have all : rest.filter (fun x => decide (x.origin ≠ .host)) = rest := by
        refine List.filter_eq_self.2 fun x hx => ?_
        have := List.filter_eq_nil_iff.1 none x hx
        simpa using this
      simp only [h, if_true, Zs32.dropHead, hq, List.tail_cons, List.head?_cons, Option.any_some, decide_true,
        ne_eq, not_true_eq_false, decide_false, List.filter_cons_of_neg, Bool.false_eq_true, not_false_eq_true, all]
    · simp [h]

theorem Zs32.removeHostEntry_gone {z : Zs32} (one : (z.line.outq.filter fun x => x.origin = .host).length = 1) :
    HostEntryGone z z.removeHostEntry.grants := by
  rw [Zs32.removeHostEntry_eq one]
  exact ⟨z.withoutHostEntry.grants_frame, z.withoutHostEntry.grants_grantedTo⟩

/-- Table clear after the grants is table clear before them (R59). -/
theorem HostEntryGone.tableCleared {z u z' : Zs32} (h : HostEntryGone z u) (c : TableCleared u z') : TableCleared z z' := by
  obtain ⟨⟨hr, hk, hs, -, hm, ha, -⟩, -⟩ := h
  obtain ⟨c1, c2, c3, c4, c5, c6, c7, c8, c9, c10, c11, c12, c13⟩ := c
  refine ⟨c1, c2, c3, c4, c5, c6, c7, c8, fun o => ?_, c10.trans hs, c11.trans hk, c12.trans hr, c13.trans ha⟩
  rw [c9 o, hm]
  rfl

/-- An ABORT of the command in execution, which is in QUEUED, is taken (R144, R147, R84). -/
theorem Zs32.takeAbort_taken {z : Zs32} {e : CmdExec} (cmd : z.port.cmd = some e)
    (one : (z.line.outq.filter fun x => x.origin = .host).length = 1) :
    AbortTaken z z.takeAbort e.command ∧ z.takeAbort.port =
      { z.port with phase := .result, cmdBuf := [], resBuf := [0x14], readPos := 0, firstByte := false, cmd := none } := by
  have gone := Zs32.removeHostEntry_gone one
  have port : z.removeHostEntry.grants.port = z.port := by simp
  have ended (w : Zs32) (x : CmdExec) (hw : w.port = { z.port with cmd := some x }) :
      w.endCommand (.plain .aborted) = { w with port := { z.port with
        phase := .result, cmdBuf := [], resBuf := [0x14], readPos := 0, firstByte := false, cmd := none } } := by
    rw [Zs32.endCommand_of_some (by rw [hw]), Zs32.formResult, hw]
    rfl
  have here : z.removeHostEntry.grants.port = { z.port with cmd := some e } := by rw [port, ← cmd]
  have cleared_port : z.removeHostEntry.grants.tableClear.port =
      { z.port with cmd := some { e with stage := e.stage.detach } } := by
    have mapped : z.removeHostEntry.grants.tableClear.port = { z.removeHostEntry.grants.port with
        cmd := z.removeHostEntry.grants.port.cmd.map fun c => { c with stage := c.stage.detach } } := rfl
    rw [mapped]
    rw [here]
    rfl
  have plain (take : z.takeAbort = z.removeHostEntry.grants.endCommand (.plain .aborted))
      (h1 : ∀ c, e.command ≠ .close c) (h2 : e.command ≠ .join) (h3 : e.command ≠ .leave) :
      AbortTaken z z.takeAbort e.command ∧ z.takeAbort.port = { z.port with
        phase := .result, cmdBuf := [], resBuf := [0x14], readPos := 0, firstByte := false, cmd := none } := by
    rw [take, ended _ e here]
    exact ⟨⟨fun _ _ _ => ⟨_, gone, rfl⟩, fun c h => absurd h (h1 c), fun h => absurd h h2, fun h => absurd h h3⟩, rfl⟩
  cases hc : e.command with
  | close c =>
    have take : z.takeAbort = ({ z.removeHostEntry.grants with port :=
        { z.port with phase := .result, cmdBuf := [], resBuf := [0x14], readPos := 0, firstByte := false
                      cmd := none } } : Zs32).reaskAutoClose c := by
      rw [← ended _ e here]
      simp only [Zs32.takeAbort, cmd, Option.map_some, hc]
    obtain ⟨ask, quiet⟩ := Zs32.reaskAutoClose_cases (z := { z.removeHostEntry.grants with port :=
      { z.port with phase := .result, cmdBuf := [], resBuf := [0x14], readPos := 0, firstByte := false
                    cmd := none } }) rfl c
    have same := gone.1.inputOf c
    have portTaken : z.takeAbort.port = { z.port with
        phase := .result, cmdBuf := [], resBuf := [0x14], readPos := 0, firstByte := false, cmd := none } := by
      rw [take]; simp
    refine ⟨⟨fun h => absurd rfl (h c), fun c' h => ?_, nofun, nofun⟩, ?_⟩
    · cases h
      refine ⟨_, gone, fun i hi hp => ?_, fun h => ?_⟩
      · have pending : (z.removeHostEntry.grants.source.get i).pending = true := by rw [gone.1.get i]; exact hp
        have asked := ask i (same.trans hi) pending
        rw [← take] at asked
        rw [portTaken]
        exact asked
      · rw [take, quiet fun i hi => by
          have := h i (same.symm.trans hi)
          change (z.removeHostEntry.grants.source.get i).pending = false
          rw [gone.1.get i]; exact this]
    · exact portTaken
  | join =>
    have take : z.takeAbort = (z.removeHostEntry.grants.leaveLine .offline).endCommand (.plain .aborted) := by
      simp only [Zs32.takeAbort, cmd, Option.map_some, hc]
    rw [take, ended (z.removeHostEntry.grants.leaveLine .offline) { e with stage := e.stage.detach } cleared_port]
    obtain ⟨cleared, off⟩ := Zs32.leaveLine_wentOff .offline z.removeHostEntry.grants
    exact ⟨⟨fun _ h => absurd rfl h, nofun, fun _ => ⟨⟨gone.tableCleared cleared, off⟩, by simp⟩, nofun⟩, rfl⟩
  | leave =>
    have take : z.takeAbort = (z.removeHostEntry.grants.rejoinWith none).endCommand (.plain .aborted) := by
      simp only [Zs32.takeAbort, cmd, Option.map_some, hc]
    rw [take, ended (z.removeHostEntry.grants.rejoinWith none) { e with stage := e.stage.detach } (by
      rw [Zs32.rejoinWith_eq]; exact cleared_port)]
    have cleared := Zs32.rejoinWith_none_cleared z.removeHostEntry.grants
    refine ⟨⟨fun _ _ h => absurd rfl h, nofun, nofun, fun _ => ⟨gone.tableCleared cleared, rfl, ?_, ?_, ?_⟩⟩, rfl⟩
    · simp [Zs32.rejoinWith_eq]
    · simp [Zs32.rejoinWith_eq]
    · simp [Zs32.rejoinWith_eq]
  | openCh c i n =>
    exact hc ▸ plain (by simp only [Zs32.takeAbort, cmd, Option.map_some, hc]) (by simp [hc]) (by simp [hc])
      (by simp [hc])
  | claim c p d ch zs =>
    exact hc ▸ plain (by simp only [Zs32.takeAbort, cmd, Option.map_some, hc]) (by simp [hc]) (by simp [hc])
      (by simp [hc])
  | dropZones zs =>
    exact hc ▸ plain (by simp only [Zs32.takeAbort, cmd, Option.map_some, hc]) (by simp [hc]) (by simp [hc])
      (by simp [hc])
  | dropChannel c =>
    exact hc ▸ plain (by simp only [Zs32.takeAbort, cmd, Option.map_some, hc]) (by simp [hc]) (by simp [hc])
      (by simp [hc])

end Sys2Proof.Machine
end

