-- ==== Sys2Proof/Laws/Begin.lean ====
section
/-! SUPPORT. The withdrawal of the head (R8, R13) with the grants it makes (R7), and that finalization goes on with the
new head as though the occasion began there: the number of heads the model counts down from is enough in every state
(log entry 26). -/

namespace Sys2Proof.Machine

/-! ### What is queued and what waits -/

/-- The entries that are queued or wait for a slot. -/
def Zs32.ahead (z : Zs32) : Nat := z.line.outq.length + z.waiting.length

theorem Zs32.grantOne_ahead {z z' : Zs32} (h : z.grantOne = some z') : z'.ahead ≤ z.ahead := by
  have room : z.line.outq.length < 8 := by
    by_contra full
    have hr : z.hasRoom = false := decide_eq_false full
    simp [Zs32.grantOne, hr] at h
  have seq := (Zs32.grantOne_frame h).restatesFrom
  rcases z.grantOne_cases room with ⟨z1, e, h1, hq, first⟩ | ⟨hw, -, -, ⟨-, h1⟩ | ⟨-, h1⟩⟩
  · obtain rfl := Option.some.inj (h1.symm.trans h)
    simp only [Zs32.ahead, first.waiting seq, hq, List.length_append, List.length_cons, List.length_nil]
    omega
  · rw [h1] at h; cases h
  · obtain rfl := Option.some.inj (h1.symm.trans h)
    have held : z.heldEntries = [] := (List.append_eq_nil_iff.1 hw).1
    have none : Zs32.waiting { z with memb := z.memb.stopRestate } = [] := by
      change z.heldEntries ++ [] = []
      rw [held, List.append_nil]
    simp only [Zs32.ahead, hw, none, le_refl]

theorem Zs32.grantUpTo_ahead (n : Nat) : ∀ z : Zs32, (z.grantUpTo n).ahead ≤ z.ahead := by
  induction n with
  | zero => intro z; exact le_refl _
  | succ n ih =>
    intro z
    rw [Zs32.grantUpTo]
    split
    · exact le_refl _
    · next z' h => exact (ih z').trans (Zs32.grantOne_ahead h)

/-- Grants move what waits into the queue; nothing is added (R7). -/
theorem Zs32.grants_ahead (z : Zs32) : z.grants.ahead ≤ z.ahead := Zs32.grantUpTo_ahead 9 z

theorem Zs32.restatesFrom_length (z : Zs32) (cur : RestateCursor) : (z.restatesFrom cur).length ≤ 48 := by
  have claims (p : Nat) : (z.claimRestates p).length ≤ 32 :=
    (List.length_filterMap_le _ _).trans (by simp)
  have opens (c : Nat) : (z.openRestates c).length ≤ 16 :=
    (List.length_filterMap_le _ _).trans (by simp)
  cases cur with
  | openStep c =>
    have := claims 0
    have := opens c
    simp only [Zs32.restatesFrom, List.length_append]
    omega
  | claimStep p => exact (claims p).trans (by decide)

/-- The number the model counts down from exceeds what is queued or waits. -/
theorem Zs32.ahead_lt_finalizeBound (z : Zs32) : z.ahead < z.finalizeBound := by
  have held : z.heldEntries.length ≤ z.memb.evictHeld.length + 3 := by
    have closes : ((z.heldClose .a).toList ++ (z.heldClose .b).toList).length ≤ 2 := by
      cases z.heldClose .a <;> cases z.heldClose .b <;> simp
    rw [Zs32.heldEntries_eq, List.length_append, List.length_append, List.length_map]
    split <;> simp only [List.length_cons, List.length_nil] <;> omega
  have restates : (if z.memb.restateRun then z.restatesFrom z.memb.cursor else []).length ≤ 48 := by
    split
    · exact z.restatesFrom_length _
    · exact Nat.zero_le _
  rw [Zs32.ahead, Zs32.waiting, List.length_append, Zs32.finalizeBound]
  omega

/-! ### One withdrawal -/

/-- The station with its head withdrawn, before the freed slot is granted, and with a given port (R8, R13, R16). -/
def Zs32.withdrawn (z : Zs32) (e : OutEntry) (port : Port) : Zs32 :=
  { z with
    line := { z.line with outq := z.line.outq.tail, fails := 0, vetoSeen := false }
    memb := { z.memb with evictQueued := match e.placed with
      | .evict x => z.memb.evictQueued.filter (· ≠ x)
      | _ => z.memb.evictQueued }
    port := port }

/-- A withdrawal is that of the head, and then the grants of its slot (R7). -/
theorem Zs32.withdrawHead_eq (z : Zs32) (e : OutEntry) (r : Option ResultCode) :
    z.withdrawHead e r = (z.withdrawn e (z.withdrawHead e r).port).grants := by
  have h : ∃ p, z.withdrawHead e r = (z.withdrawn e p).grants := by
    obtain ⟨placed, origin, placedAt, aged⟩ := e
    cases origin with
    | host =>
      cases r with
      | none => exact ⟨z.port, by cases placed <;> rfl⟩
      | some c =>
        refine ⟨(z.dropHead.endCommand (.plain c)).port, ?_⟩
        simp only [Zs32.withdrawHead]
        rw [Zs32.endCommand_eq]
        cases placed <;> rfl
    | membership => exact ⟨z.port, by cases placed <;> rfl⟩
    | source i => exact ⟨z.port, by cases placed <;> rfl⟩
  obtain ⟨p, h⟩ := h
  have hp : (z.withdrawHead e r).port = p := by rw [h, Zs32.grants_port]; rfl
  rw [hp, h]

theorem Zs32.withdrawn_waiting (z : Zs32) (e : OutEntry) (p : Port) : (z.withdrawn e p).waiting = z.waiting := rfl

/-- What a withdrawal grants, and what it leaves alone (R7). -/
theorem Zs32.withdrawHead_granted (z : Zs32) (e : OutEntry) (r : Option ResultCode) :
    GrantFrame (z.withdrawn e (z.withdrawHead e r).port) (z.withdrawHead e r) ∧
      GrantedTo (z.withdrawn e (z.withdrawHead e r).port) (z.withdrawHead e r) z.line.outq.tail := by
  have frame := (z.withdrawn e (z.withdrawHead e r).port).grants_frame
  have granted := (z.withdrawn e (z.withdrawHead e r).port).grants_grantedTo
  rw [← z.withdrawHead_eq e r] at frame granted
  exact ⟨frame, granted⟩

theorem Zs32.withdrawHead_ahead {z : Zs32} {e : OutEntry} {rest : List OutEntry} (h : z.line.outq = e :: rest)
    (r : Option ResultCode) : (z.withdrawHead e r).ahead < z.ahead := by
  have le := (z.withdrawn e (z.withdrawHead e r).port).grants_ahead
  rw [← z.withdrawHead_eq e r] at le
  refine lt_of_le_of_lt le ?_
  simp only [Zs32.ahead, Zs32.withdrawn_waiting, h, List.length_cons]
  simp only [Zs32.withdrawn, h, List.tail_cons]
  omega

/-! ### One occasion -/

theorem Zs32.beginUpTo_succ (n : Nat) : ∀ z : Zs32, z.ahead < n → z.beginUpTo (n + 1) = z.beginUpTo n := by
  induction n with
  | zero => intro z h; omega
  | succ n ih =>
    intro z h
    rw [Zs32.beginUpTo.eq_def (n + 1 + 1), Zs32.beginUpTo.eq_def (n + 1)]
    simp only
    split
    · rfl
    · next e rest hq =>
      split
      · rfl
      · rfl
      · next r _ =>
        exact ih _ (lt_of_lt_of_le (Zs32.withdrawHead_ahead hq r) (Nat.lt_succ_iff.1 h))

theorem Zs32.beginUpTo_of_lt {n m : Nat} (z : Zs32) (hn : z.ahead < n) (h : n ≤ m) : z.beginUpTo m = z.beginUpTo n := by
  induction h with
  | refl => rfl
  | step h ih => rw [Zs32.beginUpTo_succ _ z (lt_of_lt_of_le hn h), ih]

/-- After a withdrawal the occasion goes on with the new head, as an occasion that began there (R12, R13). -/
theorem Zs32.attemptBegin_withdraw {z : Zs32} {e : OutEntry} {rest : List OutEntry} {r : Option ResultCode}
    (may : z.mayBegin = true) (hq : z.line.outq = e :: rest) (hf : z.finalize e = .withdraw r) :
    z.attemptBegin = (z.withdrawHead e r).attemptBegin := by
  have lt := z.ahead_lt_finalizeBound
  have lt' := Zs32.withdrawHead_ahead hq r
  obtain ⟨n, hn⟩ : ∃ n, z.finalizeBound = n + 1 := ⟨z.finalizeBound - 1, by omega⟩
  have go : z.attemptBegin = (z.withdrawHead e r).beginUpTo n := by
    rw [Zs32.attemptBegin, if_pos may, hn, Zs32.beginUpTo]
    simp only [hq, hf]
  have big := (z.withdrawHead e r).ahead_lt_finalizeBound
  have same : (z.withdrawHead e r).beginUpTo n = (z.withdrawHead e r).beginUpTo (z.withdrawHead e r).finalizeBound := by
    rcases Nat.le_total n (z.withdrawHead e r).finalizeBound with le | le
    · exact (Zs32.beginUpTo_of_lt _ (by omega) le).symm
    · exact Zs32.beginUpTo_of_lt _ big le
  rw [go, same, Zs32.attemptBegin]
  split
  · rfl
  · next no =>
    have empty : (z.withdrawHead e r).line.outq = [] := by
      have frame := (z.withdrawHead_granted e r).1
      obtain ⟨-, -, -, -, -, -, -, -, line, memb, -, -⟩ := frame
      have inq : (z.withdrawHead e r).line.inq = z.line.inq := by rw [line]; rfl
      have receiver : (z.withdrawHead e r).line.receiver = z.line.receiver := by rw [line]; rfl
      have halt : (z.withdrawHead e r).line.halt = z.line.halt := by rw [line]; rfl
      have state : (z.withdrawHead e r).memb.state = z.memb.state := by rw [memb]; rfl
      have online : (z.withdrawHead e r).onLine = z.onLine := by simp only [Zs32.onLine, state]
      rw [Zs32.mayBegin, inq, receiver, halt, online] at no
      rw [Zs32.mayBegin] at may
      cases hl : (z.withdrawHead e r).line.outq with
      | nil => rfl
      | cons x l =>
        rw [hq] at may
        rw [hl] at no
        exact absurd may no
    rw [Zs32.finalizeBound, Zs32.beginUpTo.eq_def]
    simp only [empty]

end Sys2Proof.Machine
end

