-- ==== Sys2Proof/Laws/Compare.lean ====
section
/-! SUPPORT. What the comparison at the end of a processing does to the outputs, the lead marks and the notice log,
said from the claim lists before and after (R97 to R105); and with it what the removal of a peer (R38) and an own
CLAIM (R90, R92) do to the station. -/

namespace Sys2Proof.Machine

/-- The station z1 stands before its comparison: its comparison record is that of the lists of z0, and the outputs and
the configuration are those of z0 (R97). -/
def ComparesWith (z0 z1 : Zs32) : Prop :=
  z1.table.comparison = some (tabulate fun k => recordOf z0.me z0.table.zones[k]) ∧ z1.setup = z0.setup ∧
    z1.mixer = z0.mixer

theorem Zs32.takeComparison_comparesWith (z : Zs32) : ComparesWith z z.takeComparison := ⟨rfl, rfl, rfl⟩

/-- New tables keep the comparison record, the outputs and the configuration. -/
theorem ComparesWith.setTables {z0 z1 : Zs32} (h : ComparesWith z0 z1) (channels : Vector ChannelRec 16)
    (zones : Vector (List Claim) 32) : ComparesWith z0 (z1.setTables channels zones) := h

theorem ComparesWith.me {z0 z1 : Zs32} (h : ComparesWith z0 z1) : z1.me = z0.me := by
  simp only [Zs32.me, h.2.1]

theorem ComparesWith.chimeMs {z0 z1 : Zs32} (h : ComparesWith z0 z1) :
    z1.chimeMs = z0.setup.elim 0 fun s => 50 * s.chime := by
  rw [Zs32.chimeMs, h.2.1]
  cases z0.setup
  · rfl
  · exact Nat.mul_comm _ _

theorem Mixer.binds_eq (m : Mixer) (k : Zone) : m.binds k = decide (∃ o : Fin 4, m.outputs[o].zone = some k) := by
  rw [Bool.eq_iff_iff]
  simp [Mixer.binds]

/-- Every output is told the changes of its zone (R98). -/
theorem Zs32.compare_outputsTold {z0 z1 : Zs32} (h : ComparesWith z0 z1) (x : CompareContext) :
    OutputsTold z0 (z1.compare x) := by
  intro o
  have hm := h.me
  have hc := h.chimeMs
  obtain ⟨hr, -, hx⟩ := h
  simp only [Zs32.compare, hr, tabulate_get, Zs32.comparedOutput, hx, hm, hc]
  split <;> simp_all [recordOf]
  all_goals rfl

/-- The lead marks after the comparison of lists whose marks are those of z0 (R102 to R105). -/
theorem Zs32.compare_leadsCompared {z0 z1 : Zs32} (h : ComparesWith z0 z1) (hl : z1.table.leads = z0.table.leads)
    (x : CompareContext) : LeadsCompared x z0 (z1.compare x) := by
  have hm := h.me
  obtain ⟨hr, -, -⟩ := h
  refine ⟨fun k => ?_, ?_⟩
  · simp only [Zs32.compare, hr, tabulate_get, hm, hl]
  · simp only [Zs32.compare, hr]

/-- The notices of the comparison of lists whose marks are those of z0 (R98 to R105). -/
theorem Zs32.compare_notices {z0 z1 : Zs32} (h : ComparesWith z0 z1) (hl : z1.table.leads = z0.table.leads)
    (x : CompareContext) :
    (z1.compare x).notices = loggedAll z1.notices (comparedNotices x z0 (z1.compare x)) := by
  have hm := h.me
  obtain ⟨hr, -, hx⟩ := h
  simp only [Zs32.compare, hr, NoticeLog.logAll, loggedAll, comparedNotices, Zs32.compareNotices, tabulate_get, hm, hl,
    hx, Mixer.binds_eq, recordOf]

/-! ### Purge and the removal of a peer (R38, R69, R96) -/

theorem ComparesWith.placeLeads {z0 z1 : Zs32} (h : ComparesWith z0 z1) (changes : Vector ZoneChange 32)
    (zones : ZoneSet) : ComparesWith z0 (z1.placeLeads changes zones) := by
  obtain ⟨a, b, c⟩ := h
  refine ⟨?_, ?_, ?_⟩ <;> unfold Zs32.placeLeads
  · exact a
  · exact b
  · exact c

theorem Zs32.placeLeads_frame (changes : Vector ZoneChange 32) (zones : ZoneSet) (z : Zs32) :
    z.placeLeads changes zones = { z with table := (z.placeLeads changes zones).table } := by
  unfold Zs32.placeLeads
  rfl

theorem ComparesWith.removeClaimsOf {z0 z1 : Zs32} (h : ComparesWith z0 z1) (x : StationNo) :
    ComparesWith z0 (z1.removeClaimsOf x) := by
  unfold Zs32.removeClaimsOf
  exact h.setTables _ _

/-- The station after several ownerships ended, and the claims of station x with them, stands before its comparison.
-/
theorem Zs32.endings_comparesWith (x : StationNo) (z : Zs32) (l : List Channel) :
    let u := (l.foldl (fun z c => z.endOwnership c) z.takeComparison).removeClaimsOf x
    ComparesWith z u ∧ u.table.leads = z.table.leads ∧ u.notices = z.notices ∧
      u.table.digest = digestOf u.table.channels u.table.zones := by
  have frame := Zs32.foldl_endOwnership_frame l z.takeComparison
  have leads := Zs32.foldl_endOwnership_leads l z.takeComparison
  generalize l.foldl (fun z c => z.endOwnership c) z.takeComparison = w at frame leads
  have e1 : w.setup = z.setup := by have h := congrArg Zs32.setup frame; exact h
  have e2 : w.mixer = z.mixer := by have h := congrArg Zs32.mixer frame; exact h
  have e3 : w.notices = z.notices := by have h := congrArg Zs32.notices frame; exact h
  have e4 : w.table.leads = z.table.leads := leads.1
  have cw : ComparesWith z w := ⟨leads.2, e1, e2⟩
  refine ⟨cw.removeClaimsOf x, ?_, ?_, ?_⟩
  · rw [← e4]; simp only [Zs32.removeClaimsOf, Zs32.setTables_table_leads]
  · rw [← e3]; simp only [Zs32.removeClaimsOf_notices]
  · simp only [Zs32.removeClaimsOf, Zs32.setTables_digest, Zs32.setTables_channels, Zs32.setTables_zones]

/-- Everything a removal does to the tables, the outputs and the notices (R38, R69, R96 to R105). -/
theorem Zs32.removeEntry_purgedAndLost (x : StationNo) (reason : LostReason) (z : Zs32) :
    PurgedAndLost z (z.removeEntry x reason) x reason (z.removeEntry x reason).notices := by
  have before := z.endings_comparesWith x (z.takeComparison.channelsOf x)
  have e : z.purge x = ((((z.takeComparison.channelsOf x).foldl (fun z c => z.endOwnership c)
    z.takeComparison).removeClaimsOf x)).compare (CompareContext.plain .purged) := rfl
  have hch := z.purge_channel x
  have hzo := z.purge_zone x
  generalize ((z.takeComparison.channelsOf x).foldl (fun z c => z.endOwnership c)
    z.takeComparison).removeClaimsOf x = u at before e
  obtain ⟨hu, hl, hn, hd⟩ := before
  have told := Zs32.compare_outputsTold hu (CompareContext.plain .purged)
  have leads := Zs32.compare_leadsCompared hu hl (CompareContext.plain .purged)
  have notices := Zs32.compare_notices hu hl (CompareContext.plain .purged)
  have frame := u.compare_frame (CompareContext.plain .purged)
  rw [← e] at told leads notices frame
  rw [Zs32.removeEntry_eq]
  generalize z.purge x = p at hch hzo told leads notices frame
  refine ⟨⟨hch, hzo⟩, ?_, ⟨told, leads⟩, ?_⟩
  · change p.table.digest = digestOf p.table.channels p.table.zones
    rw [frame]; exact hd
  · change p.notices.log _ = _
    rw [notices, hn]
    rfl

theorem Membership.without_eq (m : Membership) (x : StationNo) : m.without x =
    { m with roster := m.roster.filter fun e => e.station ≠ x
             evictHeld := m.evictHeld.filter fun y => y ≠ x
             disagreement := m.disagreement.filter fun d => d.1 ≠ x } := by
  unfold Membership.without
  congr 1
  rcases m.disagreement with _ | ⟨y, d⟩
  · rfl
  · by_cases h : y = x <;> simp [h, Option.filter]

/-- What a removal leaves alone (R38). -/
theorem Zs32.removeEntry_removed (x : StationNo) (reason : LostReason) (z : Zs32) : z.removeEntry x reason =
    { z with memb := z.memb.without x, table := (z.removeEntry x reason).table
             mixer := (z.removeEntry x reason).mixer, notices := (z.removeEntry x reason).notices } := by
  have frame := z.purge_frame x
  rw [Membership.without_eq, Zs32.removeEntry_eq]
  generalize z.purge x = p at frame
  rw [frame]
  rfl

/-! ### A CLAIM that is taken (R90 to R93) -/

theorem zonesWhere_getLsbD (p : Zone → Bool) (k : Zone) : (zonesWhere p).getLsbD k.val = p k := by
  have one : ∀ j : Zone, (1 <<< j.val : ZoneSet).getLsbD k.val = decide (k = j) := by
    intro j
    revert j k; decide +kernel
  have step : ∀ (l : List Zone) (acc : ZoneSet),
      (l.foldl (fun (acc : ZoneSet) (k : Zone) => if p k then acc ||| (1 <<< k.val) else acc) acc).getLsbD k.val =
        (acc.getLsbD k.val || (decide (k ∈ l) && p k)) := by
    intro l
    induction l with
    | nil => intro acc; simp
    | cons j l ih =>
      intro acc
      rw [List.foldl_cons, ih]
      by_cases h : k = j
      · subst h
        cases hp : p k
        · simp
        · simp only [if_true, BitVec.getLsbD_or, one]; simp
      · cases hp : p j
        · simp [h]
        · simp only [if_true, BitVec.getLsbD_or, one, h]; simp [h]
  rw [zonesWhere, step]
  simp

theorem leadAfter_same (x : CompareContext) (k : Zone) (r : ZoneRecord) (m : Bool) : leadAfter x k r r m = m := by
  unfold leadAfter
  split
  · rfl
  · rcases r.own with _ | ⟨i, cl⟩
    · rfl
    · cases m <;> simp

theorem leadNotice_same (x : CompareContext) (k : Zone) (r : ZoneRecord) (m : Bool) : leadNotice x k r r m = [] := by
  unfold leadNotice
  split
  · rfl
  · rcases r.own with _ | ⟨i, cl⟩
    · rfl
    · by_cases h : i = 0 <;> simp [h]

/-- The station before the comparison of an own CLAIM: the lists and the lead marks by the outcomes (R90, R102). -/
def Zs32.ownClaimed (cl : Claim) (zones : ZoneSet) (z : Zs32) : Zs32 :=
  (z.takeComparison.setTables z.table.channels (tabulate fun k => (z.claimChanges cl zones)[k].list)).placeLeads
    (z.claimChanges cl zones) zones

/-- The context of that comparison (R99, R102). -/
def Zs32.ownClaimContext (cl : Claim) (zones : ZoneSet) (z : Zs32) : CompareContext :=
  { cause := .claimed, displaced := zonesWhere fun k => (z.claimChanges cl zones)[k].displaced,
    placed := zones, by_ := some cl }

theorem Zs32.applyClaims_own (cl : Claim) (zones : ZoneSet) (z : Zs32) : z.applyClaims cl zones true =
    (z.ownClaimed cl zones).compare (z.ownClaimContext cl zones) := rfl

theorem Zs32.ownClaimed_comparesWith (cl : Claim) (zones : ZoneSet) (z : Zs32) :
    ComparesWith z (z.ownClaimed cl zones) := by
  unfold Zs32.ownClaimed
  exact (z.takeComparison_comparesWith.setTables _ _).placeLeads _ _

theorem Zs32.ownClaimed_frame (cl : Claim) (zones : ZoneSet) (z : Zs32) :
    ∃ t : ClaimTable, z.ownClaimed cl zones = { z with table := t } := by
  refine ⟨(z.ownClaimed cl zones).table, ?_⟩
  unfold Zs32.ownClaimed
  rw [Zs32.placeLeads_frame]
  generalize (Zs32.placeLeads _ _ (z.takeComparison.setTables _ _)).table = t
  simp only [Zs32.setTables, Zs32.takeComparison]

theorem Zs32.ownClaimed_channels (cl : Claim) (zones : ZoneSet) (z : Zs32) :
    (z.ownClaimed cl zones).table.channels = z.table.channels := by
  simp only [Zs32.ownClaimed, Zs32.placeLeads, Zs32.setTables_channels]

theorem Zs32.ownClaimed_digest (cl : Claim) (zones : ZoneSet) (z : Zs32) : (z.ownClaimed cl zones).table.digest =
    digestOf (z.ownClaimed cl zones).table.channels (z.ownClaimed cl zones).table.zones := by
  simp only [Zs32.ownClaimed, Zs32.placeLeads, Zs32.setTables_digest, Zs32.setTables_channels, Zs32.setTables_zones]

theorem Zs32.ownClaimed_zone (cl : Claim) (zones : ZoneSet) (z : Zs32) (k : Zone) :
    (z.ownClaimed cl zones).table.zones[k] =
      if zones.getLsbD k.val then (applyClaim cl z.table.zones[k]).list else z.table.zones[k] := by
  simp only [Zs32.ownClaimed, Zs32.placeLeads, Zs32.setTables_zones, tabulate_get, Zs32.claimChanges]
  split <;> rfl

theorem Zs32.ownClaimed_lead (cl : Claim) (zones : ZoneSet) (z : Zs32) (k : Zone) :
    (z.ownClaimed cl zones).table.leads[k] =
      if zones.getLsbD k.val then (applyClaim cl z.table.zones[k]).outcome.leadMark z.table.leads[k]
      else z.table.leads[k] := by
  simp only [Zs32.ownClaimed, Zs32.placeLeads, Zs32.setTables_table_leads, tabulate_get, Zs32.claimChanges]
  split <;> rfl

theorem Zs32.ownClaimContext_eq (cl : Claim) (zones : ZoneSet) (z : Zs32) : ∃ displaced : ZoneSet,
    z.ownClaimContext cl zones =
        { cause := .claimed, displaced := displaced, placed := zones, by_ := some cl } ∧
      ∀ k : Zone, displaced.getLsbD k.val = (zones.getLsbD k.val && (applyClaim cl z.table.zones[k]).displaced) := by
  refine ⟨_, rfl, fun k => ?_⟩
  simp only [zonesWhere_getLsbD, Zs32.claimChanges, tabulate_get]
  by_cases h : zones.getLsbD k.val = true
  · rw [if_pos h, h, Bool.true_and]
  · rw [if_neg h, Bool.eq_false_iff.mpr h, Bool.false_and]

/-- Where the comparison of an own CLAIM finds a changed list it logs no lead-mark notice and leaves the mark (R102).
-/
theorem Zs32.ownClaimed_standing (cl : Claim) (zones : ZoneSet) (z : Zs32) (k : Zone) (mark : Bool) :
    let x := z.ownClaimContext cl zones
    let was := recordOf z.me z.table.zones[k]
    let now := recordOf z.me (z.ownClaimed cl zones).table.zones[k]
    leadAfter x k was now mark = mark ∧ leadNotice x k was now mark = [] := by
  intro x was now
  by_cases hk : zones.getLsbD k.val = true
  · have hp : x.placed.getLsbD k.val = true := hk
    constructor
    · rw [leadAfter, if_pos hp]
    · rw [leadNotice, if_pos hp]
  · have same : now = was := by
      simp only [now, was, Zs32.ownClaimed_zone, hk, Bool.false_eq_true, if_false]
    rw [same]
    exact ⟨leadAfter_same .., leadNotice_same ..⟩

theorem Zs32.applyClaims_own_lead (cl : Claim) (zones : ZoneSet) (z : Zs32) (k : Zone) :
    (z.applyClaims cl zones true).table.leads[k] = (z.ownClaimed cl zones).table.leads[k] := by
  have cw := z.ownClaimed_comparesWith cl zones
  have st := z.ownClaimed_standing cl zones k
  rw [Zs32.applyClaims_own]
  generalize z.ownClaimed cl zones = u at *
  simp only [Zs32.compare, cw.1, tabulate_get, cw.me]
  exact (st _).1

theorem Zs32.applyClaims_own_notices (cl : Claim) (zones : ZoneSet) (z : Zs32) :
    (z.applyClaims cl zones true).notices = loggedAll z.notices
      (comparedNotices (z.ownClaimContext cl zones) z (z.applyClaims cl zones true)) := by
  have cw := z.ownClaimed_comparesWith cl zones
  have st := fun k => z.ownClaimed_standing cl zones k
  have hn : (z.ownClaimed cl zones).notices = z.notices := by
    obtain ⟨t, h⟩ := z.ownClaimed_frame cl zones
    rw [h]
  rw [Zs32.applyClaims_own]
  generalize z.ownClaimed cl zones = u at *
  simp only [Zs32.compare, cw.1, NoticeLog.logAll, loggedAll, comparedNotices, Zs32.compareNotices, tabulate_get,
    cw.me, cw.2.2, Mixer.binds_eq, hn, (st _ _).2, List.append_nil]
  rfl

/-- An own CLAIM changes nothing but the tables, the outputs and the notices (R90, R97). -/
theorem Zs32.applyClaims_own_frame (cl : Claim) (zones : ZoneSet) (z : Zs32) : z.applyClaims cl zones true =
    { z with
      table := (z.applyClaims cl zones true).table, mixer := (z.applyClaims cl zones true).mixer
      notices := (z.applyClaims cl zones true).notices } := by
  have frame := (z.ownClaimed cl zones).compare_frame (z.ownClaimContext cl zones)
  obtain ⟨t, uframe⟩ := z.ownClaimed_frame cl zones
  rw [← Zs32.applyClaims_own] at frame
  generalize z.applyClaims cl zones true = w at *
  rw [uframe] at frame
  rw [frame]

/-- An own CLAIM that is taken (R90, R92, R102). -/
theorem Zs32.applyClaims_ownClaimTaken (cl : Claim) (zones : ZoneSet) (z : Zs32) (p : Port) :
    OwnClaimTaken z { (z.applyClaims cl zones true).finishFrame with port := p } cl zones z.line.inq.tail := by
  have lead := z.applyClaims_own_lead cl zones
  have notices := z.applyClaims_own_notices cl zones
  have told := Zs32.compare_outputsTold (z.ownClaimed_comparesWith cl zones) (z.ownClaimContext cl zones)
  have frame := (z.ownClaimed cl zones).compare_frame (z.ownClaimContext cl zones)
  have ulead := z.ownClaimed_lead cl zones
  have uzone := z.ownClaimed_zone cl zones
  have uchan := z.ownClaimed_channels cl zones
  have udig := z.ownClaimed_digest cl zones
  have fr := z.applyClaims_own_frame cl zones
  obtain ⟨displaced, ctx, disp⟩ := z.ownClaimContext_eq cl zones
  rw [← Zs32.applyClaims_own] at told frame
  rw [ctx] at notices
  generalize z.ownClaimed cl zones = u at *
  clear ctx
  generalize z.applyClaims cl zones true = w at *
  have chan : w.table.channels = z.table.channels := by rw [frame]; exact uchan
  have zon : w.table.zones = u.table.zones := by rw [frame]
  have dg : w.table.digest = digestOf w.table.channels w.table.zones := by
    rw [show w.table.digest = u.table.digest by rw [frame], udig, zon, chan, uchan]
  have cp : w.table.comparison = none := by rw [frame]
  refine ⟨?_, chan, fun k hk => ⟨?_, ?_⟩, fun k hk => ⟨?_, ?_⟩, dg, cp, told, displaced, disp, notices⟩
  · rw [fr]; rfl
  · exact (congrArg (·[k]) zon).trans ((uzone k).trans (by rw [if_neg (Bool.eq_false_iff.mp hk)]))
  · exact (lead k).trans ((ulead k).trans (by rw [if_neg (Bool.eq_false_iff.mp hk)]))
  · exact (congrArg (·[k]) zon).trans ((uzone k).trans (by rw [if_pos hk]))
  · refine (lead k).trans ((ulead k).trans ?_)
    rw [if_pos hk]
    cases (applyClaim cl z.table.zones[k]).outcome <;> rfl

end Sys2Proof.Machine
end

