-- ==== Sys2Proof/Laws/Fail.lean ====
section
/-! SUPPORT. What the eighth failed attempt does where any of the eight was vetoed (R28, R180, R181, R140). -/

namespace Sys2Proof.Machine

/-- The removal of the frame, before the freed slot is granted (R28, R48, R51, R81). -/
theorem Zs32.withoutFailedHead_eq (z : Zs32) (a : Attempt) :
    z.endSlots.dropHead.removedEffect a.frame.body a.origin = z.withoutFailedHead a := by
  obtain ⟨⟨cls, sender, body⟩, origin, stage, dropped⟩ := a
  cases body with
  | close c auto =>
    cases origin with
    | source i => cases i <;> rfl
    | host => rfl
    | membership => rfl
  | _ => rfl

theorem Zs32.withoutFailedHead_gone (z : Zs32) (a : Attempt) :
    FailedHeadGone z (z.withoutFailedHead a).grants a :=
  ⟨(z.withoutFailedHead a).grants_frame, (z.withoutFailedHead a).grants_grantedTo⟩

/-- The end of the veto slot of an eighth attempt that fails, with a veto in any of the eight: the frame leaves, the
slot is granted, and the line fault follows (R28, R180). -/
theorem Zs32.ownSlotEnd_lineFault {z : Zs32} {a : Attempt} {heard veto : Bool} (kept : a.dropped = false)
    (seven : z.line.fails = 7)
    (fault : veto = true ∨ (z.line.vetoSeen = true ∧ heard = false ∧ z.memb.roster ≠ [])) :
    z.ownSlotEnd a heard veto = if a.origin = .host then (z.withoutFailedHead a).grants.hostLineFault a.frame.body
      else (z.withoutFailedHead a).grants.ownLineFault a.frame.body a.origin := by
  have failed : (!veto && (heard || z.endSlots.memb.roster.isEmpty)) = false := by
    rcases fault with h | ⟨-, hh, hr⟩
    · simp [h]
    · have : z.endSlots.memb.roster.isEmpty = false := by
        change z.memb.roster.isEmpty = false
        simpa using hr
      rw [hh, this, Bool.or_false, Bool.and_false]
  have seen : (z.endSlots.line.vetoSeen || veto) = true := by
    change (z.line.vetoSeen || veto) = true
    rcases fault with h | ⟨h, -, -⟩ <;> simp [h]
  have eighth : ¬ (z.endSlots.line.fails + 1 < attemptLimit) := by
    change ¬ (z.line.fails + 1 < attemptLimit)
    unfold attemptLimit
    omega
  simp only [Zs32.ownSlotEnd, kept, failed, Bool.false_eq_true, if_false, Zs32.failOwn, eighth,
    Zs32.eighthFailure, seen, Zs32.withoutFailedHead_eq, Zs32.decideRemoved, if_true]

/-- A line fault on the host's CLOSE: LINE_FAULT, and then the automatic CLOSE where the duration timer of the channel
has run out (R84, R140). -/
theorem Zs32.hostLineFault_close (u : Zs32) (c : Channel) (auto : Bool) :
    EndedWith u.port (u.hostLineFault (.close c auto)).port [0x10] ∧
    (∀ i, u.source.inputOf c = some i → (u.source.get i).pending = true →
      AutoCloseAsked { u with port := (u.hostLineFault (.close c auto)).port } (u.hostLineFault (.close c auto)) i c) ∧
    ((∀ i, u.source.inputOf c = some i → (u.source.get i).pending = false) →
      u.hostLineFault (.close c auto) = { u with port := (u.hostLineFault (.close c auto)).port }) := by
  have ended := Zs32.endCommand_port u (.plain .lineFault)
  have frame := Zs32.endCommand_eq (.plain .lineFault) u
  have idle := u.endCommand_idle (.plain .lineFault)
  change EndedWith u.port ((u.endCommand (.plain .lineFault)).reaskAutoClose c).port [0x10] ∧
    (∀ i, u.source.inputOf c = some i → (u.source.get i).pending = true →
      AutoCloseAsked { u with port := ((u.endCommand (.plain .lineFault)).reaskAutoClose c).port }
        ((u.endCommand (.plain .lineFault)).reaskAutoClose c) i c) ∧
    ((∀ i, u.source.inputOf c = some i → (u.source.get i).pending = false) →
      (u.endCommand (.plain .lineFault)).reaskAutoClose c =
        { u with port := ((u.endCommand (.plain .lineFault)).reaskAutoClose c).port })
  obtain ⟨ask, quiet⟩ := Zs32.reaskAutoClose_cases idle c
  have port : ((u.endCommand (.plain .lineFault)).reaskAutoClose c).port = (u.endCommand (.plain .lineFault)).port := by
    simp
  rw [port]
  refine ⟨ended, ?_, ?_⟩
  all_goals rw [← frame]
  · intro i hi hp
    exact ask i (by rw [frame]; exact hi) (by rw [frame]; exact hp)
  · intro h
    exact quiet fun i hi => by rw [frame] at hi ⊢; exact h i hi

/-- A line fault on an EVICT: the notice, and then the EVICT again while its target is silent (R51, R181). -/
theorem Zs32.ownLineFault_evict (u : Zs32) (x : StationNo) (o : Origin) :
    let v := u.log (.lineFault .evict (some x) none)
    let asks := u.memb.state = .joined ∧ u.leaving = false ∧
      (∃ r, u.entry x = some r ∧ r.silence = .expired) ∧ x ∉ u.memb.evictQueued ∧ x ∉ u.memb.evictHeld
    (asks → EvictAsked v (u.ownLineFault (.evict x) o) x) ∧ (¬ asks → u.ownLineFault (.evict x) o = v) := by
  intro v asks
  have silent : v.entry x = u.entry x := rfl
  have eq : u.ownLineFault (.evict x) o = if (u.entry x).any (·.silence = .expired) then v.askEvict x else v := rfl
  obtain ⟨ask, quiet⟩ := v.askEvict_cases x
  constructor
  · rintro ⟨h1, h2, ⟨r, hr, he⟩, h3, h4⟩
    rw [eq, hr, if_pos (by simp [he])]
    exact ask ⟨h1, h2, h3, h4⟩
  · intro h
    rw [eq]
    split
    · next he =>
      refine quiet fun ⟨h1, h2, h3, h4⟩ => h ⟨h1, h2, ?_, h3, h4⟩
      cases hr : u.entry x with
      | none => rw [hr] at he; cases he
      | some r => rw [hr] at he; exact ⟨r, rfl, by simpa using he⟩
    · rfl

/-- A line fault on an automatic CLOSE: the notice, LINE_FAULT for a merged command, and then the automatic CLOSE again
while its channel is bound (R81, R181). -/
theorem Zs32.ownLineFault_close (u : Zs32) (i : Input) (c : Channel) (auto : Bool) :
    let z' := u.ownLineFault (.close c auto) (.source i)
    let v : Zs32 := { u with
      source := u.source.set i { u.source.get i with merged := false }
      port := z'.port
      notices := u.notices.log (.lineFault .close none (some c)) }
    let asks := (u.source.get i).bound = some c ∧
      ((u.source.get i).merged = true ∨ (u.leaving = false ∧ u.hostCloseRunning c = false))
    ((u.source.get i).merged = true → EndedWith u.port z'.port [0x10]) ∧
    ((u.source.get i).merged = false → z'.port = u.port) ∧
    (asks → AutoCloseAsked v z' i c) ∧ (¬ asks → z' = v) := by
  intro z' v asks
  have zdef : z' = ((u.log (.lineFault .close none (some c))).endMerged i (.plain .lineFault)).renewAutoClose i c := rfl
  have merge : ∃ w : Zs32, w = (u.log (.lineFault .close none (some c))).endMerged i (.plain .lineFault) ∧
      w = { u with
        source := u.source.set i { u.source.get i with merged := false }
        port := w.port
        notices := u.notices.log (.lineFault .close none (some c)) } ∧
      ((u.source.get i).merged = true → EndedWith u.port w.port [0x10] ∧ w.port.cmd = none) ∧
      ((u.source.get i).merged = false → w.port = u.port) := by
    refine ⟨_, rfl, ?_⟩
    by_cases h : (u.source.get i).merged = true
    · rw [Zs32.endMerged, if_pos (show ((u.log _).source.get i).merged = true from h)]
      have ended := Zs32.endCommand_port
        ((u.log (.lineFault .close none (some c))).onInput i fun r => { r with merged := false }) (.plain .lineFault)
      refine ⟨?_, fun _ => ⟨ended, Zs32.endCommand_idle _ _⟩, fun h' => ?_⟩
      · rw [Zs32.endCommand_eq]
        cases i <;> rfl
      · rw [h] at h'; cases h'
    · rw [Zs32.endMerged, if_neg (show ¬ ((u.log _).source.get i).merged = true from h)]
      refine ⟨?_, fun h' => absurd h' h, fun _ => rfl⟩
      have same : u.source.set i { u.source.get i with merged := false } = u.source := by
        have h : (u.source.get i).merged = false := by simpa using h
        rw [← h]
        cases i <;> rfl
      rw [same]
      rfl
  obtain ⟨w, wdef, weq, yes, no⟩ := merge
  rw [← wdef] at zdef
  have bound : (w.source.get i).bound = (u.source.get i).bound := by
    rw [weq]; cases i <;> rfl
  have ask : z' = if (u.source.get i).bound = some c then w.askAutoClose i else w := by
    rw [zdef, Zs32.renewAutoClose, bound]
  have port : z'.port = w.port := by rw [ask]; split <;> simp
  have veq : v = w := by rw [weq]; simp only [v, port]
  refine ⟨fun h => port ▸ (yes h).1, fun h => port.trans (no h), ?_, ?_⟩
  · rintro ⟨hb, hf⟩
    have chan : (w.source.get i).channel = some c := by rw [InputRec.channel, bound, hb]; rfl
    rw [veq, ask, if_pos hb]
    by_cases h : (u.source.get i).merged = true
    · exact Zs32.askAutoClose_asked chan (Zs32.leaving_of_idle (yes h).2) (Zs32.hostCloseRunning_of_idle (yes h).2 c)
    · have h' : (u.source.get i).merged = false := by simpa using h
      obtain ⟨hl, hc⟩ := hf.resolve_left h
      exact Zs32.askAutoClose_asked chan (by rw [Zs32.leaving, no h']; exact hl)
        (by rw [Zs32.hostCloseRunning, no h']; exact hc)
  · intro hn
    rw [veq, ask]
    split
    · next hb =>
      have chan : (w.source.get i).channel = some c := by rw [InputRec.channel, bound, hb]; rfl
      have h : (u.source.get i).merged = false := by
        cases h : (u.source.get i).merged
        · rfl
        · exact absurd ⟨hb, .inl h⟩ hn
      have back : (w.leaving || w.hostCloseRunning c) = true := by
        rw [Zs32.leaving, Zs32.hostCloseRunning, no h]
        change (u.leaving || u.hostCloseRunning c) = true
        by_contra hc
        rw [Bool.not_eq_true, Bool.or_eq_false_iff] at hc
        exact hn ⟨hb, .inr hc⟩
      simp only [Zs32.askAutoClose, chan, back, if_true]
    · rfl

end Sys2Proof.Machine
end

