-- ==== Sys2Proof/Laws/Port.lean ====
section
/-! SUPPORT. One event on a station that is awake or held, values as bytes, and the writing of a whole command from
READY. -/

namespace Sys2Proof.Machine

/-! ### One event -/

/-- While pin reset does not hold the station, an event acts on it (R200). -/
theorem State.run_awake {s : State} (h : s.Awake) (f : Zs32 → Zs32) : s.run f = .next { s with zs := f s.zs } := by
  unfold State.Awake at h
  simp [State.run, State.act, h]

/-- While pin reset holds the station, an event leaves it alone (R200). -/
theorem State.run_held {s : State} (h : s.zs.rst.held = true) (f : Zs32 → Zs32) : s.run f = .next s := by
  simp [State.run, State.act, h]

/-! ### Values as bytes -/

/-- The two bytes of a 16-bit value give it back (chapter 10). -/
theorem word16_bytes (w : BitVec 16) : word16 ((w >>> 8).setWidth 8) (w.setWidth 8) = w := by
  apply BitVec.eq_of_getLsbD_eq
  intro i hi
  simp only [word16, BitVec.getLsbD_append, BitVec.getLsbD_setWidth, BitVec.getLsbD_ushiftRight]
  by_cases h : i < 8
  · simp [h]
  · have h1 : i - 8 < 8 := by omega
    have h2 : 8 + (i - 8) = i := by omega
    simp [h, h1, h2]

/-- The four bytes of a 32-bit value give it back (chapter 10). -/
theorem word32_bytes (w : BitVec 32) :
    word32 ((w >>> 24).setWidth 8) ((w >>> 16).setWidth 8) ((w >>> 8).setWidth 8) (w.setWidth 8) = w := by
  apply BitVec.eq_of_getLsbD_eq
  intro i hi
  simp only [word32, BitVec.getLsbD_append, BitVec.getLsbD_setWidth, BitVec.getLsbD_ushiftRight]
  by_cases h : i < 8
  · simp [h]
  · by_cases h' : i < 16
    · have h1 : i - 8 < 8 := by omega
      have h2 : 8 + (i - 8) = i := by omega
      simp [h, h1, h2]
    · by_cases h'' : i < 24
      · have h0 : ¬ i - 8 < 8 := by omega
        have h1 : i - 8 - 8 < 8 := by omega
        have h2 : 16 + (i - 8 - 8) = i := by omega
        simp [h, h0, h1, h2]
      · have h0 : ¬ i - 8 < 8 := by omega
        have h0' : ¬ i - 8 - 8 < 8 := by omega
        have h1 : i - 8 - 8 - 8 < 8 := by omega
        have h2 : 24 + (i - 8 - 8 - 8) = i := by omega
        simp [h, h0, h0', h1, h2]

/-! ### Writing a whole command (R151, R153) -/

/-- The port while it holds the beginning of a command, with 0x00 shifted out. -/
def Zs32.buffering (buf : List Byte) (z : Zs32) : Zs32 :=
  { z with port := { z.port with phase := .command, cmdBuf := buf, sdo := some 0 } }

@[simp] theorem Zs32.buffering_transaction (buf : List Byte) (z : Zs32) :
    (z.buffering buf).port.transaction = z.port.transaction := rfl

@[simp] theorem Zs32.buffering_buffering (b c : List Byte) (z : Zs32) :
    (z.buffering b).buffering c = z.buffering c := rfl

/-- A byte below the last of a command goes to the buffer. -/
theorem Zs32.writtenByte_buffering {code b : Byte} {done : List Byte} {z : Zs32} (ht : z.port.transaction = .write)
    (h : done.length + 2 < commandLength code) :
    (z.buffering (code :: done)).writtenByte b = z.buffering (code :: (done ++ [b])) := by
  have hl : (done ++ [b]).length + 1 < commandLength code := by simpa using h
  have e : (z.buffering (code :: done)).takeByte b = z.buffering (code :: (done ++ [b])) := by
    simp only [Zs32.takeByte, Zs32.buffering, Zs32.buffered, if_pos hl]
  unfold Zs32.writtenByte
  rw [Zs32.buffering_transaction, ht, e]
  rfl

/-- The last byte of a command has it taken. -/
theorem Zs32.writtenByte_last {code b : Byte} {done : List Byte} {z : Zs32} (ht : z.port.transaction = .write)
    (h : commandLength code ≤ done.length + 2) : (z.buffering (code :: done)).writtenByte b =
      ((z.buffering (code :: done)).takeCommand code (done ++ [b])).shiftOut (some 0) := by
  have hl : ¬ (done ++ [b]).length + 1 < commandLength code := by simp; omega
  have e : (z.buffering (code :: done)).takeByte b =
      (z.buffering (code :: done)).takeCommand code (done ++ [b]) := by
    show (z.buffering (code :: done)).buffered code (done ++ [b]) = _
    rw [Zs32.buffered, if_neg hl]
  unfold Zs32.writtenByte
  rw [Zs32.buffering_transaction, ht, e]

/-- Parameter bytes that complete a command begun in the buffer are taken with it. -/
theorem Zs32.foldl_writtenByte (code : Byte) (ps : List Byte) : ∀ (done : List Byte) (z : Zs32),
    z.port.transaction = .write → ps ≠ [] → done.length + ps.length + 1 = commandLength code →
    ps.foldl (fun z b => z.writtenByte b) (z.buffering (code :: done)) =
      ((z.buffering (code :: (done ++ ps.dropLast))).takeCommand code (done ++ ps)).shiftOut (some 0) := by
  induction ps with
  | nil => intro _ _ _ hne; exact absurd rfl hne
  | cons b rest ih =>
    intro done z ht _ hl
    simp only [List.length_cons] at hl
    by_cases hr : rest = []
    · subst hr
      simp only [List.length_nil] at hl
      rw [List.foldl_cons, List.foldl_nil, Zs32.writtenByte_last ht (by omega)]
      simp
    · have hpos : rest.length ≠ 0 := by simpa using hr
      rw [List.foldl_cons, Zs32.writtenByte_buffering ht (by omega), ih (done ++ [b]) z ht hr (by simp; omega)]
      have h1 : (b :: rest).dropLast = b :: rest.dropLast := by cases rest <;> simp_all
      simp [h1]

/-- A whole command with parameters, written from READY in a WRITE transaction, is taken with them. -/
theorem Zs32.writeCommand_ready {code : Byte} {ps : List Byte} {z : Zs32} (ht : z.port.transaction = .write)
    (hp : z.port.phase = .ready) (hne : ps ≠ []) (hl : ps.length + 1 = commandLength code) :
    z.writeCommand (code :: ps) =
      ((z.buffering (code :: ps.dropLast)).takeCommand code ps).shiftOut (some 0) := by
  have hr : z.port.remaining (code :: ps) = code :: ps := by simp [Port.remaining, hp]
  have hpos : ps.length ≠ 0 := by simpa using hne
  have h0 : ([] : List Byte).length + 1 < commandLength code := by simp; omega
  have e0 : (z.takeByte code).shiftOut (some 0) = z.buffering [code] := by
    simp only [Zs32.takeByte, hp, Zs32.buffered, if_pos h0]
    rfl
  have e1 : z.writtenByte code = z.buffering [code] := by
    unfold Zs32.writtenByte
    rw [ht, ← e0]
  simp only [Zs32.writeCommand, ht, Zs32.writeBytes, hr, reduceCtorEq, if_false, List.foldl_cons]
  rw [e1, Zs32.foldl_writtenByte code ps [] z ht hne (by simpa using hl)]
  rfl

/-- A command of one byte, written from READY in a WRITE transaction, is taken. -/
theorem Zs32.writeCommand_one {code : Byte} {z : Zs32} (ht : z.port.transaction = .write)
    (hp : z.port.phase = .ready) (hl : commandLength code ≤ 1) :
    z.writeCommand [code] = (z.takeCommand code []).shiftOut (some 0) := by
  have hr : z.port.remaining [code] = [code] := by simp [Port.remaining, hp]
  have h0 : ¬ ([] : List Byte).length + 1 < commandLength code := by simp; omega
  simp only [Zs32.writeCommand, ht, Zs32.writeBytes, hr, reduceCtorEq, if_false, List.foldl_cons, List.foldl_nil,
    Zs32.writtenByte, Zs32.takeByte, hp, Zs32.buffered, if_neg h0]

end Sys2Proof.Machine
end

