-- ==== Sys2Proof/Tests/Slice0.lean ====
section
/-! SUPPORT. Tests: the ill-formed commands, the manual's worked examples, and for each statement with hypotheses a
concrete state and operands that meet them together. -/

namespace Sys2Proof.Tests
open Sys2Proof Sys2Proof.Machine

/-! ### Commands that cannot come from outside -/

theorem test_illFormed_invalid : Instr.wellFormed (.invalid 0x22) = false ∧ Instr.wellFormed (.invalid 0x24) = true := by
  decide
theorem test_illFormed_frameReceived : Instr.wellFormed (.frameReceived (List.replicate 88 true)) = false ∧
    Instr.wellFormed (.frameReceived (List.replicate 89 true)) = true := by decide
theorem test_illFormed_silenceTimerExpiry : Instr.wellFormed (.silenceTimerExpiry 0) = false := by decide
theorem test_illFormed_arbitrationEnd : Instr.wellFormed (.arbitrationEnd [69, 64]) = false ∧
    Instr.wellFormed (.arbitrationEnd [1, 127]) = true := by decide
theorem test_illFormed_idleGap : Instr.wellFormed (.idleGap 0) = false := by decide
theorem test_illFormed_pinReset : Instr.wellFormed (.pinReset 0) = false := by decide

/-! ### Small states -/

/-- Station 6 with P = 100 ms and a chime of 200 ms, in a given state, with a WRITE transaction in progress. -/
def zAt (st : StationState) : Zs32 :=
  { Zs32.afterReset { held := false, settling := false } with
    setup := some { station := 6, interval := 10, chime := 4 }
    memb := Membership.clearedIn st
    line := { Line.afterReset with receiver := .gap }
    port := { Port.afterReset with transaction := .write } }

/-- A small state of station 6. -/
def sAt (st : StationState) (f : Zs32 → Zs32 := id) : State := { zs := f (zAt st), pending := [] }

def ownedBy (c : Channel) (x : StationNo) (phase : ChannelPhase) (guard : Guard) (z : Zs32) : Zs32 :=
  { z with table := { z.table with
      channels := z.table.channels.set c { owner := some x, length := none, phase := phase, guard := guard } } }

def inPhase (c : Channel) (phase : ChannelPhase) (guard : Guard) (z : Zs32) : Zs32 :=
  { z with table := { z.table with
      channels := z.table.channels.set c { owner := none, length := none, phase := phase, guard := guard } } }

def withZone (k : Zone) (l : List Claim) (z : Zs32) : Zs32 :=
  { z with table := { z.table with zones := z.table.zones.set k l } }

def peer (x : StationNo) (silence : ExpiringTimer) : RosterEntry :=
  { station := x, interval := none, silence := silence, digest := none }

def withRoster (l : List RosterEntry) (z : Zs32) : Zs32 := { z with memb := { z.memb with roster := l } }

def withInq (l : List InFrame) (z : Zs32) : Zs32 := { z with line := { z.line with inq := l } }

def withOutq (l : List OutEntry) (z : Zs32) : Zs32 := { z with line := { z.line with outq := l } }

def withCmd (c : LineCommand) (st : Stage) (z : Zs32) : Zs32 :=
  { z with port := { z.port with
      phase := .executing, cmd := some { command := c, stage := st, heldAbort := false } } }

def withAttempt (b : FrameBody) (o : Origin) (st : AttemptStage) (z : Zs32) : Zs32 :=
  { z with line := { z.line with
      attempt := some { frame := { cls := 3, sender := 6, body := b }, origin := o, stage := st, dropped := false }
      receiver := match st with
        | .slots => .slots
        | _ => .frame } }

def droppedAttempt (z : Zs32) : Zs32 :=
  { z with line := { z.line with attempt := z.line.attempt.map fun a => { a with dropped := true } } }

def withFails (n : Nat) (seen : Bool) (z : Zs32) : Zs32 :=
  { z with line := { z.line with fails := n, vetoSeen := seen } }

def withReception (r : Reception) (vetoes : Nat) (z : Zs32) : Zs32 :=
  { z with line := { z.line with reception := some r, receiver := .slots, vetoCount := vetoes } }

def fromPeer (x : StationNo) (b : FrameBody) : InFrame := { frame := { cls := 3, sender := x, body := b }, mark := none }

def ownFrame (o : Origin) (b : FrameBody) : InFrame := { frame := { cls := 3, sender := 6, body := b }, mark := some o }

def host (p : Placed) : OutEntry := entryOf p .host 0

def claim (x : StationNo) (c : Channel) (p : Priority) : Claim :=
  { station := x, channel := c, priority := p, duck := 6, chime := false }

def idleWith (l : List OutEntry) (z : Zs32) : Zs32 := { z with line := { z.line with outq := l, receiver := .idle } }

def inputA (r : InputRec) (z : Zs32) : Zs32 := { z with source := { z.source with inA := r } }

def pendingOn (c : Channel) : InputRec :=
  { InputRec.cleared with bound := some c, timer := .expired, pending := true, request := .queued }

def boundTo (c : Channel) : InputRec := { InputRec.cleared with bound := some c, timer := .running 3 }

/-- What an outcome leaves of the station, for the tests. -/
def after (o : Host.Outcome State Fault Refusal) : Option Zs32 :=
  match o with
  | .next t => some t.zs
  | _ => none

/-! ### The manual's examples -/

/-- 8.7: the digest of channel 0 of station 14 with one claim of priority 3 in zone 2 is 4664. -/
theorem test_digest_of_station_14 : (digestOf
      ((Vector.replicate 16 ChannelRec.cleared).set 0
        { owner := some 14, length := none, phase := .live, guard := .stopped })
      ((Vector.replicate 32 []).set 2
        [{ station := 14, channel := 0, priority := 3, duck := 0, chime := false }])).toNat = 4664 := by decide

/-- 10.5: the arbitration field of station 6's CLAIM is 10 00110 and its kind 00111. -/
theorem test_claim_frame_head : ({ cls := 1, sender := 6, body := .claim 3 4 6 false 0x3C00 false } : Frame).encode.take 13 =
    [true, false, false, false, true, true, false, false, false, false, true, true, true] := by decide

/-- 10.5: the field area of that CLAIM. -/
theorem test_claim_frame_fields :
    ({ cls := 1, sender := 6, body := .claim 3 4 6 false 0x3C00 false } : Frame).head64.drop 12 =
      [false, false, false, true, true] ++ [true, false, false] ++ [false, false, true, true, false] ++
        [false, false] ++ List.replicate 18 false ++ [true, true, true, true] ++ List.replicate 15 false := by
  decide

/-- That frame is read back from the line. -/
theorem test_claim_frame_read_back :
    decodeFrame ({ cls := 1, sender := 6, body := .claim 3 4 6 false 0x3C00 false } : Frame).encode =
      some { cls := 1, sender := 6, body := .claim 3 4 6 false 0x3C00 false } := by decide +kernel

/-- One flipped bit fails the check. -/
theorem test_flipped_bit_fails :
    decodeFrame ((({ cls := 3, sender := 6, body := .hello } : Frame).encode).set 20 true) = none := by decide +kernel

/-- 9.3: the lists of zones 11 to 13 at station 6. -/
def zone11 : List Claim := [claim 15 13 7, claim 2 9 6, claim 9 11 6, claim 11 12 5, claim 6 3 2, claim 1 8 1]
def zone12 : List Claim := [claim 15 13 6, claim 2 9 5, claim 9 11 5, claim 11 12 5, claim 1 8 4, claim 3 10 4]
def zone13 : List Claim := [claim 2 9 3, claim 9 11 3, claim 11 12 2, claim 15 13 2, claim 1 8 1, claim 20 14 1]

/-- 9.3: the outcomes in the four zones, and zone 13 after the displacement. -/
theorem test_claim_in_four_zones :
    (applyClaim (claim 6 3 4) [claim 6 3 4]).outcome = .unchanged ∧
    (applyClaim (claim 6 3 4) zone11).outcome = .replaced ∧
    (applyClaim (claim 6 3 4) zone12).outcome = .full ∧
    applyClaim (claim 6 3 4) zone13 = { list := claim 6 3 4 :: zone13.take 5, outcome := .lead, displaced := true } := by
  decide

/-- Station 6 before the CLAIM of 9.3. -/
def beforeClaim : State := sAt .joined fun z =>
  withCmd (.claim 3 4 6 false 0x3C00) .inbound (withInq [ownFrame .host (.claim 3 4 6 false 0x3C00 false)]
    (withZone 10 [claim 6 3 4] (withZone 11 zone11 (withZone 12 zone12 (withZone 13 zone13
      (ownedBy 3 6 .live .stopped z))))))

/-- 10.5: the ten result bytes of that CLAIM. -/
theorem test_claim_result :
    (after (exec .claimFrame beforeClaim)).map (·.port.resBuf) = some [0x00, 4, 10, 4, 11, 3, 12, 5, 13, 1] := by
  decide

/-- R166: zones 0 to 31 with step 2 give 16 zones examined, zones 1 to 30 give 15. -/
theorem test_probe_counts :
    (after (exec (.probeZones 2 1 0 31 2) (sAt .joined))).map (·.port.resBuf) = some [0x00, 0xFF, 16] ∧
    (after (exec (.probeZones 2 1 1 30 2) (sAt .joined))).map (·.port.resBuf) = some [0x00, 0xFF, 15] := by
  decide

/-- A command row on a deselected port is a WRITE transaction of its own (log entry 5). -/
theorem test_command_outside_a_transaction :
    (after (exec .joinCmd (sAt .offline fun z => { z with port := Port.afterReset }))).map
      (fun z => (z.port.phase, z.port.transaction, z.memb.state)) =
        some (.executing, .idle, .listening) := by decide

/-- The same command as single bytes in a transaction. -/
theorem test_zone_status_by_bytes :
    (after (exec (.writtenByte 4) (sAt .offline fun z =>
      { z with port := { z.port with phase := .command, cmdBuf := [0x41] } }))).map (·.port.resBuf) =
    (after (exec (.zoneStatus 4) (sAt .offline))).map (·.port.resBuf) := by decide

/-- No word spells a command (log entry 2). -/
theorem test_no_table_word : decodeTableWord 8 0x10 = none ∧ State.reset.withFetchWord 8 0x10 = State.reset :=
  ⟨rfl, rfl⟩

/-! ### The hypotheses of the statements can be met -/

def held : State := { zs := Zs32.afterReset { held := true, settling := false }, pending := [] }

def portIn (phase : PortPhase) (cmdBuf resBuf : List Byte) (readPos : Nat) (z : Zs32) : Zs32 :=
  { z with port := { z.port with phase := phase, cmdBuf := cmdBuf, resBuf := resBuf, readPos := readPos } }

def reading (z : Zs32) : Zs32 := { z with port := { z.port with transaction := .read } }

def withOutputs (o : OutputRec) (z : Zs32) : Zs32 := { z with mixer := { outputs := Vector.replicate 4 o } }

def entries (n : Nat) : List OutEntry := List.replicate n (host .hello)

theorem test_hyp_EmptyQueueTicksOneMillisecond : State.reset.pending = [] ∧ State.reset.Awake ∧ held.pending = [] ∧
    held.zs.rst.held = true := by decide

theorem test_hyp_PinResetHoldsUntilRelease : 1000 ≤ 1000 ∧ 999 < 1000 ∧ held.zs.rst.held = true ∧ State.reset.Awake ∧
    Instr.sense ≠ .resetRelease ∧ Instr.sense ≠ .transactionEnd := by decide

/-- A transaction whose header is cut off part way clears the flag its status byte reports, and leaves the rest (log
entry 33). -/
theorem test_cut_off_header :
    let s := sAt .offline fun z => { z with port := { z.port with transaction := .idle, refused := true } }
    (after (exec (.transactionBegin 0x50 false) s)).bind
        (fun z => after (exec .transactionEnd { zs := z, pending := [] })) =
      some { s.zs with port := { s.zs.port with refused := false } } := by decide

theorem test_hyp_TransactionsBeginWithTheStatusByte :
    (sAt .joined).Awake ∧ (sAt .joined).zs.rst.settling = false ∧ State.reset.Awake ∧
      State.reset.zs.rst.settling = true := by decide

theorem test_hyp_BytesByPortPhase :
    ((sAt .joined).zs.port.transaction = .write ∧ (sAt .joined).zs.port.phase = .ready ∧ 1 < commandLength 0x41) ∧
    ((sAt .joined (portIn .command [0x20, 3, 0] [] 0)).zs.port.cmdBuf = 0x20 :: [3, 0] ∧
      ([3, 0] : List Byte).length + 2 < commandLength 0x20) ∧
    (sAt .joined (withCmd .leave .queued)).zs.port.phase = .executing ∧ (0x7E : Byte) ≠ 0x7F ∧
    ((sAt .joined fun z => reading (portIn .result [] [1, 2] 0 z)).zs.port.resBuf[0]? = some 1 ∧ 0 + 1 < 2) ∧
    ((sAt .joined fun z => reading (portIn .result [] [1, 2] 1 z)).zs.port.resBuf[1]? = some 2 ∧ 1 + 1 = 2) ∧
    (sAt .joined reading).zs.port.phase ≠ .result := by decide

theorem test_hyp_InterruptFollowsResultAndLog :
    let s := sAt .joined fun z => reading (portIn .result [] [1, 2] 0 z)
    s.Awake ∧ s.zs.port.transaction = .read ∧ s.zs.port.phase = .result ∧
      s.zs.port.resBuf[s.zs.port.readPos]? = some 1 ∧ (after (exec .readByte s)).isSome := by decide

theorem test_hyp_JoinIsTakenOffLine :
    (∀ st ∈ [StationState.offline, .unconfigured, .listening, .joined, .clashed],
      (sAt st).CanWrite ∧ (sAt st).zs.memb.state = st) := by decide

theorem test_hyp_LeaveEmptiesTheQueueAndPlacesBye :
    (sAt .listening).CanWrite ∧ (sAt .listening).zs.onLine = true ∧ (sAt .clashed).CanWrite ∧
      (sAt .clashed).zs.onLine = false := by decide

theorem test_hyp_OpenChecksThenPlacesItsFrame :
    (¬ ((16 : Byte).toNat < 16 ∨ (16 : Byte) = 0xFF) ∧ 1 < (2 : Byte).toNat) ∧
    ((sAt .listening).CanWrite ∧ (sAt .listening).zs.memb.state ≠ .joined) ∧
    (let s := sAt .joined (inputA (boundTo 15))
     s.CanWrite ∧ s.zs.memb.state = .joined ∧ (s.zs.source.get .a).bound ≠ none) ∧
    (∀ n ∈ [7, 8], (sAt .joined (withOutq (entries n))).CanWrite ∧
      ((sAt .joined (withOutq (entries n))).zs.source.get .b).bound = none ∧
      ((sAt .joined (withOutq (entries n))).zs.source.get .b).starting = none ∧
      (sAt .joined (withOutq (entries n))).zs.line.outq.length = n) := by decide

theorem test_hyp_CloseMergesOrPlacesItsFrame :
    16 ≤ (16 : Byte).toNat ∧ (sAt .offline).zs.memb.state ≠ .joined ∧
    (sAt .joined).zs.table.channels[(15 : Channel)].owner ≠ some (sAt .joined).zs.me ∧
    (let s := sAt .joined fun z => ownedBy 15 6 .live .stopped (inputA (pendingOn 15) z)
     s.CanWrite ∧ s.zs.table.channels[(15 : Channel)].owner = some s.zs.me ∧ s.zs.source.inputOf 15 = some .a ∧
      (s.zs.source.get .a).pending = true) ∧
    (∀ n ∈ [7, 8],
      let s := sAt .joined fun z => ownedBy 0 6 .live .stopped (inputA (boundTo 0) (withOutq (entries n) z))
      s.CanWrite ∧ s.zs.table.channels[(0 : Channel)].owner = some s.zs.me ∧ s.zs.source.inputOf 0 = some .a ∧
        (s.zs.source.get .a).pending = false ∧ s.zs.line.outq.length = n) := by decide

theorem test_hyp_ClaimAndDropCheckThenPlaceTheirFrames :
    (7 < (8 : Byte).toNat ∧ 31 < (32 : Byte).toNat ∧ 1 < (2 : Byte).toNat ∧ (7 : Priority) ≠ 0 ∧
      (0x80000000 : ZoneSet) ≠ 0 ∧ 16 ≤ (16 : BitVec 32).toNat) ∧
    (sAt .listening).CanWrite ∧ (sAt .listening).zs.memb.state ≠ .joined ∧
    (sAt .joined).zs.table.channels[(0 : Channel)].owner ≠ some (sAt .joined).zs.me ∧
    (∀ n ∈ [7, 8],
      let s := sAt .joined fun z => ownedBy 0 6 .opening (.openGuard 8) (withOutq (entries n) z)
      s.CanWrite ∧ s.zs.memb.state = .joined ∧ s.zs.table.channels[(0 : Channel)].owner = some s.zs.me ∧
        s.zs.line.outq.length = n) := by decide

theorem test_hyp_AbortByStage :
    (let s := sAt .joined fun z => withCmd (.dropZones 1) .queued (withOutq [host (.dropZones 1)] z)
     s.Awake ∧ s.zs.port.transaction = .write ∧ s.zs.port.phase = .executing ∧ s.zs.hostInArbitration = false ∧
      s.zs.NothingHeld ∧ (s.zs.line.outq.filter fun x => x.origin = .host).length = 1 ∧
      (∀ c, LineCommand.dropZones 1 ≠ .close c)) ∧
    (sAt .joined fun z => withAttempt (.drop 1) .host .arbitration (withCmd (.dropZones 1) .queued z)).zs.hostInArbitration
      = true ∧
    (∀ st ∈ [Stage.sending, .inbound, .detached],
      (sAt .joined (withCmd .leave st)).zs.port.cmd = some { command := .leave, stage := st, heldAbort := false }) ∧
    (∀ c ∈ [LineCommand.join, .leave], (sAt .listening (withCmd c .queued)).zs.hostInArbitration = false) ∧
    (∀ m ∈ [true, false],
      let s := sAt .joined fun z => withCmd (.close 0) .queued (withOutq [entryOf .presence .membership 0, host (.close 0 false)]
        (inputA { boundTo 0 with timer := .expired, pending := m } z))
      s.Awake ∧ s.zs.port.transaction = .write ∧ s.zs.port.phase = .executing ∧ s.zs.hostInArbitration = false ∧
        s.zs.NothingHeld ∧ s.zs.line.outq.length ≤ 8 ∧ s.zs.source.inputOf 0 = some .a ∧
        (s.zs.source.get .a).pending = m) ∧
    (∀ i ∈ [Input.a, .b],
      let s := sAt .joined fun z => withCmd (.close 0) .merged
        { z with source := z.source.set i { pendingOn 0 with merged := true } }
      s.Awake ∧ (s.zs.source.get i).merged = true ∧ s.zs.line.attempt = none ∧ s.zs.line.inq = [] ∧
        (∀ j ∈ [Input.a, .b], j ≠ i → (s.zs.source.get j).merged = false) ∧
        (ownFrame (.source i) (.close 0 true)).mark = some (.source i)) := by decide

/-- One CLOSE of the host stands in the queue. -/
theorem test_hyp_abort_of_a_close : ([entryOf .presence .membership 0, host (.close 0 false)].filter fun x =>
    x.origin = .host).length = 1 := by decide

/-- Station 6 with its entry at the head of a queue of eight, a PRESENCE held, and the duration of channel 3 run out. -/
def fullWith (c : LineCommand) (p : Placed) (z : Zs32) : Zs32 :=
  let z := withCmd c .queued (inputA { pendingOn 3 with request := .none }
    (withOutq (host p :: List.replicate 7 (entryOf (.evict 9) .membership 0)) z))
  { z with memb := { z.memb with presenceHeld := true } }

theorem test_hyp_abort_with_requests_held :
    ∀ q ∈ [(LineCommand.dropZones 1, Placed.dropZones 1), (.close 3, .close 3 false), (.join, .hello), (.leave, .bye)],
      let s := sAt .joined (fullWith q.1 q.2)
      s.Awake ∧ s.zs.port.transaction = .write ∧ s.zs.port.phase = .executing ∧
        s.zs.port.cmd = some { command := q.1, stage := .queued, heldAbort := false } ∧ s.zs.hostInArbitration = false ∧
        (s.zs.line.outq.filter fun x => x.origin = .host).length = 1 ∧ s.zs.source.inputOf 3 = some .a ∧
        (s.zs.source.get .a).pending = true := by decide

/-- The slot that an ABORT frees goes to the held PRESENCE, and the automatic CLOSE is then held (log entry 27). -/
theorem test_abort_grants_before_the_automatic_close :
    (after (exec .abort (sAt .joined (fullWith (.close 3) (.close 3 false))))).map
      (fun z => (z.line.outq.length, z.line.outq.getLast?.map (·.placed), z.source.inA.request, z.port.resBuf)) =
        some (8, some .presence, .held, [0x14]) := by decide

theorem test_hyp_ConfigureOffTheLine :
    (sAt .unconfigured).CanWrite ∧ (sAt .unconfigured).zs.onLine = false ∧ (sAt .joined).CanWrite ∧
      (sAt .joined).zs.onLine = true ∧ 31 < (32 : Byte).toNat ∧ 100 < (101 : Byte).toNat ∧ 40 < (41 : Byte).toNat ∧
      (0xFE : Byte) ≠ 0xFF ∧ (31 : StationNo) ≠ 0 ∧ (100 : Interval) ≠ 0 ∧ (100 : Interval).val ≤ 100 := by decide

theorem test_hyp_QueriesReportTheState : (sAt .joined).CanWrite ∧ (sAt .unconfigured).CanWrite ∧
    31 < (32 : Byte).toNat ∧ ([] : List (Fin 4)).Pairwise (· < ·) ∧
      (∀ o : Fin 4, (sAt .joined).zs.mixer.outputs[o].zone ≠ some 31) := by decide

theorem test_hyp_ProbeFindsTheFirstHit :
    (sAt .joined).CanWrite ∧ (0 : Zone) ≤ 31 ∧ (31 : Zone) ≤ 31 ∧ (7 : Priority) ≠ 0 ∧ 3 < (4 : Byte).toNat ∧
      7 < (8 : Byte).toNat ∧ ((30 : Byte).toNat < (31 : Byte).toNat) ∧
      (31 : Zone).val = (1 : Zone).val + 15 * 2 := by decide

/-- A zone with a hit, and one without. -/
theorem test_hyp_probe_hits : ZoneHit .wouldLead 1 6 [] ∧ ¬ ZoneHit .atLeast 1 6 [] := by
  constructor
  · trivial
  · unfold ZoneHit; decide

theorem test_hyp_SenseAndTheNoticeLog :
    (sAt .joined).CanWrite ∧ (sAt .joined).zs.notices.records = [] ∧
    (let l : NoticeLog := { records := List.replicate 16 (.joined 1), gap := 255, mask := 2 }
     l.gap ≠ 0 ∧ l.records.tail.any Notice.isGap = false ∧ l.masks (.clashed .received) = false ∧
      l.masks (.zoneChange 0 none none .dropped) = true ∧ l.masks (.gap 1) = false ∧ 16 ≤ l.records.length ∧
      l.gap = 255 ∧ { l with gap := 254 }.gap < 255) ∧
    (let l : NoticeLog := { records := List.replicate 15 (.joined 1), gap := 0, mask := 0 }
     l.records.length < 16 ∧ l.gap = 0 ∧ l.masks (.joined 2) = false) := by decide

theorem test_hyp_UnknownCodesAndNoCommand : (sAt .clashed).CanWrite ∧ (0x24 : Byte) ∉ commandCodes := by decide

theorem test_hyp_ReceiverBetweenFrames :
    (sAt .joined).zs.line.receiver = .gap ∧ 11 ≤ (sAt .joined).zs.line.gapBits + 11 ∧
      (sAt .joined).zs.line.gapBits + 10 < 11 ∧ (sAt .joined (idleWith [])).zs.line.receiver = .idle ∧
      State.reset.zs.line.receiver ≠ .gap ∧ State.reset.zs.line.receiver ≠ .idle := by decide

theorem test_hyp_LowestArbitrationValueWins :
    let f : Frame := { cls := 1, sender := 5, body := .hello }
    let g : Frame := { cls := 1, sender := 7, body := .hello }
    f.arbitration = 69 ∧ g.arbitration = 71 ∧ f.sender < g.sender ∧ f.wins [71] = true ∧ g.wins [69] = false := by
  decide

theorem test_hyp_AttemptBeginsOrWithdrawsTheHead :
    (let s := sAt .joined (idleWith [host .hello])
     s.Awake ∧ s.zs.onLine = true ∧ s.zs.line.inq = [] ∧ s.zs.line.receiver = .idle ∧ s.zs.line.halt = false ∧
      s.zs.NothingHeld) ∧
    (sAt .offline).zs.onLine = false ∧ (sAt .joined (idleWith [])).zs.line.outq = [] := by decide

/-- A DROP of nothing and an EVICT of a station not in the roster stand before a HELLO, a PRESENCE is held. -/
def withdrawing (z : Zs32) : Zs32 :=
  let z := withCmd (.dropZones 1) .queued
    (idleWith [host (.dropZones 1), entryOf (.evict 9) .membership 0, entryOf .hello .membership 0] z)
  { z with memb := { z.memb with presenceHeld := true, evictQueued := [9] } }

theorem test_hyp_withdrawal_before_other_entries :
    let s := sAt .joined withdrawing
    s.Awake ∧ s.zs.onLine = true ∧ s.zs.line.inq = [] ∧ s.zs.line.receiver = .idle ∧ s.zs.line.halt = false ∧
      s.zs.line.outq = host (.dropZones 1) :: s.zs.line.outq.tail ∧ s.zs.line.outq.tail ≠ [] ∧
      s.zs.memb.presenceHeld = true := by decide

/-- Both are withdrawn on one occasion, and the HELLO begins its arbitration (R13). -/
theorem test_withdrawals_of_one_occasion :
    (after (exec .attemptBegin (sAt .joined withdrawing))).map
      (fun z => (z.line.outq.map (·.placed), z.line.attempt.map (·.frame.body), z.memb.evictQueued, z.port.resBuf)) =
        some ([.hello, .presence], some .hello, [], [0x0F]) := by decide

/-- The three outcomes of finalization occur. -/
theorem test_hyp_finalization_outcomes :
    (zAt .joined).finalize (host (.dropZones 1)) = .withdraw (some .nothingHeld) ∧
    (inPhase 2 .draining (.drainGuard 12) (zAt .joined)).finalize (host (.openCh (some 2) .a none false)) = .wait ∧
    (zAt .joined).finalize (host .hello) = .ready { cls := 3, sender := 6, body := .hello } := ⟨rfl, rfl, rfl⟩

theorem test_hyp_FinalizationOfTheOtherKinds :
    (zAt .joined).setup = some { station := 6, interval := 10, chime := 4 } ∧
    (let z := withRoster [peer 9 .expired, peer 11 (.running 1)] (zAt .joined)
     z.entry 9 = some (peer 9 .expired) ∧ z.entry 11 = some (peer 11 (.running 1)) ∧
       (peer 11 (.running 1)).silence ≠ .expired) ∧
    (let z := ownedBy 3 6 .live .stopped (inputA (boundTo 3) (zAt .joined))
     z.table.channels[(3 : Channel)].owner = some z.me ∧ z.source.inputOf 3 = some .a ∧
       (z.source.get .a).timer = .running 3 ∧ z.table.channels[(4 : Channel)].owner ≠ some z.me) ∧
    (let z := withZone 5 [claim 6 3 4] (ownedBy 3 6 .live .stopped (zAt .joined))
     ∀ k : Zone, (0x20 : ZoneSet).getLsbD k.val = true ↔ z.ownClaim k = some (claim 6 3 4)) ∧
    (inputA { boundTo 3 with timer := .stopped } (zAt .joined)).source.inA.timer = .stopped ∧
    (inputA { boundTo 3 with timer := .expired } (zAt .joined)).source.inA.timer = .expired := by decide

theorem test_hyp_FinalizationOfFreshOpens :
    (ownedBy 2 6 .live .stopped (zAt .joined)).table.channels[(2 : Channel)].owner = some 6 ∧
    (inPhase 2 .draining (.drainGuard 12) (zAt .joined)).table.channels[(2 : Channel)].phase = .draining ∧
    ((zAt .joined).table.channels[(0 : Channel)].phase = .free ∧ ∀ k : Channel, k < 0 → False) ∧
    (let t : Vector ChannelRec 16 := tabulate fun c =>
      if c = 15 then { owner := none, length := none, phase := .draining, guard := .drainGuard 12 }
      else { owner := some 2, length := none, phase := .live, guard := .stopped }
     (∀ k : Channel, t[k].phase ≠ .free) ∧ ∃ k : Channel, t[k].phase = .draining) ∧
    (let t : Vector ChannelRec 16 := tabulate fun c =>
      { owner := some 2, length := none, phase := if c = 15 then .opening else .live, guard := .stopped }
     ∀ k : Channel, t[k].phase = .opening ∨ t[k].phase = .live) := by decide

theorem test_hyp_FinalizationOfDrops :
    (let z := withZone 5 [claim 6 3 4] (zAt .joined)
     ∀ k : Zone, (0x20 : ZoneSet).getLsbD k.val = true ↔
      (0x21 : ZoneSet).getLsbD k.val = true ∧ ∃ cl ∈ z.table.zones[k], cl.station = z.me) ∧
    (∀ k : Zone, (0 : ZoneSet).getLsbD k.val = true ↔
      (0x21 : ZoneSet).getLsbD k.val = true ∧ ∃ cl ∈ (zAt .joined).table.zones[k], cl.station = (zAt .joined).me) ∧
    (after (exec .attemptBegin (sAt .joined fun z =>
      withZone 5 [claim 6 3 4] (idleWith [host (.dropZones 0x21)] z)))).isSome := by decide

theorem test_hyp_ArbitrationEndsWonOrLost :
    (let s := sAt .joined fun z =>
      withAttempt (.drop 1) .host .arbitration (withCmd (.dropZones 1) .queued (withOutq [host (.dropZones 1)] z))
     s.Awake ∧ s.zs.line.attempt.any (fun a => a.carriesHost && a.frame.arbitration = 6) = true ∧
      s.zs.abortHeld = false ∧ s.zs.NothingHeld ∧ (∀ v ∈ [(6 : BitVec 7)], 6 ≤ v.toNat) ∧
      ∃ v ∈ [(5 : BitVec 7)], v.toNat < 6) ∧
    (sAt .joined fun z => withAttempt .hello .membership .arbitration z).zs.line.attempt.any (·.carriesHost) = false ∧
    Zs32.abortHeld { zAt .joined with port := { (zAt .joined).port with
      cmd := some { command := .dropZones 1, stage := .queued, heldAbort := true } } } = true := by decide

theorem test_hyp_held_abort_on_lost_arbitration :
    ∀ q ∈ [(LineCommand.close 3, FrameBody.close 3 false, Placed.close 3 false), (.join, .hello, .hello),
        (.leave, .bye, .bye)],
      let s := sAt .joined fun z => withAttempt q.2.1 .host .arbitration (fullWith q.1 q.2.2
        { z with port := { z.port with phase := .executing } })
      let s := { s with zs := { s.zs with port := { s.zs.port with
        cmd := some { command := q.1, stage := .queued, heldAbort := true } } } }
      s.Awake ∧ s.zs.line.attempt.any (fun a => a.carriesHost && a.stage = .arbitration && 6 = a.frame.arbitration) = true ∧
        (∃ v ∈ [(5 : BitVec 7)], v.toNat < 6) ∧ (s.zs.line.outq.filter fun x => x.origin = .host).length = 1 ∧
        s.zs.abortHeld = true := by decide

theorem test_hyp_ClashesAndStrangers :
    (sAt .joined fun z => withAttempt .hello .host .sending z).Awake ∧
    (∀ st ∈ [StationState.joined, .listening],
      (sAt st (withInq [fromPeer 6 .bye])).Processes (fromPeer 6 .bye) [] ∧
      (sAt st (withInq [fromPeer 9 .bye])).Processes (fromPeer 9 .bye) [] ∧
      (fromPeer 9 .bye).frame.sender ≠ (sAt st).zs.me ∧ (fromPeer 9 .bye).frame.body ≠ .hello ∧
      (sAt st (withInq [fromPeer 9 .bye])).zs.knows 9 = false ∧ (sAt st).zs.leaving = false) ∧
    (sAt .joined (withCmd .leave .detached)).zs.leaving = true := by decide

theorem test_hyp_SlotsAnswerTheReceivedFrame :
    (sAt .joined fun z => { z with line := { z.line with receiver := .frame } }).zs.line.receiver = .frame ∧
    (let s := sAt .joined (withAttempt .hello .host .sending)
     s.zs.line.receiver = .frame ∧ s.zs.line.attempt.any (·.stage = .sending) = true ∧ s.zs.line.reception = none) ∧
    ({ cls := 3, sender := 31, body := .hello } : Frame).wellFormed = true := by decide

theorem test_hyp_OwnFrameIsAccepted :
    (∀ b ∈ [FrameBody.hello, .openCh 3 .a (some 5) false, .close 3 true, .presence 10 0, .evict 9],
      let s := sAt .listening fun z => withAttempt b .host .slots (withCmd .join .sending (inputA (boundTo 3) z))
      s.Awake ∧ s.zs.line.receiver = .slots ∧ s.zs.line.attempt.any (fun a => !a.dropped && a.origin = .host) = true ∧
        s.zs.memb.roster = [] ∧ s.zs.port.cmd.isSome ∧ s.zs.source.inputOf 3 = some .a) := by decide

/-- Station 6 with every kind of request held: what waits for slots, in the order of R7. -/
def allHeld : Zs32 :=
  withZone 5 [claim 6 3 4] (withZone 7 [claim 6 3 4] (ownedBy 3 6 .live .stopped
    { inputA { pendingOn 3 with request := .held } (zAt .joined) with
      memb := { Membership.clearedIn .joined with
        presenceHeld := true, evictHeld := [9, 11], restateRun := true } }))

theorem test_waiting_in_order : allHeld.waiting.map (·.placed) =
    [.presence, .evict 9, .evict 11, .close 3 true, .openCh (some 3) .a (some 1) true,
      .claim 3 4 6 false 0xA0 true] := by decide

/-- A host frame leaves a queue of eight: the held PRESENCE takes the slot. -/
theorem test_grant_order :
    (after (exec (.vetoSlotEnd true false) { sAt .joined with
      zs := withAttempt .bye .host .slots (withOutq (entries 8) allHeld) })).map
        (fun z => (z.line.outq.length, z.line.outq.getLast?.map (·.placed), z.memb.evictHeld)) =
          some (8, some .presence, [9, 11]) := by decide

theorem test_hyp_FailedAndDroppedAttempts :
    (let s := sAt .joined fun z => withFails 6 false (withRoster [peer 9 .stopped] (withAttempt .hello .host .slots z))
     s.Awake ∧ s.zs.line.receiver = .slots ∧ s.zs.memb.roster ≠ [] ∧ s.zs.line.fails < 7) ∧
    (let s := sAt .joined fun z => inputA (boundTo 3) (droppedAttempt (withAttempt (.close 3 false) .host .slots z))
     s.zs.line.receiver = .slots ∧ s.zs.line.attempt.any (·.dropped) = true ∧ s.zs.source.inputOf 3 = some .a) := by
  decide

theorem test_hyp_PeerFrameIsAccepted :
    (∀ b ∈ [FrameBody.hello, .evict 6],
      let s := sAt .joined fun z => withReception (.good (fromPeer 9 b).frame) 0
        (withInq [fromPeer 9 .hello, fromPeer 9 .hello, fromPeer 9 .hello] z)
      s.Awake ∧ s.zs.line.receiver = .slots ∧ s.zs.line.attempt = none ∧
        s.zs.line.reception = some (.good (fromPeer 9 b).frame) ∧ s.zs.line.inq.length < 4 ∧ s.zs.NothingHeld) ∧
    (FrameBody.evict 6 = .evict (sAt .joined).zs.me) := by decide

/-- The queue an EVICT naming this station empties goes to the held requests in the order of R7 (R7, R29). -/
theorem test_emptied_queue_is_granted :
    ((after (exec (.vetoSlotEnd false false) (sAt .joined fun z =>
      let z := withReception (.good (fromPeer 9 (.evict 6)).frame) 0 (withOutq (entries 8) z)
      { z with memb := { z.memb with presenceHeld := true, evictHeld := [11] } }))).map
        fun z => (z.line.outq.map (·.placed), z.memb.presenceHeld, z.memb.evictHeld, z.line.halt)) =
      some ([.presence, .evict 11], false, [], true) := by decide

theorem test_hyp_SixteenthOwnVetoResynchronizes :
    (∀ n ∈ [14, 15],
      let s := sAt .joined (withReception .bad n)
      s.Awake ∧ s.zs.line.receiver = .slots ∧ s.zs.line.attempt = none ∧ s.zs.line.reception = some .bad ∧
        s.zs.line.vetoCount = n ∧ s.zs.leaving = false) ∧
    (sAt .joined fun z => withReception .bad 15 (withCmd .leave .queued z)).zs.leaving = true ∧
    (let s := sAt .joined fun z => withReception (.good (fromPeer 9 .hello).frame) 14
      (withInq (List.replicate 4 (fromPeer 9 .hello)) z)
     s.Awake ∧ s.zs.line.reception = some (.good (fromPeer 9 .hello).frame) ∧ 4 ≤ s.zs.line.inq.length ∧
      s.zs.line.vetoCount < 15) := by decide

theorem test_hyp_EighthUnheardAttemptIsIsolation :
    ∀ c ∈ [LineCommand.join, .leave],
      let s := sAt .listening fun z =>
        withFails 7 false (withRoster [peer 9 .stopped] (withCmd c .sending (withAttempt .hello .host .slots z)))
      s.Awake ∧ s.zs.line.receiver = .slots ∧ s.zs.line.attempt.any (!·.dropped) = true ∧ s.zs.line.fails = 7 ∧
        s.zs.line.vetoSeen = false ∧ s.zs.memb.roster ≠ [] ∧ s.zs.leaving = decide (c = .leave) := by decide

theorem test_hyp_EighthVetoedAttemptIsALineFault :
    (∀ b ∈ [FrameBody.hello, .bye, .drop 1, .openCh 0 .a none false, .claim 0 1 0 false 1 false],
      let s := sAt .joined fun z =>
        withFails 7 true (withRoster [peer 9 .stopped] (withCmd .join .sending (withAttempt b .host .slots z)))
      s.Awake ∧ s.zs.line.fails = 7 ∧ s.zs.line.vetoSeen = true ∧ s.zs.memb.roster ≠ [] ∧ s.zs.NothingHeld) ∧
    (∀ b ∈ [FrameBody.hello, .presence 10 0, .openCh 0 .a none true, .claim 0 1 0 false 1 true, .evict 9],
      let s := sAt .joined fun z => withOutq (entries 8) (withFails 7 false (withRoster [peer 9 .expired]
        (withAttempt b .membership .slots z)))
      s.Awake ∧ s.zs.line.outq.length ≤ 8 ∧ s.zs.line.outq ≠ [] ∧ s.zs.NothingHeld ∧ s.zs.leaving = false ∧
        s.zs.entry 9 = some (peer 9 .expired)) ∧
    (peer 9 (.running 3)).silence ≠ .expired := by decide

/-- The requests held while a queue of eight is sent: a PRESENCE, and more than the freed slot takes. -/
def withHeld (z : Zs32) : Zs32 := { z with memb := { z.memb with presenceHeld := true, evictHeld := [11] } }

theorem test_hyp_eighth_attempt_with_requests_held :
    (∀ b ∈ [FrameBody.presence 10 0, .evict 9, .close 3 true],
      let s := sAt .joined fun z => withHeld (withOutq (entries 8) (withFails 7 true (withRoster [peer 9 .expired]
        (withAttempt b .membership .slots (inputA (pendingOn 3) z)))))
      s.Awake ∧ s.zs.line.receiver = .slots ∧ s.zs.line.attempt.any (!·.dropped) = true ∧ s.zs.line.fails = 7 ∧
        s.zs.line.vetoSeen = true ∧ s.zs.memb.roster ≠ [] ∧ s.zs.line.outq.length = 8 ∧ ¬ s.zs.NothingHeld ∧
        (s.zs.waiting.length = 2)) := by decide

/-- What the tests below read of the queue: its length, the placed frame at its tail, input A's request. -/
def tailAfter (o : Host.Outcome State Fault Refusal) : Option (Nat × Option Placed × AutoRequest) :=
  (after o).map fun z => (z.line.outq.length, z.line.outq.getLast?.map (·.placed), z.source.inA.request)

/-- The freed slot goes to the held PRESENCE and the automatic CLOSE is then held; with nothing held it is placed (R7,
R180). -/
theorem test_line_fault_grants_before_the_follow_up :
    let z := fun z => withOutq (entries 8) (withFails 7 true (withRoster [peer 9 .expired]
      (withAttempt (.close 3 true) (.source .a) .slots (inputA (pendingOn 3) z))))
    tailAfter (exec (.eighthFailedAttempt false false) (sAt .joined fun y => withHeld (z y))) =
        some (8, some .presence, .held) ∧
      tailAfter (exec (.eighthFailedAttempt false false) (sAt .joined z)) = some (8, some (.close 3 true), .queued) := by
  decide

theorem test_hyp_line_fault_of_a_close :
    (∀ m ∈ [true, false], ∀ o ∈ [Origin.host, .source .a],
      let s := sAt .joined fun z => withOutq (entries 8) (withFails 7 true (withRoster [peer 9 .expired]
        (withAttempt (.close 3 true) o .slots (inputA { pendingOn 3 with merged := m, pending := m } z))))
      s.Awake ∧ s.zs.line.receiver = .slots ∧ s.zs.line.outq.length ≤ 8 ∧ s.zs.line.outq ≠ [] ∧ s.zs.NothingHeld ∧
        s.zs.source.inputOf 3 = some .a ∧ (s.zs.source.get .a).bound = some 3 ∧ (s.zs.source.get .a).pending = m ∧
        s.zs.leaving = false ∧ s.zs.hostCloseRunning 3 = false) ∧
    (sAt .joined (withCmd (.close 3) .queued)).zs.hostCloseRunning 3 = true := by decide

theorem test_hyp_HelloAddsThePeer :
    ∀ st ∈ [StationState.joined, .listening],
      let s := sAt st fun z => ownedBy 3 6 .live .stopped (inputA (boundTo 3) (withInq [fromPeer 9 .hello] z))
      s.Processes (fromPeer 9 .hello) [] ∧ (fromPeer 9 .hello).frame.sender ≠ s.zs.me ∧ s.zs.knows 9 = false ∧
        s.zs.leaving = false ∧ s.zs.line.outq.length < 8 ∧ s.zs.NothingHeld ∧
        s.zs.table.channels[(3 : Channel)].owner = some s.zs.me ∧ s.zs.source.inA.bound = some 3 := by decide

theorem test_hyp_PeersLeaveWithAPurge :
    (∀ b ∈ [FrameBody.bye, .hello],
      let s := sAt .joined fun z => withRoster [peer 9 (.running 9)] (withInq [fromPeer 9 b] z)
      s.Processes (fromPeer 9 b) [] ∧ s.FromPeer (fromPeer 9 b) ∧ s.zs.knows 9 = true ∧
        s.zs.table.comparison = none) ∧
    (let s := sAt .joined fun z =>
      withRoster [peer 9 (.running 9), peer 11 (.running 9)] (withInq [fromPeer 9 (.evict 11)] z)
     s.FromPeer (fromPeer 9 (.evict 11)) ∧ s.zs.knows 11 = true ∧ (11 : StationNo) ≠ s.zs.me) := by decide

theorem test_hyp_own_evict_comes_back :
    ∀ l ∈ [[peer 9 .expired], []],
      let f := ownFrame .membership (.evict 9)
      let s := sAt .joined fun z => withRoster l (withInq [f] z)
      s.Processes f [] ∧ f.mark ≠ none ∧ (9 : StationNo) ≠ s.zs.me ∧ s.zs.knows 9 = decide (l ≠ []) := by decide

/-- A held EVICT of the removed peer and a disagreement record that names it go, a queued EVICT stays (R38, R190). -/
theorem test_removal_keeps_a_queued_evict :
    (after (exec .evict (sAt .joined fun z =>
      let z := withRoster [peer 9 .expired, peer 11 .stopped] (withInq [ownFrame .membership (.evict 9)] z)
      { z with memb := { z.memb with evictQueued := [9], evictHeld := [9, 11], disagreement := some (9, 7) } }))).map
        (·.memb) = some { Membership.clearedIn .joined with
          roster := [peer 11 .stopped], evictQueued := [9], evictHeld := [11] } := by decide

theorem test_hyp_OwnHelloByeAndEvict :
    (∀ b ∈ [FrameBody.hello, .bye], (sAt .joined (withInq [ownFrame .host b])).Processes (ownFrame .host b) []) ∧
    (∀ st ∈ [StationState.listening, .joined],
      let f := ownFrame .membership .hello
      (sAt st (withInq [f])).Processes f [] ∧ f.frame.body = .hello ∧ f.mark = some .membership) ∧
    (∀ x ∈ [(6 : StationNo), 11],
      let s := sAt .joined fun z => withRoster [peer 9 (.running 9)] (withInq [fromPeer 9 (.evict x)] z)
      s.Processes (fromPeer 9 (.evict x)) [] ∧ s.FromPeer (fromPeer 9 (.evict x)) ∧ s.zs.leaving = false ∧
        s.zs.knows x = false) ∧
    (sAt .joined).zs.me = 6 ∧ (sAt .joined (withCmd .leave .detached)).zs.leaving = true := by decide

theorem test_hyp_PresenceIsRecordedAndCompared :
    (∀ st ∈ [StationState.joined, .listening], ∀ n ∈ [0, 7],
      let f := fromPeer 9 (.presence 100 (BitVec.ofNat 16 n))
      let s := sAt st fun z => withRoster [peer 9 (.running 9)] (withInq [f] z)
      s.Processes f [] ∧ s.FromPeer f ∧ s.zs.memb.state = st ∧ s.zs.leaving = false) ∧
    (sAt .joined).zs.table.digest = 0 ∧ (11 : StationNo) ≠ (fromPeer 9 (.presence 100 7)).frame.sender ∧
    Membership.disagreement { Membership.clearedIn .joined with disagreement := some (11, 7) } = some (11, 7) ∧
    (sAt .joined (withCmd .leave .detached)).zs.leaving = true := by decide

theorem test_hyp_own_presence_comes_back :
    let f := ownFrame .membership (.presence 10 7)
    let s := sAt .joined (withInq [f])
    s.Processes f [] ∧ f.mark ≠ none ∧ (7 : Digest) ≠ s.zs.table.digest := by decide

theorem test_hyp_OpenFramesByChannelRecord :
    ∀ re ∈ [false, true],
      (let s := sAt .joined fun z => withRoster [peer 9 (.running 9)] (withInq [fromPeer 9 (.openCh 15 .a none re)] z)
       s.Processes (fromPeer 9 (.openCh 15 .a none re)) [] ∧ s.FromPeer (fromPeer 9 (.openCh 15 .a none re)) ∧
        s.zs.table.channels[(15 : Channel)].owner = none) ∧
      (let s := sAt .joined fun z => ownedBy 15 9 .live .stopped (withInq [ownFrame .host (.openCh 15 .a none re)] z)
       s.Processes (ownFrame .host (.openCh 15 .a none re)) [] ∧
        s.zs.table.channels[(15 : Channel)].owner = some 9) := by decide

theorem test_hyp_CloseDrainsTheChannelWithItsClaims :
    let s := sAt .joined fun z =>
      ownedBy 0 9 .live .stopped (withRoster [peer 9 (.running 9)] (withInq [fromPeer 9 (.close 0 false)] z))
    s.Processes (fromPeer 9 (.close 0 false)) [] ∧ s.FromPeer (fromPeer 9 (.close 0 false)) ∧
      s.zs.table.comparison = none ∧ s.zs.table.channels[(0 : Channel)].owner = some 9 ∧
      s.zs.table.channels[(1 : Channel)].owner ≠ some 9 := by decide

theorem test_hyp_OwnCloseReleasesTheInput :
    ∀ o ∈ [Origin.host, .source .a], ∀ m ∈ [true, false],
      let s := sAt .joined fun z => ownedBy 3 6 .live .stopped
        (inputA { pendingOn 3 with merged := m } (withInq [ownFrame o (.close 3 true)] z))
      s.Processes (ownFrame o (.close 3 true)) [] ∧ (ownFrame o (.close 3 true)).frame.sender = s.zs.me ∧
        s.zs.table.channels[(3 : Channel)].owner = some s.zs.me ∧ s.zs.source.inputOf 3 = some .a ∧
        (s.zs.source.get .a).merged = m := by decide

theorem test_hyp_ClaimOutcomesByZone :
    (∀ l ∈ [zone11, zone12, zone13, []], l.length ≤ listCapacity ∧
      l.Pairwise (fun a b => b.priority < a.priority ∨ (a.priority = b.priority ∧ a.station < b.station)) ∧
      (l.map Claim.station).Nodup) ∧
    claim 6 3 2 ∈ zone11 ∧ (∀ old ∈ zone13, old.station ≠ (claim 6 3 4).station) ∧
      zone13[5]? = some (claim 20 14 1) ∧ (claim 6 3 4).sortsAbove (claim 20 14 1) = true ∧
      (claim 6 3 4).sortsAbove (claim 3 10 4) = false := by decide

theorem test_hyp_ClaimFrameIsTakenOrRefused :
    ∀ re ∈ [false, true],
      let f := fromPeer 9 (.claim 0 7 31 true 0x80000001 re)
      let s := sAt .joined fun z => ownedBy 0 9 .opening (.openGuard 1)
        (withRoster [peer 9 (.running 9)] (withInq [f] z))
      s.Processes f [] ∧ s.FromPeer f ∧ s.zs.table.comparison = none ∧
        s.zs.table.channels[(0 : Channel)].owner = some 9 ∧ (sAt .joined).zs.table.channels[(0 : Channel)].owner ≠ some 9 := by
  decide

theorem test_hyp_OwnClaimReportsItsOutcomes :
    let f := ownFrame .host (.claim 3 4 6 false 0x3C00 false)
    beforeClaim.Processes f [] ∧ f.mark = some .host ∧ f.frame.sender = beforeClaim.zs.me ∧
      beforeClaim.zs.table.channels[(3 : Channel)].owner = some beforeClaim.zs.me := by decide

/-- The own restate CLAIM of channel 3, at an owner and at a station that owns no channel. -/
theorem test_hyp_own_restate_claim_comes_back :
    let f := ownFrame .membership (.claim 3 4 6 false 0x20 true)
    let s := sAt .joined fun z => withZone 5 [claim 6 3 4] (ownedBy 3 6 .live .stopped (withInq [f] z))
    s.Processes f [] ∧ f.mark ≠ none ∧ f.frame.sender = s.zs.me ∧
      s.zs.table.channels[(3 : Channel)].owner = some s.zs.me ∧ s.zs.table.comparison = none ∧
      (∀ k : Zone, (0x20 : ZoneSet).getLsbD k.val = true → s.zs.ownClaim k = some (claim 6 3 4)) ∧
      (sAt .joined).zs.table.channels[(3 : Channel)].owner ≠ some s.zs.me ∧
      ({ s.zs.table with digest := digestOf s.zs.table.channels s.zs.table.zones } : ClaimTable).digest =
        digestOf s.zs.table.channels s.zs.table.zones := by decide

/-- Where the own claim stands as restated nothing changes; where a fresh list lacks it, it is placed and takes the lead
mark, without a lead-mark notice (R102). -/
theorem test_own_restate_claim :
    ∀ l ∈ [[claim 6 3 4], []],
      (after (exec .restateClaim (sAt .joined fun z => withZone 5 l (ownedBy 3 6 .live .stopped
        (withInq [ownFrame .membership (.claim 3 4 6 false 0x20 true)] z))))).map
          (fun z => (z.table.zones[(5 : Zone)], z.table.leads[(5 : Zone)], z.notices.records, z.port.resBuf)) =
        some ([claim 6 3 4], decide (l = []), [], []) := by decide

theorem test_hyp_DropRemovesTheSendersClaims :
    (let s := sAt .joined fun z => withRoster [peer 9 (.running 9)] (withInq [fromPeer 9 (.drop 1)] z)
     s.Processes (fromPeer 9 (.drop 1)) [] ∧ s.FromPeer (fromPeer 9 (.drop 1)) ∧ s.zs.table.comparison = none) ∧
    (sAt .joined (withInq [ownFrame .host (.drop 1)])).Processes (ownFrame .host (.drop 1)) [] := by decide

theorem test_hyp_LeadMarksAndTheirNotices :
    (let s := sAt .joined fun z =>
      withOutputs (OutputRec.silentBoundTo (some 0))
        (withZone 0 [claim 9 11 3, claim 6 3 2] (withRoster [peer 9 (.running 9)] (withInq [fromPeer 9 (.drop 1)] z)))
     s.Processes (fromPeer 9 (.drop (1#32 <<< (0 : Zone).val))) [] ∧ s.FromPeer (fromPeer 9 (.drop 1)) ∧
      s.zs.mixer.outputs[(3 : Fin 4)].zone = some 0 ∧ s.zs.table.zones[(0 : Zone)] = claim 9 11 3 :: claim 6 3 2 :: [] ∧
      (claim 6 3 2).station = s.zs.me ∧ s.zs.table.leads[(0 : Zone)] = false) ∧
    (recordOf 6 [claim 9 11 3, claim 6 3 2]).own = some (1, claim 6 3 2) ∧
    (recordOf 6 [claim 6 3 4, claim 9 11 3]).own = some (0, claim 6 3 4) ∧
    (recordOf 6 [claim 6 3 4, claim 9 11 3]).fg = some (claim 6 3 4) ∧ (recordOf 6 [claim 9 11 3]).own = none ∧
    (CompareContext.plain .dropped).placed.getLsbD 31 = false ∧ (0x80000000 : ZoneSet).getLsbD 31 = true ∧
    (some (claim 6 3 4)).map Claim.ident ≠ (none : Option Claim).map Claim.ident := by decide

/-- A CLAIM that displaces the own claim of zone 13: the causes and notices of its comparison. -/
theorem test_displacing_claim :
    (after (exec .claimFrame (sAt .joined fun z => withOutputs (OutputRec.silentBoundTo (some 13))
      (withZone 13 [claim 2 9 3, claim 9 11 3, claim 11 12 2, claim 15 13 2, claim 1 8 1, claim 6 3 1]
        (ownedBy 5 20 .live .stopped (withRoster [peer 20 (.running 9)]
          (withInq [fromPeer 20 (.claim 5 7 0 false 0x2000 false)] z))))))).map (fun z =>
        (z.notices.records, (z.mixer.outputs[(0 : Fin 4)]).state)) =
      some ([.zoneChange 13 (some ({ station := 20, channel := 5 }, 7)) (some 2) .displaced,
        .claimDisplaced 13 20 3 7], .playing) := by decide

theorem test_hyp_OutputsFollowTheForeground :
    (some (claim 6 3 4)).map Claim.ident ≠ some (claim 9 11 3).ident ∧
      (claim 6 3 4).ident = (claim 6 3 2).ident ∧ claim 6 3 4 ≠ claim 6 3 2 ∧
      ({ claim 6 3 4 with chime := true } : Claim).chime = true ∧ (claim 6 3 4).chime = false ∧ 0 < 50 := by decide

theorem test_hyp_AudioFrameEmitsTheMix :
    ∀ st ∈ [OutputState.silent, .hush, .chime, .playing],
      let s := sAt .joined fun z => withOutputs { OutputRec.silentBoundTo (some 0) with
          state := st, fg := some { station := 9, channel := 3 }, duck := some 31 }
        (inputA { boundTo 3 with driving := some 3 } z)
      s.Awake ∧ s.zs.onLine = true ∧ s.zs.mixer.outputs[(0 : Fin 4)].state = st ∧
        s.zs.mixer.outputs[(0 : Fin 4)].fg = some { station := 9, channel := 3 } ∧
        s.zs.mixer.outputs[(0 : Fin 4)].duck = some 31 ∧ s.zs.source.inA.driving = some 3 ∧
        s.zs.source.inA.driving ≠ some 4 ∧ s.zs.source.inB.driving ≠ some 4 := by decide

/-- The samples received in one frame are heard in the next (R119). -/
theorem test_sample_is_used_in_the_next_frame :
    let s := sAt .joined fun z => withOutputs { OutputRec.silentBoundTo (some 0) with
      state := .playing, fg := some { station := 9, channel := 3 }, duck := some 0 } (ownedBy 3 9 .live .stopped z)
    let frame : Zs32 → Zs32 := Zs32.audioFrame true (Vector.replicate 16 100) 0 0
    (frame s.zs).mixer.outputs[(0 : Fin 4)].sample = 0 ∧
      (frame (frame s.zs)).mixer.outputs[(0 : Fin 4)].sample = 100 := by decide

theorem test_hyp_ChimeAndGuardsExpire :
    (let s := sAt .joined fun z => withOutputs { OutputRec.silentBoundTo (some 0) with
        state := .chime, chime := .running 0, fg := some { station := 9, channel := 3 } } z
     s.Awake ∧ s.zs.mixer.outputs[(3 : Fin 4)].chime = .running 0 ∧
      s.zs.mixer.outputs[(3 : Fin 4)].fg = some { station := 9, channel := 3 }) ∧
    (sAt .joined (ownedBy 15 9 .opening (.openGuard 0))).zs.table.channels[(15 : Channel)].guard = .openGuard 0 ∧
    (sAt .joined (inPhase 0 .draining (.drainGuard 0))).zs.table.channels[(0 : Channel)].guard = .drainGuard 0 := by
  decide

theorem test_hyp_PresenceAndSilenceTimersExpire :
    (∀ n ∈ [7, 8],
      let s := sAt .joined fun z => withOutq (entries n) (withRoster [peer 9 (.running 0)]
        { z with memb := { z.memb with presenceTimer := .running 0 } })
      s.Awake ∧ s.zs.memb.presenceTimer = .running 0 ∧
        s.zs.setup = some { station := 6, interval := 10, chime := 4 } ∧ s.zs.memb.presenceQueued = false ∧
        s.zs.memb.presenceHeld = false ∧ s.zs.line.outq.length = n ∧ s.zs.entry 9 = some (peer 9 (.running 0)) ∧
        s.zs.memb.state = .joined ∧ s.zs.leaving = false ∧ 9 ∉ s.zs.memb.evictQueued ∧ 9 ∉ s.zs.memb.evictHeld) ∧
    (sAt .joined fun z => { z with memb := { z.memb with presenceQueued := true } }).zs.memb.presenceQueued = true ∧
    (sAt .listening).zs.memb.state ≠ .joined := by decide

theorem test_hyp_JoinWindowEndsInJoined :
    let s := sAt .listening fun z => { withOutq (entries 7) z with memb := { z.memb with joinWindow := .running 0 } }
    s.Awake ∧ s.zs.memb.joinWindow = .running 0 ∧ s.zs.memb.state = .listening ∧ s.zs.leaving = false ∧
      s.zs.setup = some { station := 6, interval := 10, chime := 4 } ∧ s.zs.line.outq.length < 8 ∧
      8 ≤ (withOutq (entries 8) s.zs).line.outq.length ∧ (withCmd .leave .queued s.zs).leaving = true := by decide

theorem test_hyp_DurationAsksForAnAutomaticClose :
    (∀ n ∈ [7, 8],
      let s := sAt .joined fun z => withOutq (entries n) (inputA (boundTo 15) z)
      s.Awake ∧ (s.zs.source.get .a).timer = .running 3 ∧ (s.zs.source.get .a).bound = some 15 ∧
        s.zs.leaving = false ∧ s.zs.hostCloseRunning 15 = false ∧ s.zs.line.outq.length = n) ∧
    (let s := sAt .joined (inputA { InputRec.cleared with starting := some 15, timer := .running 3 })
     (s.zs.source.get .a).bound = none ∧ (s.zs.source.get .a).starting = some 15) ∧
    (sAt .joined (withCmd (.close 15) .inbound)).zs.hostCloseRunning 15 = true ∧
    (sAt .joined (withCmd .leave .queued)).zs.leaving = true := by decide

/-- An EVICT naming this station is accepted while its automatic CLOSE waits in the inbound queue: the request stays
(R81). -/
theorem test_accepted_close_keeps_its_request :
    ∀ q ∈ [[], [entryOf (.close 3 true) (.source .a) 0]],
      (after (exec (.vetoSlotEnd true false) (sAt .joined fun z => withReception (.good (fromPeer 9 (.evict 6)).frame) 0
        (withInq [ownFrame (.source .a) (.close 3 true)] (withOutq q (inputA (pendingOn 3) z)))))).map
          (·.source.inA.request) = some (if q = [] then .queued else .none) := by decide

/-- Reset meets every invariant's list conditions, and steps from it answer. -/
theorem test_hyp_invariants : State.reset.zs.notices.records.length ≤ logCapacity ∧
    State.reset.zs.table.digest = digestOf State.reset.zs.table.channels State.reset.zs.table.zones ∧
    (after (step { State.reset with pending := [.sense] })).isSome ∧ (after (step State.reset)).isSome := by decide

end Sys2Proof.Tests
end

section
/-! Finalization of fresh OPENs and of DROPs (R17, R18, R22). -/

namespace Sys2Proof.Machine

/-! ### Own frames and the occasion to begin -/

@[simp] theorem Zs32.ownFrame_openCh (z : Zs32) (aged : Bool) (c : Channel) (i : Input) (n : Option TimedLength)
    (restate : Bool) :
    z.ownFrame aged (.openCh c i n restate) = { cls := 1, sender := z.me, body := .openCh c i n restate } := rfl

@[simp] theorem Zs32.ownFrame_drop (z : Zs32) (aged : Bool) (zones : ZoneSet) :
    z.ownFrame aged (.drop zones) = { cls := 2, sender := z.me, body := .drop zones } := rfl

theorem exec_attemptBegin (s : State) : exec .attemptBegin s = s.run Zs32.attemptBegin := rfl

/-- An attempt copies a ready head; the entry itself stays in the queue as placed (R12, R13). -/
theorem Zs32.attemptBegin_outq_of_ready {z : Zs32} {e : OutEntry} {rest : List OutEntry} {f : Frame}
    (hq : z.line.outq = e :: rest) (hf : z.finalize e = .ready f) : z.attemptBegin.line.outq = e :: rest := by
  obtain ⟨n, hn⟩ : ∃ n, z.finalizeBound = n + 1 := ⟨_, rfl⟩
  rw [Zs32.attemptBegin, hn, Zs32.beginUpTo]
  split
  · simp only [hq, hf]
  · exact hq

/-- The same for the row ATTEMPT_BEGIN, whether or not pin reset holds the station (R200). -/
theorem exec_attemptBegin_outq_of_ready {s t : State} {e : OutEntry} {rest : List OutEntry} {f : Frame}
    (hq : s.zs.line.outq = e :: rest) (hf : s.zs.finalize e = .ready f) (h : exec .attemptBegin s = .next t) :
    t.zs.line.outq = e :: rest := by
  rw [exec_attemptBegin] at h
  cases held : s.zs.rst.held with
  | true =>
    obtain rfl := Host.Outcome.next.inj ((State.run_held held _).symm.trans h)
    exact hq
  | false =>
    obtain rfl := Host.Outcome.next.inj ((State.run_awake held _).symm.trans h)
    exact Zs32.attemptBegin_outq_of_ready hq hf

/-! ### A fresh OPEN (R17, R18) -/

theorem Zs32.lowestFree_eq_some_iff (z : Zs32) (c : Channel) : z.lowestFree = some c ↔
    z.table.channels[c].phase = .free ∧ ∀ k : Channel, k < c → z.table.channels[k].phase ≠ .free := by
  rw [Zs32.lowestFree, ← Fin.find?_eq_find?_finRange, Fin.find?_eq_some_iff]
  simp

theorem Zs32.lowestFree_eq_none_iff (z : Zs32) :
    z.lowestFree = none ↔ ∀ k : Channel, z.table.channels[k].phase ≠ .free := by
  simp [Zs32.lowestFree]

theorem Zs32.someDraining_iff (z : Zs32) :
    z.someDraining = true ↔ ∃ k : Channel, z.table.channels[k].phase = .draining := by
  simp [Zs32.someDraining]

section FreshOpen
variable {z : Zs32} {e : OutEntry} {c : Channel} {i : Input} {n : Option TimedLength}

theorem Zs32.finalize_freshOpen {channel : Option Channel} (he : e.placed = .openCh channel i n false) :
    z.finalize e = z.finalizeOpen channel i n := by
  rw [Zs32.finalize, he]
  cases channel <;> rfl

theorem Zs32.finalizeOpen_owned {x : StationNo} (h : z.table.channels[c].owner = some x) :
    z.finalizeOpen (some c) i n = .withdraw (some .channelTaken) := by
  simp only [Zs32.finalizeOpen, h, Option.isSome_some, if_true]

theorem Zs32.finalizeOpen_draining (unowned : z.table.channels[c].owner = none)
    (h : z.table.channels[c].phase = .draining) : z.finalizeOpen (some c) i n = .wait := by
  simp only [Zs32.finalizeOpen, unowned, h, Option.isSome_none, Bool.false_eq_true, if_false, if_true]

theorem Zs32.finalizeOpen_free (unowned : z.table.channels[c].owner = none)
    (h : z.table.channels[c].phase = .free) :
    z.finalizeOpen (some c) i n = .ready { cls := 1, sender := z.me, body := .openCh c i n false } := by
  simp only [Zs32.finalizeOpen, unowned, h, Option.isSome_none, Bool.false_eq_true, reduceCtorEq, if_false,
    Zs32.ownFrame_openCh]

theorem Zs32.finalizeOpen_any_lowestFree (h : z.lowestFree = some c) :
    z.finalizeOpen none i n = .ready { cls := 1, sender := z.me, body := .openCh c i n false } := by
  simp [Zs32.finalizeOpen, h]

theorem Zs32.finalizeOpen_any_draining (noFree : z.lowestFree = none) (h : z.someDraining = true) :
    z.finalizeOpen none i n = .wait := by
  simp [Zs32.finalizeOpen, noFree, h]

theorem Zs32.finalizeOpen_any_noChannel (noFree : z.lowestFree = none) (h : z.someDraining = false) :
    z.finalizeOpen none i n = .withdraw (some .noChannel) := by
  simp [Zs32.finalizeOpen, noFree, h]

end FreshOpen

/-- Settles O24: a named channel decides by its record, ANY by the lowest FREE channel and then by whether some
channel is DRAINING. -/
theorem finalizationOfFreshOpens : Obligations.FinalizationOfFreshOpens := by
  refine ⟨fun z e c i n he => ?_, fun z e i n he => ?_⟩
  · rw [Zs32.finalize_freshOpen he]
    exact ⟨fun _ => Zs32.finalizeOpen_owned, Zs32.finalizeOpen_draining, Zs32.finalizeOpen_free⟩
  · rw [Zs32.finalize_freshOpen he]
    refine ⟨fun c free lowest => ?_, fun noFree draining => ?_, fun inUse => ?_⟩
    · exact Zs32.finalizeOpen_any_lowestFree ((z.lowestFree_eq_some_iff c).2 ⟨free, lowest⟩)
    · exact Zs32.finalizeOpen_any_draining (z.lowestFree_eq_none_iff.2 noFree) (z.someDraining_iff.2 draining)
    · have noOther (p : ChannelPhase) (opening : p ≠ .opening) (live : p ≠ .live) (k : Channel) :
          z.table.channels[k].phase ≠ p := by
        rintro rfl
        exact (inUse k).elim opening live
      have noDraining : ¬ ∃ k : Channel, z.table.channels[k].phase = .draining :=
        not_exists.2 (noOther .draining nofun nofun)
      exact Zs32.finalizeOpen_any_noChannel (z.lowestFree_eq_none_iff.2 (noOther .free nofun nofun))
        (Bool.eq_false_iff.2 (mt z.someDraining_iff.1 noDraining))

/-! ### A DROP (R22) -/

/-- A zone set is its members: the set of a condition is the one that holds exactly the zones that satisfy it. -/
theorem zonesWhere_eq_iff (p : Zone → Bool) (set : ZoneSet) :
    zonesWhere p = set ↔ ∀ k : Zone, set.getLsbD k.val = p k := by
  constructor
  · rintro rfl k
    exact zonesWhere_getLsbD p k
  · intro h
    apply BitVec.eq_of_getLsbD_eq
    intro j hj
    exact (zonesWhere_getLsbD p ⟨j, hj⟩).trans (h ⟨j, hj⟩).symm

theorem Zs32.ownClaim_isSome_iff (z : Zs32) (k : Zone) :
    (z.ownClaim k).isSome = true ↔ ∃ cl ∈ z.table.zones[k], cl.station = z.me := by
  simp [Zs32.ownClaim, claimOf]

section Drop
variable {z : Zs32} {e : OutEntry} {set : ZoneSet}

theorem Zs32.finalize_dropZones {zones : ZoneSet} (he : e.placed = .dropZones zones)
    (hset : ∀ k : Zone, set.getLsbD k.val = true ↔
      zones.getLsbD k.val = true ∧ ∃ cl ∈ z.table.zones[k], cl.station = z.me) :
    z.finalize e = z.finalizeDrop set := by
  have narrowed : (zonesWhere fun k => zones.getLsbD k.val && (z.ownClaim k).isSome) = set := by
    refine (zonesWhere_eq_iff _ _).2 fun k => Bool.eq_iff_iff.2 ?_
    rw [hset, Bool.and_eq_true, Zs32.ownClaim_isSome_iff]
  rw [Zs32.finalize, he, ← narrowed]

theorem Zs32.finalize_dropChannel {c : Channel} (he : e.placed = .dropChannel c)
    (hset : ∀ k : Zone, set.getLsbD k.val = true ↔ ∃ cl, z.ownClaim k = some cl ∧ cl.channel = c) :
    z.finalize e = z.finalizeDrop set := by
  have narrowed : (zonesWhere fun k => (z.ownClaim k).any (·.channel = c)) = set := by
    refine (zonesWhere_eq_iff _ _).2 fun k => Bool.eq_iff_iff.2 ?_
    rw [hset, Option.any_eq_true]
    simp only [decide_eq_true_eq]
  rw [Zs32.finalize, he, ← narrowed]

theorem Zs32.finalizeDrop_empty (h : set = 0) : z.finalizeDrop set = .withdraw (some .nothingHeld) := if_pos h

theorem Zs32.finalizeDrop_ready (h : set ≠ 0) :
    z.finalizeDrop set = .ready { cls := 2, sender := z.me, body := .drop set } := if_neg h

end Drop

/-- Settles O25: both forms of DROP are finalized with the narrowed set, and an attempt with a ready frame leaves the
entry as placed. -/
theorem finalizationOfDrops : Obligations.FinalizationOfDrops := by
  intro z e set hset
  have narrow : z.finalize e = z.finalizeDrop set := by
    obtain ⟨zones, he, hset⟩ | ⟨c, he, hset⟩ := hset
    · exact Zs32.finalize_dropZones he hset
    · exact Zs32.finalize_dropChannel he hset
  have ready (h : set ≠ 0) : z.finalize e = .ready { cls := 2, sender := z.me, body := .drop set } :=
    narrow.trans (Zs32.finalizeDrop_ready h)
  refine ⟨fun h => narrow.trans (Zs32.finalizeDrop_empty h), ready, ?_⟩
  rintro s t rest rfl h hq ht
  exact exec_attemptBegin_outq_of_ready hq (ready h) ht

end Sys2Proof.Machine
end

section
/-! The digest as the sum of its terms (R106). -/

namespace Sys2Proof.Machine

theorem channelTerm_unowned {c : Channel} {r : ChannelRec} (h : r.owner = none) : channelTerm c r = 0 := by
  rw [channelTerm, h, Option.elim_none]

theorem channelTerm_owned {c : Channel} {r : ChannelRec} {x : StationNo} (h : r.owner = some x) :
    channelTerm c r = 4096 + 32 * c.val + x.val := by
  rw [channelTerm, h, Option.elim_some]

/-- The recursion of `listTerms` carries the position of the head; the claim at index `i` stands `i` positions on. -/
theorem listTerms_eq_sum (z : Zone) (k : Nat) (l : List Claim) :
    listTerms z k l = ∑ i : Fin l.length, claimTerm z (k + i.val) l[i] := by
  induction l generalizing k with
  | nil => rfl
  | cons cl rest ih =>
    have tail : listTerms z (k + 1) rest = ∑ i : Fin rest.length, claimTerm z (k + (i.val + 1)) rest[i] := by
      simp only [ih, Nat.add_assoc, Nat.add_comm 1]
    rw [listTerms, tail]
    exact (Fin.sum_univ_succ fun i : Fin (rest.length + 1) => claimTerm z (k + i.val) (cl :: rest)[i]).symm

/-- From position 0 on, a claim's position is its index. -/
theorem listTerms_zero_eq_sum (z : Zone) (l : List Claim) :
    listTerms z 0 l = ∑ i : Fin l.length, claimTerm z i.val l[i] := by
  simp only [listTerms_eq_sum, Nat.zero_add]

theorem digestOf_toNat (channels : Vector ChannelRec 16) (zones : Vector (List Claim) 32) :
    (digestOf channels zones).toNat =
      (∑ c : Channel, channelTerm c channels[c] + ∑ z : Zone, listTerms z 0 zones[z]) % 65536 := by
  rw [digestOf, BitVec.toNat_ofNat, Fin.sum_univ_def, Fin.sum_univ_def]

/-- Settles O55: the channel terms agree owner by owner, and each zone's recursion is the sum over its positions. -/
theorem digestIsTheSumOfItsTerms : Obligations.DigestIsTheSumOfItsTerms := by
  intro channels zones
  rw [digestOf_toNat]
  refine congrArg (· % 65536) (congrArg₂ (· + ·) (Finset.sum_congr rfl fun c _ => ?_)
    (Finset.sum_congr rfl fun z _ => listTerms_zero_eq_sum z zones[z]))
  split
  · next unowned => exact channelTerm_unowned unowned
  · next owned => exact channelTerm_owned owned

end Sys2Proof.Machine
end

section
/-! The interrupt output (R174). -/

namespace Sys2Proof.Machine

/-- The two conditions of R174. -/
theorem Zs32.interrupt_iff (z : Zs32) : z.interrupt = true ↔
    (z.port.phase = .result ∧ z.port.firstByte = false) ∨ z.notices.records ≠ [] := by
  simp [Zs32.interrupt]

/-- A result is formed with none of its bytes read, whatever the log holds (R154, R174). -/
theorem Zs32.formResult_interrupt (r : Result) (z : Zs32) : (z.formResult r).interrupt = true :=
  (z.formResult r).interrupt_iff.2 (.inl ⟨rfl, rfl⟩)

section ReadByte
variable {z : Zs32}

/-- A byte given out of RESULT ends the result or sets its first-byte mark, so no unread result waits (R152, R155). -/
theorem Zs32.giveByte_no_unread_result (h : z.port.phase = .result) :
    ¬ (z.giveByte.port.phase = .result ∧ z.giveByte.port.firstByte = false) := by
  simp only [Zs32.giveByte, h]
  split
  · next lastByte => exact fun unread => nomatch unread.1
  · next bytesLeft => exact fun unread => nomatch unread.2

@[simp] theorem Zs32.giveByte_notices (z : Zs32) : z.giveByte.notices = z.notices := by
  unfold Zs32.giveByte
  split
  case h_1 inResult => dsimp only; split <;> rfl
  all_goals rfl

/-- After a byte of a result has been read, the log alone decides the output (R174). -/
theorem Zs32.giveByte_interrupt_iff (h : z.port.phase = .result) :
    z.giveByte.interrupt = true ↔ z.notices.records ≠ [] := by
  rw [Zs32.interrupt_iff, or_iff_right (Zs32.giveByte_no_unread_result h), Zs32.giveByte_notices]

theorem Zs32.readByte_of_read (h : z.port.transaction = .read) : z.readByte = z.giveByte := by
  rw [Zs32.readByte, h]

end ReadByte

theorem exec_readByte (s : State) : exec .readByte s = s.run Zs32.readByte := rfl

/-- On a station that is awake, READ_BYTE in a READ transaction gives one byte (R149, R152). -/
theorem exec_readByte_of_read {s : State} (awake : s.Awake) (h : s.zs.port.transaction = .read) :
    exec .readByte s = .next { s with zs := s.zs.giveByte } := by
  rw [exec_readByte, State.run_awake awake, Zs32.readByte_of_read h]

/-- Settles O8: the output is its two conditions; forming a result sets the first, and reading a byte of it clears
that one and leaves the log alone. -/
theorem interruptFollowsResultAndLog : Obligations.InterruptFollowsResultAndLog := by
  refine ⟨Zs32.interrupt_iff, fun z r => z.formResult_interrupt r, ?_⟩
  intro s t b awake reading inResult _ step
  obtain rfl := Host.Outcome.next.inj ((exec_readByte_of_read awake reading).symm.trans step)
  exact Zs32.giveByte_interrupt_iff inResult

end Sys2Proof.Machine
end

section
/-! What one step can do, said once: the moves of the blocks, and every step as a sequence of them. The invariants of
the station (chapter by chapter in `Safety.lean`) are then statements about single moves. -/

namespace Sys2Proof.Machine

/-! ### The moves of each block -/

/-- What can happen to the port besides the start of an execution (R149 to R155, R123). -/
inductive PortMove (p : Port) : Port → Prop
  | pins (refused : Bool) (kind : Transaction) (sdo : Option Byte) :
      PortMove p { p with refused := refused, transaction := kind, sdo := sdo }
  | buffers (code : Byte) (params : List Byte) (waits : p.phase = .ready ∨ p.phase = .command)
      (short : params.length + 1 < commandLength code) :
      PortMove p { p with phase := .command, cmdBuf := code :: params }
  | result (r : Result) :
      PortMove p { p with phase := .result, cmdBuf := [], resBuf := r.bytes, readPos := 0, firstByte := false,
                          cmd := none }
  | command (f : CmdExec → CmdExec) : PortMove p { p with cmd := p.cmd.map f }
  | nextByte (inResult : p.phase = .result) (more : p.readPos + 1 < p.resBuf.length) :
      PortMove p { p with readPos := p.readPos + 1, firstByte := true }
  | lastByte (inResult : p.phase = .result) :
      PortMove p { p with phase := .ready, resBuf := [], readPos := 0, firstByte := false }

/-- What can happen to the notice log: no block logs a GAP (R169 to R172), and CONFIGURE gives a mask (R158). -/
inductive NoticeMove (l : NoticeLog) : NoticeLog → Prop
  | log (n : Notice) (noGap : n.isGap = false) : NoticeMove l (l.log n)
  | sense : NoticeMove l l.afterSense
  | mask (m : BitVec 16) : NoticeMove l { l with mask := m }

/-- What can happen to one channel record but for the end of an ownership (R61, R62, R64, R65). -/
inductive ChannelMove (r : ChannelRec) : ChannelRec → Prop
  | opened (s : StationNo) (n : Option TimedLength) (unowned : r.owner = none) : ChannelMove r (.opened s n)
  | restated (s : StationNo) (n : Option TimedLength) (unowned : r.owner = none) : ChannelMove r (.restated s n)
  | live (ms : Nat) (guarded : r.guard = .openGuard ms) : ChannelMove r r.nowLive
  | free (ms : Nat) (guarded : r.guard = .drainGuard ms) : ChannelMove r r.nowFree

/-- What can happen to the claim table on the line: a channel record changes; ownerships end and claims go (R67 to R69,
R94, R96); or a CLAIM is taken (R89, R90). The last two leave no comparison record behind (R97). -/
inductive TableMove (t : ClaimTable) : ClaimTable → Prop
  | channel (c : Channel) (r : ChannelRec) (h : ChannelMove t.channels[c] r) :
      TableMove t (t.withTables (t.channels.set c r) t.zones)
  | removal (t' : ClaimTable) (ended : Channel → Bool) (kept : Zone → Claim → Bool) (digest : t'.DigestCurrent)
      (channels : ∀ c : Channel, t'.channels[c] = if ended c then ChannelRec.drained else t.channels[c])
      (zones : ∀ k : Zone, t'.zones[k] = t.zones[k].filter fun cl => !ended cl.channel && kept k cl)
      (comparison : t'.comparison = none) : TableMove t t'
  | claim (t' : ClaimTable) (cl : Claim) (owned : t.channels[cl.channel].owner = some cl.station)
      (digest : t'.DigestCurrent) (channels : t'.channels = t.channels)
      (zones : ∀ k : Zone, t'.zones[k] = t.zones[k] ∨ t'.zones[k] = (applyClaim cl t.zones[k]).list)
      (comparison : t'.comparison = none) : TableMove t t'

/-- What can happen to the line controller on the line. -/
inductive LineMove (l : Line) : Line → Prop
  | outbound (q : List OutEntry) (n : Nat) (seen : Bool) (room : l.outq.length ≤ outCapacity → q.length ≤ outCapacity)
      (below : l.fails < attemptLimit → n < attemptLimit) :
      LineMove l { l with outq := q, fails := n, vetoSeen := seen }
  | attempt (f : Attempt → Attempt) : LineMove l { l with attempt := l.attempt.map f }
  | givesUp : LineMove l { l with attempt := none }
  | begins (a : Attempt) (empty : l.inq = []) (idle : l.receiver = .idle) :
      LineMove l { l with attempt := some a, receiver := .frame }
  | slots : LineMove l { l with receiver := .slots }
  | receives (bits : List Bool) (noAttempt : l.attempt = none) :
      LineMove l { l with receiver := .slots, reception := some (receptionOf bits) }
  | bits (r : Receiver) (n : Nat) (between : l.receiver = .gap ∨ l.receiver = .idle) :
      LineMove l { l with receiver := r, gapBits := n }
  | slotsEnd : LineMove l { l with receiver := .gap, gapBits := 0, attempt := none, reception := none }
  | accepts (f : Frame) (mark : Option Origin) (room : l.inq.length < inCapacity ∨ l.attempt.isSome)
      (received : mark = none → l.reception = some (.good f)) :
      LineMove l { l with receiver := .gap, gapBits := 0, attempt := none, reception := none,
                          inq := l.inq ++ [{ frame := f, mark := mark }], vetoCount := 0 }
  | vetoes (n : Nat) (below : n < vetoLimitCount) : LineMove l { l with vetoCount := n }
  | halts : LineMove l { l with halt := true }

/-- What can happen to the membership unit on the line. A peer that is added sent a frame that waits for its
processing (R38, R39). -/
inductive MembMove (z : Zs32) : Membership → Prop
  | shrinks (m : Membership) (state : m.state = z.memb.state) (roster : m.roster.Sublist z.memb.roster)
      (held : m.evictHeld.Sublist z.memb.evictHeld) : MembMove z m
  | entries (f : RosterEntry → RosterEntry) (same : ∀ e, (f e).station = e.station) :
      MembMove z { z.memb with roster := z.memb.roster.map f }
  | joined (listening : z.memb.state = .listening) : MembMove z { z.memb with state := .joined }
  | holds (x : StationNo) (new : x ∉ z.memb.evictHeld) :
      MembMove z { z.memb with evictHeld := insertStation x z.memb.evictHeld }
  | adds (e : RosterEntry) (f : InFrame) (onLine : z.onLine = true) (waits : f ∈ z.line.inq) (peer : f.mark = none)
      (sender : f.frame.sender = e.station) (other : e.station ≠ z.me)
      (new : ∀ y ∈ z.memb.roster, y.station ≠ e.station) :
      MembMove z { z.memb with roster := insertEntry e z.memb.roster }

/-- One move of the station. Where `on` holds, the moves of the blocks on the line are those of a station on the line,
which a quiet station off the line does not make (R32). -/
inductive Move (on : Prop) (z : Zs32) : Zs32 → Prop
  | tick : Move on z z.tick
  | pinReset : Move on z z.pinReset
  | rst (r : ResetPin) : Move on z { z with rst := r }
  | port {p : Port} (h : PortMove z.port p) : Move on z { z with port := p }
  | notices {l : NoticeLog} (h : NoticeMove z.notices l) : Move on z { z with notices := l }
  | audio (m : Mixer) (a : Audio)
      (outputs : ∀ o : Fin 4, m.outputs[o].state = z.mixer.outputs[o].state ∧
        m.outputs[o].chime = z.mixer.outputs[o].chime) : Move on z { z with mixer := m, audio := a }
  | finish : Move on z z.finishFrame
  | configures (setup : Setup) (binds : Vector (Option Zone) 4) (mask : BitVec 16) (off : z.onLine = false) :
      Move on z (z.configured setup binds mask)
  | joins (off : z.memb.state = .offline) (waits : z.port.phase = .ready ∨ z.port.phase = .command) :
      Move on z z.takeJoin
  | leaves (st : StationState) (r : Result) (off : st = .offline ∨ st = .clashed) :
      Move on z ((z.leaveLine st).endCommand r)
  | rejoins : Move on z (z.rejoinWith none)
  | executes (e : CmdExec) (w : on → z.onLine = true) (waits : z.port.phase = .ready ∨ z.port.phase = .command) :
      Move on z { z with port := { z.port with phase := .executing, cmdBuf := [], cmd := some e } }
  | line {l : Line} (w : on → z.onLine = true) (h : LineMove z.line l) : Move on z { z with line := l }
  | memb {m : Membership} (w : on → z.onLine = true) (h : MembMove z m) : Move on z { z with memb := m }
  | source (s : Source) (w : on → z.onLine = true) : Move on z { z with source := s }
  | mixer (m : Mixer) (w : on → z.onLine = true) : Move on z { z with mixer := m }
  | table {t : ClaimTable} (w : on → z.onLine = true) (h : TableMove z.table t) : Move on z { z with table := t }

/-- A sequence of moves of a station on the line that stays there. -/
def Works (on : Prop) (z z' : Zs32) : Prop :=
  (on → z.onLine = true) → Relation.ReflTransGen (Move on) z z' ∧ (on → z'.onLine = true)

/-- A sequence of moves of a station on the line, which may leave the line. -/
def Goes (on : Prop) (z z' : Zs32) : Prop := (on → z.onLine = true) → Relation.ReflTransGen (Move on) z z'

section Combinators
variable {on : Prop} {z u v : Zs32}

theorem Works.refl (z : Zs32) : Works on z z := fun w => ⟨.refl, w⟩

theorem Works.trans (h : Works on z u) (k : Works on u v) : Works on z v := fun w =>
  have ⟨toU, w⟩ := h w
  have ⟨toV, w⟩ := k w
  ⟨toU.trans toV, w⟩

theorem Works.goes (h : Works on z u) : Goes on z u := fun w => (h w).1

theorem Works.then (h : Works on z u) (k : Goes on u v) : Goes on z v := fun w =>
  have ⟨toU, w⟩ := h w
  toU.trans (k w)

theorem Goes.move (h : Goes on z u) (k : Move on u v) : Goes on z v := fun w => (h w).tail k

/-- A move that leaves the station state alone keeps the station on the line. -/
theorem Works.of_move (h : (on → z.onLine = true) → Move on z u) (state : u.memb.state = z.memb.state) :
    Works on z u := fun w => ⟨.single (h w), by simpa only [Zs32.onLine, state] using w⟩

theorem Works.port {p : Port} (h : PortMove z.port p) : Works on z { z with port := p } :=
  .of_move (fun _ => .port h) rfl

theorem Works.notices {l : NoticeLog} (h : NoticeMove z.notices l) : Works on z { z with notices := l } :=
  .of_move (fun _ => .notices h) rfl

theorem Works.line {l : Line} (h : LineMove z.line l) : Works on z { z with line := l } :=
  .of_move (fun w => .line w h) rfl

theorem Works.source (s : Source) : Works on z { z with source := s } := .of_move (fun w => .source s w) rfl

theorem Works.mixer (m : Mixer) : Works on z { z with mixer := m } := .of_move (fun w => .mixer m w) rfl

theorem Works.table {t : ClaimTable} (h : TableMove z.table t) : Works on z { z with table := t } :=
  .of_move (fun w => .table w h) rfl

theorem Works.memb {m : Membership} (h : MembMove z m) (state : m.state = z.memb.state) :
    Works on z { z with memb := m } := .of_move (fun w => .memb w h) state

/-- A change of the membership unit that removes entries and held requests at most. -/
theorem Works.shrinks {m : Membership} (state : m.state = z.memb.state) (roster : m.roster.Sublist z.memb.roster)
    (held : m.evictHeld.Sublist z.memb.evictHeld) : Works on z { z with memb := m } :=
  .memb (.shrinks m state roster held) state

/-- A change of the membership unit besides its state, its roster and its held requests. -/
theorem Works.marks {m : Membership} (state : m.state = z.memb.state) (roster : m.roster = z.memb.roster)
    (held : m.evictHeld = z.memb.evictHeld) : Works on z { z with memb := m } :=
  .shrinks state (roster ▸ .refl _) (held ▸ .refl _)

theorem Works.executes (e : CmdExec) (waits : z.port.phase = .ready ∨ z.port.phase = .command) :
    Works on z { z with port := { z.port with phase := .executing, cmdBuf := [], cmd := some e } } :=
  .of_move (fun w => .executes e w waits) rfl

/-- Where the station is quiet off the line and stays as it is there, the moves on the line are all. -/
theorem Goes.of_idle {f : Zs32 → Zs32} (h : Goes on z (f z)) (ok : on → z.LineOk)
    (idle : z.Quiet → f z = z) : Relation.ReflTransGen (Move on) z (f z) := by
  by_cases w : on → z.onLine = true
  · exact h w
  · obtain ⟨holds, off⟩ := Classical.not_imp.1 w
    rw [idle ((ok holds).1 (Bool.eq_false_iff.2 off))]

end Combinators

/-! ### The shared operations as moves -/

section Operations
variable {on : Prop} {z : Zs32}

theorem Zs32.log_works (n : Notice) (noGap : n.isGap = false) : Works on z (z.log n) := .notices (.log n noGap)

theorem Zs32.logAll_works (ns : List Notice) (noGap : ∀ n ∈ ns, n.isGap = false) :
    Works on z { z with notices := z.notices.logAll ns } := by
  induction ns generalizing z with
  | nil => exact .refl z
  | cons n rest ih =>
    obtain ⟨head, tail⟩ := List.forall_mem_cons.1 noGap
    exact (Zs32.log_works n head).trans (ih (z := z.log n) tail)

theorem Zs32.formResult_works (r : Result) : Works on z (z.formResult r) := .port (.result r)

theorem Zs32.endCommand_works (r : Result) : Works on z (z.endCommand r) := by
  unfold Zs32.endCommand
  split
  · exact Zs32.formResult_works r
  · exact .refl z

theorem Zs32.setStage_works (st : Stage) : Works on z (z.setStage st) := .port (.command _)

theorem Zs32.outbound_works (q : List OutEntry) (n : Nat) (seen : Bool)
    (room : z.line.outq.length ≤ outCapacity → q.length ≤ outCapacity)
    (below : z.line.fails < attemptLimit → n < attemptLimit) :
    Works on z { z with line := { z.line with outq := q, fails := n, vetoSeen := seen } } :=
  .line (.outbound q n seen room below)

theorem Zs32.enqueue_works (p : Placed) (o : Origin) (room : z.hasRoom = true) : Works on z (z.enqueue p o) := by
  refine Zs32.outbound_works (z.line.outq ++ [_]) _ _ (fun _ => ?_) id
  rw [List.length_append, List.length_singleton]
  exact of_decide_eq_true room

theorem Zs32.dropHead_works : Works on z z.dropHead := by
  refine Zs32.outbound_works z.line.outq.tail 0 false (fun h => ?_) fun _ => by decide
  rw [List.length_tail]
  exact (Nat.sub_le _ _).trans h

theorem Zs32.onInput_works (i : Input) (f : InputRec → InputRec) : Works on z (z.onInput i f) := .source _

theorem Zs32.grants_works (z : Zs32) : Works on z z.grants := by
  obtain ⟨rst, clock, setup, table, mixer, audio, port, notices, line, memb, inA, inB⟩ := z.grants_frame
  obtain ⟨-, -, -, held, -⟩ := z.grants_grantedTo
  have toLine : Works on z { z with line := z.grants.line } := by
    rw [line]
    exact Zs32.outbound_works _ _ _ z.grants_tail.2 id
  have toMemb : Works on { z with line := z.grants.line } { z with line := z.grants.line, memb := z.grants.memb } :=
    .shrinks (by rw [memb]) (by rw [memb]) (by rw [held]; exact List.drop_sublist _ _)
  have toSource : Works on { z with line := z.grants.line, memb := z.grants.memb } z.grants := by
    have h : z.grants = { z with line := z.grants.line, memb := z.grants.memb, source := z.grants.source } := by
      rw [← rst, ← clock, ← setup, ← table, ← mixer, ← audio, ← port, ← notices]
    rw [h]
    exact .source _
  exact (toLine.trans toMemb).trans toSource

theorem Zs32.emptyOutbound_works : Works on z z.emptyOutbound := by
  refine .trans (u := { z with line := { z.line with outq := [], fails := 0, vetoSeen := false } })
    (Zs32.outbound_works _ _ _ (fun _ => by decide) fun _ => by decide) ?_
  refine .trans (.line (.attempt fun a => { a with dropped := true })) ?_
  refine .trans (.marks (m := { z.memb with presenceQueued := false, evictQueued := [] }) rfl rfl rfl) ?_
  refine .trans (.source { inA := z.source.inA.unqueue (z.line.holdsAutoClose .a)
                           inB := z.source.inB.unqueue (z.line.holdsAutoClose .b) }) ?_
  exact .port (.command fun c => { c with stage := c.stage.detach })

theorem Zs32.rejoinWith_works (n : Option Notice) (noGap : ∀ m ∈ n, m.isGap = false) :
    Works on z (z.rejoinWith n) := by
  have rejoins (u : Zs32) : Works on u (u.rejoinWith none) := fun _ => ⟨.single .rejoins, fun _ => rfl⟩
  cases n with
  | none => exact rejoins z
  | some n => exact (Zs32.log_works n (noGap n rfl)).trans (rejoins (z.log n))

theorem Zs32.leaveLine_goes (st : StationState) (r : Result) (off : st = .offline ∨ st = .clashed) :
    Goes on z ((z.leaveLine st).endCommand r) := fun _ => .single (.leaves st r off)

theorem RejoinCause.notice_isGap (cause : RejoinCause) : cause.notice.isGap = false := by cases cause <;> rfl

theorem Zs32.rejoin_goes (cause : RejoinCause) : Goes on z (z.rejoin cause) := by
  unfold Zs32.rejoin
  split
  · exact Zs32.leaveLine_goes _ _ (.inl rfl)
  · refine ((Zs32.rejoinWith_works _ ?_).trans (Zs32.endCommand_works _)).goes
    rintro m ⟨⟩
    exact cause.notice_isGap

theorem Zs32.clash_goes (reason : ClashReason) : Goes on z (z.clash reason) :=
  (Zs32.log_works (.clashed reason) rfl).then (Zs32.leaveLine_goes (z := z.log _) _ _ (.inr rfl))

theorem Zs32.startRestate_works : Works on z z.startRestate :=
  .trans (.marks (m := { z.memb with restateRun := true, cursor := .openStep 0 }) rfl rfl rfl) (Zs32.grants_works _)

/-! ### Requests -/

theorem Zs32.askPresence_works : Works on z z.askPresence := by
  unfold Zs32.askPresence
  split
  · next room => exact (Zs32.enqueue_works _ _ room).trans (.marks rfl rfl rfl)
  · exact .marks rfl rfl rfl

theorem Zs32.askEvict_works (x : StationNo) : Works on z (z.askEvict x) := by
  unfold Zs32.askEvict
  split
  · exact .refl z
  · next asks =>
    split
    · next room => exact (Zs32.enqueue_works _ _ room).trans (.marks rfl rfl rfl)
    · exact .memb (.holds x fun held => asks (.inr (.inr (.inr held)))) rfl

theorem Zs32.placeAutoClose_works (i : Input) (c : Channel) (room : z.hasRoom = true) :
    Works on z (z.placeAutoClose i c) := (Zs32.enqueue_works _ _ room).trans (Zs32.onInput_works _ _)

theorem Zs32.askAutoClose_works (i : Input) : Works on z (z.askAutoClose i) := by
  unfold Zs32.askAutoClose
  split
  · exact .refl z
  · split
    · exact .refl z
    · split
      · next room => exact Zs32.placeAutoClose_works _ _ room
      · exact Zs32.onInput_works _ _

theorem Zs32.reaskAutoClose_works (c : Channel) : Works on z (z.reaskAutoClose c) := by
  unfold Zs32.reaskAutoClose
  split
  · exact .refl z
  · split
    · exact Zs32.askAutoClose_works _
    · exact .refl z

/-! ### The roster and the claim table -/

theorem Zs32.onEntry_works (x : StationNo) (f : RosterEntry → RosterEntry) (same : ∀ e, (f e).station = e.station) :
    Works on z (z.onEntry x f) := by
  refine .memb (.entries (fun e => if e.station = x then f e else e) fun e => ?_) rfl
  split
  · exact same e
  · rfl

theorem Zs32.hearPeer_works (x : StationNo) : Works on z (z.hearPeer x) := by
  unfold Zs32.hearPeer
  split
  · exact Zs32.onEntry_works x _ fun _ => rfl
  · exact .refl z

theorem Zs32.knows_eq_false_iff (x : StationNo) (z : Zs32) :
    z.knows x = false ↔ ∀ e ∈ z.memb.roster, e.station ≠ x := by
  simp [Zs32.knows]

theorem Zs32.addEntry_works {f : InFrame} (onLine : z.onLine = true) (waits : f ∈ z.line.inq) (peer : f.mark = none)
    (other : f.frame.sender ≠ z.me) (new : ∀ e ∈ z.memb.roster, e.station ≠ f.frame.sender) :
    Works on z (z.addEntry f.frame.sender) := .memb (.adds _ f onLine waits peer rfl other new) rfl

theorem Zs32.setChannel_works (c : Channel) (r : ChannelRec) (h : ChannelMove z.table.channels[c] r) :
    Works on z (z.setChannel c r) := .table (.channel c r h)

theorem Zs32.channelLive_works (c : Channel) : Works on z (z.channelLive c) := .mixer _

theorem Zs32.compareNotices_isGap (x : CompareContext) (recs : Vector ZoneRecord 32) (z : Zs32) :
    ∀ n ∈ z.compareNotices x recs, n.isGap = false := by
  intro n hn
  obtain ⟨k, -, hn⟩ := List.mem_flatMap.1 hn
  rcases List.mem_append.1 hn with hn | hn
  · unfold zoneChangeNotice at hn
    split at hn <;> simp_all [Notice.isGap]
  · unfold leadNotice at hn
    repeat' split at hn
    all_goals simp_all [Notice.isGap]

/-- The end of a processing with its comparison: the tables move, the mixer is told and notices are logged. -/
theorem Zs32.compare_works {t : ClaimTable} {recs : Vector ZoneRecord 32} (x : CompareContext)
    (started : t.comparison = some recs) (h : TableMove z.table (Zs32.compare x { z with table := t }).table) :
    Works on z (Zs32.compare x { z with table := t }) := by
  simp only [Zs32.compare, started] at h ⊢
  exact (Works.table h).trans <| .trans (.mixer _) <|
    Zs32.logAll_works _ (Zs32.compareNotices_isGap x recs { z with table := t })

end Operations

end Sys2Proof.Machine
end

section
/-! Every step as a sequence of moves: frame processing, the control pair, the host port and the timers. -/

namespace Sys2Proof.Machine

section Processing
variable {on : Prop} {z : Zs32}

/-! ### The claim table's processings with their comparison -/

/-- A processing that changes the tables only and then compares is moves of the table, the mixer and the log. -/
theorem ComparesWith.compare_works {u : Zs32} (h : ComparesWith z u) (x : CompareContext)
    (frame : u = { z with table := u.table }) (moved : TableMove z.table (u.compare x).table) :
    Works on z (u.compare x) := by
  obtain ⟨started, -⟩ := h
  generalize u.table = t at frame started
  subst frame
  exact Zs32.compare_works x started moved

theorem ComparesWith.compare_comparison {u : Zs32} (h : ComparesWith z u) (x : CompareContext) :
    (u.compare x).table.comparison = none := by
  rw [Zs32.compare, h.1]

theorem Zs32.purge_works (x : StationNo) : Works on z (z.purge x) := by
  obtain ⟨compares, -⟩ := z.endings_comparesWith x (z.takeComparison.channelsOf x)
  refine compares.compare_works _ ?_ ?_
  · have frame := Zs32.foldl_endOwnership_frame (z.takeComparison.channelsOf x) z.takeComparison
    generalize (z.takeComparison.channelsOf x).foldl (fun z c => z.endOwnership c) z.takeComparison = w at frame
    rw [frame]
    rfl
  · obtain ⟨⟨channels, lists⟩, digest, -⟩ := z.removeEntry_purgedAndLost x .bye
    exact .removal (z.purge x).table (fun c => decide (z.table.channels[c].owner = some x))
      (fun _ cl => decide (cl.station ≠ x)) digest
      (fun c => by simp only [z.purge_channel x c, decide_eq_true_eq])
      (fun k => by simp only [z.purge_zone x k, decide_not]) (z.purge_comparison x)

theorem Zs32.eraseEntry_works (x : StationNo) : Works on z (z.eraseEntry x) :=
  .shrinks rfl (List.filter_sublist) (List.filter_sublist)

theorem Zs32.removeEntry_works (x : StationNo) (reason : LostReason) : Works on z (z.removeEntry x reason) :=
  ((Zs32.purge_works x).trans (Zs32.eraseEntry_works x)).trans (Zs32.log_works _ rfl)

theorem Zs32.endOwnership_comparesWith (c : Channel) (z : Zs32) :
    ComparesWith z (z.takeComparison.endOwnership c) := z.takeComparison_comparesWith.setTables _ _

theorem Zs32.closeCompared_works (c : Channel) (x : CompareContext) :
    Works on z ((z.takeComparison.endOwnership c).compare x) := by
  have compares := z.endOwnership_comparesWith c
  refine compares.compare_works x rfl ?_
  refine .removal _ (fun k => decide (k = c)) (fun _ _ => true) ?_ (fun k => ?_) (fun k => ?_)
    (compares.compare_comparison x)
  · simp only [ClaimTable.DigestCurrent, Zs32.compare_table_digest, Zs32.compare_table_channels,
      Zs32.compare_table_zones]
    rfl
  · rw [Zs32.compare_table_channels, Zs32.endOwnership_channels, Zs32.takeComparison_table_channels]
    simp only [Fin.getElem_fin, Vector.getElem_set, decide_eq_true_eq, Fin.ext_iff, @eq_comm _ k.val]
  · simp only [Zs32.compare_table_zones, Zs32.endOwnership_zone, Zs32.takeComparison_table_zones, decide_not,
      Bool.and_true]

theorem Zs32.dropCompared_works (s : StationNo) (zones : ZoneSet) (x : CompareContext) :
    Works on z ((z.takeComparison.dropClaims s zones).compare x) := by
  have compares : ComparesWith z (z.takeComparison.dropClaims s zones) := z.takeComparison_comparesWith.setTables _ _
  refine compares.compare_works x rfl ?_
  refine .removal _ (fun _ => false) (fun k cl => !zones.getLsbD k.val || decide (cl.station ≠ s)) ?_ (fun k => ?_)
    (fun k => ?_) (compares.compare_comparison x)
  · simp only [ClaimTable.DigestCurrent, Zs32.compare_table_digest, Zs32.compare_table_channels,
      Zs32.compare_table_zones]
    rfl
  · simp only [Zs32.compare_table_channels, Zs32.dropClaims_table_channels, Zs32.takeComparison_table_channels,
      Bool.false_eq_true, if_false]
  · have zone : (z.takeComparison.dropClaims s zones).table.zones[k] =
        if zones.getLsbD k.val then withoutStation s z.table.zones[k] else z.table.zones[k] := tabulate_get _ k
    rw [Zs32.compare_table_zones, zone]
    split
    · next inSet => simp only [withoutStation, inSet, Bool.not_false, Bool.true_and, Bool.not_true, Bool.false_or]
    · next outside =>
      have outside : zones.getLsbD k.val = false := Bool.eq_false_iff.2 outside
      simp only [outside, Bool.not_false, Bool.true_or, Bool.and_true, List.filter_true]

/-- A CLAIM that is taken is a comparison of new lists, with their digest (R90, R97, R107). -/
theorem Zs32.applyClaims_compares (cl : Claim) (zones : ZoneSet) (own : Bool) (z : Zs32) : ∃ u x,
    z.applyClaims cl zones own = Zs32.compare x u ∧ ComparesWith z u ∧ u = { z with table := u.table } ∧
      u.table.channels = z.table.channels ∧ u.table.DigestCurrent ∧
      ∀ k : Zone, u.table.zones[k] =
        if zones.getLsbD k.val then (applyClaim cl z.table.zones[k]).list else z.table.zones[k] := by
  cases own with
  | true =>
    obtain ⟨t, frame⟩ := z.ownClaimed_frame cl zones
    exact ⟨z.ownClaimed cl zones, z.ownClaimContext cl zones, rfl, z.ownClaimed_comparesWith cl zones,
      by rw [frame], z.ownClaimed_channels cl zones, z.ownClaimed_digest cl zones, z.ownClaimed_zone cl zones⟩
  | false =>
    refine ⟨_, _, rfl, z.takeComparison_comparesWith.setTables _ _, rfl, Zs32.setTables_channels _ _ _,
      ClaimTable.withTables_digest _ _ _, fun k => ?_⟩
    rw [Zs32.setTables_zones, tabulate_get, Zs32.claimChanges, tabulate_get]
    split <;> rfl

theorem Zs32.applyClaims_works (cl : Claim) (zones : ZoneSet) (own : Bool)
    (owned : z.table.channels[cl.channel].owner = some cl.station) : Works on z (z.applyClaims cl zones own) := by
  obtain ⟨u, x, eq, compares, frame, channels, digest, lists⟩ := z.applyClaims_compares cl zones own
  rw [eq]
  refine compares.compare_works x frame (.claim _ cl owned ?_ ?_ (fun k => ?_) (compares.compare_comparison x))
  · simpa only [ClaimTable.DigestCurrent, Zs32.compare_table_digest, Zs32.compare_table_channels,
      Zs32.compare_table_zones] using digest
  · rw [Zs32.compare_table_channels, channels]
  · rw [Zs32.compare_table_zones, lists]
    split
    · exact .inr rfl
    · exact .inl rfl

/-! ### Each kind of frame -/

theorem processHello_works {f : InFrame} (onLine : z.onLine = true) (waits : f ∈ z.line.inq)
    (other : f.mark = none → f.frame.sender ≠ z.me) :
    Works on z (processHello f z) := by
  unfold processHello
  split
  · exact Zs32.endCommand_works _
  · exact .refl z
  · next peer =>
    have gone : Works on z (if z.knows f.frame.sender then z.removeEntry f.frame.sender .restart else z) := by
      split
      · exact Zs32.removeEntry_works _ _
      · exact .refl z
    have added : Works on z
        ((if z.knows f.frame.sender then z.removeEntry f.frame.sender .restart else z).addEntry f.frame.sender) := by
      refine gone.trans ?_
      split
      · next known =>
        rw [Zs32.removeEntry_removed]
        refine Zs32.addEntry_works onLine waits peer (other peer) fun e he => ?_
        exact of_decide_eq_true (List.mem_filter.1 he).2
      · next unknown =>
        exact Zs32.addEntry_works onLine waits peer (other peer)
          ((Zs32.knows_eq_false_iff _ z).1 (Bool.eq_false_iff.2 unknown))
    have logged := added.trans (Zs32.log_works (.peerJoined f.frame.sender) rfl)
    dsimp only
    generalize ((if z.knows f.frame.sender then z.removeEntry f.frame.sender .restart else z).addEntry
      f.frame.sender).log (.peerJoined f.frame.sender) = u at logged
    split
    · exact logged.trans Zs32.startRestate_works
    · exact logged

theorem processBye_goes (f : InFrame) : Goes on z (processBye f z) := by
  unfold processBye
  split
  · exact Zs32.leaveLine_goes _ _ (.inl rfl)
  · split
    · exact (Zs32.removeEntry_works _ _).goes
    · exact (Works.refl z).goes

theorem Zs32.compareDigest_goes (x : StationNo) (d : Digest) : Goes on z (z.compareDigest x d) := by
  unfold Zs32.compareDigest
  split
  · exact Works.goes (.marks rfl rfl rfl)
  · split
    · exact Zs32.rejoin_goes _
    · exact Works.goes (.trans (Zs32.log_works (.digestMismatch x d) rfl) (.marks rfl rfl rfl))

theorem processPresence_goes (f : InFrame) : Goes on z (processPresence f z) := by
  unfold processPresence
  split
  · next interval digest _ _ =>
    have recorded := Zs32.onEntry_works (on := on) (z := z) f.frame.sender
      (fun e => { e with interval := some interval, digest := some digest }) fun _ => rfl
    dsimp only
    generalize z.onEntry f.frame.sender (fun e => { e with interval := some interval, digest := some digest }) = u
      at recorded
    split
    · exact (recorded.trans (Zs32.hearPeer_works _)).then (Zs32.compareDigest_goes _ _)
    · exact recorded.goes
  · exact (Works.refl z).goes

theorem processEvict_goes (f : InFrame) : Goes on z (processEvict f z) := by
  unfold processEvict
  split
  · split
    · exact Zs32.rejoin_goes _
    · split
      · exact (Zs32.removeEntry_works _ _).goes
      · exact (Works.refl z).goes
  · exact (Works.refl z).goes

theorem processOpen_works (f : InFrame) : Works on z (processOpen f z) := by
  unfold processOpen
  split
  · next c i length _ _ =>
    split
    · next unowned =>
      have opened := Zs32.setChannel_works (on := on) c _ (.opened f.frame.sender length unowned)
      dsimp only
      split
      · exact (opened.trans (Zs32.onInput_works _ _)).trans (Zs32.endCommand_works _)
      · exact opened
    · dsimp only
      split
      · exact (Zs32.onInput_works _ _).trans (Zs32.endCommand_works _)
      · exact .refl z
  · exact .refl z

theorem processRestateOpen_works (f : InFrame) : Works on z (processRestateOpen f z) := by
  unfold processRestateOpen
  split
  · split
    · next unowned => exact (Zs32.setChannel_works _ _ (.restated _ _ unowned)).trans (Zs32.channelLive_works _)
    · exact .refl z
  · exact .refl z

theorem Zs32.endMerged_works (i : Input) (r : Result) : Works on z (z.endMerged i r) := by
  unfold Zs32.endMerged
  split
  · exact (Zs32.onInput_works _ _).trans (Zs32.endCommand_works _)
  · exact .refl z

theorem Zs32.ownCloseTaken_works (c : Channel) (origin : Origin) (bound : Option Input) :
    Works on z (z.ownCloseTaken c origin bound) := by
  have released : Works on z (bound.elim z fun i => z.onInput i InputRec.release) := by
    cases bound with
    | none => exact .refl z
    | some i => exact Zs32.onInput_works _ _
  cases origin with
  | host => exact released.trans (Zs32.endCommand_works _)
  | membership => exact released
  | source i => exact (released.trans (Zs32.log_works _ rfl)).trans (Zs32.endMerged_works _ _)

theorem Zs32.ownCloseRefused_works (origin : Origin) : Works on z (z.ownCloseRefused origin) := by
  cases origin with
  | host => exact Zs32.endCommand_works _
  | membership => exact .refl z
  | source i => exact (Zs32.onInput_works _ _).trans (Zs32.endMerged_works _ _)

theorem processClose_works (f : InFrame) : Works on z (processClose f z) := by
  unfold processClose
  split
  · next c auto _ =>
    split
    · refine (Zs32.closeCompared_works c (CompareContext.plain .closed)).trans ?_
      dsimp only
      cases f.mark with
      | none => exact .refl _
      | some origin => exact Zs32.ownCloseTaken_works _ _ _
    · cases f.mark with
      | none => exact .refl _
      | some origin => exact Zs32.ownCloseRefused_works _
  · exact .refl z

theorem processClaim_works (f : InFrame) : Works on z (processClaim f z) := by
  unfold processClaim
  split
  · exact .refl z
  · next cl zones _ =>
    split
    · next owned =>
      have taken := Zs32.applyClaims_works (on := on) cl zones f.mark.isSome owned
      dsimp only
      split
      · exact taken.trans (Zs32.endCommand_works _)
      · exact taken
    · split
      · exact Zs32.endCommand_works _
      · exact .refl z

theorem processRestateClaim_works (f : InFrame) : Works on z (processRestateClaim f z) := by
  unfold processRestateClaim
  split
  · exact .refl z
  · split
    · next owned => exact Zs32.applyClaims_works _ _ _ owned
    · exact .refl z

theorem processDrop_works (f : InFrame) : Works on z (processDrop f z) := by
  unfold processDrop
  split
  · have dropped := Zs32.dropCompared_works (on := on) (z := z) f.frame.sender ‹_› (CompareContext.plain .dropped)
    dsimp only
    split
    · exact dropped.trans (Zs32.endCommand_works _)
    · exact dropped
  · exact .refl z

/-! ### The sender check and the row -/

/-- What the sender check makes of a frame is moves where its processing is, on a station that heard or added the
sender (R39). -/
theorem Zs32.checkSender_goes {f : InFrame} {process : Zs32 → Zs32} (onLine : z.onLine = true)
    (waits : f ∈ z.line.inq)
    (h : ∀ u : Zs32, u.onLine = true → f ∈ u.line.inq → (f.mark = none → f.frame.sender ≠ u.me) →
      Goes on u (process u)) :
    Goes on z (z.checkSender f process) := by
  unfold Zs32.checkSender
  split
  · next own => exact h z onLine waits fun peer => nomatch peer ▸ own
  · next noMark =>
    have peer : f.mark = none := by simpa using noMark
    split
    · exact Zs32.clash_goes _
    · next other =>
      split
      · exact h z onLine waits fun _ => other
      · split
        · refine (Zs32.hearPeer_works _).then (h _ (by simpa [Zs32.onLine] using onLine) (by simpa) fun _ => ?_)
          simpa [Zs32.me] using other
        · next unknown =>
          split
          · refine (Zs32.addEntry_works onLine waits peer other ?_).then (h _ onLine waits fun _ => other)
            exact (Zs32.knows_eq_false_iff _ z).1 (Bool.eq_false_iff.2 unknown)
          · exact Zs32.rejoin_goes _

theorem Zs32.processHead_goes {fits : FrameBody → Bool} {process : InFrame → Zs32 → Zs32}
    (h : ∀ (f : InFrame) (u : Zs32), u.onLine = true → f ∈ u.line.inq → (f.mark = none → f.frame.sender ≠ u.me) →
      Goes on u (process f u)) : Goes on z (z.processHead fits process) := by
  unfold Zs32.processHead
  split
  · exact (Works.refl z).goes
  · next f rest head =>
    split
    · next fits =>
      have onLine := (Bool.and_eq_true_iff.1 fits).1
      exact (Zs32.checkSender_goes onLine (by simp [head]) (h f)).move .finish
    · exact (Works.refl z).goes

/-- A quiet station processes no frame (R32). -/
theorem Zs32.processHead_of_quiet (quiet : z.Quiet) (fits : FrameBody → Bool) (process : InFrame → Zs32 → Zs32) :
    z.processHead fits process = z := by
  obtain ⟨-, -, empty, -⟩ := quiet
  rw [Zs32.processHead, empty]

end Processing

/-! ### The control pair -/

section LineEvents
variable {on : Prop} {z : Zs32}

theorem Zs32.endCommand_port_congr {u : Zs32} (h : u.port = z.port) (r : Result) :
    (u.endCommand r).port = (z.endCommand r).port := by
  unfold Zs32.endCommand
  rw [h]
  split
  · rw [Zs32.formResult_port, Zs32.formResult_port, h]
  · exact h

theorem Zs32.withdrawHead_port (e : OutEntry) (r : Option ResultCode) (z : Zs32) :
    (z.withdrawHead e r).port = z.port ∨
      ∃ c : ResultCode, (z.withdrawHead e r).port = (z.endCommand (.plain c)).port := by
  unfold Zs32.withdrawHead
  rw [Zs32.grants_port]
  split
  all_goals
    split
    · exact .inr ⟨_, Zs32.endCommand_port_congr z.dropHead_port _⟩
    · exact .inl rfl

theorem Zs32.withdrawHead_works (e : OutEntry) (r : Option ResultCode) : Works on z (z.withdrawHead e r) := by
  have ended : Works on z { z with port := (z.withdrawHead e r).port } := by
    rcases z.withdrawHead_port e r with kept | ⟨c, result⟩
    · rw [kept]
      exact .refl z
    · rw [result]
      exact Zs32.endCommand_eq (.plain c) z ▸ Zs32.endCommand_works (.plain c)
  rw [Zs32.withdrawHead_eq]
  refine .trans (.trans ended ?_) (Zs32.grants_works _)
  exact .trans Zs32.dropHead_works (.marks (m := (z.withdrawn e (z.withdrawHead e r).port).memb) rfl rfl rfl)

theorem Zs32.beginUpTo_works (n : Nat) (empty : z.line.inq = []) (idle : z.line.receiver = .idle) :
    Works on z (z.beginUpTo n) := by
  induction n generalizing z with
  | zero => exact .refl z
  | succ n ih =>
    unfold Zs32.beginUpTo
    split
    · exact .refl z
    · split
      · exact .line (.begins _ empty idle)
      · exact .refl z
      · exact (Zs32.withdrawHead_works _ _).trans (ih (by simpa) (by simpa))

theorem Zs32.attemptBegin_works : Works on z z.attemptBegin := by
  unfold Zs32.attemptBegin
  split
  · next may =>
    simp only [Zs32.mayBegin, Bool.and_eq_true, List.isEmpty_iff, decide_eq_true_eq] at may
    obtain ⟨⟨⟨⟨-, empty⟩, idle⟩, -⟩, -⟩ := may
    exact Zs32.beginUpTo_works _ empty idle
  · exact .refl z

theorem Zs32.removeHostEntry_works : Works on z z.removeHostEntry := by
  unfold Zs32.removeHostEntry
  split
  · exact .refl z
  · split
    · exact Zs32.dropHead_works
    · exact Zs32.outbound_works _ _ _ (fun h => (List.length_filter_le _ _).trans h) id

theorem Zs32.takeAbort_goes : Goes on z z.takeAbort := by
  unfold Zs32.takeAbort
  refine (Zs32.removeHostEntry_works.trans (Zs32.grants_works _)).then ?_
  dsimp only
  split
  · exact Zs32.leaveLine_goes _ _ (.inl rfl)
  · exact ((Zs32.rejoinWith_works none nofun).trans (Zs32.endCommand_works _)).goes
  · exact ((Zs32.endCommand_works _).trans (Zs32.reaskAutoClose_works _)).goes
  · exact (Zs32.endCommand_works _).goes

theorem Zs32.arbitrationWon_works (a : Attempt) (current : z.line.attempt = some a) :
    Works on z (z.arbitrationWon a) := by
  have sent : Works on z { z with line := { z.line with attempt := some { a with stage := .sending } } } := by
    have mapped : some { a with stage := .sending } = z.line.attempt.map fun a => { a with stage := .sending } := by
      rw [current, Option.map_some]
    rw [mapped]
    exact .line (.attempt _)
  unfold Zs32.arbitrationWon
  dsimp only
  split
  · exact sent.trans (.port (.command _))
  · exact sent

theorem Zs32.arbitrationLost_goes (a : Attempt) : Goes on z (z.arbitrationLost a) := by
  have lost : Works on z { z with line := { z.line with attempt := none } } := .line .givesUp
  unfold Zs32.arbitrationLost
  dsimp only
  split
  · exact lost.then Zs32.takeAbort_goes
  · exact lost.goes

theorem Zs32.arbitrationEnd_goes (rivals : List (BitVec 7)) : Goes on z (z.arbitrationEnd rivals) := by
  unfold Zs32.arbitrationEnd
  split
  · exact (Works.refl z).goes
  · next a current =>
    split
    · split
      · exact (Zs32.arbitrationWon_works a current).goes
      · exact Zs32.arbitrationLost_goes a
    · exact (Works.refl z).goes

theorem Zs32.clashReadBack_goes : Goes on z z.clashReadBack := by
  unfold Zs32.clashReadBack
  split
  · exact (Works.refl z).goes
  · split
    · exact Zs32.clash_goes _
    · exact (Works.refl z).goes

theorem Zs32.frameReceived_works (bits : List Bool) : Works on z (z.frameReceived bits) := by
  unfold Zs32.frameReceived
  split
  · split
    · next noAttempt => exact .line (.receives bits noAttempt)
    · next a current =>
      split
      · have mapped : some { a with stage := .slots } = z.line.attempt.map fun a => { a with stage := .slots } := by
          rw [current, Option.map_some]
        rw [mapped]
        exact .trans (u := { z with line := { z.line with attempt := z.line.attempt.map fun a =>
          { a with stage := .slots } } }) (.line (.attempt _)) (.line .slots)
      · exact .refl z
  · exact .refl z

theorem Zs32.dominantBit_works : Works on z z.dominantBit := by
  unfold Zs32.dominantBit
  split
  · next gap => exact .line (.bits z.line.receiver 0 (.inl gap))
  · next idle => exact .line (.bits .frame z.line.gapBits (.inr idle))
  all_goals exact .refl z

theorem Zs32.dominantInGap_works : Works on z z.dominantInGap := by
  unfold Zs32.dominantInGap
  split
  · next gap => exact .line (.bits z.line.receiver 0 (.inl gap))
  · exact .refl z

theorem Zs32.recessiveBits_works (n : Nat) : Works on z (z.recessiveBits n) := by
  unfold Zs32.recessiveBits
  split
  · next gap =>
    split
    · exact .line (.bits .idle 0 (.inl gap))
    · exact .line (.bits z.line.receiver _ (.inl gap))
  · exact .refl z

theorem Zs32.endSlots_works : Works on z z.endSlots := .line .slotsEnd

theorem Zs32.stopDriving_works (c : Channel) : Works on z (z.stopDriving c) := by
  unfold Zs32.stopDriving
  cases z.source.inputOf c with
  | none => exact .refl z
  | some i => exact Zs32.onInput_works i fun r => { r with driving := none }

theorem Zs32.acceptedEffect_works (b : FrameBody) : Works on z (z.acceptedEffect b) := by
  cases b with
  | hello =>
    unfold Zs32.acceptedEffect
    dsimp only
    split
    · exact .marks rfl rfl rfl
    · exact .refl z
  | presence => exact .marks rfl rfl rfl
  | evict => exact .marks rfl rfl rfl
  | openCh c i n restate =>
    cases restate with
    | true => exact .refl z
    | false => exact Zs32.onInput_works _ _
  | close => exact Zs32.stopDriving_works _
  | _ => exact .refl z

theorem Zs32.acceptOwn_works {a : Attempt} (current : z.line.attempt = some a) :
    Works on z (z.endSlots.acceptOwn a) := by
  have accepted : Works on z (z.endSlots.appendFrame a.frame (some a.origin)) :=
    .line (.accepts a.frame (some a.origin) (.inr (by rw [current]; rfl)) nofun)
  have took := (accepted.trans Zs32.dropHead_works).trans (Zs32.acceptedEffect_works a.frame.body)
  unfold Zs32.acceptOwn
  refine .trans ?_ (Zs32.grants_works _)
  split
  · exact took.trans (Zs32.setStage_works _)
  · exact took

theorem Zs32.disregardOutcome_works (a : Attempt) (accepted : Bool) : Works on z (z.disregardOutcome a accepted) := by
  unfold Zs32.disregardOutcome
  split
  · split
    · exact Zs32.stopDriving_works _
    · exact .refl z
  · exact .refl z

theorem Zs32.failedAttempt_works (a : Attempt) (veto : Bool) (below : z.line.fails + 1 < attemptLimit) :
    Works on z (z.failedAttempt a veto) := by
  have counted := Zs32.outbound_works (on := on) (z := z) z.line.outq (z.line.fails + 1) (z.line.vetoSeen || veto) id
    fun _ => below
  unfold Zs32.failedAttempt
  dsimp only
  split
  · exact counted.trans (Zs32.setStage_works _)
  · exact counted

theorem Zs32.removedEffect_works (b : FrameBody) (origin : Origin) : Works on z (z.removedEffect b origin) := by
  cases b with
  | presence => exact .marks rfl rfl rfl
  | evict => exact .marks rfl rfl rfl
  | close =>
    cases origin with
    | source i => exact Zs32.onInput_works i fun r => { r with request := .none }
    | host => exact .refl z
    | membership => exact .refl z
  | _ => exact .refl z

theorem Zs32.hostLineFault_goes (b : FrameBody) : Goes on z (z.hostLineFault b) := by
  cases b with
  | hello => exact Zs32.leaveLine_goes _ _ (.inl rfl)
  | bye => exact Zs32.leaveLine_goes _ _ (.inl rfl)
  | close c auto => exact ((Zs32.endCommand_works _).trans (Zs32.reaskAutoClose_works _)).goes
  | _ => exact (Zs32.endCommand_works _).goes

theorem Zs32.renewHello_works : Works on z z.renewHello := by
  unfold Zs32.renewHello
  split
  · next room => exact Zs32.enqueue_works _ _ room
  · exact .refl z

theorem Zs32.renewAutoClose_works (i : Input) (c : Channel) : Works on z (z.renewAutoClose i c) := by
  unfold Zs32.renewAutoClose
  split
  · exact Zs32.askAutoClose_works _
  · exact .refl z

theorem Zs32.renewEvict_works (x : StationNo) : Works on z (z.renewEvict x) := by
  unfold Zs32.renewEvict
  split
  · exact Zs32.askEvict_works _
  · exact .refl z

theorem Zs32.ownLineFault_works (b : FrameBody) (origin : Origin) : Works on z (z.ownLineFault b origin) := by
  unfold Zs32.ownLineFault
  refine (Zs32.log_works (.lineFault b.kind b.faultStation b.faultChannel) rfl).trans ?_
  split
  · exact Zs32.renewHello_works
  · exact Zs32.renewEvict_works _
  · exact (Zs32.endMerged_works _ _).trans (Zs32.renewAutoClose_works _ _)
  · exact .refl _

theorem Zs32.decideRemoved_goes (a : Attempt) (seen : Bool) : Goes on z (z.decideRemoved a seen) := by
  unfold Zs32.decideRemoved
  split
  · split
    · exact Zs32.hostLineFault_goes _
    · exact (Zs32.ownLineFault_works _ _).goes
  · exact Zs32.rejoin_goes _

theorem Zs32.eighthFailure_goes (a : Attempt) (veto : Bool) : Goes on z (z.eighthFailure a veto) :=
  ((Zs32.dropHead_works.trans (Zs32.removedEffect_works _ _)).trans (Zs32.grants_works _)).then
    (Zs32.decideRemoved_goes _ _)

theorem Zs32.failOwn_goes (a : Attempt) (veto : Bool) : Goes on z (z.failOwn a veto) := by
  unfold Zs32.failOwn
  split
  · next below => exact (Zs32.failedAttempt_works a veto below).goes
  · exact Zs32.eighthFailure_goes a veto

theorem Zs32.ownSlotEnd_goes {a : Attempt} (heard veto : Bool) (current : z.line.attempt = some a) :
    Goes on z (z.ownSlotEnd a heard veto) := by
  unfold Zs32.ownSlotEnd
  dsimp only
  split
  · exact (Zs32.endSlots_works.trans (Zs32.disregardOutcome_works _ _)).goes
  · split
    · exact (Zs32.acceptOwn_works current).goes
    · exact Zs32.endSlots_works.then (Zs32.failOwn_goes a veto)

/-- The count that reaches the limit does not outlive the table clear of its rejoin (R59, R178). -/
theorem Zs32.rejoin_vetoCount (n : Nat) (cause : RejoinCause) :
    Zs32.rejoin cause { z with line := { z.line with vetoCount := n } } = z.rejoin cause := rfl

theorem Zs32.countVeto_goes : Goes on z z.countVeto := by
  unfold Zs32.countVeto
  dsimp only
  split
  · rw [Zs32.rejoin_vetoCount]
    exact Zs32.rejoin_goes _
  · next below => exact (Works.line (.vetoes _ (Nat.lt_of_not_le below))).goes

theorem Zs32.haltForEvict_works : Works on z z.haltForEvict := by
  unfold Zs32.haltForEvict
  exact ((Zs32.emptyOutbound_works.trans (.line .halts)).trans (.source _)).trans (Zs32.grants_works _)

theorem Zs32.acceptPeer_works {f : Frame} (room : z.line.inq.length < inCapacity)
    (received : z.line.reception = some (.good f)) : Works on z (z.endSlots.acceptPeer f) := by
  have accepted : Works on z (z.endSlots.appendFrame f none) :=
    .line (.accepts f none (.inl room) fun _ => received)
  unfold Zs32.acceptPeer
  dsimp only
  split
  · exact accepted.trans Zs32.haltForEvict_works
  · exact accepted

theorem Zs32.peerSlotEnd_goes {r : Reception} (veto : Bool) (received : z.line.reception = some r) :
    Goes on z (z.peerSlotEnd r veto) := by
  unfold Zs32.peerSlotEnd
  dsimp only
  split
  · exact Zs32.endSlots_works.then Zs32.countVeto_goes
  · next noVeto =>
    cases r with
    | bad => exact Zs32.endSlots_works.goes
    | good f =>
      dsimp only
      split
      · exact Zs32.endSlots_works.goes
      · refine (Zs32.acceptPeer_works ?_ received).goes
        simpa [Zs32.drivesVeto, received] using noVeto

theorem Zs32.vetoSlotEnd_goes (heard veto : Bool) : Goes on z (z.vetoSlotEnd heard veto) := by
  unfold Zs32.vetoSlotEnd
  split
  · split
    · next current => exact Zs32.ownSlotEnd_goes heard veto current
    · next received => exact Zs32.peerSlotEnd_goes veto received
    · exact Zs32.endSlots_works.goes
  · exact (Works.refl z).goes

end LineEvents

end Sys2Proof.Machine
end

section
/-! Every step as a sequence of moves: the host port, the timers, the rows. -/

namespace Sys2Proof.Machine

/-! ### The host port -/

section HostPort
variable {on : Prop} {z : Zs32}

theorem Result.bytes_ne_nil (r : Result) : r.bytes ≠ [] := by cases r <;> exact List.cons_ne_nil _ _

theorem Zs32.refuse_works (code : ResultCode) : Works on z (z.refuse code) := Zs32.formResult_works _

theorem Zs32.shiftOut_works (b : Option Byte) : Works on z (z.shiftOut b) := .port (.pins _ _ b)

theorem Zs32.refuseByte_works : Works on z z.refuseByte := .port (.pins true _ _)

section Taking
variable (waits : z.port.phase = .ready ∨ z.port.phase = .command)
include waits

theorem Zs32.enterExecution_works (cmd : LineCommand) (st : Stage) : Works on z (z.enterExecution cmd st) :=
  .executes _ waits

theorem Zs32.placeHost_works (cmd : LineCommand) (p : Placed) : Works on z (z.placeHost cmd p) := by
  unfold Zs32.placeHost
  split
  · next room =>
    exact (Zs32.enqueue_works p .host room).trans (Zs32.enterExecution_works (z := z.enqueue p .host) waits _ _)
  · exact Zs32.refuse_works _

theorem Zs32.takeJoin_moves : Relation.ReflTransGen (Move on) z z.takeJoin := by
  have refused (code : ResultCode) : Relation.ReflTransGen (Move on) z (z.refuse code) := .single (.port (.result _))
  cases state : z.memb.state with
  | offline => exact .single (.joins state waits)
  | unconfigured => rw [Zs32.takeJoin, state]; exact refused _
  | listening => rw [Zs32.takeJoin, state]; exact refused _
  | joined => rw [Zs32.takeJoin, state]; exact refused _
  | clashed => rw [Zs32.takeJoin, state]; exact refused _

theorem Zs32.takeLeave_works : Works on z z.takeLeave := by
  unfold Zs32.takeLeave
  split
  · exact Zs32.refuse_works _
  · have stopped : Works on z { z.emptyOutbound with memb := z.emptyOutbound.memb.stopForLeave } :=
      Zs32.emptyOutbound_works.trans (.shrinks rfl (.refl _) (List.nil_sublist _))
    refine ((stopped.trans (Zs32.enqueue_works _ _ rfl)).trans (Zs32.enterExecution_works ?_ _ _)).trans
      (Zs32.grants_works _)
    exact waits

theorem Zs32.takeOpen_works (params : List Byte) : Works on z (z.takeOpen params) := by
  unfold Zs32.takeOpen
  split
  · exact Zs32.refuse_works _
  · split
    · exact Zs32.refuse_works _
    · split
      · exact Zs32.refuse_works _
      · exact Zs32.placeHost_works waits _ _

theorem Zs32.takeClose_works (params : List Byte) : Works on z (z.takeClose params) := by
  unfold Zs32.takeClose
  split
  · exact Zs32.refuse_works _
  · split
    · exact Zs32.refuse_works _
    · split
      · exact Zs32.refuse_works _
      · split
        · next i _ =>
          exact (Zs32.onInput_works i _).trans
            (Zs32.enterExecution_works (z := z.onInput i fun r => { r with merged := true }) waits _ _)
        · exact Zs32.placeHost_works waits _ _

theorem Zs32.takeClaim_works (params : List Byte) : Works on z (z.takeClaim params) := by
  unfold Zs32.takeClaim
  split
  · exact Zs32.refuse_works _
  · split
    · exact Zs32.refuse_works _
    · split
      · exact Zs32.refuse_works _
      · exact Zs32.placeHost_works waits _ _

theorem Zs32.takeDrop_works (params : List Byte) : Works on z (z.takeDrop params) := by
  unfold Zs32.takeDrop
  split
  · exact Zs32.refuse_works _
  · split
    · exact Zs32.refuse_works _
    · split <;> exact Zs32.placeHost_works waits _ _

end Taking

theorem Zs32.takeConfigure_moves (params : List Byte) : Relation.ReflTransGen (Move on) z (z.takeConfigure params) := by
  have result (u : Zs32) (r : Result) : Move on u (u.formResult r) := .port (.result r)
  unfold Zs32.takeConfigure
  split
  · exact .single (result z _)
  · split
    · exact .single (result z _)
    · next setup binds mask _ offLine =>
      exact .head (.configures setup binds mask (Bool.eq_false_iff.2 offLine)) (.single (result _ _))

theorem Zs32.takeSense_works : Works on z z.takeSense := .trans (.notices .sense) (Zs32.formResult_works _)

/-- Off the line only JOIN and CONFIGURE do more than form a result; every other command that could is refused (R125).
-/
theorem Zs32.takeCommand_moves (waits : z.port.phase = .ready ∨ z.port.phase = .command)
    (code : Byte) (params : List Byte) : Relation.ReflTransGen (Move on) z (z.takeCommand code params) := by
  have result (r : Result) : Relation.ReflTransGen (Move on) z (z.formResult r) := .single (.port (.result r))
  have onLine {u : Zs32} (h : Works on z u) (refused : z.onLine = false → ∃ r, u = z.formResult r) :
      Relation.ReflTransGen (Move on) z u := by
    cases w : z.onLine with
    | true => exact (h fun _ => w).1
    | false =>
      obtain ⟨r, rfl⟩ := refused w
      exact result r
  have notJoined (offLine : z.onLine = false) : z.memb.state ≠ .joined := by
    rintro h
    simp [Zs32.onLine, h] at offLine
  unfold Zs32.takeCommand
  split
  · exact Zs32.takeJoin_moves waits
  · refine onLine (Zs32.takeLeave_works waits) fun off => ⟨.plain .offLine, ?_⟩
    rw [Zs32.takeLeave, off]
    rfl
  · refine onLine (Zs32.takeOpen_works waits params) fun off => ?_
    unfold Zs32.takeOpen
    split
    · exact ⟨_, rfl⟩
    · exact ⟨_, if_pos (notJoined off)⟩
  · refine onLine (Zs32.takeClose_works waits params) fun off => ?_
    unfold Zs32.takeClose
    split
    · exact ⟨_, rfl⟩
    · exact ⟨_, if_pos (notJoined off)⟩
  · refine onLine (Zs32.takeClaim_works waits params) fun off => ?_
    unfold Zs32.takeClaim
    split
    · exact ⟨_, rfl⟩
    · exact ⟨_, if_pos (notJoined off)⟩
  · refine onLine (Zs32.takeDrop_works waits params) fun off => ?_
    unfold Zs32.takeDrop
    split
    · exact ⟨_, rfl⟩
    · exact ⟨_, if_pos (notJoined off)⟩
  · exact Zs32.takeConfigure_moves params
  · exact result _
  · unfold Zs32.takeZoneStatus
    split <;> exact result _
  · exact result _
  · exact result _
  · unfold Zs32.takeProbe
    split <;> exact result _
  · exact .head (.notices .sense) (.single (.port (.result _)))
  · exact result _
  · exact result _

theorem Zs32.abortMerged_works (i : Input) : Works on z (z.abortMerged i) := by
  unfold Zs32.abortMerged
  split
  · exact .refl z
  · exact (Zs32.onInput_works _ _).trans (Zs32.endCommand_works _)

theorem Zs32.abortByte_goes : Goes on z z.abortByte := by
  unfold Zs32.abortByte
  split
  · exact (Works.refl z).goes
  · next e current =>
    split
    · split
      · have mapped : some { e with heldAbort := true } = z.port.cmd.map fun e => { e with heldAbort := true } := by
          rw [current, Option.map_some]
        rw [mapped]
        exact Works.goes (.port (.command _))
      · exact Zs32.takeAbort_goes
    · split
      · exact (Zs32.abortMerged_works _).goes
      · split
        · exact (Zs32.abortMerged_works _).goes
        · exact (Works.refl z).goes
    all_goals exact (Works.refl z).goes

/-- No command is in execution off the line, so an ABORT finds none (R32). -/
theorem Zs32.abortByte_of_quiet (quiet : z.Quiet) : z.abortByte = z := by
  obtain ⟨-, -, -, -, -, -, -, -, -, -, -, idle⟩ := quiet
  rw [Zs32.abortByte, idle]

theorem Zs32.buffered_moves (waits : z.port.phase = .ready ∨ z.port.phase = .command)
    (code : Byte) (params : List Byte) : Relation.ReflTransGen (Move on) z (z.buffered code params) := by
  unfold Zs32.buffered
  split
  · next short => exact .single (.port (.buffers code params waits short))
  · exact Zs32.takeCommand_moves waits code params

theorem Zs32.takeByte_moves (ok : on → z.LineOk) (b : Byte) : Relation.ReflTransGen (Move on) z (z.takeByte b) := by
  have refused : Relation.ReflTransGen (Move on) z z.refuseByte := .single (.port (.pins true _ _))
  unfold Zs32.takeByte
  split
  · next ready => exact Zs32.buffered_moves (.inl ready) b []
  · next command => split <;> exact Zs32.buffered_moves (.inr command) _ _
  · split
    · exact Zs32.abortByte_goes.of_idle ok Zs32.abortByte_of_quiet
    · exact refused
  · exact refused

theorem Zs32.writtenByte_moves (ok : on → z.LineOk) (b : Byte) :
    Relation.ReflTransGen (Move on) z (z.writtenByte b) := by
  have shifts (u : Zs32) : Move on u (u.shiftOut (some 0)) := .port (.pins _ _ _)
  unfold Zs32.writtenByte
  split
  · exact (Zs32.takeByte_moves ok b).tail (shifts _)
  · exact .single (shifts z)
  all_goals exact .refl

theorem Zs32.readByte_moves : Relation.ReflTransGen (Move on) z z.readByte := by
  have shifts (b : Byte) (u : Zs32) : Move on u (u.shiftOut (some b)) := .port (.pins _ _ _)
  have refused : Relation.ReflTransGen (Move on) z (z.refuseByte.shiftOut (some 0)) :=
    .head (.port (.pins true _ _)) (.single (shifts 0 _))
  unfold Zs32.readByte
  split
  · unfold Zs32.giveByte
    split
    · next inResult =>
      dsimp only
      refine .head (shifts (z.port.resBuf.getD z.port.readPos 0) z) (.single ?_)
      split
      · exact .port (.lastByte inResult)
      · next more => exact .port (.nextByte inResult (Nat.lt_of_not_le more))
    all_goals exact refused
  · exact .single (shifts 0 z)
  · exact .single (shifts 0 z)
  all_goals exact .refl

theorem Zs32.transactionBegin_moves (header : Byte) (early : Bool) :
    Relation.ReflTransGen (Move on) z (z.transactionBegin header early) := by
  unfold Zs32.transactionBegin
  split
  · exact .single (.port (.pins _ _ _))
  · exact .head (.rst { z.rst with settling := false }) (.single (.port (.pins _ _ _)))

theorem Zs32.transactionEnd_moves : Relation.ReflTransGen (Move on) z z.transactionEnd := .single (.port (.pins _ _ _))

end HostPort

/-! ### The timers -/

section Timers
variable {on : Prop} {z : Zs32}

theorem Zs32.presenceTimerExpiry_works : Works on z z.presenceTimerExpiry := by
  unfold Zs32.presenceTimerExpiry
  split
  · have again : Works on z { z with memb := { z.memb with presenceTimer := .running z.periodMs } } :=
      .marks rfl rfl rfl
    dsimp only
    split
    · exact again
    · exact again.trans Zs32.askPresence_works
  · exact .refl z

theorem Zs32.presenceAging_works : Works on z z.presenceAging :=
  Zs32.outbound_works _ _ _ (fun h => (List.length_map _).trans_le h) id

theorem Zs32.silenceTimerExpiry_works (x : StationNo) : Works on z (z.silenceTimerExpiry x) := by
  unfold Zs32.silenceTimerExpiry
  split
  · exact (Zs32.onEntry_works x (fun e => { e with silence := .expired }) fun _ => rfl).trans (Zs32.askEvict_works x)
  · exact .refl z

theorem Zs32.startSilence_works : Works on z z.startSilence :=
  .memb (.entries RosterEntry.restart fun _ => rfl) rfl

theorem Zs32.enterJoined_works (listening : z.memb.state = .listening) : Works on z z.enterJoined := by
  have joined : Works on z { z with memb := { z.memb with state := .joined } } :=
    fun w => ⟨.single (.memb w (.joined listening)), fun _ => rfl⟩
  unfold Zs32.enterJoined
  dsimp only
  have asked := joined.trans Zs32.askPresence_works
  generalize Zs32.askPresence _ = u at asked
  have timed : Works on u { u with memb := { u.memb with presenceTimer := .running u.periodMs } } := .marks rfl rfl rfl
  exact ((asked.trans timed).trans Zs32.startSilence_works).trans (Zs32.log_works _ rfl)

theorem Zs32.joinWindowExpiry_works : Works on z z.joinWindowExpiry := by
  unfold Zs32.joinWindowExpiry
  split
  · have stopped : Works on z { z with memb := { z.memb with joinWindow := .stopped } } := .marks rfl rfl rfl
    dsimp only
    split
    · next joins =>
      simp only [Bool.and_eq_true, decide_eq_true_eq] at joins
      exact stopped.trans (Zs32.enterJoined_works joins.1)
    · exact stopped
  · exact .refl z

theorem Zs32.openGuardExpiry_works (c : Channel) : Works on z (z.openGuardExpiry c) := by
  unfold Zs32.openGuardExpiry
  split
  · next ms guarded => exact (Zs32.setChannel_works c _ (.live ms guarded)).trans (Zs32.channelLive_works c)
  all_goals exact .refl z

theorem Zs32.drainGuardExpiry_works (c : Channel) : Works on z (z.drainGuardExpiry c) := by
  unfold Zs32.drainGuardExpiry
  split
  · next ms guarded => exact Zs32.setChannel_works c _ (.free ms guarded)
  all_goals exact .refl z

theorem Zs32.durationTimerExpiry_works (i : Input) : Works on z (z.durationTimerExpiry i) := by
  unfold Zs32.durationTimerExpiry
  split
  · exact (Zs32.onInput_works _ _).trans (Zs32.askAutoClose_works i)
  · exact .refl z

theorem Zs32.chimeTimerExpiry_works (o : Fin 4) : Works on z (z.chimeTimerExpiry o) := by
  unfold Zs32.chimeTimerExpiry
  split
  · exact .mixer _
  · exact .refl z

theorem Zs32.audioFrame_moves (marks : Bool) (slots : Vector Sample 16) (inA inB : Sample) :
    Relation.ReflTransGen (Move on) z (z.audioFrame marks slots inA inB) := by
  refine .single (.audio (z.audioFrame marks slots inA inB).mixer (z.audioFrame marks slots inA inB).audio fun o => ?_)
  rw [Zs32.audioFrame_output]
  exact ⟨rfl, rfl⟩

end Timers

/-! ### A quiet station off the line -/

section Quiet
variable {z : Zs32} (off : z.onLine = false) (quiet : z.Quiet)

theorem Zs32.attemptBegin_of_offLine (off : z.onLine = false) : z.attemptBegin = z := by
  simp [Zs32.attemptBegin, Zs32.mayBegin, off]

include quiet

theorem Zs32.line_of_quiet : z.line.receiver = .off ∧ z.line.outq = [] ∧ z.line.attempt = none := by
  obtain ⟨receiver, outq, -, attempt, -⟩ := quiet
  exact ⟨receiver, outq, attempt⟩

theorem Zs32.memb_of_quiet : z.memb = Membership.clearedIn z.memb.state := by
  obtain ⟨-, -, -, -, -, -, memb, -⟩ := quiet
  exact memb

theorem Zs32.dominantBit_of_quiet : z.dominantBit = z := by simp [Zs32.dominantBit, (z.line_of_quiet quiet).1]

theorem Zs32.dominantInGap_of_quiet : z.dominantInGap = z := by simp [Zs32.dominantInGap, (z.line_of_quiet quiet).1]

theorem Zs32.recessiveBits_of_quiet (n : Nat) : z.recessiveBits n = z := by
  simp [Zs32.recessiveBits, (z.line_of_quiet quiet).1]

theorem Zs32.frameReceived_of_quiet (bits : List Bool) : z.frameReceived bits = z := by
  simp [Zs32.frameReceived, (z.line_of_quiet quiet).1]

theorem Zs32.vetoSlotEnd_of_quiet (heard veto : Bool) : z.vetoSlotEnd heard veto = z := by
  simp [Zs32.vetoSlotEnd, (z.line_of_quiet quiet).1]

theorem Zs32.arbitrationEnd_of_quiet (rivals : List (BitVec 7)) : z.arbitrationEnd rivals = z := by
  simp [Zs32.arbitrationEnd, (z.line_of_quiet quiet).2.2]

theorem Zs32.clashReadBack_of_quiet : z.clashReadBack = z := by
  simp [Zs32.clashReadBack, (z.line_of_quiet quiet).2.2]

theorem Zs32.presenceAging_of_quiet : z.presenceAging = z := by
  obtain ⟨-, outq, -⟩ := z.line_of_quiet quiet
  have aged : z.line.outq.map OutEntry.age = z.line.outq := by rw [outq, List.map_nil]
  rw [Zs32.presenceAging, aged]

theorem Zs32.presenceTimerExpiry_of_quiet : z.presenceTimerExpiry = z := by
  have stopped := congrArg Membership.presenceTimer (z.memb_of_quiet quiet)
  simp [Zs32.presenceTimerExpiry, stopped, Membership.clearedIn, Timer.isRunning]

theorem Zs32.joinWindowExpiry_of_quiet : z.joinWindowExpiry = z := by
  have stopped := congrArg Membership.joinWindow (z.memb_of_quiet quiet)
  simp [Zs32.joinWindowExpiry, stopped, Membership.clearedIn, Timer.isRunning]

theorem Zs32.silenceTimerExpiry_of_quiet (x : StationNo) : z.silenceTimerExpiry x = z := by
  have empty := congrArg Membership.roster (z.memb_of_quiet quiet)
  simp [Zs32.silenceTimerExpiry, Zs32.entry, empty, Membership.clearedIn]

theorem Zs32.channel_of_quiet (c : Channel) : z.table.channels[c] = ChannelRec.cleared := by
  obtain ⟨-, -, -, -, -, -, -, -, channels, -⟩ := quiet
  exact channels c

theorem Zs32.openGuardExpiry_of_quiet (c : Channel) : z.openGuardExpiry c = z := by
  simp only [Zs32.openGuardExpiry, z.channel_of_quiet quiet, ChannelRec.cleared]

theorem Zs32.drainGuardExpiry_of_quiet (c : Channel) : z.drainGuardExpiry c = z := by
  simp only [Zs32.drainGuardExpiry, z.channel_of_quiet quiet, ChannelRec.cleared]

theorem Zs32.durationTimerExpiry_of_quiet (i : Input) : z.durationTimerExpiry i = z := by
  obtain ⟨-, -, -, -, -, -, -, source, -⟩ := quiet
  cases i <;> simp [Zs32.durationTimerExpiry, source, Source.get, Source.cleared, InputRec.cleared,
    ExpiringTimer.isRunning]

theorem Zs32.chimeTimerExpiry_of_quiet (o : Fin 4) : z.chimeTimerExpiry o = z := by
  obtain ⟨-, -, -, -, -, -, -, -, -, -, outputs, -⟩ := quiet
  rw [Zs32.chimeTimerExpiry, (outputs o).2]
  rfl

end Quiet

end Sys2Proof.Machine
end

section
/-! The queues and the station off the line (R1, R10, R12, R32, R186), move by move; every step as moves; and the
invariants O56 to O60. -/

namespace Sys2Proof.Machine

/-! ### The queues and the quiet, move by move -/

section LineSide
variable {z z' : Zs32}

theorem Zs32.LineOk.of_onLine (w : z.onLine = true) (queues : z.QueuesOk) : z.LineOk :=
  ⟨fun off => Bool.noConfusion (w.symm.trans off), queues⟩

theorem Zs32.onLine_of_state (h : z.memb.state = .listening ∨ z.memb.state = .joined) : z.onLine = true := by
  simpa only [Zs32.onLine, Bool.or_eq_true, decide_eq_true_eq] using h

/-- Empty queues and a line at rest are within the bounds (R1). -/
theorem Zs32.queuesOk_of_afterReset (h : z.line = Line.afterReset) : z.QueuesOk := by
  rw [Zs32.QueuesOk, h]
  decide

theorem LineMove.queuesOk {l : Line} (h : LineMove z.line l) (ok : z.QueuesOk) :
    Zs32.QueuesOk { z with line := l } := by
  obtain ⟨outq, inq, fails, vetoCount, attempt, reception⟩ := ok
  cases h with
  | outbound q n seen room below => exact ⟨room outq, inq, below fails, vetoCount, attempt, reception⟩
  | attempt f => exact ⟨outq, inq, fails, vetoCount, fun h => attempt (Option.isSome_map.symm.trans h), reception⟩
  | givesUp => exact ⟨outq, inq, fails, vetoCount, nofun, reception⟩
  | begins a empty idle =>
    have noReception : z.line.reception = none := by
      by_contra received
      exact nomatch idle.symm.trans (reception (Option.isSome_iff_ne_none.2 received))
    exact ⟨outq, inq, fails, vetoCount, fun _ => ⟨empty, noReception⟩, fun h => by simp [noReception] at h⟩
  | slots => exact ⟨outq, inq, fails, vetoCount, attempt, fun _ => rfl⟩
  | receives bits noAttempt =>
    exact ⟨outq, inq, fails, vetoCount, fun h => by simp [noAttempt] at h, fun _ => rfl⟩
  | bits r n between =>
    have noReception : z.line.reception.isSome → False := fun h => by
      rcases between with gap | idle
      · exact nomatch gap.symm.trans (reception h)
      · exact nomatch idle.symm.trans (reception h)
    exact ⟨outq, inq, fails, vetoCount, attempt, fun h => (noReception h).elim⟩
  | slotsEnd => exact ⟨outq, inq, fails, vetoCount, nofun, nofun⟩
  | accepts f mark room received =>
    have space : z.line.inq.length + 1 ≤ inCapacity := by
      rcases room with room | own
      · exact room
      · rw [(attempt own).1]
        decide
    exact ⟨outq, by simpa using space, fails, (by decide : 0 < vetoLimitCount), nofun, nofun⟩
  | vetoes n below => exact ⟨outq, inq, fails, below, attempt, reception⟩
  | halts => exact ⟨outq, inq, fails, vetoCount, attempt, reception⟩

theorem Zs32.queuesOk_finishFrame (ok : z.QueuesOk) : z.finishFrame.QueuesOk := by
  obtain ⟨outq, inq, fails, vetoCount, attempt, reception⟩ := ok
  refine ⟨outq, ?_, fails, vetoCount, fun h => ⟨?_, (attempt h).2⟩, reception⟩
  · rw [Zs32.finishFrame_inq, List.length_tail]
    exact (Nat.sub_le _ _).trans inq
  · rw [Zs32.finishFrame_inq, (attempt h).1, List.tail_nil]

theorem Zs32.queuesOk_rejoinWith (ok : z.QueuesOk) : (z.rejoinWith none).QueuesOk := by
  obtain ⟨-, -, -, -, attempt, reception⟩ := ok
  have kept (h : (z.rejoinWith none).line.attempt.isSome) : z.line.attempt.isSome :=
    Option.isSome_map.symm.trans h
  exact ⟨(by decide : 1 ≤ outCapacity), (by decide : 0 ≤ inCapacity), (by decide : 0 < attemptLimit),
    (by decide : 0 < vetoLimitCount), fun h => ⟨rfl, (attempt (kept h)).2⟩, reception⟩

/-- Both ways off the line clear the station (R32, R59, R186), and the command in execution ends. -/
theorem Zs32.leaveLine_quiet (st : StationState) (r : Result) : ((z.leaveLine st).endCommand r).Quiet := by
  have outputs (o : Fin 4) : z.tableClear.mixer.outputs[o].state = .silent ∧
      z.tableClear.mixer.outputs[o].chime = .stopped := by
    rw [Zs32.tableClear_outputs]
    exact ⟨rfl, rfl⟩
  have cleared (c : Channel) : ClaimTable.cleared.channels[c] = ChannelRec.cleared := by simp [ClaimTable.cleared]
  have empty (k : Zone) : ClaimTable.cleared.zones[k] = [] := by simp [ClaimTable.cleared]
  unfold Zs32.Quiet
  rw [Zs32.endCommand_line, Zs32.endCommand_memb, Zs32.endCommand_source, Zs32.endCommand_table,
    Zs32.endCommand_mixer, Zs32.endCommand_idle, Zs32.leaveLine_line]
  exact ⟨rfl, rfl, rfl, rfl, rfl, rfl, rfl, rfl, cleared, empty, outputs, rfl⟩

theorem Zs32.Quiet.tick (h : z.Quiet) : z.tick.Quiet := by
  obtain ⟨receiver, outq, inq, attempt, reception, halt, memb, source, channels, zones, outputs, cmd⟩ := h
  refine ⟨receiver, outq, inq, attempt, reception, halt, ?_, ?_, fun c => ?_, zones, fun o => ?_, cmd⟩
  · change z.memb.tick = Membership.clearedIn z.memb.tick.state
    rw [memb]
    rfl
  · change ({ inA := z.source.inA.tick, inB := z.source.inB.tick } : Source) = _
    rw [source]
    rfl
  · have ticked : z.tick.table.channels[c] = z.table.channels[c].tick := tabulate_get _ c
    rw [ticked, channels]
    rfl
  · have ticked : z.tick.mixer.outputs[o] = z.mixer.outputs[o].tick := tabulate_get _ o
    obtain ⟨silent, stopped⟩ := outputs o
    rw [ticked]
    exact ⟨silent, by rw [OutputRec.tick, stopped]; rfl⟩

theorem Zs32.pinReset_quiet : z.pinReset.Quiet := by
  refine ⟨rfl, rfl, rfl, rfl, rfl, rfl, rfl, rfl, fun c => ?_, fun k => ?_, fun o => ?_, rfl⟩ <;>
    simp [Zs32.pinReset, Zs32.afterReset, ClaimTable.cleared, OutputRec.silentBoundTo]

theorem PortMove.cmd_none {p q : Port} (h : PortMove p q) (idle : p.cmd = none) : q.cmd = none := by
  cases h with
  | result => rfl
  | command f => exact congrArg (Option.map f) idle
  | pins | buffers | nextByte | lastByte => exact idle

theorem Zs32.Quiet.withPort {p : Port} (h : z.Quiet) (idle : z.port.cmd = none → p.cmd = none) :
    Zs32.Quiet { z with port := p } := by
  obtain ⟨receiver, outq, inq, attempt, reception, halt, memb, source, channels, zones, outputs, cmd⟩ := h
  exact ⟨receiver, outq, inq, attempt, reception, halt, memb, source, channels, zones, outputs, idle cmd⟩

theorem Zs32.Quiet.withMixer {m : Mixer} (h : z.Quiet) (a : Audio)
    (silent : ∀ o : Fin 4, m.outputs[o].state = z.mixer.outputs[o].state ∧
      m.outputs[o].chime = z.mixer.outputs[o].chime) : Zs32.Quiet { z with mixer := m, audio := a } := by
  obtain ⟨receiver, outq, inq, attempt, reception, halt, memb, source, channels, zones, outputs, cmd⟩ := h
  refine ⟨receiver, outq, inq, attempt, reception, halt, memb, source, channels, zones, fun o => ?_, cmd⟩
  obtain ⟨state, chime⟩ := silent o
  exact ⟨state.trans (outputs o).1, chime.trans (outputs o).2⟩

theorem Zs32.Quiet.finishFrame (h : z.Quiet) : z.finishFrame.Quiet := by
  obtain ⟨receiver, outq, inq, rest⟩ := h
  exact ⟨receiver, outq, by rw [Zs32.finishFrame_inq, inq, List.tail_nil], rest⟩

theorem Zs32.Quiet.configured (h : z.Quiet) (setup : Setup) (binds : Vector (Option Zone) 4) (mask : BitVec 16) :
    (z.configured setup binds mask).Quiet := by
  obtain ⟨receiver, outq, inq, attempt, reception, halt, memb, source, channels, zones, -, cmd⟩ := h
  refine ⟨receiver, outq, inq, attempt, reception, halt, ?_, source, channels, zones, fun o => ?_, cmd⟩
  · change { z.memb with state := .offline } = Membership.clearedIn .offline
    rw [memb]
    rfl
  · have silent : (z.configured setup binds mask).mixer.outputs[o] = OutputRec.silentBoundTo binds[o] :=
      tabulate_get _ o
    rw [silent]
    exact ⟨rfl, rfl⟩

theorem Zs32.takeJoin_of_offline (off : z.memb.state = .offline) : z.takeJoin =
    { (z.enqueue .hello .host).enterExecution .join .queued with
      memb := { z.memb with state := .listening }
      line := { (z.enqueue .hello .host).line with receiver := .gap, gapBits := 0 } } := by
  rw [Zs32.takeJoin, off]
  rfl

theorem Zs32.Quiet.takeJoin_lineOk (h : z.Quiet) (off : z.memb.state = .offline) (queues : z.QueuesOk) :
    z.takeJoin.LineOk := by
  obtain ⟨-, outq, -, attempt, reception, -⟩ := h
  obtain ⟨-, inq, fails, vetoCount, -, -⟩ := queues
  rw [Zs32.takeJoin_of_offline off]
  refine .of_onLine rfl ⟨?_, inq, fails, vetoCount, fun h => ?_, fun h => ?_⟩
  · change (z.line.outq ++ [_]).length ≤ outCapacity
    rw [outq]
    exact (by decide : 1 ≤ outCapacity)
  · exact Bool.noConfusion ((congrArg Option.isSome attempt).symm.trans h)
  · exact Bool.noConfusion ((congrArg Option.isSome reception).symm.trans h)

theorem MembMove.onLine {m : Membership} (h : MembMove z m) (w : z.onLine = true) :
    Zs32.onLine { z with memb := m } = true := by
  cases h with
  | shrinks m state => simpa only [Zs32.onLine, state] using w
  | joined => rfl
  | entries | holds | adds => exact w

/-- Every move keeps the line side, those of the line's blocks being made on the line. -/
theorem Move.lineOk {on : Prop} (holds : on) (m : Move on z z') (ok : z.LineOk) : z'.LineOk := by
  obtain ⟨quiet, queues⟩ := ok
  cases m with
  | tick => exact ⟨fun off => (quiet off).tick, queues⟩
  | pinReset => exact ⟨fun _ => Zs32.pinReset_quiet, Zs32.queuesOk_of_afterReset rfl⟩
  | rst => exact ⟨quiet, queues⟩
  | port h => exact ⟨fun off => (quiet off).withPort h.cmd_none, queues⟩
  | notices => exact ⟨quiet, queues⟩
  | audio m a outputs => exact ⟨fun off => (quiet off).withMixer a outputs, queues⟩
  | finish => exact ⟨fun off => (quiet off).finishFrame, Zs32.queuesOk_finishFrame queues⟩
  | configures setup binds mask off => exact ⟨fun _ => (quiet off).configured setup binds mask, queues⟩
  | joins off => exact (quiet (by simp [Zs32.onLine, off])).takeJoin_lineOk off queues
  | leaves st r =>
    refine ⟨fun _ => Zs32.leaveLine_quiet st r, Zs32.queuesOk_of_afterReset ?_⟩
    rw [Zs32.endCommand_line, Zs32.leaveLine_line]
  | rejoins => exact .of_onLine rfl (Zs32.queuesOk_rejoinWith queues)
  | executes e w => exact .of_onLine (w holds) queues
  | line w h => exact .of_onLine (w holds) (h.queuesOk queues)
  | memb w h => exact .of_onLine (h.onLine (w holds)) queues
  | source s w => exact .of_onLine (w holds) queues
  | mixer m w => exact .of_onLine (w holds) queues
  | table w h => exact .of_onLine (w holds) queues

end LineSide

/-! ### Every step as moves -/

section Steps
variable {on : Prop} {z : Zs32}

theorem Zs32.LineOk.moves {z' : Zs32} (ok : on → z.LineOk) (h : Relation.ReflTransGen (Move on) z z') :
    on → z'.LineOk := by
  intro holds
  induction h with
  | refl => exact ok holds
  | tail _ m ih => exact m.lineOk holds ih

theorem Zs32.writtenBytes_moves (bytes : List Byte) (ok : on → z.LineOk) :
    Relation.ReflTransGen (Move on) z (bytes.foldl (fun z b => z.writtenByte b) z) := by
  induction bytes generalizing z with
  | nil => exact .refl
  | cons b rest ih =>
    have byte := Zs32.writtenByte_moves ok b
    exact byte.trans (ih (Zs32.LineOk.moves ok byte))

theorem Zs32.writeCommand_moves (ok : on → z.LineOk) (bytes : List Byte) :
    Relation.ReflTransGen (Move on) z (z.writeCommand bytes) := by
  unfold Zs32.writeCommand
  split
  · have begun := Zs32.transactionBegin_moves (on := on) (z := z) writeHeader false
    exact (begun.trans (Zs32.writtenBytes_moves _ (Zs32.LineOk.moves ok begun))).trans Zs32.transactionEnd_moves
  · exact Zs32.writtenBytes_moves _ ok

variable {s t : State}

/-- An event of a station that pin reset does not hold (R200). -/
theorem State.run_moves {f : Zs32 → Zs32} (h : Relation.ReflTransGen (Move on) s.zs (f s.zs))
    (ht : s.run f = .next t) : Relation.ReflTransGen (Move on) s.zs t.zs := by
  obtain rfl := Host.Outcome.next.inj ht
  rw [State.act]
  split
  · exact .refl
  · exact h

variable (ok : on → s.zs.LineOk)
include ok

theorem State.run_goes {f : Zs32 → Zs32} (h : Goes on s.zs (f s.zs)) (idle : s.zs.Quiet → f s.zs = s.zs)
    (ht : s.run f = .next t) : Relation.ReflTransGen (Move on) s.zs t.zs :=
  State.run_moves (h.of_idle ok idle) ht

theorem State.processHead_moves {fits : FrameBody → Bool} {process : InFrame → Zs32 → Zs32}
    (h : ∀ (f : InFrame) (u : Zs32), u.onLine = true → f ∈ u.line.inq → (f.mark = none → f.frame.sender ≠ u.me) →
      Goes on u (process f u)) (ht : s.run (Zs32.processHead fits process) = .next t) :
    Relation.ReflTransGen (Move on) s.zs t.zs :=
  State.run_goes ok (Zs32.processHead_goes h) (fun quiet => Zs32.processHead_of_quiet quiet fits process) ht

theorem exec_moves (c : Instr) (ht : exec c s = .next t) : Relation.ReflTransGen (Move on) s.zs t.zs := by
  cases c with
  | pinReset ns =>
    obtain rfl := Host.Outcome.next.inj ht
    split
    · exact .single .pinReset
    · exact .refl
  | resetRelease =>
    obtain rfl := Host.Outcome.next.inj ht
    unfold Zs32.resetRelease
    split
    · exact .single (.rst _)
    · exact .refl
  | transactionBegin header early =>
    obtain rfl := Host.Outcome.next.inj ht
    exact Zs32.transactionBegin_moves header early
  | transactionEnd =>
    obtain rfl := Host.Outcome.next.inj ht
    exact Zs32.transactionEnd_moves
  | writtenByte b => exact State.run_moves (Zs32.writtenByte_moves ok b) ht
  | readByte => exact State.run_moves Zs32.readByte_moves ht
  | joinCmd | leaveCmd | openCmd | closeCmd | claimCmd | dropCmd | configure | stationStatus | zoneStatus
  | channelTable | roster | probeZones | sense | abort | noCommand | invalid =>
    exact State.run_moves (Zs32.writeCommand_moves ok _) ht
  | idleGap n => exact State.run_goes ok (Zs32.recessiveBits_works n).goes (fun q => Zs32.recessiveBits_of_quiet q n) ht
  | attemptBegin =>
    refine State.run_goes ok Zs32.attemptBegin_works.goes (fun q => ?_) ht
    rw [Zs32.attemptBegin, Zs32.mayBegin, (Zs32.line_of_quiet q).1]
    simp
  | arbitrationEnd rivals =>
    exact State.run_goes ok (Zs32.arbitrationEnd_goes rivals) (fun q => Zs32.arbitrationEnd_of_quiet q rivals) ht
  | clashReadBack => exact State.run_goes ok Zs32.clashReadBack_goes Zs32.clashReadBack_of_quiet ht
  | frameReceived bits =>
    exact State.run_goes ok (Zs32.frameReceived_works bits).goes (fun q => Zs32.frameReceived_of_quiet q bits) ht
  | vetoSlotEnd heard veto | eighthFailedAttempt heard veto =>
    exact State.run_goes ok (Zs32.vetoSlotEnd_goes heard veto) (fun q => Zs32.vetoSlotEnd_of_quiet q heard veto) ht
  | vetoLimit =>
    exact State.run_goes ok (Zs32.vetoSlotEnd_goes false true) (fun q => Zs32.vetoSlotEnd_of_quiet q false true) ht
  | hello =>
    exact State.processHead_moves ok (fun _ _ onLine waits other => (processHello_works onLine waits other).goes) ht
  | bye => exact State.processHead_moves ok (fun f _ _ _ _ => processBye_goes f) ht
  | presence => exact State.processHead_moves ok (fun f _ _ _ _ => processPresence_goes f) ht
  | evict => exact State.processHead_moves ok (fun f _ _ _ _ => processEvict_goes f) ht
  | openFrame => exact State.processHead_moves ok (fun f _ _ _ _ => (processOpen_works f).goes) ht
  | restateOpen => exact State.processHead_moves ok (fun f _ _ _ _ => (processRestateOpen_works f).goes) ht
  | closeFrame => exact State.processHead_moves ok (fun f _ _ _ _ => (processClose_works f).goes) ht
  | claimFrame => exact State.processHead_moves ok (fun f _ _ _ _ => (processClaim_works f).goes) ht
  | restateClaim => exact State.processHead_moves ok (fun f _ _ _ _ => (processRestateClaim_works f).goes) ht
  | dropFrame => exact State.processHead_moves ok (fun f _ _ _ _ => (processDrop_works f).goes) ht
  | presenceTimerExpiry =>
    exact State.run_goes ok Zs32.presenceTimerExpiry_works.goes Zs32.presenceTimerExpiry_of_quiet ht
  | presenceAging => exact State.run_goes ok Zs32.presenceAging_works.goes Zs32.presenceAging_of_quiet ht
  | silenceTimerExpiry x =>
    exact State.run_goes ok (Zs32.silenceTimerExpiry_works x).goes (fun q => Zs32.silenceTimerExpiry_of_quiet q x) ht
  | joinWindowExpiry => exact State.run_goes ok Zs32.joinWindowExpiry_works.goes Zs32.joinWindowExpiry_of_quiet ht
  | openGuardExpiry k =>
    exact State.run_goes ok (Zs32.openGuardExpiry_works k).goes (fun q => Zs32.openGuardExpiry_of_quiet q k) ht
  | drainGuardExpiry k =>
    exact State.run_goes ok (Zs32.drainGuardExpiry_works k).goes (fun q => Zs32.drainGuardExpiry_of_quiet q k) ht
  | durationTimerExpiry i =>
    exact State.run_goes ok (Zs32.durationTimerExpiry_works i).goes (fun q => Zs32.durationTimerExpiry_of_quiet q i) ht
  | chimeTimerExpiry o =>
    exact State.run_goes ok (Zs32.chimeTimerExpiry_works o).goes (fun q => Zs32.chimeTimerExpiry_of_quiet q o) ht
  | audioFrame marks slots inA inB => exact State.run_moves (Zs32.audioFrame_moves marks slots inA inB) ht
  | startBit => exact State.run_goes ok Zs32.dominantBit_works.goes Zs32.dominantBit_of_quiet ht
  | dominantBitDuringGap => exact State.run_goes ok Zs32.dominantInGap_works.goes Zs32.dominantInGap_of_quiet ht

theorem step_moves (ht : step s = .next t) : Relation.ReflTransGen (Move on) s.zs t.zs := by
  unfold step at ht
  split at ht
  · exact State.run_moves (.single .tick) ht
  · next c rest _ => exact exec_moves (s := { s with pending := rest }) ok c ht

end Steps

/-- An invariant of single moves is one of steps. -/
theorem step_keeps {P : Zs32 → Prop} (keeps : ∀ z z' : Zs32, Move False z z' → P z → P z') {s t : State}
    (ht : step s = .next t) (h : P s.zs) : P t.zs := by
  have moves := step_moves (on := False) nofun ht
  generalize t.zs = z' at moves
  induction moves with
  | refl => exact h
  | tail _ m ih => exact keeps _ _ m ih

/-- Settles O59: each move of a station on the line keeps its bounds, and a station off the line makes none of them. -/
theorem stepsKeepTheQueuesAndTheQuiet : Obligations.StepsKeepTheQueuesAndTheQuiet := fun _ _ ok ht =>
  Zs32.LineOk.moves (on := True) (fun _ => ok) (step_moves (fun _ => ok) ht) trivial

end Sys2Proof.Machine
end

section
/-! The invariants of the shared tables, the notice log, the host port and the roster, move by move. -/

namespace Sys2Proof.Machine

/-! ### Inserting a claim (R86, R90) -/

/-- The order of a claim list (R86). -/
abbrev Claim.Above (a b : Claim) : Prop := b.priority < a.priority ∨ (a.priority = b.priority ∧ a.station < b.station)

theorem Claim.sortsAbove_iff (a b : Claim) : a.sortsAbove b = true ↔ a.Above b := by
  simp [Claim.sortsAbove, Claim.Above]

theorem Claim.Above.trans {a b c : Claim} (h : a.Above b) (k : b.Above c) : a.Above c := by
  simp only [Claim.Above, Fin.lt_def, Fin.ext_iff] at *
  omega

theorem Claim.above_of_not_above {a b : Claim} (h : ¬ a.Above b) (other : a.station ≠ b.station) : b.Above a := by
  simp only [Claim.Above, Fin.lt_def, Fin.ext_iff, ne_eq] at *
  omega

theorem insertClaim_perm (cl : Claim) (l : List Claim) : (insertClaim cl l).Perm (cl :: l) := by
  induction l with
  | nil => exact .refl _
  | cons x rest ih =>
    rw [insertClaim]
    split
    · exact .refl _
    · exact (ih.cons x).trans (.swap cl x rest)

theorem mem_insertClaim {cl x : Claim} {l : List Claim} : x ∈ insertClaim cl l ↔ x = cl ∨ x ∈ l :=
  (insertClaim_perm cl l).mem_iff.trans List.mem_cons

theorem insertClaim_length (cl : Claim) (l : List Claim) : (insertClaim cl l).length = l.length + 1 :=
  (insertClaim_perm cl l).length_eq

/-- The one position that keeps the order, where no claim of the station is in the list (R86). -/
theorem insertClaim_pairwise {cl : Claim} {l : List Claim} (sorted : l.Pairwise Claim.Above)
    (new : ∀ x ∈ l, x.station ≠ cl.station) : (insertClaim cl l).Pairwise Claim.Above := by
  induction l with
  | nil => exact List.pairwise_singleton _ _
  | cons x rest ih =>
    obtain ⟨below, sorted⟩ := List.pairwise_cons.1 sorted
    obtain ⟨other, new⟩ := List.forall_mem_cons.1 new
    rw [insertClaim]
    split
    · next above =>
      have above := (cl.sortsAbove_iff x).1 above
      refine .cons (List.forall_mem_cons.2 ⟨above, fun y hy => above.trans (below y hy)⟩) (.cons below sorted)
    · next notAbove =>
      have after : x.Above cl := Claim.above_of_not_above (mt (cl.sortsAbove_iff x).2 notAbove) other.symm
      refine .cons (fun y hy => ?_) (ih sorted new)
      rcases mem_insertClaim.1 hy with rfl | hy
      · exact after
      · exact below y hy

theorem ClaimListOk.insert {cl : Claim} {l : List Claim} (h : ClaimListOk l) (room : l.length < listCapacity)
    (new : ∀ x ∈ l, x.station ≠ cl.station) : ClaimListOk (insertClaim cl l) := by
  obtain ⟨-, sorted, single⟩ := h
  refine ⟨by rw [insertClaim_length]; exact room, insertClaim_pairwise sorted new, ?_⟩
  rw [((insertClaim_perm cl l).map Claim.station).nodup_iff, List.map_cons, List.nodup_cons]
  refine ⟨fun held => ?_, single⟩
  obtain ⟨x, hx, same⟩ := List.mem_map.1 held
  exact new x hx same

theorem claimOf_eq_none_iff {s : StationNo} {l : List Claim} : claimOf s l = none ↔ ∀ x ∈ l, x.station ≠ s := by
  simp [claimOf]

theorem claimOf_eq_some {s : StationNo} {l : List Claim} {cl : Claim} (h : claimOf s l = some cl) :
    cl ∈ l ∧ cl.station = s :=
  ⟨List.mem_of_find?_eq_some h, by simpa using List.find?_some h⟩

/-- Without the claim of a station that holds one a list has room (R90). -/
theorem withoutStation_length_lt {s : StationNo} {l : List Claim} {cl : Claim} (h : claimOf s l = some cl) :
    (withoutStation s l).length < l.length := by
  obtain ⟨mem, station⟩ := claimOf_eq_some h
  exact List.length_filter_lt_length_iff_exists.2 ⟨cl, mem, by simp [station]⟩

theorem mem_withoutStation {s : StationNo} {l : List Claim} {x : Claim} :
    x ∈ withoutStation s l ↔ x ∈ l ∧ x.station ≠ s := by
  simp [withoutStation]

/-- What a CLAIM leaves in a zone's list: the list itself, or the claim inserted into part of it (R90). -/
theorem applyClaim_list (cl : Claim) (l : List Claim) : (applyClaim cl l).list = l ∨
    ∃ p, p.Sublist l ∧ (l.length ≤ listCapacity → p.length < listCapacity) ∧ (∀ x ∈ p, x.station ≠ cl.station) ∧
      (applyClaim cl l).list = insertClaim cl p := by
  unfold applyClaim
  split
  · next old held =>
    split
    · exact .inl rfl
    · refine .inr ⟨withoutStation cl.station l, List.filter_sublist, ?_, ?_, rfl⟩
      · exact (withoutStation_length_lt held).trans_le
      · exact fun x hx => (mem_withoutStation.1 hx).2
  · next noClaim =>
    have new := claimOf_eq_none_iff.1 noClaim
    split
    · next room => exact .inr ⟨l, .refl l, fun _ => room, new, rfl⟩
    · split
      · exact .inl rfl
      · next last hasLast =>
        have nonempty : l ≠ [] := by rintro rfl; exact nomatch hasLast
        have shorter : l.dropLast.length < l.length := by
          rw [List.length_dropLast]
          exact Nat.sub_lt (List.length_pos_of_ne_nil nonempty) Nat.one_pos
        split
        · exact .inr ⟨l.dropLast, List.dropLast_sublist l, shorter.trans_le,
            fun x hx => new x (List.mem_of_mem_dropLast hx), rfl⟩
        · exact .inl rfl

theorem ClaimListOk.sublist {l p : List Claim} (h : ClaimListOk l) (sub : p.Sublist l) : ClaimListOk p := by
  obtain ⟨short, sorted, single⟩ := h
  exact ⟨sub.length_le.trans short, sorted.sublist sub, single.sublist (sub.map _)⟩

theorem ClaimListOk.applyClaim {cl : Claim} {l : List Claim} (h : ClaimListOk l) :
    ClaimListOk (applyClaim cl l).list := by
  rcases applyClaim_list cl l with same | ⟨p, part, room, new, inserted⟩
  · rw [same]
    exact h
  · rw [inserted]
    exact (h.sublist part).insert (room h.1) new

theorem mem_applyClaim {cl x : Claim} {l : List Claim} (h : x ∈ (applyClaim cl l).list) : x = cl ∨ x ∈ l := by
  rcases applyClaim_list cl l with same | ⟨p, part, -, -, inserted⟩
  · exact .inr (same ▸ h)
  · exact (mem_insertClaim.1 (inserted ▸ h)).imp_right fun hx => part.subset hx

/-! ### The shared tables -/

/-- One millisecond at the guards of the channels. -/
def ClaimTable.tick (t : ClaimTable) : ClaimTable := { t with channels := tabulate fun c => t.channels[c].tick }

theorem ClaimTable.tick_channel (t : ClaimTable) (c : Channel) : t.tick.channels[c] = t.channels[c].tick :=
  tabulate_get _ c

theorem Move.table_cases {on : Prop} {z z' : Zs32} (m : Move on z z') : z'.table = z.table ∨
    z'.table = ClaimTable.cleared ∨ z'.table = z.table.tick ∨ TableMove z.table z'.table := by
  cases m with
  | tick => exact .inr (.inr (.inl rfl))
  | table _ h => exact .inr (.inr (.inr h))
  | pinReset | rejoins => exact .inr (.inl rfl)
  | leaves st r => exact .inr (.inl (Zs32.endCommand_table r _))
  | joins off => exact .inl (by rw [Zs32.takeJoin_of_offline off]; rfl)
  | _ => exact .inl rfl

/-- An invariant of the claim table: it holds of the cleared table, and the tick and the table's moves keep it. -/
theorem step_keeps_table {Q : ClaimTable → Prop} (cleared : Q .cleared) (tick : ∀ t, Q t → Q t.tick)
    (move : ∀ t t' : ClaimTable, TableMove t t' → Q t → Q t') (s t : State) (h : Q s.zs.table)
    (ht : step s = .next t) : Q t.zs.table := by
  refine step_keeps (P := fun z => Q z.table) (fun z z' m h => ?_) ht h
  rcases m.table_cases with same | clear | ticked | moved
  · rwa [same]
  · rwa [clear]
  · rw [ticked]
    exact tick _ h
  · exact move _ _ moved h

theorem ClaimTable.DigestCurrent.tick {t : ClaimTable} (h : t.DigestCurrent) : t.tick.DigestCurrent := by
  have terms (c : Channel) : channelTerm c t.tick.channels[c] = channelTerm c t.channels[c] := by
    rw [ClaimTable.tick_channel]
    rfl
  change t.digest = digestOf t.tick.channels t.zones
  rw [h, digestOf, digestOf]
  simp only [terms]

theorem TableMove.digestCurrent {t t' : ClaimTable} (h : TableMove t t') : t'.DigestCurrent := by
  cases h with
  | channel => exact ClaimTable.withTables_digest _ _ _
  | removal _ _ _ digest => exact digest
  | claim _ _ _ digest => exact digest

theorem ClaimTable.cleared_zone (k : Zone) : ClaimTable.cleared.zones[k] = [] := by simp [ClaimTable.cleared]

theorem ClaimTable.cleared_channel (c : Channel) : ClaimTable.cleared.channels[c] = ChannelRec.cleared := by
  simp [ClaimTable.cleared]

theorem ClaimListOk.nil : ClaimListOk [] := ⟨Nat.zero_le _, .nil, .nil⟩

theorem TableMove.listsOk {t t' : ClaimTable} (h : TableMove t t') (ok : t.ListsOk) : t'.ListsOk := by
  intro k
  cases h with
  | channel => exact ok k
  | removal _ ended kept _ _ zones =>
    rw [zones]
    exact (ok k).filter _
  | claim _ cl _ _ _ zones =>
    rcases zones k with same | claimed
    · rw [same]
      exact ok k
    · rw [claimed]
      exact (ok k).applyClaim

theorem ChannelRec.Ok.tick {r : ChannelRec} (h : r.Ok) : r.tick.Ok := by
  obtain ⟨owner, length, phase, guard⟩ := r
  cases phase with
  | free =>
    obtain ⟨unowned, untimed, rfl⟩ := h
    exact ⟨unowned, untimed, rfl⟩
  | opening =>
    obtain ⟨owned, ms, rfl⟩ := h
    exact ⟨owned, _, rfl⟩
  | live =>
    obtain ⟨owned, rfl⟩ := h
    exact ⟨owned, rfl⟩
  | draining =>
    obtain ⟨unowned, untimed, ms, rfl⟩ := h
    exact ⟨unowned, untimed, _, rfl⟩

/-- A running guard tells the phase (R60). -/
theorem ChannelRec.Ok.of_openGuard {r : ChannelRec} (h : r.Ok) {ms : Nat} (guarded : r.guard = .openGuard ms) :
    r.owner.isSome := by
  unfold ChannelRec.Ok at h
  split at h <;> simp_all

theorem ChannelRec.Ok.of_drainGuard {r : ChannelRec} (h : r.Ok) {ms : Nat} (guarded : r.guard = .drainGuard ms) :
    r.owner = none ∧ r.length = none := by
  unfold ChannelRec.Ok at h
  split at h <;> simp_all

theorem ChannelMove.ok {r r' : ChannelRec} (h : ChannelMove r r') (ok : r.Ok) : r'.Ok := by
  cases h with
  | opened s n => exact ⟨rfl, _, rfl⟩
  | restated s n => exact ⟨rfl, rfl⟩
  | live ms guarded => exact ⟨ok.of_openGuard guarded, rfl⟩
  | free ms guarded =>
    obtain ⟨unowned, untimed⟩ := ok.of_drainGuard guarded
    exact ⟨unowned, untimed, rfl⟩

theorem Channel.getElem_set (channels : Vector ChannelRec 16) (c k : Channel) (r : ChannelRec) :
    (channels.set c r)[k] = if c = k then r else channels[k] := by
  simp only [Fin.getElem_fin, Vector.getElem_set, Fin.ext_iff]

theorem TableMove.channelsOk {t t' : ClaimTable} (h : TableMove t t') (ok : t.ChannelsOk) : t'.ChannelsOk := by
  intro k
  cases h with
  | channel c r move =>
    change ((t.channels.set c r)[k]).Ok
    rw [Channel.getElem_set]
    split
    · exact move.ok (ok c)
    · exact ok k
  | removal _ ended _ _ channels =>
    rw [channels]
    split
    · exact ⟨rfl, rfl, _, rfl⟩
    · exact ok k
  | claim _ _ _ _ channels =>
    rw [channels]
    exact ok k

/-- A channel record changes its owner only where it had none. -/
theorem ChannelMove.owner {r r' : ChannelRec} (h : ChannelMove r r') {s : StationNo} (owned : r.owner = some s) :
    r'.owner = some s := by
  cases h with
  | opened _ _ unowned => exact nomatch unowned.symm.trans owned
  | restated _ _ unowned => exact nomatch unowned.symm.trans owned
  | live | free => exact owned

theorem TableMove.claimsOwned {t t' : ClaimTable} (h : TableMove t t') (ok : t.ClaimsOwned) : t'.ClaimsOwned := by
  intro k x hx
  cases h with
  | channel c r move =>
    change ((t.channels.set c r)[x.channel]).owner = some x.station
    have owned := ok k x hx
    rw [Channel.getElem_set]
    split
    · next same =>
      subst same
      exact move.owner owned
    · exact owned
  | removal _ ended kept _ channels zones =>
    rw [zones] at hx
    obtain ⟨mem, stays⟩ := List.mem_filter.1 hx
    rw [Bool.and_eq_true, Bool.not_eq_true'] at stays
    rw [channels, stays.1]
    exact ok k x mem
  | claim _ cl owned _ channels zones =>
    rw [channels]
    have mem : x = cl ∨ x ∈ t.zones[k] := by
      rcases zones k with same | claimed
      · exact .inr (same ▸ hx)
      · exact mem_applyClaim (claimed ▸ hx)
    rcases mem with rfl | mem
    · exact owned
    · exact ok k x mem

theorem TableMove.comparison {t t' : ClaimTable} (h : TableMove t t') (ok : t.comparison = none) :
    t'.comparison = none := by
  cases h with
  | channel => exact ok
  | removal _ _ _ _ _ _ comparison => exact comparison
  | claim _ _ _ _ _ _ comparison => exact comparison

/-- Settles O56: each part holds of the cleared table and is kept by the tick and by every move of the table. -/
theorem stepsKeepTheSharedTables : Obligations.StepsKeepTheSharedTables := by
  refine ⟨?_, ?_, ⟨?_, ?_⟩, ?_⟩
  · exact step_keeps_table ClaimTable.cleared_digest (fun _ h => h.tick) fun _ _ m _ => m.digestCurrent
  · refine step_keeps_table (fun k => ?_) (fun _ h => h) fun _ _ m => m.listsOk
    rw [ClaimTable.cleared_zone]
    exact .nil
  · refine step_keeps_table (fun c => ?_) (fun t h c => ?_) fun _ _ m => m.channelsOk
    · rw [ClaimTable.cleared_channel]
      exact ⟨rfl, rfl, rfl⟩
    · rw [ClaimTable.tick_channel]
      exact (h c).tick
  · refine step_keeps_table (fun k cl mem => ?_) (fun t h k cl mem => ?_) fun _ _ m => m.claimsOwned
    · rw [ClaimTable.cleared_zone] at mem
      exact nomatch mem
    · rw [ClaimTable.tick_channel]
      exact h k cl mem
  · exact step_keeps_table (Q := fun t => t.comparison = none) rfl (fun _ h => h) fun _ _ m => m.comparison

/-! ### The notice log -/

theorem Notice.filter_isGap_eq_nil {l : List Notice} (h : l.all (!·.isGap) = true) : l.filter Notice.isGap = [] := by
  simpa using h

theorem NoticeLog.afterSense_ok {l : NoticeLog} (h : l.Ok) : l.afterSense.Ok := by
  obtain ⟨short, oneGap, count, lost⟩ := h
  have gaps : (l.records.tail.filter Notice.isGap).length ≤ 1 :=
    ((List.tail_sublist l.records).filter _).length_le.trans oneGap
  unfold NoticeLog.afterSense
  dsimp only
  split
  · exact ⟨short, oneGap, count, lost⟩
  · next nonempty =>
    have shorter : l.records.tail.length + 1 = l.records.length := by
      rw [List.length_tail]
      exact Nat.succ_pred_eq_of_pos (List.length_pos_of_ne_nil (mt List.isEmpty_iff.2 nonempty))
    split
    · next counted =>
      refine ⟨?_, ?_, Nat.zero_le _, fun h => (h rfl).elim⟩
      · rw [List.length_append, List.length_singleton, shorter]
        exact short
      · rw [List.filter_append, Notice.filter_isGap_eq_nil counted.2]
        exact Nat.le_refl 1
    · next keeps =>
      refine ⟨(Nat.le_succ _).trans (shorter.trans_le short), gaps, count, fun gap => .inr ?_⟩
      simpa [gap] using keeps

theorem NoticeMove.ok {l l' : NoticeLog} (h : NoticeMove l l') (ok : l.Ok) : l'.Ok := by
  cases h with
  | log n noGap => exact NoticeLog.log_ok ok noGap
  | sense => exact NoticeLog.afterSense_ok ok
  | mask m => exact ok

/-- Settles O57: the log's own moves keep it, pin reset empties it, and every other move leaves it alone. -/
theorem stepsKeepTheNoticeLog : Obligations.StepsKeepTheNoticeLog := by
  intro s t ok ht
  refine step_keeps (P := fun z => z.notices.Ok) (fun z z' m ok => ?_) ht ok
  cases m with
  | notices h => exact h.ok ok
  | configures setup binds mask => exact (NoticeMove.mask mask).ok ok
  | pinReset => exact ⟨Nat.zero_le _, Nat.zero_le _, Nat.zero_le _, fun h => (h rfl).elim⟩
  | leaves st r =>
    rw [Zs32.endCommand_notices]
    exact ok
  | joins off =>
    rw [Zs32.takeJoin_of_offline off]
    exact ok
  | _ => exact ok

/-! ### The host port -/

/-- A port that waits for a command has no result (R148). -/
theorem Port.Ok.waiting {p : Port} (h : p.Ok) (waits : p.phase = .ready ∨ p.phase = .command) :
    p.resBuf = [] ∧ p.readPos = 0 ∧ p.firstByte = false ∧ p.cmd = none := by
  unfold Port.Ok at h
  rcases waits with phase | phase
  · rw [phase] at h
    exact h.2
  · rw [phase] at h
    exact h.2

theorem Port.Ok.inResult {p : Port} (h : p.Ok) (phase : p.phase = .result) :
    p.cmdBuf = [] ∧ p.readPos < p.resBuf.length ∧ p.firstByte = decide (p.readPos ≠ 0) ∧ p.cmd = none := by
  unfold Port.Ok at h
  rw [phase] at h
  exact h

theorem Port.Ok.executes {p : Port} (h : p.Ok) (waits : p.phase = .ready ∨ p.phase = .command) (e : CmdExec) :
    Port.Ok { p with phase := .executing, cmdBuf := [], cmd := some e } := by
  obtain ⟨result, position, mark, -⟩ := h.waiting waits
  exact ⟨rfl, result, position, mark, rfl⟩

theorem PortMove.ok {p q : Port} (h : PortMove p q) (ok : p.Ok) : q.Ok := by
  cases h with
  | pins => exact ok
  | buffers code params waits short => exact ⟨⟨code, params, rfl, short⟩, ok.waiting waits⟩
  | result r => exact ⟨rfl, List.length_pos_of_ne_nil r.bytes_ne_nil, rfl, rfl⟩
  | command f =>
    unfold Port.Ok at ok ⊢
    dsimp only at ok ⊢
    split <;> simp_all
  | nextByte inResult more =>
    obtain ⟨empty, -, -, idle⟩ := ok.inResult inResult
    unfold Port.Ok
    rw [inResult]
    exact ⟨empty, more, by simp, idle⟩
  | lastByte inResult =>
    obtain ⟨empty, -, -, idle⟩ := ok.inResult inResult
    exact ⟨empty, rfl, rfl, rfl, idle⟩

theorem Zs32.endCommand_port_ok {z : Zs32} (r : Result) (ok : z.port.Ok) : (z.endCommand r).port.Ok := by
  unfold Zs32.endCommand
  split
  · exact (PortMove.result r).ok ok
  · exact ok

/-- Table clear detaches the command in execution at most (R123). -/
theorem Zs32.tableClear_port_ok {z : Zs32} (ok : z.port.Ok) : z.tableClear.port.Ok :=
  (PortMove.command fun c => { c with stage := c.stage.detach }).ok ok

/-- Settles O58: the port's own moves and the start of an execution keep it, and the ways off the line end in a result.
-/
theorem stepsKeepTheHostPort : Obligations.StepsKeepTheHostPort := by
  intro s t ok ht
  refine step_keeps (P := fun z => z.port.Ok) (fun z z' m ok => ?_) ht ok
  cases m with
  | port h => exact h.ok ok
  | executes e _ waits => exact ok.executes waits e
  | joins off waits =>
    rw [Zs32.takeJoin_of_offline off]
    exact ok.executes waits _
  | leaves st r => exact Zs32.endCommand_port_ok r (Zs32.tableClear_port_ok ok)
  | rejoins => exact Zs32.tableClear_port_ok ok
  | pinReset => exact ⟨rfl, rfl, rfl, rfl, rfl⟩
  | _ => exact ok

/-! ### The roster -/

theorem mem_insertEntry {e x : RosterEntry} {l : List RosterEntry} : x ∈ insertEntry e l ↔ x = e ∨ x ∈ l := by
  induction l with
  | nil => simp [insertEntry]
  | cons y rest ih =>
    rw [insertEntry]
    split
    · exact List.mem_cons
    · rw [List.mem_cons, ih, List.mem_cons, or_left_comm]

theorem insertEntry_pairwise {e : RosterEntry} {l : List RosterEntry}
    (sorted : l.Pairwise fun a b => a.station < b.station) (new : ∀ y ∈ l, y.station ≠ e.station) :
    (insertEntry e l).Pairwise fun a b => a.station < b.station := by
  induction l with
  | nil => exact List.pairwise_singleton _ _
  | cons y rest ih =>
    obtain ⟨above, sorted⟩ := List.pairwise_cons.1 sorted
    obtain ⟨other, new⟩ := List.forall_mem_cons.1 new
    rw [insertEntry]
    split
    · next below =>
      exact .cons (List.forall_mem_cons.2 ⟨below, fun x hx => below.trans (above x hx)⟩) (.cons above sorted)
    · next notBelow =>
      refine .cons (fun x hx => ?_) (ih sorted new)
      rcases mem_insertEntry.1 hx with rfl | hx
      · exact lt_of_le_of_ne (le_of_not_gt notBelow) other
      · exact above x hx

theorem insertStation_pairwise {x : StationNo} {l : List StationNo} (sorted : l.Pairwise (· < ·)) (new : x ∉ l) :
    (insertStation x l).Pairwise (· < ·) := by
  induction l with
  | nil => exact List.pairwise_singleton _ _
  | cons y rest ih =>
    obtain ⟨above, sorted⟩ := List.pairwise_cons.1 sorted
    obtain ⟨other, new⟩ := not_or.1 (mt List.mem_cons.2 new)
    rw [insertStation]
    split
    · next below =>
      exact .cons (List.forall_mem_cons.2 ⟨below, fun z hz => below.trans (above z hz)⟩) (.cons above sorted)
    · next notBelow =>
      refine .cons (fun z hz => ?_) (ih sorted new)
      rcases (mem_insertStation x z rest).1 hz with rfl | hz
      · exact lt_of_le_of_ne (le_of_not_gt notBelow) (Ne.symm other)
      · exact above z hz

/-- A frame that passed the check has a sender with a number (R176). -/
theorem receptionOf_sender {bits : List Bool} {f : Frame} (h : receptionOf bits = .good f) : f.sender ≠ 0 := by
  have decoded : decodeFrame bits = some f := by
    unfold receptionOf at h
    cases d : decodeFrame bits with
    | none => rw [d] at h; exact nomatch h
    | some g => rw [d] at h; exact congrArg some (Reception.good.inj h)
  simp only [decodeFrame, Option.bind_eq_bind, Option.bind_eq_some_iff, Option.ite_none_right_eq_some] at decoded
  obtain ⟨l, -, -, head⟩ := decoded
  simp only [decodeHead, Option.bind_eq_bind, Option.bind_eq_some_iff, Option.ite_none_right_eq_some] at head
  obtain ⟨_, -, sender, -, _, -, ⟨numbered, -⟩, same⟩ := head
  rw [← Option.some.inj same]
  exact numbered

section Peers
variable {z : Zs32}

theorem LineMove.sendersOk {l : Line} (h : LineMove z.line l) (ok : z.SendersOk) :
    Zs32.SendersOk { z with line := l } := by
  obtain ⟨waiting, received⟩ := ok
  cases h with
  | receives bits => exact ⟨waiting, fun f good => receptionOf_sender (Option.some.inj good)⟩
  | slotsEnd => exact ⟨waiting, nofun⟩
  | accepts f mark _ good =>
    refine ⟨fun g hg peer => ?_, nofun⟩
    rcases List.mem_append.1 hg with hg | hg
    · exact waiting g hg peer
    · obtain rfl := List.mem_singleton.1 hg
      exact received f (good peer)
  | _ => exact ⟨waiting, received⟩

theorem MembMove.rosterOk {m : Membership} (h : MembMove z m) (ok : z.RosterOk) (senders : z.SendersOk) :
    Zs32.RosterOk { z with memb := m } := by
  obtain ⟨sorted, peers⟩ := ok
  cases h with
  | shrinks m _ roster => exact ⟨sorted.sublist roster, fun e he => peers e (roster.subset he)⟩
  | entries f same =>
    refine ⟨List.pairwise_map.2 (sorted.imp fun {a b} h => ?_), fun e he => ?_⟩
    · rwa [same, same]
    · obtain ⟨y, hy, rfl⟩ := List.mem_map.1 he
      rw [same]
      exact peers y hy
  | joined | holds => exact ⟨sorted, peers⟩
  | adds e f _ waits peer sender other new =>
    refine ⟨insertEntry_pairwise sorted new, fun x hx => ?_⟩
    rcases mem_insertEntry.1 hx with rfl | hx
    · exact ⟨sender ▸ senders.1 f waits peer, other⟩
    · exact peers x hx

theorem Zs32.PeersOk.of_cleared {st : StationState} (memb : z.memb = Membership.clearedIn st) (inq : z.line.inq = [])
    (reception : ∀ f, z.line.reception = some (.good f) → f.sender ≠ 0) : z.PeersOk := by
  have empty : z.memb.roster = [] := by rw [memb]; rfl
  refine ⟨fun _ => empty, ⟨?_, ?_⟩, ?_, reception⟩
  · rw [empty]
    exact .nil
  · rw [empty]
    exact nofun
  · rw [inq]
    exact nofun

end Peers

theorem Zs32.tick_rosterOk {z : Zs32} (ok : z.RosterOk) : z.tick.RosterOk := by
  obtain ⟨sorted, peers⟩ := ok
  refine ⟨List.pairwise_map.2 sorted, fun e he => ?_⟩
  obtain ⟨y, hy, rfl⟩ := List.mem_map.1 he
  exact peers y hy

/-- Every move keeps the peers: frames that wait or stand in their slots come from numbered stations (R176), and a
station off the line has no roster that another number of its own could enter (R157). -/
theorem Move.peersOk {z z' : Zs32} (m : Move False z z') (ok : z.PeersOk) : z'.PeersOk := by
  obtain ⟨off, roster, senders⟩ := ok
  cases m with
  | tick =>
    refine ⟨fun h => ?_, Zs32.tick_rosterOk roster, senders⟩
    exact (congrArg (List.map RosterEntry.tick) (off h)).trans List.map_nil
  | pinReset => exact .of_cleared (st := .unconfigured) rfl rfl nofun
  | configures setup binds mask offLine =>
    have empty := off offLine
    refine ⟨fun _ => empty, ⟨roster.1, ?_⟩, senders⟩
    change ∀ e ∈ z.memb.roster, _
    rw [empty]
    exact nofun
  | joins offline =>
    have empty := off (by simp [Zs32.onLine, offline])
    rw [Zs32.takeJoin_of_offline offline]
    exact ⟨fun _ => empty, roster, senders⟩
  | leaves st r =>
    refine .of_cleared (st := st) ?_ ?_ ?_
    · rw [Zs32.endCommand_memb, Zs32.leaveLine_memb]
    · rw [Zs32.endCommand_line, Zs32.leaveLine_line]
      rfl
    · rw [Zs32.endCommand_line, Zs32.leaveLine_line]
      exact nofun
  | rejoins => exact .of_cleared (st := .listening) rfl rfl senders.2
  | finish => exact ⟨off, roster, fun f hf => senders.1 f (List.mem_of_mem_tail hf), senders.2⟩
  | line _ h => exact ⟨off, roster, h.sendersOk senders⟩
  | memb _ h =>
    refine ⟨fun offLine => ?_, h.rosterOk roster senders, senders⟩
    cases h with
    | shrinks m state sub =>
      exact List.sublist_nil.1 (off (by simpa only [Zs32.onLine, state] using offLine) ▸ sub)
    | entries f => exact (congrArg (List.map f) (off offLine)).trans List.map_nil
    | joined => exact nomatch offLine
    | holds => exact off offLine
    | adds e f onLine => exact Bool.noConfusion (onLine.symm.trans offLine)
  | _ => exact ⟨off, roster, senders⟩

/-- Every move keeps the held EVICTs in ascending order (R50). -/
theorem Move.evictHeld {z z' : Zs32} (m : Move False z z') (sorted : z.memb.evictHeld.Pairwise (· < ·)) :
    z'.memb.evictHeld.Pairwise (· < ·) := by
  cases m with
  | pinReset | rejoins => exact .nil
  | leaves st r =>
    rw [Zs32.endCommand_memb, Zs32.leaveLine_memb]
    exact .nil
  | joins offline =>
    rw [Zs32.takeJoin_of_offline offline]
    exact sorted
  | memb _ h =>
    cases h with
    | shrinks m _ _ held => exact sorted.sublist held
    | holds x new => exact insertStation_pairwise sorted new
    | entries | joined | adds => exact sorted
  | _ => exact sorted

/-- Settles O60: the moves of the membership unit keep the order, and a peer is added under a number of its own. -/
theorem stepsKeepTheRosterInOrder : Obligations.StepsKeepTheRosterInOrder :=
  ⟨fun _ _ ok ht => step_keeps (fun _ _ m => m.peersOk) ht ok,
    fun _ _ sorted ht =>
      step_keeps (P := fun z => z.memb.evictHeld.Pairwise (· < ·)) (fun _ _ m => m.evictHeld) ht sorted⟩

end Sys2Proof.Machine
end

section
/-! A whole command written by the host from READY: its bytes as parameters, and its taking (R124, R151, R153, R157,
R198). -/

namespace Sys2Proof.Machine

/-! ### Parameters as bytes (R198) -/

theorem byte_toNat (n : Nat) : (byte n).toNat = n % 256 := BitVec.toNat_ofNat n 8

theorem byte_toNat_fin {n : Nat} (small : n ≤ 256) (c : Fin n) : (byte c.val).toNat = c.val := by
  rw [byte_toNat]
  omega

theorem byte_fin_eq_iff {n : Nat} (small : n ≤ 256) (c : Fin n) (b : Byte) : byte c.val = b ↔ c.val = b.toNat := by
  rw [← BitVec.toNat_inj, byte_toNat_fin small]

theorem below_byte {n : Nat} (small : n ≤ 256) (c : Fin n) : below n (byte c.val) = some c := by
  simp [below, inRange, byte_toNat_fin small]

theorem below_eq_none {n : Nat} {b : Byte} (h : n ≤ b.toNat) : below n b = none := by
  simp [below, inRange, h]

theorem inputParam_inputByte (i : Input) : inputParam (inputByte i) = some i := by cases i <;> rfl

theorem Byte.ne_of_lt_toNat {b : Byte} {n : Nat} (h : n < b.toNat) {c : Byte} (small : c.toNat ≤ n) : b ≠ c := by
  rintro rfl
  omega

theorem inputParam_eq_none {b : Byte} (h : 1 < b.toNat) : inputParam b = none := by
  rw [inputParam, if_neg (Byte.ne_of_lt_toNat h (by decide)), if_neg (Byte.ne_of_lt_toNat h (by decide))]

theorem flagParam_flagByte (b : Bool) : flagParam (flagByte b) = some b := by cases b <;> rfl

theorem flagParam_eq_none {b : Byte} (h : 1 < b.toNat) : flagParam b = none := by
  rw [flagParam, if_neg (Byte.ne_of_lt_toNat h (by decide)), if_neg (Byte.ne_of_lt_toNat h (by decide))]

/-- The byte 0xFF names no channel and no zone (R198). -/
theorem byte_fin_ne_ff {n : Nat} (small : n ≤ 255) (c : Fin n) : byte c.val ≠ 0xFF := fun h => by
  have top : c.val = 255 := (byte_fin_eq_iff (by omega) c _).1 h
  omega

theorem channelOrAny_openChannelByte (c : Option Channel) : channelOrAny (openChannelByte c) = some c := by
  cases c with
  | none => rfl
  | some c =>
    rw [openChannelByte, Option.elim_some, channelOrAny, if_neg (byte_fin_ne_ff (by decide) c), below_byte (by decide)]
    rfl

theorem channelOrAny_eq_none {b : Byte} (h : ¬ (b.toNat < 16 ∨ b = 0xFF)) : channelOrAny b = none := by
  obtain ⟨above, notAny⟩ := not_or.1 h
  rw [channelOrAny, if_neg notAny, below_eq_none (Nat.le_of_not_lt above)]
  rfl

theorem bindingParam_bindingByte (k : Option Zone) : bindingParam (bindingByte k) = some k := by
  cases k with
  | none => rfl
  | some k =>
    rw [bindingByte, Option.elim_some, bindingParam, if_neg (byte_fin_ne_ff (by decide) k), below_byte (by decide)]
    rfl

theorem bindingParam_eq_none {b : Byte} (above : 31 < b.toNat) (bound : b ≠ 0xFF) : bindingParam b = none := by
  rw [bindingParam, if_neg bound, below_eq_none above]
  rfl

theorem byte_fin_ne_zero {n : Nat} (small : n ≤ 256) {c : Fin n} (h : c.val ≠ 0) : byte c.val ≠ 0 :=
  fun zero => h ((byte_fin_eq_iff small c 0).1 zero)

theorem priorityParam_byte {p : Priority} (h : p ≠ 0) : priorityParam (byte p.val) = some p := by
  rw [priorityParam, if_neg (byte_fin_ne_zero (by decide) (Fin.val_ne_zero_iff.2 h)), below_byte (by decide)]

theorem priorityParam_eq_none {b : Byte} (h : b = 0 ∨ 7 < b.toNat) : priorityParam b = none := by
  rcases h with rfl | above
  · rfl
  · rw [priorityParam, below_eq_none above, ite_self]

theorem zoneSetParam_of_ne {zones : ZoneSet} (h : zones ≠ 0) : zoneSetParam zones = some zones := if_neg h

theorem stationParam_byte {x : StationNo} (h : x ≠ 0) : stationParam (byte x.val) = some x := by
  rw [stationParam, if_neg (byte_fin_ne_zero (by decide) (Fin.val_ne_zero_iff.2 h)), below_byte (by decide)]

theorem stationParam_eq_none {b : Byte} (h : b = 0 ∨ 31 < b.toNat) : stationParam b = none := by
  rcases h with rfl | above
  · rfl
  · rw [stationParam, below_eq_none above, ite_self]

theorem intervalParam_byte {iv : Interval} (h : iv ≠ 0) (small : iv.val ≤ 100) :
    intervalParam (byte iv.val) = some iv := by
  have inRange : ¬ (byte iv.val = 0 ∨ 100 < (byte iv.val).toNat) := by
    rw [byte_toNat_fin (by decide)]
    exact not_or.2 ⟨byte_fin_ne_zero (by decide) (Fin.val_ne_zero_iff.2 h), Nat.not_lt.2 small⟩
  rw [intervalParam, if_neg inRange, below_byte (by decide)]

theorem intervalParam_eq_none {b : Byte} (h : b = 0 ∨ 100 < b.toNat) : intervalParam b = none := if_pos h

theorem chimeParam_byte (n : Fin 41) : chimeParam (byte n.val) = some n.val := by
  have small : n.val ≤ 40 := Nat.le_of_lt_succ n.isLt
  rw [chimeParam, byte_toNat_fin (by decide), if_pos small]

theorem chimeParam_eq_none {b : Byte} (h : 40 < b.toNat) : chimeParam b = none := if_neg (Nat.not_le.2 h)

/-! ### The answer of a command -/

section Answers
variable {s : State}

/-- A command of more than one byte, written from READY, is taken with its parameters; its last byte shifts out 0x00
(R149, R151, R153). -/
theorem State.writes {code : Byte} {ps : List Byte} (h : s.CanWrite) (params : ps ≠ [])
    (whole : ps.length + 1 = commandLength code) : s.run (Zs32.writeCommand (code :: ps)) = .next { s with
      zs := ((s.zs.buffering (code :: ps.dropLast)).takeCommand code ps).shiftOut (some 0) } := by
  obtain ⟨awake, writing, ready⟩ := h
  rw [State.run_awake awake, Zs32.writeCommand_ready writing ready params whole]

/-- A command of one byte, written from READY, is taken. -/
theorem State.writesOne {code : Byte} (h : s.CanWrite) (whole : commandLength code ≤ 1) :
    s.run (Zs32.writeCommand [code]) = .next { s with zs := (s.zs.takeCommand code []).shiftOut (some 0) } := by
  obtain ⟨awake, writing, ready⟩ := h
  rw [State.run_awake awake, Zs32.writeCommand_one writing ready whole]

/-- A result formed at the taking of a buffered command is its whole effect (R154). -/
theorem State.answers_formResult (s : State) (buf : List Byte) (r : Result) :
    ({ s with zs := ((s.zs.buffering buf).formResult r).shiftOut (some 0) } : State) = s.answers r.bytes := rfl

theorem State.answers_refuse (s : State) (buf : List Byte) (code : ResultCode) :
    ({ s with zs := ((s.zs.buffering buf).refuse code).shiftOut (some 0) } : State) = s.answers [code.code] := rfl

theorem Zs32.hasRoom_iff (z : Zs32) : z.hasRoom = true ↔ z.line.outq.length < 8 := decide_eq_true_iff

/-- The frame of a command is placed where a slot is free (R6, R124). -/
theorem State.taken_placeHost (buf : List Byte) (cmd : LineCommand) (p : Placed) (room : s.zs.line.outq.length < 8) :
    ({ s with zs := ((s.zs.buffering buf).placeHost cmd p).shiftOut (some 0) } : State) = s.taken cmd p := by
  rw [Zs32.placeHost, if_pos ((s.zs.buffering buf).hasRoom_iff.2 room)]
  rfl

theorem State.answers_placeHost (buf : List Byte) (cmd : LineCommand) (p : Placed) (full : 8 ≤ s.zs.line.outq.length) :
    ({ s with zs := ((s.zs.buffering buf).placeHost cmd p).shiftOut (some 0) } : State) = s.answers [0x0A] := by
  rw [Zs32.placeHost, if_neg (mt (s.zs.buffering buf).hasRoom_iff.1 (Nat.not_lt.2 full))]
  rfl

end Answers

/-! ### JOIN (R127) -/

/-- Settles O9: JOIN by the station state. -/
theorem joinIsTakenOffLine : Obligations.JoinIsTakenOffLine := by
  intro s h
  have taken : exec .joinCmd s = .next { s with zs := s.zs.takeJoin.shiftOut (some 0) } :=
    State.writesOne h (by decide)
  have refused (code : ResultCode) (eq : s.zs.takeJoin = s.zs.refuse code) :
      exec .joinCmd s = .next (s.answers [code.code]) := by
    rw [taken, eq]
    rfl
  refine ⟨fun off => ?_, fun state => refused .notConfigured ?_, fun state => refused .onLine ?_,
    fun state => refused .clashed ?_⟩
  · rw [taken, Zs32.takeJoin_of_offline off]
    rfl
  · rw [Zs32.takeJoin, state]
  · rcases state with state | state <;> rw [Zs32.takeJoin, state]
  · rw [Zs32.takeJoin, state]

/-! ### OPEN (R131) -/

section Open
variable {s : State}

theorem openParams_eq_none {channel input : Byte} (h : ¬ (channel.toNat < 16 ∨ channel = 0xFF) ∨ 1 < input.toNat)
    (w : BitVec 16) : openParams (channel :: input :: bytes16 w) = none := by
  rcases h with channel | input
  · simp [openParams, bytes16, channelOrAny_eq_none channel]
  · simp [openParams, bytes16, inputParam_eq_none input]

theorem openParams_bytes (c : Option Channel) (i : Input) (w : BitVec 16) :
    openParams (openChannelByte c :: inputByte i :: bytes16 w) = some (c, i, if w = 0 then none else some w) := by
  simp [openParams, bytes16, channelOrAny_openChannelByte, inputParam_inputByte, word16_bytes]

theorem exec_openCmd (h : s.CanWrite) (channel input : Byte) (w : BitVec 16) : ∃ buf,
    exec (.openCmd channel input w) s = .next { s with
      zs := ((s.zs.buffering buf).takeOpen (channel :: input :: bytes16 w)).shiftOut (some 0) } :=
  ⟨_, State.writes (ps := channel :: input :: bytes16 w) h (by simp) rfl⟩

/-! The checks of OPEN in their order (R124). -/

variable {z : Zs32} {ps : List Byte} {c : Option Channel} {i : Input} {len : Option TimedLength}

theorem Zs32.takeOpen_badParam (params : openParams ps = none) : z.takeOpen ps = z.refuse .badParam := by
  rw [Zs32.takeOpen, params]

theorem Zs32.takeOpen_notJoined (params : openParams ps = some (c, i, len)) (state : z.memb.state ≠ .joined) :
    z.takeOpen ps = z.refuse .notJoined := by
  simp only [Zs32.takeOpen, params, if_pos state]

theorem Zs32.takeOpen_inputBusy (params : openParams ps = some (c, i, len)) (joined : z.memb.state = .joined)
    (busy : (z.source.get i).bound ≠ none ∨ (z.source.get i).starting ≠ none) :
    z.takeOpen ps = z.refuse .inputBusy := by
  have taken : ((z.source.get i).bound.isSome || (z.source.get i).starting.isSome) = true := by
    simpa [Option.isSome_iff_ne_none] using busy
  simp only [Zs32.takeOpen, params, if_neg (not_not.2 joined), if_pos taken]

theorem Zs32.takeOpen_placed (params : openParams ps = some (c, i, len)) (joined : z.memb.state = .joined)
    (unbound : (z.source.get i).bound = none) (idle : (z.source.get i).starting = none) :
    z.takeOpen ps = z.placeHost (.openCh c i len) (.openCh c i len false) := by
  simp only [Zs32.takeOpen, params, joined, unbound, idle, ne_eq, not_true_eq_false, if_false, Option.isSome_none,
    Bool.or_self, Bool.false_eq_true]

end Open

/-- Settles O11: the checks of OPEN in their order. -/
theorem openChecksThenPlacesItsFrame : Obligations.OpenChecksThenPlacesItsFrame := by
  intro s h
  constructor
  · intro channel input w bad
    obtain ⟨buf, taken⟩ := exec_openCmd h channel input w
    rw [taken, Zs32.takeOpen_badParam (z := s.zs.buffering buf) (openParams_eq_none bad w), State.answers_refuse]
    rfl
  · intro c i w
    obtain ⟨buf, taken⟩ := exec_openCmd h (openChannelByte c) (inputByte i) w
    have params := openParams_bytes c i w
    rw [taken]
    refine ⟨fun state => ?_, fun joined => ⟨fun busy => ?_, fun unbound idle => ?_⟩⟩
    · rw [Zs32.takeOpen_notJoined (z := s.zs.buffering buf) params state, State.answers_refuse]
      rfl
    · rw [Zs32.takeOpen_inputBusy (z := s.zs.buffering buf) params joined busy, State.answers_refuse]
      rfl
    · rw [Zs32.takeOpen_placed (z := s.zs.buffering buf) params joined unbound idle]
      exact ⟨fun full => congrArg _ (State.answers_placeHost buf _ _ full),
        fun room => congrArg _ (State.taken_placeHost buf _ _ room)⟩

/-! ### CLOSE (R133) -/

theorem exec_closeCmd {s : State} (h : s.CanWrite) (channel : Byte) : ∃ buf, exec (.closeCmd channel) s =
    .next { s with zs := ((s.zs.buffering buf).takeClose [channel]).shiftOut (some 0) } :=
  ⟨_, State.writes (ps := [channel]) h (by simp) rfl⟩

theorem closeParams_byte (c : Channel) : closeParams [byte c.val] = some c := below_byte (by decide) c

theorem Zs32.mergeInput_of_pending {z : Zs32} {c : Channel} {i : Input} (bound : z.source.inputOf c = some i)
    (pending : (z.source.get i).pending = true) : z.mergeInput c = some i := by
  rw [Zs32.mergeInput, bound, Option.filter_some, if_pos pending]

theorem Zs32.mergeInput_of_not_pending {z : Zs32} {c : Channel} {i : Input} (bound : z.source.inputOf c = some i)
    (pending : (z.source.get i).pending = false) : z.mergeInput c = none := by
  rw [Zs32.mergeInput, bound, Option.filter_some, if_neg (Bool.eq_false_iff.1 pending)]

section Close
variable {z : Zs32} {c : Channel}

theorem Zs32.takeClose_badParam {b : Byte} (above : 16 ≤ b.toNat) : z.takeClose [b] = z.refuse .badParam := by
  have params : closeParams [b] = none := below_eq_none above
  rw [Zs32.takeClose, params]

theorem Zs32.takeClose_notJoined (state : z.memb.state ≠ .joined) :
    z.takeClose [byte c.val] = z.refuse .notJoined := by
  simp only [Zs32.takeClose, closeParams_byte, if_pos state]

theorem Zs32.takeClose_notOwner (joined : z.memb.state = .joined) (other : z.table.channels[c].owner ≠ some z.me) :
    z.takeClose [byte c.val] = z.refuse .notOwner := by
  simp only [Zs32.takeClose, closeParams_byte, if_neg (not_not.2 joined), if_pos other]

theorem Zs32.takeClose_merges {i : Input} (joined : z.memb.state = .joined)
    (owned : z.table.channels[c].owner = some z.me) (merges : z.mergeInput c = some i) :
    z.takeClose [byte c.val] = z.mergeClose c i := by
  simp only [Zs32.takeClose, closeParams_byte, if_neg (not_not.2 joined), if_neg (not_not.2 owned), merges]

theorem Zs32.takeClose_placed (joined : z.memb.state = .joined) (owned : z.table.channels[c].owner = some z.me)
    (merges : z.mergeInput c = none) : z.takeClose [byte c.val] = z.placeHost (.close c) (.close c false) := by
  simp only [Zs32.takeClose, closeParams_byte, if_neg (not_not.2 joined), if_neg (not_not.2 owned), merges]

end Close

/-- Settles O12: the checks of CLOSE, then the merge or the frame. -/
theorem closeMergesOrPlacesItsFrame : Obligations.CloseMergesOrPlacesItsFrame := by
  intro s h
  constructor
  · intro channel above
    obtain ⟨buf, taken⟩ := exec_closeCmd h channel
    rw [taken, Zs32.takeClose_badParam (z := s.zs.buffering buf) above, State.answers_refuse]
    rfl
  · intro c
    obtain ⟨buf, taken⟩ := exec_closeCmd h (byte c.val)
    rw [taken]
    refine ⟨fun state => ?_, fun joined other => ?_, fun joined owned =>
      ⟨fun i bound pending => ?_, fun i bound pending => ?_⟩⟩
    · rw [Zs32.takeClose_notJoined (z := s.zs.buffering buf) state, State.answers_refuse]
      rfl
    · rw [Zs32.takeClose_notOwner (z := s.zs.buffering buf) joined other, State.answers_refuse]
      rfl
    · rw [Zs32.takeClose_merges (z := s.zs.buffering buf) joined owned (Zs32.mergeInput_of_pending bound pending)]
      rfl
    · rw [Zs32.takeClose_placed (z := s.zs.buffering buf) joined owned (Zs32.mergeInput_of_not_pending bound pending)]
      exact ⟨fun full => congrArg _ (State.answers_placeHost buf _ _ full),
        fun room => congrArg _ (State.taken_placeHost buf _ _ room)⟩

/-! ### CLAIM and DROP (R135, R137) -/

section ClaimDrop
variable {s : State}

theorem exec_claimCmd (h : s.CanWrite) (channel priority duck chime : Byte) (zones : BitVec 32) : ∃ buf,
    exec (.claimCmd channel priority duck chime zones) s = .next { s with
      zs := ((s.zs.buffering buf).takeClaim
        (channel :: priority :: duck :: chime :: bytes32 zones)).shiftOut (some 0) } :=
  ⟨_, State.writes (ps := channel :: priority :: duck :: chime :: bytes32 zones) h (by simp) rfl⟩

theorem exec_dropCmd (h : s.CanWrite) (form : Byte) (value : BitVec 32) : ∃ buf, exec (.dropCmd form value) s =
    .next { s with zs := ((s.zs.buffering buf).takeDrop (form :: bytes32 value)).shiftOut (some 0) } :=
  ⟨_, State.writes (ps := form :: bytes32 value) h (by simp) rfl⟩

theorem claimParams_eq_none {channel priority duck chime : Byte} {zones : BitVec 32}
    (h : 16 ≤ channel.toNat ∨ priority = 0 ∨ 7 < priority.toNat ∨ 31 < duck.toNat ∨ 1 < chime.toNat ∨ zones = 0) :
    claimParams (channel :: priority :: duck :: chime :: bytes32 zones) = none := by
  simp only [claimParams, bytes32, word32_bytes]
  rcases h with h | h | h | h | h | rfl
  · simp [below_eq_none h]
  · simp [priorityParam_eq_none (.inl h)]
  · simp [priorityParam_eq_none (.inr h)]
  · simp [below_eq_none (n := 32) h]
  · simp [flagParam_eq_none h]
  · simp [zoneSetParam]

theorem claimParams_bytes (c : Channel) {p : Priority} (d : DuckLevel) (chime : Bool) {zones : ZoneSet} (hp : p ≠ 0)
    (hz : zones ≠ 0) : claimParams (byte c.val :: byte p.val :: byte d.val :: flagByte chime :: bytes32 zones) =
      some (c, p, d, chime, zones) := by
  simp [claimParams, bytes32, word32_bytes, below_byte, priorityParam_byte hp, flagParam_flagByte,
    zoneSetParam_of_ne hz]

theorem dropParams_zones {zones : ZoneSet} (hz : zones ≠ 0) :
    dropParams (0 :: bytes32 zones) = some (.inl zones) := by
  simp [dropParams, bytes32, word32_bytes, zoneSetParam_of_ne hz]

theorem bytes32_channel (c : Channel) : bytes32 (BitVec.ofNat 32 c.val) = [0, 0, 0, byte c.val] := by
  revert c
  decide

theorem dropParams_channel (c : Channel) : dropParams (1 :: bytes32 (BitVec.ofNat 32 c.val)) = some (.inr c) := by
  rw [bytes32_channel]
  simp [dropParams, below_byte]

theorem word32_zeros_toNat (b : Byte) : (word32 0 0 0 b).toNat = b.toNat := by
  show ((0#24 ++ b : BitVec 32)).toNat = b.toNat
  rw [BitVec.toNat_append]
  simp

/-- A value of DROP's second form whose first three bytes are 0 and whose last is below 16 is below 16 (R198). -/
theorem dropParams_eq_none {form : Byte} {value : BitVec 32}
    (h : 1 < form.toNat ∨ (form = 0 ∧ value = 0) ∨ (form = 1 ∧ 16 ≤ value.toNat)) :
    dropParams (form :: bytes32 value) = none := by
  simp only [dropParams, bytes32, word32_bytes]
  rcases h with h | ⟨rfl, rfl⟩ | ⟨rfl, large⟩
  · rw [if_neg (Byte.ne_of_lt_toNat h (by decide)), if_neg fun both => Byte.ne_of_lt_toNat h (by decide) both.1]
  · rfl
  · rw [if_neg (by decide)]
    split
    · next zeros =>
      obtain ⟨-, b3, b2, b1⟩ := zeros
      have same : (value.setWidth 8).toNat = value.toNat := by
        have whole := congrArg BitVec.toNat (word32_bytes value)
        rw [b3, b2, b1] at whole
        exact (word32_zeros_toNat _).symm.trans whole
      rw [below_eq_none (large.trans_eq same.symm)]
      rfl
    · rfl

variable {z : Zs32} {ps : List Byte} {c : Channel} {p : Priority} {d : DuckLevel} {chime : Bool} {zones : ZoneSet}

theorem Zs32.takeClaim_badParam (params : claimParams ps = none) : z.takeClaim ps = z.refuse .badParam := by
  rw [Zs32.takeClaim, params]

theorem Zs32.takeClaim_notJoined (params : claimParams ps = some (c, p, d, chime, zones))
    (state : z.memb.state ≠ .joined) : z.takeClaim ps = z.refuse .notJoined := by
  simp only [Zs32.takeClaim, params, if_pos state]

theorem Zs32.takeClaim_notOwner (params : claimParams ps = some (c, p, d, chime, zones))
    (joined : z.memb.state = .joined) (other : z.table.channels[c].owner ≠ some z.me) :
    z.takeClaim ps = z.refuse .notOwner := by
  simp only [Zs32.takeClaim, params, if_neg (not_not.2 joined), if_pos other]

theorem Zs32.takeClaim_placed (params : claimParams ps = some (c, p, d, chime, zones))
    (joined : z.memb.state = .joined) (owned : z.table.channels[c].owner = some z.me) :
    z.takeClaim ps = z.placeHost (.claim c p d chime zones) (.claim c p d chime zones false) := by
  simp only [Zs32.takeClaim, params, if_neg (not_not.2 joined), if_neg (not_not.2 owned)]

theorem Zs32.takeDrop_badParam (params : dropParams ps = none) : z.takeDrop ps = z.refuse .badParam := by
  rw [Zs32.takeDrop, params]

theorem Zs32.takeDrop_notJoined {form : ZoneSet ⊕ Channel} (params : dropParams ps = some form)
    (state : z.memb.state ≠ .joined) : z.takeDrop ps = z.refuse .notJoined := by
  simp only [Zs32.takeDrop, params, if_pos state]

theorem Zs32.takeDrop_zones (params : dropParams ps = some (.inl zones)) (joined : z.memb.state = .joined) :
    z.takeDrop ps = z.placeHost (.dropZones zones) (.dropZones zones) := by
  simp only [Zs32.takeDrop, params, if_neg (not_not.2 joined)]

theorem Zs32.takeDrop_channel (params : dropParams ps = some (.inr c)) (joined : z.memb.state = .joined) :
    z.takeDrop ps = z.placeHost (.dropChannel c) (.dropChannel c) := by
  simp only [Zs32.takeDrop, params, if_neg (not_not.2 joined)]

end ClaimDrop

/-- Settles O13: the checks of CLAIM and of both forms of DROP in their order. -/
theorem claimAndDropCheckThenPlaceTheirFrames : Obligations.ClaimAndDropCheckThenPlaceTheirFrames := by
  refine ⟨fun s h => ⟨fun channel priority duck chime zones bad => ?_, fun c p d chime zones hp hz => ?_⟩,
    fun s h => ⟨fun form value bad => ?_, fun zones hz => ?_, fun c => ?_⟩⟩
  · obtain ⟨buf, taken⟩ := exec_claimCmd h channel priority duck chime zones
    rw [taken, Zs32.takeClaim_badParam (z := s.zs.buffering buf) (claimParams_eq_none bad), State.answers_refuse]
    rfl
  · obtain ⟨buf, taken⟩ := exec_claimCmd h (byte c.val) (byte p.val) (byte d.val) (flagByte chime) zones
    have params := claimParams_bytes c d chime hp hz
    rw [taken]
    refine ⟨fun state => ?_, fun joined other => ?_, fun joined owned => ?_⟩
    · rw [Zs32.takeClaim_notJoined (z := s.zs.buffering buf) params state, State.answers_refuse]
      rfl
    · rw [Zs32.takeClaim_notOwner (z := s.zs.buffering buf) params joined other, State.answers_refuse]
      rfl
    · rw [Zs32.takeClaim_placed (z := s.zs.buffering buf) params joined owned]
      exact ⟨fun full => congrArg _ (State.answers_placeHost buf _ _ full),
        fun room => congrArg _ (State.taken_placeHost buf _ _ room)⟩
  · obtain ⟨buf, taken⟩ := exec_dropCmd h form value
    rw [taken, Zs32.takeDrop_badParam (z := s.zs.buffering buf) (dropParams_eq_none bad), State.answers_refuse]
    rfl
  · obtain ⟨buf, taken⟩ := exec_dropCmd h 0 zones
    have params := dropParams_zones hz
    rw [taken]
    refine ⟨fun state => ?_, fun joined full => ?_, fun joined room => ?_⟩
    · rw [Zs32.takeDrop_notJoined (z := s.zs.buffering buf) params state, State.answers_refuse]
      rfl
    · rw [Zs32.takeDrop_zones (z := s.zs.buffering buf) params joined, State.answers_placeHost buf _ _ full]
    · rw [Zs32.takeDrop_zones (z := s.zs.buffering buf) params joined, State.taken_placeHost buf _ _ room]
  · obtain ⟨buf, taken⟩ := exec_dropCmd h 1 (BitVec.ofNat 32 c.val)
    have params := dropParams_channel c
    rw [taken]
    refine ⟨fun state => ?_, fun joined full => ?_, fun joined room => ?_⟩
    · rw [Zs32.takeDrop_notJoined (z := s.zs.buffering buf) params state, State.answers_refuse]
      rfl
    · rw [Zs32.takeDrop_channel (z := s.zs.buffering buf) params joined, State.answers_placeHost buf _ _ full]
    · rw [Zs32.takeDrop_channel (z := s.zs.buffering buf) params joined, State.taken_placeHost buf _ _ room]

end Sys2Proof.Machine
end

section
/-! The queue and the tick, reset, transactions and bytes by the port phase (R149 to R156, R200). -/

namespace Sys2Proof.Machine

/-! ### The queue of commands and the tick -/

/-- Settles O1: a step on a non-empty queue is its front command. -/
theorem stepRunsTheFrontCommand : Obligations.StepRunsTheFrontCommand := fun _ _ _ => rfl

theorem State.run_answered (f : Zs32 → Zs32) (s : State) : ∃ t, s.run f = .next t ∧ t.pending = s.pending := by
  refine ⟨s.act f, rfl, ?_⟩
  unfold State.act
  split <;> rfl

/-- Settles O2: the reset input and select change the station alone, and every other command is one event on it. -/
theorem everyCommandIsAnswered : Obligations.EveryCommandIsAnswered := by
  intro c s
  cases c with
  | pinReset ns =>
    refine ⟨_, rfl, ?_⟩
    split <;> rfl
  | resetRelease | transactionBegin | transactionEnd => exact ⟨_, rfl, rfl⟩
  | _ => exact State.run_answered _ s

/-- Settles O3: one millisecond at a station that is awake, nothing at one that pin reset holds. -/
theorem emptyQueueTicksOneMillisecond : Obligations.EmptyQueueTicksOneMillisecond := by
  have onEmpty (s : State) (empty : s.pending = []) : step s = s.run Zs32.tick := by rw [step, empty]
  refine ⟨fun s empty awake => ?_, fun s empty held => (onEmpty s empty).trans (State.run_held held _)⟩
  exact ⟨_, (onEmpty s empty).trans (State.run_awake awake _), rfl, fun c => tabulate_get _ c,
    fun o => tabulate_get _ o⟩

/-! ### Reset (R200) -/

theorem cleared_output (zone : Option Zone) (o : Fin 4) :
    (Vector.replicate 4 (OutputRec.silentBoundTo zone))[o] = OutputRec.silentBoundTo zone := by simp

theorem ClaimTable.cleared_lead (k : Zone) : ClaimTable.cleared.leads[k] = false := by simp [ClaimTable.cleared]

theorem ClaimTable.cleared_listsOk : ClaimTable.cleared.ListsOk := fun k => by
  rw [ClaimTable.cleared_zone]
  exact .nil

theorem ClaimTable.cleared_channelsOk : ClaimTable.cleared.ChannelsOk := fun c => by
  rw [ClaimTable.cleared_channel]
  exact ⟨rfl, rfl, rfl⟩

theorem ClaimTable.cleared_claimsOwned : ClaimTable.cleared.ClaimsOwned := fun k cl mem => by
  rw [ClaimTable.cleared_zone] at mem
  exact absurd mem List.not_mem_nil

theorem State.reset_lineOk : State.reset.zs.LineOk :=
  ⟨fun _ => Zs32.pinReset_quiet (z := State.reset.zs), Zs32.queuesOk_of_afterReset rfl⟩

/-- Settles O4: every block at its value after reset, where every invariant holds. -/
theorem resetLeavesTheAfterResetValues : Obligations.ResetLeavesTheAfterResetValues := by
  have output (o : Fin 4) : State.reset.zs.mixer.outputs[o] = OutputRec.silentBoundTo none := cleared_output none o
  refine ⟨⟨rfl, rfl, rfl, rfl, rfl, rfl, rfl, rfl, rfl, rfl, ClaimTable.cleared_channel,
      fun k => ⟨ClaimTable.cleared_zone k, ClaimTable.cleared_lead k⟩, rfl, rfl, rfl, fun o => ?_, rfl, rfl, rfl, rfl,
      rfl, rfl, rfl, rfl, by decide⟩,
    ⟨ClaimTable.cleared_digest, ClaimTable.cleared_listsOk, ClaimTable.cleared_channelsOk,
      ClaimTable.cleared_claimsOwned, ⟨by decide, by decide, by decide, nofun⟩, ⟨rfl, rfl, rfl, rfl, rfl⟩,
      State.reset_lineOk, .of_cleared (st := .unconfigured) rfl rfl nofun, .nil⟩,
    fun _ => rfl, fun i => by cases i <;> rfl⟩
  rw [output]
  exact ⟨rfl, rfl, rfl, rfl, rfl, rfl⟩

theorem Transaction.abandon_eq_idle_iff {t : Transaction} : t.abandon = .idle ↔ t = .idle := by
  cases t <;> simp [Transaction.abandon]

theorem State.pinReset_long (s : State) {ns : Nat} (long : 1000 ≤ ns) :
    exec (.pinReset ns) s = .next { s with zs := s.zs.pinReset } := congrArg _ (if_pos long)

theorem State.pinReset_short (s : State) {ns : Nat} (short : ns < 1000) : exec (.pinReset ns) s = .next s :=
  congrArg _ (if_neg (Nat.not_le.2 short))

theorem exec_resetRelease (s : State) : exec .resetRelease s = .next { s with zs := s.zs.resetRelease } := rfl

theorem exec_transactionBegin (s : State) (h : Byte) (early : Bool) :
    exec (.transactionBegin h early) s = .next { s with zs := s.zs.transactionBegin h early } := rfl

theorem Zs32.resetRelease_held {z : Zs32} (held : z.rst.held = true) :
    z.resetRelease = { z with rst := { held := false, settling := true } } := if_pos held

theorem Zs32.resetRelease_awake {z : Zs32} (awake : z.rst.held = false) : z.resetRelease = z :=
  if_neg (Bool.eq_false_iff.1 awake)

theorem Zs32.transactionBegin_disregarded {z : Zs32} {early : Bool}
    (h : z.rst.held = true ∨ early = true ∧ z.rst.settling = true) (header : Byte) :
    z.transactionBegin header early = z.disregard := if_pos (by simpa using h)

theorem Zs32.transactionBegin_opens {z : Zs32} {early : Bool} (awake : z.rst.held = false)
    (settled : early = false ∨ z.rst.settling = false) (header : Byte) :
    z.transactionBegin header early = z.openTransaction header := by
  refine if_neg (Bool.eq_false_iff.1 ?_)
  rw [awake, Bool.false_or, Bool.and_eq_false_iff]
  exact settled

/-- Settles O5: the effect of pin reset, and what reaches a station that it holds. -/
theorem pinResetHoldsUntilRelease : Obligations.PinResetHoldsUntilRelease := by
  refine ⟨⟨fun s ns long => ⟨_, s.pinReset_long long, ?_⟩, fun s ns short => s.pinReset_short short,
    fun s held => ?_, fun s awake => ?_⟩,
    fun c s held => ⟨fun notReset notRelease notBegin notEnd => ?_, fun h early => ?_⟩⟩
  · exact ⟨rfl, rfl, rfl, rfl, rfl, ClaimTable.cleared_channel,
      fun k => ⟨ClaimTable.cleared_zone k, ClaimTable.cleared_lead k⟩, rfl, rfl, fun i => by cases i <;> rfl, rfl,
      fun o => cleared_output none o, fun c => by simp [Zs32.pinReset, Zs32.afterReset], rfl, rfl, rfl, rfl, rfl, rfl,
      Transaction.abandon_eq_idle_iff, rfl, rfl, rfl, rfl, rfl⟩
  · rw [exec_resetRelease, Zs32.resetRelease_held held]
  · rw [exec_resetRelease, Zs32.resetRelease_awake awake]
  · cases c with
    | pinReset ns => exact absurd rfl (notReset ns)
    | resetRelease => exact absurd rfl notRelease
    | transactionBegin h e => exact absurd rfl (notBegin h e)
    | transactionEnd => exact absurd rfl notEnd
    | _ => exact State.run_held held _
  · rw [exec_transactionBegin, Zs32.transactionBegin_disregarded (.inl held)]
    rfl

/-! ### Transactions (R149, R150) -/

theorem headerKnown_eq_not (h : Byte) : (!headerKnown h) = decide (h ≠ 0x50 ∧ h ≠ 0x57 ∧ h ≠ 0x52) := by
  simp [headerKnown, Bool.not_or, Bool.and_assoc]

theorem headerKind_eq (h : Byte) :
    headerKind h = if h = 0x57 then .write else if h = 0x52 then .read else .status := by
  have same (n : Byte) : h.toNat = n.toNat ↔ h = n := BitVec.toNat_inj
  unfold headerKind
  split
  · next write => rw [if_pos ((same 0x57).1 write)]
  · next read =>
    obtain rfl := (same 0x52).1 read
    rfl
  · next write read => rw [if_neg (mt (same 0x57).2 write), if_neg (mt (same 0x52).2 read)]

theorem Zs32.statusByte_eq (z : Zs32) : z.statusByte = byte (64 * z.port.phase.code +
    (if z.notices.records = [] then 0 else 32) + 4 * z.memb.state.code + (if z.port.refused then 2 else 0)) := by
  simp only [Zs32.statusByte, List.isEmpty_iff, Nat.mul_comm]

/-- Settles O6: the status byte, the kind and the flag at the begin; phase and buffers kept at the end. -/
theorem transactionsBeginWithTheStatusByte : Obligations.TransactionsBeginWithTheStatusByte := by
  refine ⟨fun s h early awake settled => ?_, fun s h awake settling => ?_, fun s => rfl, by decide⟩
  · rw [exec_transactionBegin, Zs32.transactionBegin_opens awake settled, Zs32.openTransaction, s.zs.statusByte_eq,
      headerKnown_eq_not, headerKind_eq]
  · rw [exec_transactionBegin, Zs32.transactionBegin_disregarded (.inr ⟨rfl, settling⟩)]
    rfl

/-! ### Bytes by the port phase (R151, R152, R155) -/

theorem State.writtenByte_write {s : State} (awake : s.Awake) (writing : s.zs.port.transaction = .write) (b : Byte) :
    exec (.writtenByte b) s = .next { s with zs := (s.zs.takeByte b).shiftOut (some 0) } := by
  refine (State.run_awake awake _).trans ?_
  rw [Zs32.writtenByte, writing]

theorem State.readByte_read {s : State} (awake : s.Awake) (reading : s.zs.port.transaction = .read) :
    exec .readByte s = .next { s with zs := s.zs.giveByte } := by
  refine (State.run_awake awake _).trans ?_
  rw [Zs32.readByte, reading]

section TakeByte
variable {z : Zs32} {b : Byte}

theorem Zs32.takeByte_ready (ready : z.port.phase = .ready) (more : 1 < commandLength b) :
    z.takeByte b = { z with port := { z.port with phase := .command, cmdBuf := [b] } } := by
  rw [Zs32.takeByte, ready]
  exact if_pos more

theorem Zs32.takeByte_command {code : Byte} {params : List Byte} (command : z.port.phase = .command)
    (buffer : z.port.cmdBuf = code :: params) (more : params.length + 2 < commandLength code) :
    z.takeByte b = { z with port := { z.port with phase := .command, cmdBuf := code :: params ++ [b] } } := by
  have short : (params ++ [b]).length + 1 < commandLength code := by simpa using more
  rw [Zs32.takeByte, command, buffer]
  exact if_pos short

theorem Zs32.takeByte_executing (executing : z.port.phase = .executing) (other : b ≠ 0x7F) :
    z.takeByte b = z.refuseByte := by
  rw [Zs32.takeByte, executing]
  exact if_neg other

theorem Zs32.takeByte_result (result : z.port.phase = .result) : z.takeByte b = z.refuseByte := by
  rw [Zs32.takeByte, result]

end TakeByte

section GiveByte
variable {z : Zs32}

theorem Zs32.giveByte_refused (other : z.port.phase ≠ .result) : z.giveByte = z.refuseByte.shiftOut (some 0) := by
  unfold Zs32.giveByte
  split
  · next result => exact absurd result other
  all_goals rfl

theorem Zs32.giveByte_last {b : Byte} (result : z.port.phase = .result)
    (given : z.port.resBuf[z.port.readPos]? = some b)
    (last : z.port.resBuf.length ≤ z.port.readPos + 1) : z.giveByte = { z with
      port := { z.port with phase := .ready, resBuf := [], readPos := 0, firstByte := false, sdo := some b } } := by
  rw [Zs32.giveByte, result]
  refine (if_pos last).trans ?_
  rw [List.getD_eq_getElem?_getD, given]
  rfl

theorem Zs32.giveByte_next {b : Byte} (result : z.port.phase = .result)
    (given : z.port.resBuf[z.port.readPos]? = some b)
    (more : z.port.readPos + 1 < z.port.resBuf.length) : z.giveByte = { z with
      port := { z.port with readPos := z.port.readPos + 1, firstByte := true, sdo := some b } } := by
  rw [Zs32.giveByte, result]
  refine (if_neg (Nat.not_le.2 more)).trans ?_
  rw [List.getD_eq_getElem?_getD, given]
  rfl

end GiveByte

/-- Settles O7: a byte by the phase of the port. -/
theorem bytesByPortPhase : Obligations.BytesByPortPhase := by
  refine ⟨fun s b awake writing => ⟨fun ready more => ?_, fun code params command buffer more => ?_,
    fun executing other => ?_, fun result => ?_⟩, fun s awake reading => ⟨fun other => ?_,
    fun b result given => ⟨fun more => ?_, fun last => ?_⟩⟩⟩
  · rw [State.writtenByte_write awake writing, Zs32.takeByte_ready ready more]
    rfl
  · rw [State.writtenByte_write awake writing, Zs32.takeByte_command command buffer more]
    simp only [Zs32.shiftOut, command]
  · rw [State.writtenByte_write awake writing, Zs32.takeByte_executing executing other]
    rfl
  · rw [State.writtenByte_write awake writing, Zs32.takeByte_result result]
    rfl
  · rw [State.readByte_read awake reading, Zs32.giveByte_refused other]
    rfl
  · rw [State.readByte_read awake reading, Zs32.giveByte_next result given more]
  · rw [State.readByte_read awake reading, Zs32.giveByte_last result given last.ge]

/-! ### Unknown codes (R153) -/

section Unknown
variable {code : Byte} (unknown : code ∉ commandCodes)
include unknown

theorem toNat_ne_of_unknown (n : Nat) (known : n ∈ commandCodes.map BitVec.toNat) : code.toNat ≠ n := by
  obtain ⟨b, mem, rfl⟩ := List.mem_map.1 known
  exact fun same => unknown (BitVec.eq_of_toNat_eq same ▸ mem)

theorem commandLength_unknown : commandLength code = 1 := by
  unfold commandLength
  split
  case h_8 => rfl
  all_goals next same => exact absurd same (toNat_ne_of_unknown unknown _ (by decide))

theorem Zs32.takeCommand_unknown (z : Zs32) : z.takeCommand code [] = z.refuse .invalid := by
  unfold Zs32.takeCommand
  split
  case h_15 => rfl
  all_goals next same => exact absurd same (toNat_ne_of_unknown unknown _ (by decide))

end Unknown

/-- Settles O19: the codes that the port refuses, and the codes of results. -/
theorem unknownCodesAndNoCommand : Obligations.UnknownCodesAndNoCommand := by
  refine ⟨fun s h => ⟨State.writesOne h (by decide), fun code unknown => ?_⟩, by decide⟩
  have taken := State.writesOne h (commandLength_unknown unknown).le
  rw [Zs32.takeCommand_unknown unknown] at taken
  exact taken

end Sys2Proof.Machine
end

section
/-! The commands answered at their taking: CONFIGURE, the queries, PROBE_ZONES and SENSE (R157 to R172). -/

namespace Sys2Proof.Machine

theorem State.answers_data (s : State) (bytes : List Byte) :
    ({ s with zs := (s.zs.formResult (.data bytes)).shiftOut (some 0) } : State) = s.answers (0x00 :: bytes) := rfl

/-! ### CONFIGURE (R157, R158) -/

section Configure
variable {s : State}

theorem exec_configure (h : s.CanWrite) (st iv ch b0 b1 b2 b3 : Byte) (mask : BitVec 16) : ∃ buf,
    exec (.configure st iv ch b0 b1 b2 b3 mask) s = .next { s with zs := ((s.zs.buffering buf).takeConfigure
      (st :: iv :: ch :: b0 :: b1 :: b2 :: b3 :: bytes16 mask)).shiftOut (some 0) } :=
  ⟨_, State.writes (ps := st :: iv :: ch :: b0 :: b1 :: b2 :: b3 :: bytes16 mask) h (by simp) rfl⟩

theorem configureParams_eq_none {st iv ch b0 b1 b2 b3 : Byte} (mask : BitVec 16)
    (h : st = 0 ∨ 31 < st.toNat ∨ iv = 0 ∨ 100 < iv.toNat ∨ 40 < ch.toNat ∨ (31 < b0.toNat ∧ b0 ≠ 0xFF) ∨
      (31 < b1.toNat ∧ b1 ≠ 0xFF) ∨ (31 < b2.toNat ∧ b2 ≠ 0xFF) ∨ (31 < b3.toNat ∧ b3 ≠ 0xFF)) :
    configureParams (st :: iv :: ch :: b0 :: b1 :: b2 :: b3 :: bytes16 mask) = none := by
  have unbound {b : Byte} (h : 31 < b.toNat ∧ b ≠ 0xFF) : bindingParam b = none := bindingParam_eq_none h.1 h.2
  simp only [configureParams, bytes16]
  rcases h with h | h | h | h | h | h | h | h | h
  · simp [stationParam_eq_none (.inl h)]
  · simp [stationParam_eq_none (.inr h)]
  · simp [intervalParam_eq_none (.inl h)]
  · simp [intervalParam_eq_none (.inr h)]
  · simp [chimeParam_eq_none h]
  all_goals simp [unbound h]

theorem configureParams_bytes {st : StationNo} {iv : Interval} (ch : Fin 41) (binds : Vector (Option Zone) 4)
    (mask : BitVec 16) (hst : st ≠ 0) (hiv : iv ≠ 0) (small : iv.val ≤ 100) :
    configureParams (byte st.val :: byte iv.val :: byte ch.val :: bindingByte binds[0] :: bindingByte binds[1] ::
        bindingByte binds[2] :: bindingByte binds[3] :: bytes16 mask) =
      some ({ station := st, interval := iv, chime := ch.val }, binds, mask &&& ~~~disregardedMask) := by
  have whole : #v[binds[0], binds[1], binds[2], binds[3]] = binds := by
    ext i hi : 1
    interval_cases i <;> rfl
  simp [configureParams, bytes16, stationParam_byte hst, intervalParam_byte hiv small, chimeParam_byte,
    bindingParam_bindingByte, word16_bytes, whole]

/-- The mask as stored (R157, R158). -/
theorem storedMask_getLsbD (mask : BitVec 16) (n : Fin 16) : (mask &&& ~~~disregardedMask).getLsbD n.val =
    (mask.getLsbD n.val && decide (n.val ≠ 0 ∧ n.val ≠ 12 ∧ n.val ≠ 15)) := by
  have bit : (~~~disregardedMask).getLsbD n.val = decide (n.val ≠ 0 ∧ n.val ≠ 12 ∧ n.val ≠ 15) := by
    revert n
    decide
  rw [BitVec.getLsbD_and, bit]

theorem OutputRec.eq_of_silentBoundTo {o : OutputRec} {zone : Option Zone} (h : o = OutputRec.silentBoundTo zone) :
    o = { zone := zone, state := .silent, chime := .stopped, fg := none, duck := none, bg := none
          tonePos := o.tonePos, sample := o.sample } := by
  subst h
  rfl

variable {z : Zs32} {ps : List Byte} {setup : Setup} {binds : Vector (Option Zone) 4} {mask : BitVec 16}

theorem Zs32.takeConfigure_badParam (params : configureParams ps = none) : z.takeConfigure ps = z.refuse .badParam := by
  rw [Zs32.takeConfigure, params]

theorem Zs32.takeConfigure_onLine (params : configureParams ps = some (setup, binds, mask)) (onLine : z.onLine = true) :
    z.takeConfigure ps = z.refuse .onLine := by
  simp only [Zs32.takeConfigure, params, if_pos onLine]

theorem Zs32.takeConfigure_configured (params : configureParams ps = some (setup, binds, mask))
    (off : z.onLine = false) :
    z.takeConfigure ps = (z.configured setup binds mask).formResult (.plain .done) := by
  simp only [Zs32.takeConfigure, params, if_neg (Bool.eq_false_iff.1 off)]

end Configure

/-- Settles O15: CONFIGURE, refused on the line and carried out off it. -/
theorem configureOffTheLine : Obligations.ConfigureOffTheLine := by
  refine fun s h => ⟨fun st iv ch b0 b1 b2 b3 mask bad => ?_, fun st iv ch binds mask hst hiv small => ?_⟩
  · obtain ⟨buf, taken⟩ := exec_configure h st iv ch b0 b1 b2 b3 mask
    rw [taken, Zs32.takeConfigure_badParam (z := s.zs.buffering buf) (configureParams_eq_none mask bad),
      State.answers_refuse]
    rfl
  · obtain ⟨buf, taken⟩ := exec_configure h (byte st.val) (byte iv.val) (byte ch.val) (bindingByte binds[0])
      (bindingByte binds[1]) (bindingByte binds[2]) (bindingByte binds[3]) mask
    have params := configureParams_bytes ch binds mask hst hiv small
    refine ⟨fun onLine => ?_, fun off => ?_⟩
    · rw [taken, Zs32.takeConfigure_onLine (z := s.zs.buffering buf) params onLine, State.answers_refuse]
      rfl
    · rw [taken, Zs32.takeConfigure_configured (z := s.zs.buffering buf) params off]
      exact ⟨_, rfl, rfl, rfl, rfl, fun o => OutputRec.eq_of_silentBoundTo (tabulate_get _ o), rfl, rfl,
        storedMask_getLsbD mask, rfl, rfl, rfl, rfl, rfl⟩

/-! ### The queries (R159 to R163) -/

section Queries
variable {s : State}

theorem exec_zoneStatus (h : s.CanWrite) (zone : Byte) : ∃ buf, exec (.zoneStatus zone) s =
    .next { s with zs := ((s.zs.buffering buf).takeZoneStatus [zone]).shiftOut (some 0) } :=
  ⟨_, State.writes (ps := [zone]) h (by simp) rfl⟩

theorem Zs32.takeZoneStatus_badParam {z : Zs32} {b : Byte} (above : 31 < b.toNat) :
    z.takeZoneStatus [b] = z.refuse .badParam := by
  have params : zoneParams [b] = none := below_eq_none above
  rw [Zs32.takeZoneStatus, params]

theorem Zs32.takeZoneStatus_zone (z : Zs32) (k : Zone) :
    z.takeZoneStatus [byte k.val] = z.formResult (.data (z.zoneBytes k)) := by
  have params : zoneParams [byte k.val] = some k := below_byte (by decide) k
  rw [Zs32.takeZoneStatus, params]

theorem Zs32.statusBytes_eq (z : Zs32) : z.statusBytes =
    [byte z.memb.state.code, byte z.me.val, z.setup.elim 0 (byte ·.interval.val), z.setup.elim 0xFF (byte ·.chime)]
      ++ (List.finRange 4).flatMap (fun o =>
        [bindingByte z.mixer.outputs[o].zone, byte z.mixer.outputs[o].state.code])
      ++ [openChannelByte z.source.inA.bound, flagByte z.source.inA.pending, openChannelByte z.source.inB.bound,
        flagByte z.source.inB.pending, byte z.memb.roster.length]
      ++ bytes16 z.table.digest
      ++ [byte z.line.outq.length, byte z.line.inq.length,
        byte ((if z.line.halt then 1 else 0) + (if z.memb.joinWindow = .stopped then 0 else 2)
          + (if z.memb.restateRun then 4 else 0)),
        z.memb.disagreement.elim 0 (byte ·.1.val)]
      ++ bytes16 (z.memb.disagreement.elim 0 (·.2))
      ++ [byte z.notices.records.length, byte z.notices.gap] := by
  have station : stationByte (z.memb.disagreement.map (·.1)) = z.memb.disagreement.elim 0 (byte ·.1.val) := by
    cases z.memb.disagreement <;> rfl
  rw [Zs32.statusBytes, station]
  rfl

theorem Mixer.mem_outputsOf {m : Mixer} {k : Zone} {o : Fin 4} : o ∈ m.outputsOf k ↔ m.outputs[o].zone = some k := by
  simp [Mixer.outputsOf]

theorem Mixer.outputsOf_pairwise (m : Mixer) (k : Zone) : (m.outputsOf k).Pairwise (· < ·) :=
  (List.pairwise_lt_finRange 4).filter _

end Queries

/-- Settles O16: the bytes of the four queries. -/
theorem queriesReportTheState : Obligations.QueriesReportTheState := by
  refine ⟨fun s h => ⟨0x00 :: s.zs.statusBytes, State.writesOne h (by decide), rfl, ?_⟩,
    fun s h => ⟨fun zone above => ?_, fun k => ⟨s.zs.mixer.outputsOf k, s.zs.mixer.outputsOf_pairwise k,
      fun o => Mixer.mem_outputsOf, ?_⟩, State.writesOne h (by decide), State.writesOne h (by decide)⟩, by decide⟩
  · rw [s.zs.statusBytes_eq]
    rfl
  · obtain ⟨buf, taken⟩ := exec_zoneStatus h zone
    rw [taken, Zs32.takeZoneStatus_badParam (z := s.zs.buffering buf) above, State.answers_refuse]
    rfl
  · obtain ⟨buf, taken⟩ := exec_zoneStatus h (byte k.val)
    rw [taken, Zs32.takeZoneStatus_zone]
    rfl

/-! ### PROBE_ZONES (R164 to R166) -/

/-- The condition byte of PROBE_ZONES (R198). -/
def conditionByte : ProbeCondition → Byte
  | .equal => 0
  | .atMost => 1
  | .atLeast => 2
  | .wouldLead => 3

theorem conditionParam_conditionByte (cond : ProbeCondition) : conditionParam (conditionByte cond) = some cond := by
  cases cond <;> rfl

theorem conditionParam_eq_none {b : Byte} (above : 3 < b.toNat) : conditionParam b = none := by
  unfold conditionParam
  split
  case h_5 => rfl
  all_goals omega

theorem conditionParam_three : conditionParam 3 = some .wouldLead := rfl

section Probe
variable {s : State}

theorem exec_probeZones (h : s.CanWrite) (cond p first last step : Byte) : ∃ buf,
    exec (.probeZones cond p first last step) s = .next { s with
      zs := ((s.zs.buffering buf).takeProbe [cond, p, first, last, step]).shiftOut (some 0) } :=
  ⟨_, State.writes (ps := [cond, p, first, last, step]) h (by simp) rfl⟩

theorem below_eq_some {n : Nat} {b : Byte} {c : Fin n} (h : below n b = some c) : b.toNat = c.val := by
  simp only [below, inRange, Option.dite_none_right_eq_some, Option.some.injEq] at h
  obtain ⟨-, rfl⟩ := h
  rfl

theorem probeParams_eq_none {cond p first last step : Byte}
    (h : 3 < cond.toNat ∨ 7 < p.toNat ∨ (cond = 3 ∧ p = 0) ∨ 31 < first.toNat ∨ 31 < last.toNat ∨
      last.toNat < first.toNat ∨ ¬ (step = 1 ∨ step = 2)) : probeParams [cond, p, first, last, step] = none := by
  rw [Option.eq_none_iff_forall_ne_some]
  intro q params
  simp only [probeParams, Option.bind_eq_bind, Option.bind_eq_some_iff] at params
  obtain ⟨c, condition, p', priority, f, hf, l, hl, params⟩ := params
  split at params
  · exact nomatch params
  · next inRange =>
    obtain ⟨leads, others⟩ := not_or.1 inRange
    obtain ⟨ascending, steps⟩ := not_or.1 others
    have priorityByte := below_eq_some priority
    have firstByte := below_eq_some hf
    have lastByte := below_eq_some hl
    rcases h with h | h | ⟨rfl, rfl⟩ | h | h | h | h
    · exact nomatch (conditionParam_eq_none h).symm.trans condition
    · omega
    · exact leads ⟨(Option.some.inj condition).symm, Fin.ext priorityByte.symm⟩
    · omega
    · omega
    · rw [Fin.lt_def] at ascending
      omega
    · exact steps h

theorem probeParams_bytes {cond : ProbeCondition} {p : Priority} {first last : Zone} {step : Nat}
    (hstep : step = 1 ∨ step = 2) (ascending : first ≤ last) (leads : cond = .wouldLead → p ≠ 0) :
    probeParams [conditionByte cond, byte p.val, byte first.val, byte last.val, byte step] =
      some { condition := cond, p := p, first := first, last := last, step := step } := by
  have steps : (byte step = 1 ∨ byte step = 2) ∧ (byte step).toNat = step := by rcases hstep with rfl | rfl <;> decide
  have inRange : ¬ ((cond = .wouldLead ∧ p = 0) ∨ last < first ∨ ¬ (byte step = 1 ∨ byte step = 2)) := by
    rintro (⟨lead, zero⟩ | descending | other)
    · exact leads lead zero
    · exact not_lt.2 ascending descending
    · exact other steps.1
  simp only [probeParams, conditionParam_conditionByte, below_byte (n := 8) (by decide),
    below_byte (n := 32) (by decide), Option.bind_eq_bind, Option.bind_some, if_neg inRange, steps.2]

theorem Probe.hits_iff (q : Probe) (me : StationNo) (l : List Claim) :
    q.hits me l = true ↔ ZoneHit q.condition q.p me l := by
  obtain ⟨condition, p, first, last, step⟩ := q
  cases condition with
  | equal => cases l <;> exact decide_eq_true_iff.trans Fin.ext_iff
  | atMost | atLeast => cases l <;> simp only [Probe.hits, ZoneHit, decide_eq_true_eq, Fin.le_def] <;> rfl
  | wouldLead =>
    cases l with
    | nil => simp only [Probe.hits, ZoneHit, List.head?_nil]
    | cons top rest =>
      simp only [Probe.hits, ZoneHit, List.head?_cons, Bool.or_eq_true, Bool.and_eq_true, decide_eq_true_eq, or_assoc,
        Fin.lt_def, Fin.ext_iff]

variable {q : Probe}

theorem Probe.mem_zones {k : Zone} : k ∈ q.zones ↔ ∃ i, k.val = q.first.val + i * q.step ∧ k ≤ q.last := by
  simp only [Probe.zones, List.mem_filter, List.mem_finRange, true_and, Bool.and_eq_true, decide_eq_true_eq,
    Fin.le_def, and_assoc]
  constructor
  · rintro ⟨from', upTo, steps⟩
    refine ⟨(k.val - q.first.val) / q.step, ?_, upTo⟩
    rw [Nat.div_mul_cancel (Nat.dvd_of_mod_eq_zero steps)]
    omega
  · rintro ⟨i, pos, upTo⟩
    refine ⟨by omega, upTo, ?_⟩
    rw [pos, Nat.add_sub_cancel_left, Nat.mul_mod_left]

variable (hstep : q.step = 1 ∨ q.step = 2)
include hstep

/-- The zones examined, in their order (R166). -/
theorem Probe.zones_val (ascending : q.first ≤ q.last) : q.zones.map Fin.val =
    (List.range ((q.last.val - q.first.val) / q.step + 1)).map fun i => q.first.val + i * q.step := by
  have pos : 0 < q.step := by omega
  have zones : (q.zones.map Fin.val).Pairwise (· < ·) :=
    List.pairwise_map.2 ((List.pairwise_lt_finRange 32).filter _)
  have steps : ((List.range ((q.last.val - q.first.val) / q.step + 1)).map
      fun i => q.first.val + i * q.step).Pairwise (· < ·) :=
    List.pairwise_map.2 (List.pairwise_lt_range.imp fun lt =>
      Nat.add_lt_add_left (Nat.mul_lt_mul_of_pos_right lt pos) _)
  refine zones.eq_of_mem_iff steps fun n => ?_
  simp only [List.mem_map, Probe.mem_zones, List.mem_range, Nat.lt_succ_iff, Nat.le_div_iff_mul_le pos,
    Fin.le_def] at ascending ⊢
  constructor
  · rintro ⟨k, ⟨i, at', upTo⟩, rfl⟩
    exact ⟨i, by omega, at'.symm⟩
  · rintro ⟨i, upTo, rfl⟩
    exact ⟨⟨q.first.val + i * q.step, by omega⟩, ⟨i, rfl, by show q.first.val + i * q.step ≤ _; omega⟩, rfl⟩

theorem Probe.zones_length (ascending : q.first ≤ q.last) :
    q.zones.length = (q.last.val - q.first.val) / q.step + 1 := by
  have lengths := congrArg List.length (Probe.zones_val hstep ascending)
  rwa [List.length_map, List.length_map, List.length_range] at lengths

theorem Probe.zones_get (ascending : q.first ≤ q.last) {i : Nat} (h : i < q.zones.length) :
    q.zones[i].val = q.first.val + i * q.step := by
  have same := List.getElem_of_eq (Probe.zones_val hstep ascending) (i := i) (by rwa [List.length_map])
  simpa using same

/-- The zone at a place of the examination (R166). -/
theorem Probe.zones_get_of_pos (ascending : q.first ≤ q.last) {k : Zone} {i : Nat}
    (pos : k.val = q.first.val + i * q.step) (upTo : k ≤ q.last) :
    ∃ h : i < q.zones.length, q.zones[i] = k := by
  have room : i < q.zones.length := by
    rw [Probe.zones_length hstep ascending, Nat.lt_succ_iff, Nat.le_div_iff_mul_le (by omega)]
    rw [Fin.le_def] at upTo
    omega
  exact ⟨room, Fin.ext ((Probe.zones_get hstep ascending room).trans pos.symm)⟩

theorem Zs32.probe_hit {z : Zs32} (ascending : q.first ≤ q.last) {k : Zone} {i : Nat}
    (pos : k.val = q.first.val + i * q.step) (upTo : k ≤ q.last) (hit : q.hits z.me z.table.zones[k] = true)
    (first : ∀ (j : Zone) (i' : Nat), i' < i → j.val = q.first.val + i' * q.step →
      ¬ q.hits z.me z.table.zones[j] = true) : z.probe q = (some k, i + 1) := by
  obtain ⟨room, at'⟩ := Probe.zones_get_of_pos hstep ascending pos upTo
  have found : q.zones.findIdx? (fun k => q.hits z.me z.table.zones[k]) = some i := by
    rw [List.findIdx?_eq_some_iff_getElem]
    exact ⟨room, by rw [at']; exact hit,
      fun j before => first _ j before (Probe.zones_get hstep ascending (before.trans room))⟩
  rw [Zs32.probe]
  simp only [found, List.getElem?_eq_getElem room, at']

theorem Zs32.probe_none {z : Zs32} (ascending : q.first ≤ q.last)
    (no : ∀ (k : Zone) (i : Nat), k.val = q.first.val + i * q.step → k ≤ q.last →
      ¬ q.hits z.me z.table.zones[k] = true) :
    z.probe q = (none, (q.last.val - q.first.val) / q.step + 1) := by
  have found : q.zones.findIdx? (fun k => q.hits z.me z.table.zones[k]) = none := by
    rw [List.findIdx?_eq_none_iff]
    intro k mem
    obtain ⟨i, pos, upTo⟩ := Probe.mem_zones.1 mem
    exact Bool.eq_false_iff.2 (no k i pos upTo)
  rw [Zs32.probe]
  simp only [found, Probe.zones_length hstep ascending]

end Probe

theorem Zs32.takeProbe_badParam {z : Zs32} {ps : List Byte} (params : probeParams ps = none) :
    z.takeProbe ps = z.refuse .badParam := by
  rw [Zs32.takeProbe, params]

theorem Zs32.takeProbe_answer {z : Zs32} {ps : List Byte} {q : Probe} (params : probeParams ps = some q) :
    z.takeProbe ps = z.formResult (.data [(z.probe q).1.elim 0xFF (byte ·.val), byte (z.probe q).2]) := by
  rw [Zs32.takeProbe, params]

/-- Settles O17: the first hit among the zones examined, or the count of all of them. -/
theorem probeFindsTheFirstHit : Obligations.ProbeFindsTheFirstHit := by
  refine fun s h => ⟨fun cond p first last step bad => ?_, fun cond p first last step hstep ascending leads => ?_⟩
  · obtain ⟨buf, taken⟩ := exec_probeZones h cond p first last step
    rw [taken, Zs32.takeProbe_badParam (z := s.zs.buffering buf) (probeParams_eq_none bad), State.answers_refuse]
    rfl
  · obtain ⟨buf, taken⟩ := exec_probeZones h (conditionByte cond) (byte p.val) (byte first.val) (byte last.val)
      (byte step)
    have params := probeParams_bytes hstep ascending leads
    rw [Zs32.takeProbe_answer (z := s.zs.buffering buf) params] at taken
    intro code hit
    have same (k : Zone) := Probe.hits_iff ⟨cond, p, first, last, step⟩ s.zs.me s.zs.table.zones[k]
    have sameCode : code = conditionByte cond := rfl
    rw [sameCode, taken]
    refine ⟨fun k i pos upTo hits earlier => ?_, fun none => ?_⟩
    · rw [Zs32.probe_hit (z := s.zs.buffering buf) hstep ascending pos upTo ((same k).2 hits)
        fun j i' before pos' => mt (same j).1 (earlier j i' before pos')]
      rfl
    · rw [Zs32.probe_none (z := s.zs.buffering buf) hstep ascending
        fun k i pos upTo => mt (same k).1 (none k i pos upTo)]
      rfl

/-! ### SENSE (R167 to R172) -/

section Sense
variable {l : NoticeLog} {n : Notice} {rest : List Notice}

theorem NoticeLog.afterSense_nil (empty : l.records = []) : l.afterSense = l := by
  simp [NoticeLog.afterSense, empty]

theorem NoticeLog.afterSense_cons (records : l.records = n :: rest)
    (keeps : l.gap = 0 ∨ rest.any Notice.isGap = true) : l.afterSense = { l with records := rest } := by
  have noGap : ¬ (l.gap ≠ 0 ∧ rest.all (!·.isGap) = true) := by
    rintro ⟨lost, none⟩
    rcases keeps with zero | some
    · exact lost zero
    · rw [List.all_eq_not_any_not] at none
      simp_all
  simp only [NoticeLog.afterSense, records, List.tail_cons, List.isEmpty_cons, Bool.false_eq_true, if_false,
    if_neg noGap]

theorem NoticeLog.afterSense_gap (records : l.records = n :: rest) (lost : l.gap ≠ 0)
    (noGap : rest.any Notice.isGap = false) :
    l.afterSense = { l with records := rest ++ [.gap l.gap], gap := 0 } := by
  have gap : l.gap ≠ 0 ∧ rest.all (!·.isGap) = true := by
    refine ⟨lost, ?_⟩
    simpa [List.all_eq_true] using noGap
  simp only [NoticeLog.afterSense, records, List.tail_cons, List.isEmpty_cons, Bool.false_eq_true, if_false,
    if_pos gap]

theorem NoticeLog.masks_iff (l : NoticeLog) (n : Notice) :
    l.masks n = true ↔ l.mask.getLsbD n.code = true ∧ n.code ≠ 12 ∧ n.code ≠ 15 := by
  cases n <;> simp [NoticeLog.masks, Notice.code]

theorem NoticeLog.log_masked (masked : l.masks n = true) : l.log n = l := if_pos masked

theorem NoticeLog.log_appends (enabled : l.masks n = false) (room : l.records.length < 16) (gap : l.gap = 0) :
    l.log n = { l with records := l.records ++ [n] } := by
  rw [NoticeLog.log, if_neg (Bool.eq_false_iff.1 enabled), if_pos ⟨room, gap⟩]

theorem NoticeLog.log_counts (enabled : l.masks n = false) (full : 16 ≤ l.records.length ∨ l.gap ≠ 0) :
    l.log n = { l with gap := min 255 (l.gap + 1) } := by
  have noRoom : ¬ (l.records.length < logCapacity ∧ l.gap = 0) := by
    rintro ⟨room, gap⟩
    exact full.elim (Nat.not_le.2 room) (absurd gap)
  rw [NoticeLog.log, if_neg (Bool.eq_false_iff.1 enabled), if_neg noRoom]

theorem bytes16_ofNat (n : Nat) : bytes16 (BitVec.ofNat 16 n) = [byte (n / 256), byte n] := by
  have high : ((BitVec.ofNat 16 n) >>> 8).setWidth 8 = byte (n / 256) := by
    apply BitVec.eq_of_toNat_eq
    rw [byte_toNat]
    simp only [BitVec.toNat_setWidth, BitVec.toNat_ushiftRight, BitVec.toNat_ofNat, Nat.shiftRight_eq_div_pow]
    omega
  have low : (BitVec.ofNat 16 n).setWidth 8 = byte n := by
    apply BitVec.eq_of_toNat_eq
    rw [byte_toNat]
    simp only [BitVec.toNat_setWidth, BitVec.toNat_ofNat]
    omega
  rw [bytes16, high, low]

theorem bytes16_toNat (d : BitVec 16) : bytes16 d = [byte (d.toNat / 256), byte d.toNat] := by
  have bytes := bytes16_ofNat d.toNat
  rwa [BitVec.ofNat_toNat, BitVec.setWidth_eq] at bytes

theorem Notice.bytes_head (n : Notice) : n.bytes.head? = some (byte n.code) := by cases n <;> rfl

theorem Notice.code_range (n : Notice) : 1 ≤ n.code ∧ n.code ≤ 15 := by cases n <;> simp [Notice.code]

end Sense

/-- Settles O18: SENSE, the logging of a notice, and the bytes of every record. -/
theorem senseAndTheNoticeLog : Obligations.SenseAndTheNoticeLog := by
  have sensed (s : State) (h : s.CanWrite) : exec .sense s = .next { s with zs := { s.zs with
      notices := s.zs.notices.afterSense
      port := s.zs.port.withResult (0x00 :: s.zs.notices.records.head?.elim noRecordBytes Notice.bytes) } } :=
    State.writesOne h (by decide)
  refine ⟨fun s h => ⟨fun empty => ?_, fun n rest records => ⟨fun keeps => ?_, fun lost noGap => ?_⟩⟩,
    fun l n => ⟨l.masks_iff n, NoticeLog.log_masked, NoticeLog.log_appends, fun enabled full below => ?_,
      fun enabled top => ?_⟩, ?_⟩
  · rw [sensed s h, NoticeLog.afterSense_nil empty, empty]
    rfl
  · rw [sensed s h, NoticeLog.afterSense_cons records keeps, records]
    rfl
  · rw [sensed s h, NoticeLog.afterSense_gap records lost noGap, records]
    rfl
  · rw [NoticeLog.log_counts enabled full, Nat.min_eq_right below]
  · have stays : min 255 (l.gap + 1) = l.gap := by omega
    rw [NoticeLog.log_counts enabled (.inr (by omega)), stays]
  · exact ⟨fun k i p prev cause => by cases cause <;> rfl, fun k prev cause => by cases cause <;> rfl,
      fun k x c p => ⟨rfl, rfl, rfl⟩, fun x c => rfl, fun x => ⟨rfl, rfl, rfl, rfl, rfl⟩,
      fun n => ⟨congrArg ([8, 0xFF, 0, 0, 0xFF, 0, 0] ++ ·) (bytes16_ofNat n),
        congrArg ([15, 0xFF, 0, 0, 0xFF, 0, 0] ++ ·) (bytes16_ofNat n)⟩, fun kind => rfl,
      fun x => ⟨rfl, rfl, rfl⟩, rfl, rfl,
      fun x d => congrArg ([13, 0xFF, byte x.val, 0, 0xFF, 0, 0] ++ ·) (bytes16_toNat d), fun kind x c => rfl,
      fun n => ⟨n.bytes_head, n.code_range⟩, by decide⟩

end Sys2Proof.Machine
end

section
/-! The taking of LEAVE and ABORT (R35, R83, R84, R129, R144 to R147). -/

namespace Sys2Proof.Machine

/-! ### LEAVE -/

/-- The station at the taking of a LEAVE, before the grants that the emptying makes (R35, R129). -/
def Zs32.leaves (z : Zs32) : Zs32 :=
  ({ z.emptyOutbound with memb := z.emptyOutbound.memb.stopForLeave }.enqueue .bye .host).enterExecution .leave .queued

section Leave
variable {z : Zs32}

theorem Zs32.takeLeave_onLine (onLine : z.onLine = true) : z.takeLeave = z.leaves.grants := by
  rw [Zs32.takeLeave, onLine]
  rfl

theorem Zs32.takeLeave_offLine (off : z.onLine = false) : z.takeLeave = z.refuse .offLine := by
  rw [Zs32.takeLeave, off]
  rfl

theorem Zs32.leaves_source_get (z : Zs32) (i : Input) :
    z.leaves.source.get i = (z.source.get i).unqueue (z.line.holdsAutoClose i) := z.emptyOutbound_source_get i

/-- An emptying leaves what is held for an input (R9, R81). -/
theorem Zs32.leaves_heldClose (z : Zs32) (i : Input) : z.leaves.heldClose i = z.heldClose i := by
  have channel : (z.leaves.source.get i).channel = (z.source.get i).channel := by rw [Zs32.leaves_source_get]; rfl
  have held : (z.leaves.source.get i).request = .held ↔ (z.source.get i).request = .held := by
    rw [Zs32.leaves_source_get, InputRec.unqueue]
    split
    · next queued => simp [queued.2]
    · rfl
  simp only [Zs32.heldClose, channel, held]
  rfl

theorem Zs32.leaves_waiting (z : Zs32) : z.leaves.waiting = [Input.a, Input.b].filterMap z.heldClose := by
  have held : z.leaves.heldEntries = [Input.a, Input.b].filterMap z.leaves.heldClose := rfl
  have same : z.leaves.heldClose = z.heldClose := funext z.leaves_heldClose
  exact (List.append_nil _).trans (held.trans (by rw [same]))

theorem Zs32.exists_heldClose_iff (z : Zs32) (i : Input) :
    (∃ e ∈ [Input.a, Input.b].filterMap z.heldClose, e.origin = .source i) ↔
      (z.source.get i).request = .held ∧ (z.source.get i).channel ≠ none := by
  constructor
  · rintro ⟨e, mem, origin⟩
    obtain ⟨j, -, held⟩ := List.mem_filterMap.1 mem
    obtain ⟨c, request, channel, rfl⟩ := Zs32.heldClose_some held
    obtain rfl : j = i := Origin.source.inj origin
    exact ⟨request, by rw [channel]; nofun⟩
  · rintro ⟨request, channel⟩
    obtain ⟨c, channel⟩ := Option.ne_none_iff_exists'.1 channel
    refine ⟨entryOf (.close c true) (.source i) z.clock, List.mem_filterMap.2 ⟨i, by cases i <;> simp, ?_⟩, rfl⟩
    rw [Zs32.heldClose, if_pos request, channel]
    rfl

theorem Line.holdsAutoClose_iff (l : Line) (i : Input) :
    l.holdsAutoClose i = true ↔ ∃ e ∈ l.outq, e.origin = .source i := by
  simp [Line.holdsAutoClose]

/-- The grants behind the BYE: both held automatic CLOSEs fit (R7, R80). -/
theorem Zs32.leaves_grants_outq (z : Zs32) : z.leaves.grants.line.outq =
    entryOf .bye .host z.clock :: [Input.a, Input.b].filterMap z.heldClose := by
  have fits : ([Input.a, Input.b].filterMap z.heldClose).take 7 = [Input.a, Input.b].filterMap z.heldClose :=
    List.take_of_length_le ((List.length_filterMap_le _ _).trans (by decide))
  obtain ⟨outq, -⟩ := z.leaves.grants_grantedTo
  rw [z.leaves_waiting] at outq
  exact outq.trans (congrArg (entryOf .bye .host z.clock :: ·) fits)

theorem Zs32.leaves_grants_memb (z : Zs32) : z.leaves.grants.memb = { z.memb with
    restateRun := false, cursor := .openStep 0, joinWindow := .stopped, presenceTimer := .stopped,
    presenceQueued := false, presenceHeld := false, evictQueued := [], evictHeld := [] } := by
  obtain ⟨-, presenceHeld, presenceQueued, evictHeld, evictQueued, -, run, -, -, cursor⟩ := z.leaves.grants_grantedTo
  have noEvict : z.leaves.grants.memb.evictQueued = [] :=
    List.eq_nil_iff_forall_not_mem.2 fun x mem => by
      rcases (evictQueued x).1 mem with queued | granted
      · exact List.not_mem_nil queued
      · exact List.not_mem_nil (List.mem_of_mem_take granted)
  have stopped : z.leaves.grants.memb.restateRun = false :=
    Bool.eq_false_iff.2 fun runs => Bool.noConfusion (run.1 runs).1
  have start : z.leaves.grants.memb.cursor = .openStep 0 := cursor rfl
  have unheld : z.leaves.grants.memb.presenceHeld = false := presenceHeld.trans (Bool.false_and _)
  have unqueued : z.leaves.grants.memb.presenceQueued = false := presenceQueued
  have none : z.leaves.grants.memb.evictHeld = [] := evictHeld.trans List.drop_nil
  rw [z.leaves.grants_memb, noEvict, stopped, start, unheld, unqueued, none]
  rfl

theorem Zs32.leaves_grants_source (z : Zs32) (i : Input) : z.leaves.grants.source.get i = { z.source.get i with
    request := if (z.source.get i).request = .held ∧ (z.source.get i).channel ≠ none then .queued
      else if (z.source.get i).request = .queued ∧ ∃ e ∈ z.line.outq, e.origin = .source i then .none
      else (z.source.get i).request } := by
  have fits : ([Input.a, Input.b].filterMap z.heldClose).take 7 = [Input.a, Input.b].filterMap z.heldClose :=
    List.take_of_length_le ((List.length_filterMap_le _ _).trans (by decide))
  obtain ⟨-, -, -, -, -, requests, -⟩ := z.leaves.grants_grantedTo
  have request := requests i
  have room : 8 - z.leaves.line.outq.length = 7 := rfl
  rw [room, z.leaves_waiting, fits, z.leaves_source_get] at request
  simp only [z.exists_heldClose_iff] at request
  rw [request, InputRec.unqueue]
  simp only [Line.holdsAutoClose_iff, and_comm]

end Leave

/-- Settles O10: LEAVE on the line, with the grants behind its BYE, and off it. -/
theorem leaveEmptiesTheQueueAndPlacesBye : Obligations.LeaveEmptiesTheQueueAndPlacesBye := by
  intro s h
  have taken : exec .leaveCmd s = .next { s with zs := s.zs.takeLeave.shiftOut (some 0) } :=
    State.writesOne h (by decide)
  refine ⟨fun onLine => ⟨_, taken, rfl, ?_⟩, fun off => ?_⟩
  · rw [Zs32.takeLeave_onLine onLine]
    obtain ⟨-, -, setup, table, mixer, audio, port, notices, -⟩ := s.zs.leaves.grants_frame
    refine ⟨s.zs.leaves_grants_outq, s.zs.leaves.grants_fails, s.zs.leaves.grants_vetoSeen, s.zs.leaves.grants_inq,
      s.zs.leaves.grants_attempt, s.zs.leaves.grants_halt, s.zs.leaves.grants_receiver, s.zs.leaves_grants_memb,
      s.zs.leaves_grants_source, ?_, table, mixer, notices, setup, audio⟩
    exact congrArg (fun p : Port => { p with sdo := some 0 }) port
  · rw [taken, Zs32.takeLeave_offLine off]
    rfl

/-! ### ABORT -/

theorem State.writesAbort {s : State} (awake : s.Awake) (writing : s.zs.port.transaction = .write)
    (executing : s.zs.port.phase = .executing) :
    exec .abort s = .next { s with zs := s.zs.abortByte.shiftOut (some 0) } := by
  refine (State.run_awake awake _).trans ?_
  have whole : s.zs.port.remaining [abortCode] = [abortCode] := by simp [Port.remaining, executing]
  have byte : s.zs.writtenByte abortCode = s.zs.abortByte.shiftOut (some 0) := by
    rw [Zs32.writtenByte, writing, Zs32.takeByte, executing]
    rfl
  rw [Zs32.writeCommand, if_neg (by rw [writing]; nofun), Zs32.writeBytes, whole, List.foldl_cons, List.foldl_nil, byte]

section Abort
variable {z : Zs32} {e : CmdExec}

/-! What an ABORT byte does by the stage of the command (R83, R144 to R146). -/

theorem Zs32.abortByte_taken (cmd : z.port.cmd = some e) (stage : e.stage = .queued)
    (free : z.hostInArbitration = false) : z.abortByte = z.takeAbort := by
  simp only [Zs32.abortByte, cmd, stage, free, Bool.false_eq_true, if_false]

theorem Zs32.abortByte_held (cmd : z.port.cmd = some e) (stage : e.stage = .queued)
    (driving : z.hostInArbitration = true) :
    z.abortByte = { z with port := { z.port with cmd := some { e with heldAbort := true } } } := by
  simp only [Zs32.abortByte, cmd, stage, driving, if_true]

theorem Zs32.abortByte_discarded (cmd : z.port.cmd = some e)
    (stage : e.stage = .sending ∨ e.stage = .inbound ∨ e.stage = .detached) : z.abortByte = z := by
  rcases stage with stage | stage | stage <;> simp only [Zs32.abortByte, cmd, stage]

theorem Zs32.abortByte_merged {i : Input} (cmd : z.port.cmd = some e) (stage : e.stage = .merged)
    (merged : (z.source.get i).merged = true) (single : ∀ j, j ≠ i → (z.source.get j).merged = false) :
    z.abortByte = z.abortMerged i := by
  cases i with
  | a =>
    have merged : z.source.inA.merged = true := merged
    simp only [Zs32.abortByte, cmd, stage, merged, if_true]
  | b =>
    have merged : z.source.inB.merged = true := merged
    have other : z.source.inA.merged = false := single .a nofun
    simp only [Zs32.abortByte, cmd, stage, merged, other, Bool.false_eq_true, if_true, if_false]

/-! The taking of an ABORT by the command (R144, R147, R84). -/

/-- The station without the frame of its command, once the freed slot is granted. -/
theorem Zs32.takeAbort_of_other (cmd : z.port.cmd = some e) (notClose : ∀ c, e.command ≠ .close c)
    (notJoin : e.command ≠ .join) (notLeave : e.command ≠ .leave) :
    z.takeAbort = z.removeHostEntry.grants.endCommand (.plain .aborted) := by
  simp only [Zs32.takeAbort, cmd, Option.map_some]
  split
  · next join => exact absurd (Option.some.inj join) notJoin
  · next leave => exact absurd (Option.some.inj leave) notLeave
  · next c close => exact absurd (Option.some.inj close) (notClose c)
  · rfl

theorem Zs32.takeAbort_of_close {c : Channel} (cmd : z.port.cmd = some e) (close : e.command = .close c) :
    z.takeAbort = (z.removeHostEntry.grants.endCommand (.plain .aborted)).reaskAutoClose c := by
  simp only [Zs32.takeAbort, cmd, Option.map_some, close]

theorem Zs32.takeAbort_of_join (cmd : z.port.cmd = some e) (join : e.command = .join) :
    z.takeAbort = (z.removeHostEntry.grants.leaveLine .offline).endCommand (.plain .aborted) := by
  simp only [Zs32.takeAbort, cmd, Option.map_some, join]

theorem Zs32.takeAbort_of_leave (cmd : z.port.cmd = some e) (leave : e.command = .leave) :
    z.takeAbort = (z.removeHostEntry.grants.rejoinWith none).endCommand (.plain .aborted) := by
  simp only [Zs32.takeAbort, cmd, Option.map_some, leave]

/-- The frame of the command leaves the queue and nobody waits for its slot: what is left is the end of the command. -/
theorem Zs32.withoutHostEntry_ended (cmd : z.port.cmd = some e) (nothing : z.NothingHeld)
    (one : (z.line.outq.filter fun x => x.origin = .host).length = 1) :
    z.removeHostEntry.grants.endCommand (.plain .aborted) = z.withoutHostEntry.formResult (.plain .aborted) := by
  have held : z.withoutHostEntry.NothingHeld := nothing
  have here : z.withoutHostEntry.port.cmd = some e := cmd
  rw [Zs32.removeHostEntry_eq one, Zs32.grants_of_nothingHeld held, Zs32.endCommand_of_some here]

theorem Zs32.withoutHostEntry_room (short : z.line.outq.length ≤ 8)
    (one : (z.line.outq.filter fun x => x.origin = .host).length = 1) : z.withoutHostEntry.line.outq.length < 8 := by
  have parts := List.length_eq_length_filter_add (l := z.line.outq) fun x => decide (x.origin = .host)
  have rest : z.withoutHostEntry.line.outq = z.line.outq.filter fun x => !decide (x.origin = .host) :=
    List.filter_congr fun x _ => decide_not
  rw [rest]
  omega

theorem TableCleared.of_same {u z' : Zs32} (h : TableCleared u z') (mixer : u.mixer = z.mixer)
    (setup : u.setup = z.setup) (clock : u.clock = z.clock) (rst : u.rst = z.rst) (audio : u.audio = z.audio) :
    TableCleared z z' := by
  unfold TableCleared at *
  rwa [mixer, setup, clock, rst, audio] at h

theorem Zs32.freed_cleared {z' : Zs32} (h : TableCleared z.removeHostEntry.grants z') : TableCleared z z' :=
  h.of_same (by simp) (by simp) (by simp) (by simp) (by simp)

theorem Zs32.endCommand_eq_of_port {w : Zs32} (r : Result) (here : w.port = { z.port with cmd := some e }) :
    w.endCommand r = { w with port := { z.port with
      phase := .result, cmdBuf := [], resBuf := r.bytes, readPos := 0, firstByte := false, cmd := none } } := by
  rw [Zs32.endCommand_of_some (by rw [here]), Zs32.formResult, here]

theorem Zs32.freed_tableClear_port (cmd : z.port.cmd = some e) : z.removeHostEntry.grants.tableClear.port =
    { z.port with cmd := some { e with stage := e.stage.detach } } := by
  have port : z.removeHostEntry.grants.port = z.port := by simp
  change ({ z.removeHostEntry.grants.port with
    cmd := z.removeHostEntry.grants.port.cmd.map fun c => { c with stage := c.stage.detach } } : Port) = _
  rw [port, cmd]
  rfl

theorem Zs32.autoCloseGone_iff (z : Zs32) (i : Input) : z.autoCloseGone i = true ↔
    (∃ a, z.line.attempt = some a ∧ a.origin = .source i ∧ a.stage ≠ .arbitration ∧ a.dropped = false) ∨
      ∃ f ∈ z.line.inq, f.mark = some (.source i) := by
  simp [Zs32.autoCloseGone, Option.any_eq_true, and_assoc]

theorem Zs32.abortMerged_taken {i : Input} (cmd : z.port.cmd = some e) (here : z.autoCloseGone i = false) :
    z.abortMerged i = (z.onInput i fun r => { r with merged := false }).formResult (.plain .aborted) := by
  have cmd' : (z.onInput i fun r => { r with merged := false }).port.cmd = some e := cmd
  rw [Zs32.abortMerged, if_neg (Bool.eq_false_iff.1 here), Zs32.endCommand_of_some cmd']

theorem AutoCloseAsked.shiftOut {u z' : Zs32} {i : Input} {c : Channel}
    (h : AutoCloseAsked { u with port := z'.port } z' i c)
    (b : Option Byte) : AutoCloseAsked { u with port := (z'.shiftOut b).port } (z'.shiftOut b) i c := by
  obtain ⟨placed, held⟩ := h
  exact ⟨fun room => congrArg (Zs32.shiftOut b) (placed room), fun full => congrArg (Zs32.shiftOut b) (held full)⟩

/-- A byte shifted out is of no account to what an ABORT did. -/
theorem AbortTaken.shiftOut {z' : Zs32} {cmd : LineCommand} (h : AbortTaken z z' cmd) (b : Option Byte) :
    AbortTaken z (z'.shiftOut b) cmd := by
  obtain ⟨other, close, join, leave⟩ := h
  refine ⟨fun notClose notJoin notLeave => ?_, fun c is => ?_, join, leave⟩
  · obtain ⟨u, gone, same⟩ := other notClose notJoin notLeave
    exact ⟨u, gone, congrArg (Zs32.shiftOut b) same⟩
  · obtain ⟨u, gone, asked, same⟩ := close c is
    exact ⟨u, gone, fun i bound pending => (asked i bound pending).shiftOut b,
      fun pending => congrArg (Zs32.shiftOut b) (same pending)⟩

/-! The taking of an ABORT, in a station whose command is in QUEUED. -/

theorem Zs32.takeAbort_asks {c : Channel} {i : Input} (cmd : z.port.cmd = some e) (close : e.command = .close c)
    (nothing : z.NothingHeld) (short : z.line.outq.length ≤ 8)
    (one : (z.line.outq.filter fun x => x.origin = .host).length = 1) (bound : z.source.inputOf c = some i)
    (pending : (z.source.get i).pending = true) :
    z.takeAbort = (z.withoutHostEntry.formResult (.plain .aborted)).placeAutoClose i c := by
  rw [Zs32.takeAbort_of_close cmd close, Zs32.withoutHostEntry_ended cmd nothing one]
  obtain ⟨asked, -⟩ := Zs32.reaskAutoClose_cases (z := z.withoutHostEntry.formResult (.plain .aborted)) rfl c
  exact (asked i bound pending).1 (Zs32.withoutHostEntry_room short one)

theorem Zs32.takeAbort_asks_nothing {c : Channel} (cmd : z.port.cmd = some e) (close : e.command = .close c)
    (nothing : z.NothingHeld) (one : (z.line.outq.filter fun x => x.origin = .host).length = 1)
    (pending : ∀ i, z.source.inputOf c = some i → (z.source.get i).pending = false) :
    z.takeAbort = z.withoutHostEntry.formResult (.plain .aborted) := by
  rw [Zs32.takeAbort_of_close cmd close, Zs32.withoutHostEntry_ended cmd nothing one]
  obtain ⟨-, stays⟩ := Zs32.reaskAutoClose_cases (z := z.withoutHostEntry.formResult (.plain .aborted)) rfl c
  exact stays pending

theorem Zs32.takeAbort_join (cmd : z.port.cmd = some e) (join : e.command = .join) :
    WentOff z (z.takeAbort.shiftOut (some 0)) .offline ∧ z.takeAbort.notices = z.notices ∧
      z.takeAbort.port = { z.port with
        phase := .result, cmdBuf := [], resBuf := [0x14], readPos := 0, firstByte := false, cmd := none } := by
  have port : (z.removeHostEntry.grants.leaveLine .offline).port = _ := Zs32.freed_tableClear_port cmd
  have notices : z.removeHostEntry.grants.notices = z.notices := by simp
  obtain ⟨cleared, rest⟩ := Zs32.leaveLine_wentOff .offline z.removeHostEntry.grants
  rw [Zs32.takeAbort_of_join cmd join, Zs32.endCommand_eq_of_port _ port]
  exact ⟨⟨Zs32.freed_cleared cleared, rest⟩, notices, rfl⟩

theorem Zs32.takeAbort_leave (cmd : z.port.cmd = some e) (leave : e.command = .leave) :
    (TableCleared z (z.takeAbort.shiftOut (some 0)) ∧ z.takeAbort.memb.state = .listening ∧
      z.takeAbort.line.outq = [entryOf .hello .membership z.clock] ∧
      z.takeAbort.line.receiver = z.line.receiver ∧ z.takeAbort.notices = z.notices) ∧
      z.takeAbort.port = { z.port with
        phase := .result, cmdBuf := [], resBuf := [0x14], readPos := 0, firstByte := false, cmd := none } := by
  have port : (z.removeHostEntry.grants.rejoinWith none).port = _ := Zs32.freed_tableClear_port cmd
  have cleared := Zs32.freed_cleared (Zs32.rejoinWith_none_cleared z.removeHostEntry.grants)
  have clock : z.removeHostEntry.grants.clock = z.clock := by simp
  have receiver : z.removeHostEntry.grants.line.receiver = z.line.receiver := by simp
  have notices : z.removeHostEntry.grants.notices = z.notices := by simp
  rw [Zs32.takeAbort_of_leave cmd leave, Zs32.endCommand_eq_of_port _ port]
  exact ⟨⟨cleared, rfl, congrArg (fun now => [entryOf .hello .membership now]) clock, receiver, notices⟩, rfl⟩

end Abort

/-- Settles O14: ABORT by the stage of the command and by the command. -/
theorem abortByStage : Obligations.AbortByStage := by
  refine ⟨fun s e awake writing executing cmd stage free notClose notJoin notLeave nothing one => ?_,
    fun s e c awake writing executing cmd stage free close nothing short one => ⟨fun i bound pending => ?_,
      fun pending => ?_⟩,
    fun s e awake writing executing cmd => ⟨fun stage driving => ?_, fun stage => ?_⟩,
    fun s e awake writing executing cmd stage free => ⟨fun join => ?_, fun leave => ?_⟩,
    fun s e i awake writing executing cmd stage merged single => ⟨fun here => ?_, fun gone => ?_⟩,
    fun s e awake writing executing cmd stage free one => ?_⟩
  all_goals rw [State.writesAbort awake writing executing]
  · rw [Zs32.abortByte_taken cmd stage free, Zs32.takeAbort_of_other cmd notClose notJoin notLeave,
      Zs32.withoutHostEntry_ended cmd nothing one]
    rfl
  · rw [Zs32.abortByte_taken cmd stage free, Zs32.takeAbort_asks cmd close nothing short one bound pending]
    rfl
  · rw [Zs32.abortByte_taken cmd stage free, Zs32.takeAbort_asks_nothing cmd close nothing one pending]
    rfl
  · rw [Zs32.abortByte_held cmd stage driving]
    rfl
  · rw [Zs32.abortByte_discarded cmd stage]
    rfl
  · rw [Zs32.abortByte_taken cmd stage free]
    obtain ⟨off, notices, port⟩ := Zs32.takeAbort_join cmd join
    exact ⟨_, rfl, rfl, off, notices, congrArg (fun p : Port => { p with sdo := some 0 }) port⟩
  · rw [Zs32.abortByte_taken cmd stage free]
    obtain ⟨⟨cleared, state, outq, receiver, notices⟩, port⟩ := Zs32.takeAbort_leave cmd leave
    exact ⟨_, rfl, rfl, cleared, state, outq, receiver, notices,
      congrArg (fun p : Port => { p with sdo := some 0 }) port⟩
  · rw [Zs32.abortByte_merged cmd stage merged single,
      Zs32.abortMerged_taken cmd (Bool.eq_false_iff.2 (mt (s.zs.autoCloseGone_iff i).1 here))]
    rfl
  · rw [Zs32.abortByte_merged cmd stage merged single, Zs32.abortMerged, if_pos ((s.zs.autoCloseGone_iff i).2 gone)]
    rfl
  · rw [Zs32.abortByte_taken cmd stage free]
    obtain ⟨taken, port⟩ := Zs32.takeAbort_taken cmd one
    exact ⟨_, rfl, rfl, taken.shiftOut _, congrArg (fun p : Port => { p with sdo := some 0 }) port⟩

end Sys2Proof.Machine
end

section
/-! The frames of the control pair as bits: numbers and their bits, contention, the sync bits, and the decoder as the
inverse of the encoder (R4, R23, R176, R196). -/

namespace Sys2Proof.Machine

/-! ### Numbers as bits -/

theorem numOf_nil : numOf [] = 0 := rfl

theorem foldl_bits (l : List Bool) (n : Nat) :
    l.foldl (fun n b => 2 * n + b.toNat) n = n * 2 ^ l.length + numOf l := by
  induction l generalizing n with
  | nil => simp [numOf]
  | cons b rest ih =>
    rw [numOf, List.foldl_cons, List.foldl_cons, ih, ih, List.length_cons, Nat.pow_succ]
    ring

theorem numOf_append (l m : List Bool) : numOf (l ++ m) = numOf l * 2 ^ m.length + numOf m := by
  rw [numOf, List.foldl_append, foldl_bits]
  rfl

theorem numOf_cons (b : Bool) (l : List Bool) : numOf (b :: l) = b.toNat * 2 ^ l.length + numOf l := by
  rw [numOf, List.foldl_cons, foldl_bits]
  simp

theorem numOf_lt (l : List Bool) : numOf l < 2 ^ l.length := by
  induction l with
  | nil => simp [numOf]
  | cons b rest ih =>
    rw [numOf_cons, List.length_cons, Nat.pow_succ]
    have bit := b.toNat_le
    nlinarith

@[simp] theorem bitsOf_length (w n : Nat) : (bitsOf w n).length = w := by simp [bitsOf]

theorem bitsOf_zero (n : Nat) : bitsOf 0 n = [] := rfl

theorem bitsOf_succ (w n : Nat) : bitsOf (w + 1) n = n.testBit w :: bitsOf w n := by
  simp [bitsOf, List.range_succ]

theorem numOf_bitsOf (w n : Nat) : numOf (bitsOf w n) = n % 2 ^ w := by
  induction w with
  | zero => rw [bitsOf_zero, numOf_nil, Nat.pow_zero, Nat.mod_one]
  | succ w ih => rw [bitsOf_succ, numOf_cons, ih, bitsOf_length, Nat.mod_pow_succ, Nat.toNat_testBit,
      Nat.add_comm, Nat.mul_comm]

theorem numOf_bitsOf_of_lt {w n : Nat} (h : n < 2 ^ w) : numOf (bitsOf w n) = n := by
  rw [numOf_bitsOf, Nat.mod_eq_of_lt h]

theorem numOf_injective {l m : List Bool} (length : l.length = m.length) (h : numOf l = numOf m) : l = m := by
  induction l generalizing m with
  | nil => exact (List.length_eq_zero_iff.1 length.symm).symm
  | cons b rest ih =>
    cases m with
    | nil => exact absurd length (by simp)
    | cons c others =>
      rw [List.length_cons, List.length_cons, Nat.add_right_cancel_iff] at length
      rw [numOf_cons, numOf_cons, length] at h
      have low := numOf_lt rest
      have low' := numOf_lt others
      rw [length] at low
      have same : b = c := by
        cases b <;> cases c <;> simp at h ⊢ <;> omega
      subst same
      rw [ih length (by omega)]

theorem bitsOf_numOf {w : Nat} {l : List Bool} (length : l.length = w) : bitsOf w (numOf l) = l := by
  subst length
  exact numOf_injective (bitsOf_length _ _) (numOf_bitsOf_of_lt (numOf_lt l))

/-! ### Contention (R4, R23) -/

/-- Bits that win contention bit by bit spell the lowest number (R4, R23). -/
theorem contend_iff (own : List Bool) (rivals : List (List Bool)) (lengths : ∀ r ∈ rivals, r.length = own.length) :
    contend own rivals = true ↔ ∀ r ∈ rivals, numOf own ≤ numOf r := by
  induction own generalizing rivals with
  | nil => exact iff_of_true rfl fun r _ => Nat.zero_le _
  | cons bit rest ih =>
    have split (r : List Bool) (mem : r ∈ rivals) : r = r.headD true :: r.tail ∧ r.tail.length = rest.length := by
      have length := lengths r mem
      cases r with
      | nil => exact absurd length (by simp)
      | cons c others => exact ⟨rfl, by simpa using length⟩
    have value (r : List Bool) (mem : r ∈ rivals) :
        numOf r = (r.headD true).toNat * 2 ^ rest.length + numOf r.tail := by
      obtain ⟨parts, length⟩ := split r mem
      rw [← length, ← numOf_cons, ← parts]
    have rest_lt := numOf_lt rest
    have tails : ∀ t ∈ (rivals.filter fun r => r.headD true = bit).map List.tail, t.length = rest.length := by
      intro t ht
      obtain ⟨r, hr, rfl⟩ := List.mem_map.1 ht
      exact (split r (List.mem_filter.1 hr).1).2
    have stands : contend rest ((rivals.filter fun r => r.headD true = bit).map List.tail) = true ↔
        ∀ r ∈ rivals, r.headD true = bit → numOf rest ≤ numOf r.tail := by
      rw [ih _ tails]
      simp only [List.forall_mem_map, List.mem_filter, decide_eq_true_eq, and_imp]
    rw [numOf_cons]
    cases bit with
    | false =>
      refine Iff.trans stands ⟨fun wins r mem => ?_, fun least r mem dominant => ?_⟩
      · rw [value r mem]
        cases head : r.headD true with
        | false => simpa using wins r mem head
        | true =>
          simp only [Bool.toNat_true, Bool.toNat_false, one_mul, zero_mul, zero_add]
          omega
      · have bound := least r mem
        rw [value r mem, dominant] at bound
        simpa using bound
    | true =>
      by_cases recessive : ∀ r ∈ rivals, r.headD true = true
      · have line : rivals.all (fun r => r.headD true) = true := List.all_eq_true.2 recessive
        have goesOn : contend (true :: rest) rivals =
            contend rest ((rivals.filter fun r => r.headD true = true).map List.tail) := by
          simp only [contend, line, Bool.and_true, if_true]
        rw [goesOn, stands]
        refine forall₂_congr fun r mem => ?_
        rw [value r mem, recessive r mem]
        simp
      · have line : rivals.all (fun r => r.headD true) = false := by
          simpa using recessive
        have drops : contend (true :: rest) rivals = false := by
          simp only [contend, line, Bool.and_false, Bool.true_eq_false, if_false]
        rw [drops]
        refine iff_of_false Bool.false_ne_true fun least => recessive fun r mem => ?_
        by_contra dominant
        have head : r.headD true = false := Bool.eq_false_iff.2 dominant
        have bound := least r mem
        have tail := numOf_lt r.tail
        rw [(split r mem).2] at tail
        rw [value r mem, head] at bound
        simp at bound
        omega

/-! ### The sync bits (R196) -/

theorem withSync_length {n : Nat} {l : List Bool} (long : 8 * n ≤ l.length) : (withSync n l).length = l.length + n := by
  induction n generalizing l with
  | zero => rfl
  | succ n ih =>
    rw [withSync, List.length_append, List.length_cons, ih (by rw [List.length_drop]; omega), List.length_take,
      List.length_drop]
    omega

theorem withoutSync_withSync {n : Nat} {l : List Bool} (length : l.length = 8 * (n + 1)) :
    withoutSync n (withSync n l) = some l := by
  induction n generalizing l with
  | zero => exact if_pos length
  | succ n ih =>
    have group : (l.take 8).length = 8 := by rw [List.length_take]; omega
    have rest : (l.drop 8).length = 8 * (n + 1) := by rw [List.length_drop]; omega
    have long : ¬ (withSync (n + 1) l).length < 9 := by rw [withSync_length (by omega)]; omega
    have sync : (withSync (n + 1) l).drop 8 = false :: withSync n (l.drop 8) := by
      rw [withSync, List.drop_append_of_le_length group.ge, List.drop_eq_nil_of_le group.le, List.nil_append]
    have next : (withSync (n + 1) l).drop 9 = withSync n (l.drop 8) := by
      rw [← List.drop_drop (i := 1) (j := 8), sync, List.drop_one, List.tail_cons]
    have taken : (withSync (n + 1) l).take 8 = l.take 8 := by
      rw [withSync, List.take_append_of_le_length group.ge, List.take_take, Nat.min_self]
    rw [withoutSync, if_neg long, sync, List.headD_cons, if_neg Bool.false_ne_true, next, taken, ih rest,
      Option.map_some, List.take_append_drop]

theorem withSync_of_withoutSync {n : Nat} {l m : List Bool} (h : withoutSync n l = some m) :
    l = withSync n m ∧ m.length = 8 * (n + 1) := by
  induction n generalizing l m with
  | zero =>
    rw [withoutSync, Option.ite_none_right_eq_some] at h
    obtain ⟨length, same⟩ := h
    cases same
    exact ⟨rfl, length⟩
  | succ n ih =>
    rw [withoutSync] at h
    split at h
    · exact nomatch h
    · next long =>
      split at h
      · exact nomatch h
      · next dominant =>
        obtain ⟨r, hr, rfl⟩ := Option.map_eq_some_iff.1 h
        obtain ⟨rest, length⟩ := ih hr
        have group : (l.take 8).length = 8 := by rw [List.length_take]; omega
        have sync : l.drop 8 = false :: l.drop 9 := by
          have here : l.drop 8 ≠ [] := by
            rw [ne_eq, List.drop_eq_nil_iff]
            omega
          obtain ⟨b, others, parts⟩ := List.exists_cons_of_ne_nil here
          rw [parts, List.headD_cons, Bool.not_eq_true] at dominant
          rw [← List.drop_drop (i := 1) (j := 8), parts, dominant, List.drop_one, List.tail_cons]
        refine ⟨?_, by rw [List.length_append, group, length]; omega⟩
        rw [withSync, List.take_append_of_le_length group.ge, List.take_of_length_le group.le,
          List.drop_append_of_le_length group.ge, List.drop_eq_nil_of_le group.le, List.nil_append, ← rest, ← sync,
          List.take_append_drop]

theorem withSync_getElem?_sync {n g : Nat} {l : List Bool} (long : 8 * n ≤ l.length) (h : g < n) :
    (withSync n l)[9 * g + 8]? = some false := by
  induction n generalizing l g with
  | zero => exact absurd h (Nat.not_lt_zero _)
  | succ n ih =>
    have group : (l.take 8).length = 8 := by rw [List.length_take]; omega
    rw [withSync, List.getElem?_append_right (by rw [group]; omega), group, Nat.add_sub_cancel]
    cases g with
    | zero => rfl
    | succ g =>
      rw [Nat.mul_succ, List.getElem?_cons_succ]
      exact ih (by rw [List.length_drop]; omega) (by omega)

theorem withSync_getElem?_data {n i : Nat} {l : List Bool} (long : 8 * n ≤ l.length) (h : i / 8 ≤ n) :
    (withSync n l)[i + i / 8]? = l[i]? := by
  induction n generalizing l i with
  | zero => rw [withSync, Nat.le_zero.1 h, Nat.add_zero]
  | succ n ih =>
    have group : (l.take 8).length = 8 := by rw [List.length_take]; omega
    rw [withSync]
    by_cases first : i < 8
    · have noSync : i / 8 = 0 := Nat.div_eq_of_lt first
      rw [noSync, Nat.add_zero, List.getElem?_append_left (by rw [group]; exact first), List.getElem?_take_of_lt first]
    · have next : i + i / 8 = 8 + ((i - 8) + (i - 8) / 8 + 1) := by omega
      rw [List.getElem?_append_right (by rw [group]; omega), group, next, Nat.add_sub_cancel_left,
        List.getElem?_cons_succ, ih (by rw [List.length_drop]; omega) (by omega), List.getElem?_drop]
      congr 1
      omega

/-! ### Fields (R196) -/

theorem fieldAt_lt (off w : Nat) (l : List Bool) : fieldAt off w l < 2 ^ w :=
  (numOf_lt _).trans_le (Nat.pow_le_pow_right (by decide) (List.length_take_le _ _))

/-! A field at the front, and one behind other bits. -/

theorem fieldAt_bitsOf {w n : Nat} (h : n < 2 ^ w) (l : List Bool) : fieldAt 0 w (bitsOf w n ++ l) = n := by
  rw [fieldAt, List.drop_zero, List.take_left' (bitsOf_length _ _), numOf_bitsOf_of_lt h]

theorem fieldAt_fin {n w : Nat} (small : n ≤ 2 ^ w) (c : Fin n) (l : List Bool) :
    fieldAt 0 w (bitsOf w c.val ++ l) = c.val := fieldAt_bitsOf (c.isLt.trans_le small) l

theorem fieldAt_word {w : Nat} (x : BitVec w) (l : List Bool) : fieldAt 0 w (bitsOf w x.toNat ++ l) = x.toNat :=
  fieldAt_bitsOf x.isLt l

theorem fieldAt_flag (b : Bool) (l : List Bool) : fieldAt 0 1 (b :: l) = b.toNat := by
  simp [fieldAt, numOf]

theorem fieldAt_behind_bits {k off : Nat} (h : k ≤ off) (w n : Nat) (l : List Bool) :
    fieldAt off w (bitsOf k n ++ l) = fieldAt (off - k) w l := by
  rw [fieldAt, fieldAt, List.drop_append, List.drop_eq_nil_of_le (by rwa [bitsOf_length]), List.nil_append,
    bitsOf_length]

theorem fieldAt_behind_flag (off w : Nat) (b : Bool) (l : List Bool) :
    fieldAt (off + 1) w (b :: l) = fieldAt off w l := by
  rw [fieldAt, fieldAt, List.drop_succ_cons]

theorem zeroFrom_behind_bits {k off : Nat} (h : k ≤ off) (n : Nat) (l : List Bool) :
    zeroFrom off (bitsOf k n ++ l) = zeroFrom (off - k) l := by
  rw [zeroFrom, zeroFrom, List.drop_append, List.drop_eq_nil_of_le (by rwa [bitsOf_length]), List.nil_append,
    bitsOf_length]

theorem zeroFrom_behind_flag (off : Nat) (b : Bool) (l : List Bool) : zeroFrom (off + 1) (b :: l) = zeroFrom off l := by
  rw [zeroFrom, zeroFrom, List.drop_succ_cons]

theorem zeroFrom_zeros (n : Nat) : zeroFrom 0 (List.replicate n false) = true := by simp [zeroFrom]

theorem drop_eq_field {off w : Nat} {l : List Bool} (h : off + w ≤ l.length) :
    l.drop off = bitsOf w (fieldAt off w l) ++ l.drop (off + w) := by
  rw [fieldAt, bitsOf_numOf (by rw [List.length_take, List.length_drop]; omega), ← List.drop_drop,
    List.take_append_drop]

theorem drop_eq_zeros {off : Nat} {l : List Bool} (h : zeroFrom off l = true) :
    l.drop off = List.replicate (l.length - off) false := by
  rw [List.eq_replicate_iff, List.length_drop]
  exact ⟨rfl, fun b mem => by simpa using List.all_eq_true.1 h b mem⟩

theorem bitsOf_flag (off : Nat) (l : List Bool) :
    bitsOf 1 (fieldAt off 1 l) = [decide (fieldAt off 1 l = 1)] := by
  have bit := fieldAt_lt off 1 l
  interval_cases fieldAt off 1 l <;> rfl

theorem bitsOf_word {w : Nat} (off : Nat) (l : List Bool) :
    bitsOf w (BitVec.ofNat w (fieldAt off w l)).toNat = bitsOf w (fieldAt off w l) := by
  rw [BitVec.toNat_ofNat, Nat.mod_eq_of_lt (fieldAt_lt off w l)]

theorem inRange_val {n : Nat} (c : Fin n) : inRange n c.val = some c := dif_pos c.isLt

theorem inRange_eq_some {n v : Nat} {c : Fin n} (h : inRange n v = some c) : v = c.val := by
  simp only [inRange, Option.dite_none_right_eq_some, Option.some.injEq] at h
  obtain ⟨-, rfl⟩ := h
  rfl

end Sys2Proof.Machine
end

section
/-! The encoder and the decoder of frames (R176, R196). -/

namespace Sys2Proof.Machine

/-! ### The body of a frame (R176, R196) -/

/-- The ranges of R3 and R176 for the fields of a body. -/
def FrameBody.fieldsOk : FrameBody → Bool
  | .evict t => t ≠ 0
  | .drop zs => zs ≠ 0
  | .openCh _ _ len _ => len ≠ some 0
  | .claim _ p _ _ zs _ => p ≠ 0 && zs ≠ 0
  | .presence iv _ => 1 ≤ iv.val && iv.val ≤ 100
  | .hello | .bye | .close _ _ => true

theorem Frame.wellFormed_iff (f : Frame) : f.wellFormed = true ↔
    (f.sender ≠ 0 ∧ classFits f.cls f.body.kind = true ∧ targetFits f.sender f.body = true) ∧
      f.body.fieldsOk = true := by
  obtain ⟨cls, sender, body⟩ := f
  cases body <;> simp [Frame.wellFormed, FrameBody.fieldsOk, and_assoc]

theorem FrameBody.area_length (b : FrameBody) : b.area.length = 52 := by
  cases b <;> simp [FrameBody.area, FrameBody.fieldBits]

theorem wireCode_lt (i : Input) : Input.wireCode i < 2 ^ 2 := by cases i <;> decide

theorem inputWire_roundTrip (i : Input) : Input.ofWire (Input.wireCode i) = some i := by cases i <;> rfl

theorem wireCode_of_ofWire {n : Nat} {i : Input} (h : Input.ofWire n = some i) : n = (Input.wireCode i) := by
  unfold Input.ofWire at h
  split at h
  · cases h; rfl
  · cases h; rfl
  · exact nomatch h

theorem wireLength_roundTrip {len : Option TimedLength} (h : len ≠ some 0) :
    wireLength len.isSome (len.getD 0).toNat = some len := by
  cases len with
  | none => rfl
  | some w =>
    have nonzero : w.toNat ≠ 0 := fun zero => h (congrArg some (BitVec.eq_of_toNat_eq zero))
    simp [wireLength, nonzero]

theorem wireLength_eq_some {present : Bool} {n : Nat} {len : Option TimedLength} (small : n < 2 ^ 16)
    (h : wireLength present n = some len) : present = len.isSome ∧ n = (len.getD 0).toNat ∧ len ≠ some 0 := by
  unfold wireLength at h
  split at h
  · next isPresent =>
    split at h
    · exact nomatch h
    · next nonzero =>
      cases h
      refine ⟨isPresent, (Nat.mod_eq_of_lt small).symm, fun zero => nonzero ?_⟩
      have value := congrArg BitVec.toNat (Option.some.inj zero)
      rw [BitVec.toNat_ofNat, Nat.mod_eq_of_lt small] at value
      exact value
  · next absent =>
    rw [Option.ite_none_right_eq_some] at h
    obtain ⟨zero, same⟩ := h
    cases same
    exact ⟨Bool.eq_false_iff.2 absent, zero, nofun⟩

/-- A row of bits that are required to be 0 (R196). -/
abbrev zeroBits (n : Nat) : List Bool := List.replicate n false

section Areas
variable (t : StationNo) (c : Channel) (p : Priority) (d : DuckLevel) (iv : Interval) (dg : Digest) (i : Input)
  (zones : ZoneSet) (len : Option TimedLength) (flag restate : Bool)

/-! The field area of each kind (R196). -/

theorem area_hello : FrameBody.hello.area = zeroBits 52 := rfl
theorem area_bye : FrameBody.bye.area = zeroBits 52 := rfl
theorem area_evict : (FrameBody.evict t).area = bitsOf 5 t.val ++ zeroBits 47 := rfl
theorem area_close : (FrameBody.close c flag).area = bitsOf 5 c.val ++ flag :: zeroBits 46 := rfl
theorem area_drop : (FrameBody.drop zones).area = bitsOf 32 zones.toNat ++ zeroBits 20 := rfl
theorem area_openCh : (FrameBody.openCh c i len restate).area = bitsOf 5 c.val ++
    (bitsOf 2 (Input.wireCode i) ++ restate :: len.isSome :: (bitsOf 16 (len.getD 0).toNat ++ zeroBits 27)) := rfl
theorem area_claim : (FrameBody.claim c p d flag zones restate).area = bitsOf 5 c.val ++
    (bitsOf 3 p.val ++ (bitsOf 5 d.val ++ flag :: restate :: (bitsOf 32 zones.toNat ++ zeroBits 5))) := rfl
theorem area_presence : (FrameBody.presence iv dg).area = bitsOf 7 iv.val ++ (bitsOf 16 dg.toNat ++ zeroBits 29) := rfl

end Areas

theorem decodeBody_area {b : FrameBody} (ok : b.fieldsOk = true) : decodeBody b.kind.code b.area = some b := by
  cases b with
  | hello => rfl
  | bye => rfl
  | evict t =>
    have nonzero : t ≠ 0 := by simpa [FrameBody.fieldsOk] using ok
    simp [decodeBody, FrameBody.kind, LineKind.code, area_evict, fieldAt_fin, inRange_val, zeroFrom_behind_bits,
      zeroFrom_zeros, nonzero, -List.reduceReplicate]
  | close c auto =>
    simp [decodeBody, FrameBody.kind, LineKind.code, area_close, fieldAt_fin, inRange_val, fieldAt_behind_bits,
      fieldAt_flag, zeroFrom_behind_bits, zeroFrom_behind_flag, zeroFrom_zeros,
      -List.reduceReplicate]
  | drop zones =>
    have nonzero : ¬ zones = 0#32 := by simpa [FrameBody.fieldsOk] using ok
    simp [decodeBody, FrameBody.kind, LineKind.code, area_drop, fieldAt_word, zeroFrom_behind_bits, zeroFrom_zeros,
      nonzero, -List.reduceReplicate]
  | openCh c i len restate =>
    have timed : wireLength len.isSome (len.getD 0#16).toNat = some len :=
      wireLength_roundTrip (by simpa [FrameBody.fieldsOk] using ok)
    simp [decodeBody, FrameBody.kind, LineKind.code, area_openCh, fieldAt_fin, inRange_val, fieldAt_behind_bits,
      fieldAt_behind_flag, fieldAt_flag, fieldAt_word, timed, fieldAt_bitsOf (wireCode_lt i), inputWire_roundTrip,
      zeroFrom_behind_bits, zeroFrom_behind_flag, zeroFrom_zeros, -List.reduceReplicate]
  | claim c p d chime zones restate =>
    have nonzero : ¬ p = 0 ∧ ¬ zones = 0#32 := by simpa [FrameBody.fieldsOk] using ok
    simp [decodeBody, FrameBody.kind, LineKind.code, area_claim, fieldAt_fin, inRange_val, fieldAt_behind_bits,
      fieldAt_behind_flag, fieldAt_flag, fieldAt_word, nonzero,
      zeroFrom_behind_bits, zeroFrom_behind_flag, zeroFrom_zeros, -List.reduceReplicate]
  | presence iv dg =>
    have range : 1 ≤ iv.val ∧ iv.val ≤ 100 := by simpa [FrameBody.fieldsOk] using ok
    simp [decodeBody, FrameBody.kind, LineKind.code, area_presence, fieldAt_fin, inRange_val, fieldAt_behind_bits,
      fieldAt_word, range, zeroFrom_behind_bits, zeroFrom_zeros, -List.reduceReplicate]

/-- What a body decoded from a field area says about it: kind, bits and ranges. -/
theorem area_of_decodeBody {kind : Nat} {l : List Bool} {b : FrameBody} (length : l.length = 52)
    (h : decodeBody kind l = some b) : kind = b.kind.code ∧ l = b.area ∧ b.fieldsOk = true := by
  have field {off : Nat} (w : Nat) (inside : off + w ≤ 52) :
      l.drop off = bitsOf w (fieldAt off w l) ++ l.drop (off + w) := drop_eq_field (by omega)
  have flag {off : Nat} (inside : off + 1 ≤ 52) :
      l.drop off = decide (fieldAt off 1 l = 1) :: l.drop (off + 1) := by
    rw [field 1 inside, bitsOf_flag]
    rfl
  have zeros {off : Nat} (zero : zeroFrom off l = true) : l.drop off = zeroBits (52 - off) := by
    rw [drop_eq_zeros zero, length]
  have whole : l = l.drop 0 := rfl
  unfold decodeBody at h
  split at h
  · rw [Option.ite_none_right_eq_some] at h
    obtain ⟨zero, same⟩ := h
    cases same
    exact ⟨rfl, whole.trans (zeros zero), rfl⟩
  · rw [Option.ite_none_right_eq_some] at h
    obtain ⟨zero, same⟩ := h
    cases same
    exact ⟨rfl, whole.trans (zeros zero), rfl⟩
  · simp only [Option.bind_eq_bind, Option.bind_eq_some_iff, Option.ite_none_right_eq_some] at h
    obtain ⟨t, target, ⟨nonzero, zero⟩, same⟩ := h
    cases same
    refine ⟨rfl, ?_, by simpa [FrameBody.fieldsOk] using nonzero⟩
    rw [area_evict, ← inRange_eq_some target]
    exact whole.trans ((field 5 (by decide)).trans (congrArg _ (zeros zero)))
  · simp only [Option.bind_eq_bind, Option.bind_eq_some_iff, Option.ite_none_right_eq_some] at h
    obtain ⟨c, channel, zero, same⟩ := h
    cases same
    refine ⟨rfl, ?_, rfl⟩
    rw [area_close, ← inRange_eq_some channel, ← zeros zero, ← flag (by decide), ← field 5 (by decide)]
    rfl
  · rw [Option.ite_none_right_eq_some] at h
    obtain ⟨⟨nonzero, zero⟩, same⟩ := h
    cases same
    refine ⟨rfl, ?_, by simpa [FrameBody.fieldsOk] using nonzero⟩
    rw [area_drop, bitsOf_word, ← zeros zero, ← field 32 (by decide)]
    rfl
  · simp only [Option.bind_eq_bind, Option.bind_eq_some_iff, Option.ite_none_right_eq_some] at h
    obtain ⟨c, channel, i, input, len, timed, zero, same⟩ := h
    cases same
    obtain ⟨present, value, nonzero⟩ := wireLength_eq_some (fieldAt_lt _ _ _) timed
    refine ⟨rfl, ?_, by simpa [FrameBody.fieldsOk] using nonzero⟩
    rw [area_openCh, ← inRange_eq_some channel, ← wireCode_of_ofWire input, ← present, ← value, ← zeros zero,
      ← field 16 (by decide), ← flag (by decide), ← flag (by decide), ← field 2 (by decide), ← field 5 (by decide)]
    rfl
  · simp only [Option.bind_eq_bind, Option.bind_eq_some_iff, Option.ite_none_right_eq_some] at h
    obtain ⟨c, channel, p, priority, d, duck, ⟨hp, hz, zero⟩, same⟩ := h
    cases same
    refine ⟨rfl, ?_, by simp only [FrameBody.fieldsOk, hp, hz, decide_not, decide_false, Bool.not_false,
      Bool.and_self, ne_eq]⟩
    rw [area_claim, ← inRange_eq_some channel, ← inRange_eq_some priority, ← inRange_eq_some duck, bitsOf_word,
      ← zeros zero, ← field 32 (by decide), ← flag (by decide), ← flag (by decide), ← field 5 (by decide),
      ← field 3 (by decide), ← field 5 (by decide)]
    rfl
  · simp only [Option.bind_eq_bind, Option.bind_eq_some_iff, Option.ite_none_right_eq_some] at h
    obtain ⟨iv, interval, ⟨low, high, zero⟩, same⟩ := h
    cases same
    refine ⟨rfl, ?_, by simp [FrameBody.fieldsOk, low, high]⟩
    rw [area_presence, ← inRange_eq_some interval, bitsOf_word, ← zeros zero, ← field 16 (by decide),
      ← field 7 (by decide)]
    rfl
  · exact nomatch h

/-! ### The whole frame (R176, R196) -/

theorem LineKind.code_lt (k : LineKind) : k.code < 2 ^ 5 := by cases k <;> decide

theorem Frame.head64_eq (f : Frame) : f.head64 =
    bitsOf 2 (3 - f.cls.val) ++ (bitsOf 5 f.sender.val ++ (bitsOf 5 f.body.kind.code ++ f.body.area)) := by
  simp only [Frame.head64, List.append_assoc]

theorem Frame.head64_length (f : Frame) : f.head64.length = 64 := by
  simp [Frame.head64, FrameBody.area_length]

theorem Frame.bits80_length (f : Frame) : f.bits80.length = 80 := by
  simp [Frame.bits80, Frame.head64_length]

/-- The class field of two bits (R196). -/
theorem inRange_class (c : Fin 4) : inRange 4 (3 - c.val) = some (3 - c) := by
  revert c
  decide

theorem class_roundTrip (c : Fin 4) : 3 - (3 - c).val = c.val := by
  revert c
  decide

theorem decodeHead_head64 {f : Frame} (h : f.wellFormed = true) : decodeHead f.head64 = some f := by
  obtain ⟨⟨sender, cls, target⟩, ok⟩ := f.wellFormed_iff.1 h
  have class_lt : 3 - f.cls.val < 2 ^ 2 := by omega
  have back : 3 - (3 - f.cls) = f.cls := by simp
  have classField : fieldAt 0 2 f.head64 = 3 - f.cls.val := by rw [f.head64_eq, fieldAt_bitsOf class_lt]
  have senderField : fieldAt 2 5 f.head64 = f.sender.val := by
    rw [f.head64_eq, fieldAt_behind_bits (by decide), fieldAt_fin (by decide)]
  have kindField : fieldAt 7 5 f.head64 = f.body.kind.code := by
    rw [f.head64_eq, fieldAt_behind_bits (by decide), fieldAt_behind_bits (by decide),
      fieldAt_bitsOf (LineKind.code_lt _)]
  have area : f.head64.drop 12 = f.body.area := by
    rw [Frame.head64, List.drop_left' (by simp)]
  have checks : f.sender ≠ 0 ∧ classFits f.cls f.body.kind = true ∧ targetFits f.sender f.body = true :=
    ⟨sender, cls, target⟩
  simp only [decodeHead, classField, senderField, kindField, area, inRange_class, inRange_val, decodeBody_area ok, back,
    Option.bind_eq_bind, Option.bind_some, if_pos checks]

theorem decodeFrame_encode {f : Frame} (h : f.wellFormed = true) : decodeFrame f.encode = some f := by
  have head : f.bits80.take 64 = f.head64 := by rw [Frame.bits80, List.take_left' f.head64_length]
  have tail : f.bits80.drop 64 = bitsOf 16 (crc16 f.head64).toNat := by
    rw [Frame.bits80, List.drop_left' f.head64_length]
  have crc : numOf (bitsOf 16 (crc16 f.head64).toNat) = (crc16 f.head64).toNat :=
    numOf_bitsOf_of_lt (crc16 f.head64).isLt
  have sync : withoutSync 9 (withSync 9 f.bits80) = some f.bits80 := withoutSync_withSync f.bits80_length
  simp only [decodeFrame, Frame.encode, sync, Option.bind_eq_bind, Option.bind_some,
    head, tail, crc, if_true, decodeHead_head64 h]

theorem head64_of_decodeHead {l : List Bool} {f : Frame} (length : l.length = 64) (h : decodeHead l = some f) :
    l = f.head64 ∧ f.wellFormed = true := by
  have field {off : Nat} (w : Nat) (inside : off + w ≤ 64) :
      l.drop off = bitsOf w (fieldAt off w l) ++ l.drop (off + w) := drop_eq_field (by omega)
  simp only [decodeHead, Option.bind_eq_bind, Option.bind_eq_some_iff, Option.ite_none_right_eq_some] at h
  obtain ⟨notCls, cls, sender, number, body, spelled, checks, same⟩ := h
  cases same
  obtain ⟨kind, area, ok⟩ := area_of_decodeBody (by rw [List.length_drop, length]) spelled
  refine ⟨?_, (Frame.wellFormed_iff _).2 ⟨checks, ok⟩⟩
  rw [Frame.head64_eq, class_roundTrip, ← inRange_eq_some cls, ← inRange_eq_some number, ← kind, ← area,
    ← field 5 (by decide), ← field 5 (by decide), ← field 2 (by decide)]
  rfl

theorem encode_of_decodeFrame {bits : List Bool} {f : Frame} (h : decodeFrame bits = some f) :
    f.wellFormed = true ∧ bits = f.encode := by
  simp only [decodeFrame, Option.bind_eq_bind, Option.bind_eq_some_iff, Option.ite_none_right_eq_some] at h
  obtain ⟨l, sync, crc, head⟩ := h
  obtain ⟨framed, length⟩ := withSync_of_withoutSync sync
  obtain ⟨same, ok⟩ := head64_of_decodeHead (by rw [List.length_take]; omega) head
  refine ⟨ok, ?_⟩
  rw [framed, Frame.encode, Frame.bits80, ← same, ← crc, bitsOf_numOf (by rw [List.length_drop]; omega),
    List.take_append_drop]

theorem decodeFrame_eq_some_iff {bits : List Bool} {f : Frame} :
    decodeFrame bits = some f ↔ f.wellFormed = true ∧ bits = f.encode :=
  ⟨encode_of_decodeFrame, fun ⟨ok, same⟩ => same ▸ decodeFrame_encode ok⟩

/-- Settles O30: the decoder takes the bits of a well-formed frame and no others. -/
theorem onlyExactFramesPassTheCheck : Obligations.OnlyExactFramesPassTheCheck := fun _ _ h => encode_of_decodeFrame h

/-! ### The layout of the bits (R196) -/

theorem bitsOf_eq_ofFn (w n : Nat) : bitsOf w n = List.ofFn fun i : Fin w => n.testBit (w - 1 - i.val) := by
  apply List.ext_getElem
  · simp
  · intro i _ _
    simp [bitsOf]

theorem zoneBits_eq (zones : ZoneSet) :
    bitsOf 32 zones.toNat = List.ofFn fun i : Fin 32 => zones.getLsbD (31 - i.val) := by
  rw [bitsOf_eq_ofFn]
  rfl

theorem crcStep_eq (c : BitVec 16) (b : Bool) : crcStep c b = (c <<< 1) ^^^ (if c.msb = b then 0 else 0x1021) := by
  rw [crcStep]
  cases c.msb <;> cases b <;> simp

/-- Settles O29: the round trip, the sync bits and the layout. -/
theorem framesSurviveTheLine : Obligations.FramesSurviveTheLine := by
  refine ⟨fun f ok => decodeFrame_encode ok, fun f => ⟨?_, f.head64_length, fun g => ?_, fun n => ?_, rfl, rfl,
    crcStep_eq⟩, ?_⟩
  · rw [Frame.encode, withSync_length (by rw [f.bits80_length]; decide), f.bits80_length]
  · exact withSync_getElem?_sync (by rw [f.bits80_length]; decide) g.isLt
  · exact withSync_getElem?_data (by rw [f.bits80_length]; decide) (by omega)
  · intro bits flag zoneBits zeros f
    have spelled (w n : Nat) : bits w n = bitsOf w n := (bitsOf_eq_ofFn w n).symm
    have zoneSpelled (zones : ZoneSet) : zoneBits zones = bitsOf 32 zones.toNat := (zoneBits_eq zones).symm
    obtain ⟨cls, sender, body⟩ := f
    simp only [spelled, zoneSpelled]
    refine ⟨rfl, ?_⟩
    rw [Frame.head64, List.append_assoc]
    refine congrArg _ ?_
    cases body with
    | openCh c i n restate => cases i <;> cases n <;> rfl
    | _ => simp only [List.append_assoc]; rfl

/-! ### Arbitration (R4, R23) -/

theorem Frame.arbitration_le (f : Frame) : f.arbitration ≤ 127 := by
  rw [Frame.arbitration]
  omega

theorem bitsOf_append (a b : Nat) {x y : Nat} (hx : x < 2 ^ a) (hy : y < 2 ^ b) :
    bitsOf a x ++ bitsOf b y = bitsOf (a + b) (x * 2 ^ b + y) := by
  have value : numOf (bitsOf a x ++ bitsOf b y) = x * 2 ^ b + y := by
    rw [numOf_append, numOf_bitsOf_of_lt hx, numOf_bitsOf_of_lt hy, bitsOf_length]
  rw [← value, bitsOf_numOf (by simp)]

theorem Frame.encode_take_arbitration (f : Frame) : f.encode.take 7 = bitsOf 7 f.arbitration := by
  have first : (f.bits80.take 8).length = 8 := by rw [List.length_take, f.bits80_length]; rfl
  have field : bitsOf 2 (3 - f.cls.val) ++ bitsOf 5 f.sender.val = bitsOf 7 f.arbitration :=
    bitsOf_append 2 5 (by omega) f.sender.isLt
  rw [Frame.encode, withSync, List.take_append_of_le_length (by omega), List.take_take, Frame.bits80, f.head64_eq,
    ← List.append_assoc, field, List.append_assoc]
  exact List.take_left' (bitsOf_length 7 _)

theorem Frame.wins_iff (f : Frame) (rivals : List (BitVec 7)) :
    f.wins rivals = true ↔ ∀ v ∈ rivals, f.arbitration ≤ v.toNat := by
  have own : numOf (bitsOf 7 f.arbitration) = f.arbitration :=
    numOf_bitsOf_of_lt (f.arbitration_le.trans_lt (by decide))
  have rival (v : BitVec 7) : numOf (bitsOf 7 v.toNat) = v.toNat := numOf_bitsOf_of_lt v.isLt
  rw [Frame.wins, contend_iff _ _ (by simp)]
  simp only [List.forall_mem_map, own, rival]

/-- Settles O21: the arbitration value as seven bits, and the lowest value as the winner. -/
theorem lowestArbitrationValueWins : Obligations.LowestArbitrationValueWins := by
  refine ⟨fun f => ⟨rfl, f.arbitration_le, fun numbered => ?_, f.encode_take_arbitration⟩, Frame.wins_iff,
    fun f g before => ?_⟩
  · have positive : f.sender.val ≠ 0 := Fin.val_ne_zero_iff.2 numbered
    rw [Frame.arbitration]
    omega
  · simp only [Frame.arbitration, Fin.lt_def, Fin.ext_iff] at before ⊢
    omega

end Sys2Proof.Machine
end

section
/-! The receiver between frames, the head's finalization and the attempt it begins, and the end of the arbitration
field (R2, R12 to R23, R144 to R147). -/

namespace Sys2Proof.Machine

/-! ### The receiver (R2) -/

section Receiver
variable {z : Zs32}

theorem Zs32.recessiveBits_idle {n : Nat} (gap : z.line.receiver = .gap) (whole : 11 ≤ z.line.gapBits + n) :
    z.recessiveBits n = { z with line := { z.line with receiver := .idle, gapBits := 0 } } := by
  rw [Zs32.recessiveBits, if_pos gap]
  exact if_pos whole

theorem Zs32.recessiveBits_counts {n : Nat} (gap : z.line.receiver = .gap) (short : z.line.gapBits + n < 11) :
    z.recessiveBits n = { z with line := { z.line with gapBits := z.line.gapBits + n } } := by
  rw [Zs32.recessiveBits, if_pos gap]
  exact if_neg (Nat.not_le.2 short)

theorem Zs32.recessiveBits_of_ne {n : Nat} (other : z.line.receiver ≠ .gap) : z.recessiveBits n = z := if_neg other

theorem Zs32.dominantBit_of_ne (notIdle : z.line.receiver ≠ .idle) (notGap : z.line.receiver ≠ .gap) :
    z.dominantBit = z := by
  unfold Zs32.dominantBit
  split
  · next gap => exact absurd gap notGap
  · next idle => exact absurd idle notIdle
  all_goals rfl

end Receiver

/-- Settles O20: recessive and dominant bits by the state of the receiver. -/
theorem receiverBetweenFrames : Obligations.ReceiverBetweenFrames := by
  intro s awake
  have acts (f : Zs32 → Zs32) : s.run f = .next { s with zs := f s.zs } := State.run_awake awake f
  refine ⟨fun n gap => ⟨fun whole => ?_, fun short => ?_⟩, fun n other => ?_, fun gap => ?_, fun other => ?_,
    fun idle => ?_, fun gap => ?_, fun notIdle notGap => ?_⟩
  · exact (acts _).trans (by rw [Zs32.recessiveBits_idle gap whole])
  · exact (acts _).trans (by rw [Zs32.recessiveBits_counts gap short])
  · exact (acts _).trans (by rw [Zs32.recessiveBits_of_ne other])
  · exact (acts _).trans (by rw [Zs32.dominantInGap, if_pos gap])
  · exact (acts _).trans (by rw [Zs32.dominantInGap, if_neg other])
  · exact (acts _).trans (by rw [Zs32.dominantBit, idle])
  · exact (acts _).trans (by rw [Zs32.dominantBit, gap])
  · exact (acts _).trans (by rw [Zs32.dominantBit_of_ne notIdle notGap])

/-! ### ATTEMPT_BEGIN (R8, R12, R13) -/

section AttemptBegin
variable {z : Zs32} {e : OutEntry} {rest : List OutEntry}

theorem Zs32.mayBegin_iff (z : Zs32) : z.mayBegin = true ↔ z.onLine = true ∧ z.line.inq = [] ∧
    z.line.receiver = .idle ∧ z.line.outq ≠ [] ∧ z.line.halt = false := by
  simp [Zs32.mayBegin, and_assoc]

theorem Zs32.attemptBegin_of_not_mayBegin (no : z.mayBegin = false) : z.attemptBegin = z :=
  if_neg (Bool.eq_false_iff.1 no)

theorem Zs32.attemptBegin_eq (may : z.mayBegin = true) :
    z.attemptBegin = z.beginUpTo (z.line.outq.length + z.memb.evictHeld.length + 51 + 1) := if_pos may

theorem Zs32.attemptBegin_ready {f : Frame} (may : z.mayBegin = true) (head : z.line.outq = e :: rest)
    (final : z.finalize e = .ready f) : z.attemptBegin = { z with line := { z.line with
      attempt := some { frame := f, origin := e.origin, stage := .arbitration, dropped := false }
      receiver := .frame } } := by
  rw [Zs32.attemptBegin_eq may, Zs32.beginUpTo, head]
  simp only [final]

theorem Zs32.attemptBegin_wait (may : z.mayBegin = true) (head : z.line.outq = e :: rest)
    (final : z.finalize e = .wait) : z.attemptBegin = z := by
  rw [Zs32.attemptBegin_eq may, Zs32.beginUpTo, head]
  simp only [final]

theorem Zs32.withdrawHead_host_port {r : ResultCode} (host : e.origin = .host) :
    EndedWith z.port (z.withdrawHead e (some r)).port [r.code] := by
  have ended : (z.withdrawHead e (some r)).port = (z.endCommand (.plain r)).port := by
    unfold Zs32.withdrawHead
    rw [Zs32.grants_port]
    split
    all_goals
      rw [host]
      exact Zs32.endCommand_port_congr z.dropHead_port _
  rw [ended]
  exact Zs32.endCommand_port z (.plain r)

theorem Zs32.withdrawHead_other_port {r : Option ResultCode} (other : e.origin ≠ .host ∨ r = none) :
    (z.withdrawHead e r).port = z.port := by
  unfold Zs32.withdrawHead
  rw [Zs32.grants_port]
  split
  all_goals
    split
    · next host => exact (other.resolve_right nofun host).elim
    · rfl

end AttemptBegin

/-- Settles O22: the head that begins, waits or is withdrawn. -/
theorem attemptBeginsOrWithdrawsTheHead : Obligations.AttemptBeginsOrWithdrawsTheHead := by
  have may {z : Zs32} {e : OutEntry} {rest : List OutEntry} (onLine : z.onLine = true) (inq : z.line.inq = [])
      (idle : z.line.receiver = .idle) (head : z.line.outq = e :: rest) (halt : z.line.halt = false) :
      z.mayBegin = true := z.mayBegin_iff.2 ⟨onLine, inq, idle, by rw [head]; nofun, halt⟩
  have begins {s : State} (awake : s.Awake) : exec .attemptBegin s = .next { s with zs := s.zs.attemptBegin } :=
    State.run_awake awake _
  refine ⟨fun s awake => ⟨fun e rest onLine inq idle head halt => ⟨fun f final => ?_, fun final => ?_⟩, fun no => ?_⟩,
    fun s e r awake onLine inq idle head halt nothing final => ?_,
    fun s e rest r awake onLine inq idle head halt final => ?_⟩
  · rw [begins awake, Zs32.attemptBegin_ready (may onLine inq idle head halt) head final]
  · rw [begins awake, Zs32.attemptBegin_wait (may onLine inq idle head halt) head final]
  · have missing : s.zs.mayBegin = false := by
      rw [Bool.eq_false_iff, ne_eq, Zs32.mayBegin_iff]
      rintro ⟨onLine, inq, idle, waits, halt⟩
      rcases no with h | h | h | h | h
      · exact Bool.noConfusion (onLine.symm.trans h)
      · exact h inq
      · exact h idle
      · exact waits h
      · exact Bool.noConfusion (halt.symm.trans h)
    rw [begins awake, Zs32.attemptBegin_of_not_mayBegin missing]
  · have withdrawn := s.zs.withdrawHead_eq e r
    have held : (s.zs.withdrawn e (s.zs.withdrawHead e r).port).NothingHeld := nothing
    rw [Zs32.grants_of_nothingHeld held] at withdrawn
    have outq : (s.zs.withdrawHead e r).line = { s.zs.line with outq := [], fails := 0, vetoSeen := false } := by
      rw [withdrawn, Zs32.withdrawn, head]
      rfl
    have over' : (s.zs.withdrawHead e r).mayBegin = false := by
      rw [Bool.eq_false_iff, ne_eq, Zs32.mayBegin_iff, outq]
      exact fun h => h.2.2.2.1 rfl
    refine ⟨{ s with zs := s.zs.withdrawHead e r }, ?_, rfl, outq, fun code host some => ?_,
      Zs32.withdrawHead_other_port, ?_⟩
    · rw [begins awake, Zs32.attemptBegin_withdraw (may onLine inq idle head halt) head final,
        Zs32.attemptBegin_of_not_mayBegin over']
    · subst some
      exact Zs32.withdrawHead_host_port host
    · dsimp only
      rw [withdrawn]
      exact ⟨rfl, rfl, rfl, rfl, rfl⟩
  · obtain ⟨frame, granted⟩ := s.zs.withdrawHead_granted e r
    rw [head, List.tail_cons] at granted
    refine ⟨{ s with zs := s.zs.withdrawHead e r }, rfl, ?_, fun code host some => ?_, Zs32.withdrawHead_other_port, ?_⟩
    · have awake' : State.Awake { s with zs := s.zs.withdrawHead e r } :=
        (congrArg ResetPin.held (Zs32.withdrawHead_rst e r s.zs)).trans awake
      rw [begins awake, begins awake', Zs32.attemptBegin_withdraw (may onLine inq idle head halt) head final]
    · subst some
      exact Zs32.withdrawHead_host_port host
    · have same : s.zs.withdrawn e (s.zs.withdrawHead e r).port = { s.zs with
          line := { s.zs.line with outq := rest, fails := 0, vetoSeen := false }
          memb := { s.zs.memb with evictQueued := match e.placed with
            | .evict x => s.zs.memb.evictQueued.filter (· ≠ x)
            | _ => s.zs.memb.evictQueued }
          port := (s.zs.withdrawHead e r).port } := by
        rw [Zs32.withdrawn, head]
        rfl
      rw [same] at frame granted
      exact ⟨frame, granted⟩

/-! ### Finalization (R13, R15, R16, R19 to R21) -/

section Finalize
variable {z : Zs32} {e : OutEntry}

theorem Zs32.hasAged_iff (z : Zs32) (e : OutEntry) {setup : Setup} (h : z.setup = some setup) :
    z.hasAged e = true ↔ e.aged ∨ 10 * setup.interval.val < z.clock - e.placedAt := by
  simp [Zs32.hasAged, Zs32.periodMs, h, Nat.mul_comm]

theorem Zs32.finalize_presence {setup : Setup} (placed : e.placed = .presence) (h : z.setup = some setup) :
    z.finalize e = .ready
      { cls := if e.aged ∨ 10 * setup.interval.val < z.clock - e.placedAt then 3 else 0
        sender := setup.station, body := .presence setup.interval z.table.digest } := by
  have me : z.me = setup.station := by rw [Zs32.me, h]; rfl
  rw [Zs32.finalize, placed]
  simp only [Zs32.ownFrame, FrameBody.kind, LineKind.cls, z.hasAged_iff e h, me, h, Option.elim_some]

theorem Zs32.finalize_evict_silent {x : StationNo} (placed : e.placed = .evict x)
    (silent : ∃ r, z.entry x = some r ∧ r.silence = .expired) :
    z.finalize e = .ready { cls := 3, sender := z.me, body := .evict x } := by
  obtain ⟨r, entry, expired⟩ := silent
  rw [Zs32.finalize, placed]
  exact if_pos (by rw [entry, Option.any_some, expired]; rfl)

theorem Zs32.finalize_evict_heard {x : StationNo} (placed : e.placed = .evict x)
    (heard : ∀ r, z.entry x = some r → r.silence ≠ .expired) : z.finalize e = .withdraw none := by
  have none : ¬ (z.entry x).any (·.silence = .expired) = true := by
    rw [Option.any_eq_true]
    rintro ⟨r, entry, expired⟩
    exact heard r entry (of_decide_eq_true expired)
  rw [Zs32.finalize, placed]
  exact if_neg none

theorem Zs32.finalize_restateOpen {c : Channel} {i : Input} {n : Option TimedLength}
    (placed : e.placed = .openCh (some c) i n true) : z.finalize e = z.finalizeRestateOpen c := by
  rw [Zs32.finalize, placed]

theorem Zs32.finalizeRestateOpen_other {c : Channel} (other : z.table.channels[c].owner ≠ some z.me) :
    z.finalizeRestateOpen c = .withdraw none := if_neg other

theorem Zs32.finalizeRestateOpen_own {c : Channel} {i : Input} (own : z.table.channels[c].owner = some z.me)
    (bound : z.source.inputOf c = some i) : z.finalizeRestateOpen c =
      .ready { cls := 1, sender := z.me, body := .openCh c i (z.source.get i).remaining true } := by
  rw [Zs32.finalizeRestateOpen, if_pos own, bound]
  rfl

theorem Zs32.finalize_claim_other {c : Channel} {p : Priority} {d : DuckLevel} {chime restate : Bool} {zones : ZoneSet}
    (placed : e.placed = .claim c p d chime zones restate) (other : z.table.channels[c].owner ≠ some z.me) :
    z.finalize e = .withdraw (if restate then none else some .notOwner) := by
  rw [Zs32.finalize, placed]
  exact if_pos other

theorem Zs32.finalize_claim_own {c : Channel} {p : Priority} {d : DuckLevel} {chime : Bool} {zones : ZoneSet}
    (placed : e.placed = .claim c p d chime zones false) (own : z.table.channels[c].owner = some z.me) :
    z.finalize e = .ready { cls := 1, sender := z.me, body := .claim c p d chime zones false } := by
  rw [Zs32.finalize, placed]
  exact if_neg (not_not.2 own)

theorem Zs32.finalize_restateClaim_own {c : Channel} {p : Priority} {d : DuckLevel} {chime : Bool}
    {zones held : ZoneSet} (placed : e.placed = .claim c p d chime zones true)
    (own : z.table.channels[c].owner = some z.me)
    (tuple : z.zonesOfTuple { station := z.me, channel := c, priority := p, duck := d, chime := chime } = held) :
    z.finalize e = if held = 0 then .withdraw none
      else .ready { cls := 1, sender := z.me, body := .claim c p d chime held true } := by
  rw [Zs32.finalize, placed]
  refine (if_neg (not_not.2 own)).trans ((if_pos rfl).trans ?_)
  rw [tuple]
  rfl

end Finalize

/-- Settles O23: the finalization of the kinds that no choice of a channel and no narrowing concerns. -/
theorem finalizationOfTheOtherKinds : Obligations.FinalizationOfTheOtherKinds := by
  refine ⟨fun z e => ⟨fun placed => ?_, fun placed => ?_, fun c auto placed => ?_,
      fun setup placed h => Zs32.finalize_presence placed h,
      fun x placed => ⟨Zs32.finalize_evict_silent placed, Zs32.finalize_evict_heard placed⟩⟩,
    fun z e c i i' n placed => ⟨fun other => ?_, fun own bound => ?_⟩,
    fun z e c p d chime zones => ⟨fun placed => ⟨Zs32.finalize_claim_other placed, Zs32.finalize_claim_own placed⟩,
      fun placed => ⟨Zs32.finalize_claim_other placed, fun held tuple own => ?_⟩⟩⟩
  · rw [Zs32.finalize, placed]
    rfl
  · rw [Zs32.finalize, placed]
    rfl
  · rw [Zs32.finalize, placed]
    rfl
  · rw [Zs32.finalize_restateOpen placed, Zs32.finalizeRestateOpen_other other]
  · rw [Zs32.finalize_restateOpen placed, Zs32.finalizeRestateOpen_own own bound, InputRec.remaining]
    refine ⟨fun stopped => ?_, fun ms running => ?_, fun expired => ?_⟩
    · rw [stopped]
    · rw [running]
    · rw [expired]
  · have rebuilt : z.zonesOfTuple { station := z.me, channel := c, priority := p, duck := d, chime := chime } = held :=
      (zonesWhere_eq_iff _ _).2 fun k => Bool.eq_iff_iff.2 ((tuple k).trans decide_eq_true_iff.symm)
    rw [Zs32.finalize_restateClaim_own placed own rebuilt]
    exact ⟨fun empty => if_pos empty, fun some => if_neg some⟩

/-! ### The end of the arbitration field (R23, R144, R145) -/

section ArbitrationEnd
variable {z : Zs32} {a : Attempt} {rivals : List (BitVec 7)}

theorem Zs32.arbitrationEnd_won (attempt : z.line.attempt = some a) (stage : a.stage = .arbitration)
    (wins : ∀ v ∈ rivals, a.frame.arbitration ≤ v.toNat) : z.arbitrationEnd rivals = z.arbitrationWon a := by
  simp only [Zs32.arbitrationEnd, attempt, stage, if_true, if_pos ((a.frame.wins_iff rivals).2 wins)]

theorem Zs32.arbitrationEnd_lost (attempt : z.line.attempt = some a) (stage : a.stage = .arbitration)
    (lower : ∃ v ∈ rivals, v.toNat < a.frame.arbitration) : z.arbitrationEnd rivals = z.arbitrationLost a := by
  have loses : ¬ a.frame.wins rivals = true := by
    rw [a.frame.wins_iff]
    obtain ⟨v, mem, lt⟩ := lower
    exact fun wins => Nat.not_le.2 lt (wins v mem)
  simp only [Zs32.arbitrationEnd, attempt, stage, if_true, if_neg loses]

theorem Zs32.arbitrationLost_keeps (kept : (a.carriesHost && z.abortHeld) = false) :
    z.arbitrationLost a = { z with line := { z.line with attempt := none } } := if_neg (Bool.eq_false_iff.1 kept)

theorem Zs32.arbitrationLost_aborts {e : CmdExec} (host : a.carriesHost = true) (cmd : z.port.cmd = some e)
    (held : e.heldAbort = true) :
    z.arbitrationLost a = Zs32.takeAbort { z with line := { z.line with attempt := none } } := by
  have aborts : (a.carriesHost && z.abortHeld) = true := by rw [host, Zs32.abortHeld, cmd, Bool.true_and]; exact held
  exact if_pos aborts

/-- The entry of the host at the head, or none in the queue (R8, R144). -/
theorem Zs32.removeHostEntry_head (head : z.line.outq = [] ∨ ∃ x rest, z.line.outq = x :: rest ∧ x.origin = .host) :
    z.removeHostEntry = { z with line := { z.line with
      outq := z.line.outq.tail
      fails := if z.line.outq = [] then z.line.fails else 0
      vetoSeen := if z.line.outq = [] then z.line.vetoSeen else false } } := by
  rw [Zs32.removeHostEntry]
  rcases head with empty | ⟨x, rest, head, host⟩
  · have same : { z with line := { z.line with outq := [] } } = z := by rw [← empty]
    simp only [empty, List.tail_nil, if_true]
    exact same.symm
  · simp only [head, host, if_true, Zs32.dropHead, List.tail_cons, reduceCtorEq, if_false]

theorem Zs32.takeAbort_head {e : CmdExec} (cmd : z.port.cmd = some e) (notClose : ∀ c, e.command ≠ .close c)
    (notJoin : e.command ≠ .join) (notLeave : e.command ≠ .leave) (nothing : z.NothingHeld)
    (head : z.line.outq = [] ∨ ∃ x rest, z.line.outq = x :: rest ∧ x.origin = .host) :
    z.takeAbort = { z with
      line := { z.line with
        outq := z.line.outq.tail
        fails := if z.line.outq = [] then z.line.fails else 0
        vetoSeen := if z.line.outq = [] then z.line.vetoSeen else false }
      port := { z.port with
        phase := .result, cmdBuf := [], resBuf := [0x14], readPos := 0, firstByte := false, cmd := none } } := by
  have held : z.removeHostEntry.NothingHeld := by rw [Zs32.removeHostEntry_head head]; exact nothing
  have here : z.removeHostEntry.port.cmd = some e := by rw [Zs32.removeHostEntry_head head]; exact cmd
  rw [Zs32.takeAbort_of_other cmd notClose notJoin notLeave, Zs32.grants_of_nothingHeld held,
    Zs32.endCommand_of_some here, Zs32.removeHostEntry_head head]
  rfl

end ArbitrationEnd

/-- Settles O26: the won field, the lost one, and the ABORT held through it. -/
theorem arbitrationEndsWonOrLost : Obligations.ArbitrationEndsWonOrLost := by
  intro s a rivals awake attempt stage
  have ends : exec (.arbitrationEnd rivals) s = .next { s with zs := s.zs.arbitrationEnd rivals } :=
    State.run_awake awake _
  refine ⟨fun wins => ⟨fun own => ?_, fun host => ?_⟩, fun lower kept => ?_,
    fun e lower host cmd held notClose notJoin notLeave nothing head => ?_, fun e lower host cmd held one => ?_⟩
  · rw [ends, Zs32.arbitrationEnd_won attempt stage wins, Zs32.arbitrationWon, if_neg (Bool.eq_false_iff.1 own)]
  · rw [ends, Zs32.arbitrationEnd_won attempt stage wins, Zs32.arbitrationWon, if_pos host]
  · rw [ends, Zs32.arbitrationEnd_lost attempt stage lower, Zs32.arbitrationLost_keeps kept]
  · rw [ends, Zs32.arbitrationEnd_lost attempt stage lower, Zs32.arbitrationLost_aborts host cmd held,
      Zs32.takeAbort_head (z := { s.zs with line := { s.zs.line with attempt := none } }) cmd notClose notJoin
        notLeave nothing head]
  · obtain ⟨taken, port⟩ := Zs32.takeAbort_taken (z := { s.zs with line := { s.zs.line with attempt := none } }) cmd one
    rw [ends, Zs32.arbitrationEnd_lost attempt stage lower, Zs32.arbitrationLost_aborts host cmd held]
    refine ⟨_, rfl, rfl, taken, ?_⟩
    rw [EndedWith, if_pos (by rw [cmd]; rfl)]
    exact port

end Sys2Proof.Machine
end

section
/-! Rejoin and clash with the command in execution, and the sender check at the rows of frame processing (R24, R34,
R39, R142, R184, R185, R188). -/

namespace Sys2Proof.Machine

/-! ### Leaving the line with a command in execution (R34, R139, R142, R184) -/

section Ends
variable {z : Zs32}

/-- Another stage of the command is of no account to the way it ended. -/
theorem EndedWith.of_cmd {p after : Port} {bytes : List Byte} {f : CmdExec → CmdExec}
    (h : EndedWith { p with cmd := p.cmd.map f } after bytes) : EndedWith p after bytes := by
  unfold EndedWith at *
  simp only [Option.isSome_map] at h
  split
  · next running => rwa [if_pos running] at h
  · next idle =>
    rw [if_neg idle] at h
    have none : p.cmd = none := by simpa using idle
    rw [h, none, Option.map_none, ← none]

/-- The end of a command changes the port alone. -/
theorem Zs32.endCommand_with_port (r : Result) (z : Zs32) :
    z.endCommand r = { z with port := (z.endCommand r).port } := by
  unfold Zs32.endCommand
  split <;> rfl

theorem Zs32.endCommand_cleared_port {w : Zs32} (port : w.port = z.tableClear.port) (r : Result) :
    EndedWith z.port (w.endCommand r).port r.bytes := by
  have ended := Zs32.endCommand_port w r
  rw [port] at ended
  exact ended.of_cmd

theorem Zs32.clash_wentOff (reason : ClashReason) (z : Zs32) : WentOff z (z.clash reason) .clashed ∧
    (z.clash reason).notices = z.notices.log (.clashed reason) ∧ EndedWith z.port (z.clash reason).port [0x08] := by
  have port : ((z.leaveLine .clashed).log (.clashed reason)).port = z.tableClear.port := rfl
  refine ⟨?_, ?_, Zs32.endCommand_cleared_port port (.plain .clashed)⟩
  · rw [Zs32.clash, Zs32.endCommand_with_port]
    exact Zs32.leaveLine_wentOff .clashed z
  · rw [Zs32.clash, Zs32.endCommand_with_port]
    rfl

theorem Zs32.rejoin_rejoined (staying : z.leaving = false) (cause : RejoinCause) :
    RejoinedWith z (z.rejoin cause) cause.notice ∧ (z.rejoin cause).line.receiver = z.line.receiver ∧
      EndedWith z.port (z.rejoin cause).port cause.result.bytes := by
  rw [Zs32.rejoin_of_not_leaving staying]
  have port : (z.rejoinWith (some cause.notice)).port = z.tableClear.port := rfl
  refine ⟨?_, ?_, Zs32.endCommand_cleared_port port cause.result⟩
  · rw [Zs32.endCommand_with_port]
    exact Zs32.rejoinWith_rejoined cause.notice z
  · rw [Zs32.endCommand_with_port]
    rfl

theorem Zs32.rejoin_wentOff (leaving : z.leaving = true) (cause : RejoinCause) :
    WentOff z (z.rejoin cause) .offline ∧ (z.rejoin cause).notices = z.notices ∧
      EndedWith z.port (z.rejoin cause).port cause.leaveResult.bytes := by
  rw [Zs32.rejoin_of_leaving leaving]
  have port : (z.leaveLine .offline).port = z.tableClear.port := rfl
  refine ⟨?_, ?_, Zs32.endCommand_cleared_port port cause.leaveResult⟩
  · rw [Zs32.endCommand_with_port]
    exact Zs32.leaveLine_wentOff .offline z
  · rw [Zs32.endCommand_with_port]
    rfl

/-- The inbound queue is empty after a rejoin and after a clash: the frame that brought it about is gone with it. -/
theorem Zs32.finishFrame_of_empty (empty : z.line.inq = []) : z.finishFrame = z := by
  have same : { z with line := { z.line with inq := [] } } = z := by rw [← empty]
  rw [Zs32.finishFrame, empty]
  exact same

end Ends

/-! ### The rows of frame processing (R10, R11, R39) -/

/-- The processing of a frame by the kind of its body. -/
def FrameBody.process : FrameBody → InFrame → Zs32 → Zs32
  | .hello => processHello
  | .bye => processBye
  | .evict _ => processEvict
  | .close _ _ => processClose
  | .drop _ => processDrop
  | .openCh _ _ _ restate => if restate then processRestateOpen else processOpen
  | .claim _ _ _ _ _ restate => if restate then processRestateClaim else processClaim
  | .presence _ _ => processPresence

section Rows
variable {s : State} {f : InFrame} {rest : List InFrame} {z : Zs32} {process : Zs32 → Zs32}

theorem Zs32.processHead_fits {fits : FrameBody → Bool} {process : InFrame → Zs32 → Zs32} (onLine : z.onLine = true)
    (head : z.line.inq = f :: rest) (fit : fits f.frame.body = true) :
    z.processHead fits process = (z.checkSender f (process f)).finishFrame := by
  simp only [Zs32.processHead, head, onLine, fit, Bool.and_self, if_true]

/-- The row of its kind processes the head of the inbound queue. -/
theorem exec_row (h : s.Processes f rest) : exec f.frame.body.row s =
    .next { s with zs := (s.zs.checkSender f (f.frame.body.process f)).finishFrame } := by
  obtain ⟨awake, onLine, head⟩ := h
  have runs {fits : FrameBody → Bool} {process : InFrame → Zs32 → Zs32} (fit : fits f.frame.body = true) :
      s.run (Zs32.processHead fits process) = .next { s with zs := (s.zs.checkSender f (process f)).finishFrame } := by
    rw [State.run_awake awake, Zs32.processHead_fits onLine head fit]
  cases body : f.frame.body with
  | openCh c i n restate =>
    cases restate with
    | false => exact runs (by rw [body]; rfl)
    | true => exact runs (by rw [body]; rfl)
  | claim c p d chime zones restate =>
    cases restate with
    | false => exact runs (by rw [body]; rfl)
    | true => exact runs (by rw [body]; rfl)
  | _ => exact runs (by rw [body]; rfl)

theorem Zs32.checkSender_own (own : f.mark.isSome = true) : z.checkSender f process = process z := if_pos own

theorem Zs32.checkSender_clash (peer : f.mark = none) (mine : f.frame.sender = z.me) :
    z.checkSender f process = z.clash .received := by
  rw [Zs32.checkSender, if_neg (by rw [peer]; nofun), if_pos mine]

theorem Zs32.checkSender_hello (peer : f.mark = none) (other : f.frame.sender ≠ z.me) (hello : f.frame.body = .hello) :
    z.checkSender f process = process z := by
  rw [Zs32.checkSender, if_neg (by rw [peer]; nofun), if_neg other, if_pos (by rw [hello]; rfl)]

theorem FrameBody.kind_ne_hello {b : FrameBody} (h : b ≠ .hello) : b.kind ≠ .hello := by
  cases b with
  | hello => exact absurd rfl h
  | _ => nofun

theorem Zs32.checkSender_known (peer : f.mark = none) (other : f.frame.sender ≠ z.me) (body : f.frame.body ≠ .hello)
    (known : z.knows f.frame.sender = true) : z.checkSender f process = process (z.hearPeer f.frame.sender) := by
  rw [Zs32.checkSender, if_neg (by rw [peer]; nofun), if_neg other, if_neg (FrameBody.kind_ne_hello body), if_pos known]

theorem Zs32.checkSender_added (peer : f.mark = none) (other : f.frame.sender ≠ z.me) (body : f.frame.body ≠ .hello)
    (unknown : z.knows f.frame.sender = false) (listening : z.memb.state = .listening) :
    z.checkSender f process = process (z.addEntry f.frame.sender) := by
  rw [Zs32.checkSender, if_neg (by rw [peer]; nofun), if_neg other, if_neg (FrameBody.kind_ne_hello body),
    if_neg (Bool.eq_false_iff.1 unknown), if_pos listening]

theorem Zs32.checkSender_stranger (peer : f.mark = none) (other : f.frame.sender ≠ z.me) (body : f.frame.body ≠ .hello)
    (unknown : z.knows f.frame.sender = false) (joined : z.memb.state = .joined) :
    z.checkSender f process = z.rejoin (.resync .stranger (some f.frame.sender)) := by
  rw [Zs32.checkSender, if_neg (by rw [peer]; nofun), if_neg other, if_neg (FrameBody.kind_ne_hello body),
    if_neg (Bool.eq_false_iff.1 unknown), if_neg (by rw [joined]; nofun)]

end Rows

/-! ### The place of an entry in the roster (R37) -/

theorem insertEntry_eq (e : RosterEntry) (l : List RosterEntry) :
    insertEntry e l = (l.takeWhile fun y => !decide (e.station < y.station)) ++
      e :: l.dropWhile fun y => !decide (e.station < y.station) := by
  induction l with
  | nil => rfl
  | cons y rest ih =>
    rw [insertEntry]
    split
    · next below => simp [below]
    · next above => simp [above, ih]

theorem insertEntry_order {x : StationNo} {l : List RosterEntry}
    (sorted : l.Pairwise fun a b => a.station < b.station) (new : ∀ y ∈ l, y.station ≠ x) :
    (∀ y ∈ l.takeWhile fun y => !decide (x < y.station), y.station < x) ∧
      ∀ y ∈ l.dropWhile fun y => !decide (x < y.station), x < y.station := by
  constructor
  · intro y mem
    have notAbove : ¬ x < y.station := by simpa using List.mem_takeWhile_imp mem
    exact lt_of_le_of_ne (not_lt.1 notAbove) (new y (List.takeWhile_subset _ mem))
  · induction l with
    | nil => nofun
    | cons z rest ih =>
      obtain ⟨above, sorted⟩ := List.pairwise_cons.1 sorted
      obtain ⟨-, new⟩ := List.forall_mem_cons.1 new
      rw [List.dropWhile_cons]
      split
      · exact ih sorted new
      · next stops =>
        have below : x < z.station := by simpa using stops
        exact List.forall_mem_cons.2 ⟨below, fun y mem => below.trans (above y mem)⟩

theorem Zs32.addEntry_listening {z : Zs32} (listening : z.memb.state = .listening) (x : StationNo) :
    z.addEntry x = { z with memb := { z.memb with
      roster := (z.memb.roster.takeWhile fun y => !decide (x < y.station)) ++
        { station := x, interval := none, silence := .stopped, digest := none } ::
          z.memb.roster.dropWhile fun y => !decide (x < y.station) } } := by
  rw [Zs32.addEntry, insertEntry_eq, if_neg (by rw [listening]; nofun)]

theorem Zs32.addEntry_knows (x : StationNo) (z : Zs32) : (z.addEntry x).knows x = true :=
  List.any_eq_true.2 ⟨_, mem_insertEntry.2 (.inl rfl), decide_eq_true rfl⟩

theorem Zs32.hearPeer_of_ne {z : Zs32} (x : StationNo) (h : z.memb.state ≠ .joined) : z.hearPeer x = z := if_neg h

/-- A frame of an unknown sender in LISTENING is processed as one of a sender in the roster (R38, R39). -/
theorem exec_row_added {s : State} {f : InFrame} {rest : List InFrame} (h : s.Processes f rest) (peer : f.mark = none)
    (other : f.frame.sender ≠ s.zs.me) (body : f.frame.body ≠ .hello) (unknown : s.zs.knows f.frame.sender = false)
    (listening : s.zs.memb.state = .listening) :
    exec f.frame.body.row s = exec f.frame.body.row { s with zs := s.zs.addEntry f.frame.sender } := by
  have h' : State.Processes { s with zs := s.zs.addEntry f.frame.sender } f rest := h
  have notJoined : (s.zs.addEntry f.frame.sender).memb.state ≠ .joined := by
    rw [show (s.zs.addEntry f.frame.sender).memb.state = s.zs.memb.state from rfl, listening]
    nofun
  rw [exec_row h, exec_row h', Zs32.checkSender_added peer other body unknown listening,
    Zs32.checkSender_known (z := s.zs.addEntry f.frame.sender) peer other body (Zs32.addEntry_knows _ _),
    Zs32.hearPeer_of_ne _ notJoined]

/-- Settles O27: the read-back clash, the clash and the stranger of the sender check, and the sender that LISTENING
adds. -/
theorem clashesAndStrangers : Obligations.ClashesAndStrangers := by
  refine ⟨fun s a awake attempt stage => ?_, fun s f rest h peer => ⟨fun mine => ?_, fun other body unknown joined =>
    ⟨fun staying => ?_, fun leaving => ?_⟩⟩, fun s f rest h peer other body unknown listening => ?_⟩
  · have clashes : exec .clashReadBack s = .next { s with zs := s.zs.clash .readBack } := by
      refine (State.run_awake awake _).trans ?_
      simp only [Zs32.clashReadBack, attempt, stage, if_true]
    obtain ⟨off, notices, port⟩ := Zs32.clash_wentOff .readBack s.zs
    refine ⟨_, clashes, rfl, off, notices, fun _ => port, fun idle => ?_⟩
    rw [EndedWith, idle] at port
    exact port
  · rw [exec_row h, Zs32.checkSender_clash peer mine]
    obtain ⟨off, notices, port⟩ := Zs32.clash_wentOff .received s.zs
    rw [Zs32.finishFrame_of_empty off.1.2.2.1]
    exact ⟨_, rfl, rfl, off, notices, port⟩
  · rw [exec_row h, Zs32.checkSender_stranger peer other body unknown joined]
    obtain ⟨rejoined, receiver, port⟩ := Zs32.rejoin_rejoined staying (.resync .stranger (some f.frame.sender))
    rw [Zs32.finishFrame_of_empty rejoined.1.2.2.1]
    exact ⟨_, rfl, rfl, rejoined, receiver, port⟩
  · rw [exec_row h, Zs32.checkSender_stranger peer other body unknown joined]
    obtain ⟨off, notices, port⟩ := Zs32.rejoin_wentOff leaving (.resync .stranger (some f.frame.sender))
    rw [Zs32.finishFrame_of_empty off.1.2.2.1]
    exact ⟨_, rfl, rfl, off, notices, port⟩
  · refine ⟨_, _, fun ok => ⟨(List.takeWhile_append_dropWhile (p := fun y : RosterEntry =>
      !decide (f.frame.sender < y.station))).symm, ?_⟩, ?_⟩
    · exact insertEntry_order ok.1 ((s.zs.knows_eq_false_iff _).1 unknown)
    · rw [exec_row_added h peer other body unknown listening, Zs32.addEntry_listening listening]

end Sys2Proof.Machine
end

section
/-! The slots of a frame at the sender and at a receiver: acceptance, failure, the own veto and the eighth failed
attempt (R25 to R29, R178, R180 to R183). -/

namespace Sys2Proof.Machine

/-! ### The verdict on a received frame (R25, R176) -/

theorem receptionOf_good {bits : List Bool} {f : Frame} (ok : f.wellFormed = true) (same : bits = f.encode) :
    receptionOf bits = .good f := by
  rw [receptionOf, decodeFrame_eq_some_iff.2 ⟨ok, same⟩]
  rfl

theorem receptionOf_bad {bits : List Bool} (none : ¬ ∃ f : Frame, f.wellFormed = true ∧ bits = f.encode) :
    receptionOf bits = .bad := by
  have rejected : decodeFrame bits = .none :=
    Option.eq_none_iff_forall_ne_some.2 fun f decoded => none ⟨f, decodeFrame_eq_some_iff.1 decoded⟩
  rw [receptionOf, rejected]
  rfl

section Slots
variable {z : Zs32} {bits : List Bool}

theorem Zs32.drivesHeard_iff (reception : z.line.reception = some (receptionOf bits)) : z.drivesHeard = true ↔
    (∃ f : Frame, f.wellFormed = true ∧ bits = f.encode) ∧ z.line.inq.length < 4 := by
  by_cases passes : ∃ f : Frame, f.wellFormed = true ∧ bits = f.encode
  · obtain ⟨f, ok, same⟩ := passes
    rw [receptionOf_good ok same] at reception
    simp only [Zs32.drivesHeard, reception, decide_eq_true_eq]
    exact (and_iff_right ⟨f, ok, same⟩).symm
  · rw [receptionOf_bad passes] at reception
    simp only [Zs32.drivesHeard, reception]
    exact iff_of_false Bool.false_ne_true fun h => passes h.1

theorem Zs32.drivesVeto_iff (reception : z.line.reception = some (receptionOf bits)) : z.drivesVeto = true ↔
    ¬ ((∃ f : Frame, f.wellFormed = true ∧ bits = f.encode) ∧ z.line.inq.length < 4) := by
  by_cases passes : ∃ f : Frame, f.wellFormed = true ∧ bits = f.encode
  · obtain ⟨f, ok, same⟩ := passes
    rw [receptionOf_good ok same] at reception
    simp only [Zs32.drivesVeto, reception, decide_eq_true_eq]
    exact ⟨fun full h => Nat.not_lt.2 full h.2, fun no => Nat.not_lt.1 fun room => no ⟨⟨f, ok, same⟩, room⟩⟩
  · rw [receptionOf_bad passes] at reception
    simp only [Zs32.drivesVeto, reception]
    exact iff_of_true trivial fun h => passes h.1

end Slots

/-- Settles O28: the slots that a receiver drives, and the sender's silence in them. -/
theorem slotsAnswerTheReceivedFrame : Obligations.SlotsAnswerTheReceivedFrame := by
  intro s bits awake frame
  have received : exec (.frameReceived bits) s = .next { s with zs := s.zs.frameReceived bits } :=
    State.run_awake awake _
  refine ⟨fun idle => ?_, fun a attempt sending idle => ?_⟩
  · have taken : s.zs.frameReceived bits = { s.zs with
        line := { s.zs.line with receiver := .slots, reception := some (receptionOf bits) } } := by
      rw [Zs32.frameReceived, if_pos frame, idle]
    rw [received, taken]
    exact ⟨_, rfl, rfl, rfl, Zs32.drivesHeard_iff rfl, Zs32.drivesVeto_iff rfl⟩
  · have taken : s.zs.frameReceived bits = { s.zs with
        line := { s.zs.line with receiver := .slots, attempt := some { a with stage := .slots } } } := by
      rw [Zs32.frameReceived, if_pos frame, attempt]
      exact if_pos sending
    rw [received, taken]
    refine ⟨_, rfl, rfl, ?_, ?_⟩
    · simp only [Zs32.drivesHeard, idle]
    · simp only [Zs32.drivesVeto, idle]

/-! ### The end of the veto slot at the sender (R27, R28) -/

section OwnSlot
variable {z : Zs32} {a : Attempt} {heard veto : Bool}

theorem Zs32.vetoSlotEnd_own (slots : z.line.receiver = .slots) (attempt : z.line.attempt = some a) :
    z.vetoSlotEnd heard veto = z.ownSlotEnd a heard veto := by
  rw [Zs32.vetoSlotEnd, if_pos slots, attempt]

theorem Zs32.ownSlotEnd_dropped (dropped : a.dropped = true) :
    z.ownSlotEnd a heard veto = z.endSlots.disregardOutcome a (heard && !veto) := if_pos dropped

theorem Zs32.ownSlotEnd_accepted (kept : a.dropped = false) (accepted : heard = true ∨ z.memb.roster = []) :
    z.ownSlotEnd a heard false = z.endSlots.acceptOwn a := by
  have taken : (!false && (heard || z.memb.roster.isEmpty)) = true := by simpa using accepted
  exact (if_neg (Bool.eq_false_iff.1 kept)).trans (if_pos taken)

theorem Zs32.ownSlotEnd_failed (kept : a.dropped = false)
    (failed : veto = true ∨ (heard = false ∧ z.memb.roster ≠ [])) :
    z.ownSlotEnd a heard veto = z.endSlots.failOwn a veto := by
  have refused : ¬ (!veto && (heard || z.memb.roster.isEmpty)) = true := by
    rcases failed with veto | ⟨unheard, peers⟩
    · simp [veto]
    · simp [unheard, peers]
  exact (if_neg (Bool.eq_false_iff.1 kept)).trans (if_neg refused)

theorem Zs32.failOwn_below (below : z.line.fails < 7) : z.failOwn a veto = z.failedAttempt a veto :=
  if_pos (Nat.succ_lt_succ below)

theorem Zs32.failOwn_eighth (seven : z.line.fails = 7) : z.failOwn a veto = z.eighthFailure a veto :=
  if_neg (by rw [seven]; decide)

theorem Zs32.failedAttempt_eq (a : Attempt) (veto : Bool) (z : Zs32) : z.failedAttempt a veto = { z with
    line := { z.line with fails := z.line.fails + 1, vetoSeen := z.line.vetoSeen || veto }
    port := if a.origin = .host then { z.port with cmd := z.port.cmd.map fun e => { e with stage := .queued } }
      else z.port } := by
  rw [Zs32.failedAttempt]
  split <;> rfl

theorem Zs32.disregardOutcome_of_not_close {accepted : Bool}
    (h : (∀ c auto, a.frame.body ≠ .close c auto) ∨ accepted = false) : z.disregardOutcome a accepted = z := by
  unfold Zs32.disregardOutcome
  split
  · next c auto body => exact if_neg (by rw [h.resolve_left fun other => other c auto body]; nofun)
  · rfl

theorem Zs32.disregardOutcome_close {c : Channel} {auto : Bool} (body : a.frame.body = .close c auto) :
    z.disregardOutcome a true = z.stopDriving c := by
  simp only [Zs32.disregardOutcome, body, if_true]

theorem Zs32.stopDriving_bound {c : Channel} {i : Input} (bound : z.source.inputOf c = some i) :
    z.stopDriving c = { z with source := z.source.set i { z.source.get i with driving := none } } := by
  rw [Zs32.stopDriving, bound]
  rfl

end OwnSlot

/-- Settles O32: the failed attempt below the eighth, and the outcome of a dropped frame. -/
theorem failedAndDroppedAttempts : Obligations.FailedAndDroppedAttempts := by
  have ends {s : State} {a : Attempt} (awake : s.Awake) (slots : s.zs.line.receiver = .slots)
      (attempt : s.zs.line.attempt = some a) (heard veto : Bool) :
      exec (.vetoSlotEnd heard veto) s = .next { s with zs := s.zs.ownSlotEnd a heard veto } := by
    rw [← Zs32.vetoSlotEnd_own slots attempt]
    exact State.run_awake awake _
  refine ⟨fun s a heard veto awake slots attempt kept failed below => ?_,
    fun s a heard veto awake slots attempt dropped => ⟨fun h => ?_, fun c auto i body bound => ?_⟩⟩
  · rw [ends awake slots attempt, Zs32.ownSlotEnd_failed kept failed,
      Zs32.failOwn_below (z := s.zs.endSlots) below, Zs32.failedAttempt_eq]
    rfl
  · have over' : (∀ c auto, a.frame.body ≠ .close c auto) ∨ (heard && !veto) = false := by
      rcases h with other | unheard | vetoed
      · exact .inl other
      · exact .inr (by rw [unheard, Bool.false_and])
      · exact .inr (by rw [vetoed, Bool.not_true, Bool.and_false])
    rw [ends awake slots attempt, Zs32.ownSlotEnd_dropped dropped, Zs32.disregardOutcome_of_not_close over']
    rfl
  · rw [ends awake slots attempt, Zs32.ownSlotEnd_dropped dropped, Bool.not_false, Bool.and_self,
      Zs32.disregardOutcome_close body, Zs32.stopDriving_bound (z := s.zs.endSlots) bound]
    rfl

/-! ### The end of the veto slot at a receiver (R26, R27, R29, R178) -/

section PeerSlot
variable {z : Zs32} {r : Reception} {heard veto : Bool}

theorem Zs32.vetoSlotEnd_peer (slots : z.line.receiver = .slots) (idle : z.line.attempt = none)
    (reception : z.line.reception = some r) : z.vetoSlotEnd heard veto = z.peerSlotEnd r veto := by
  rw [Zs32.vetoSlotEnd, if_pos slots, idle, reception]

theorem Zs32.peerSlotEnd_ownVeto (reception : z.line.reception = some r) (own : r = .bad ∨ 4 ≤ z.line.inq.length) :
    z.peerSlotEnd r veto = z.endSlots.countVeto := by
  have drives : z.drivesVeto = true := by
    rw [Zs32.drivesVeto, reception]
    cases r with
    | bad => rfl
    | good f => exact decide_eq_true (own.resolve_left nofun)
  exact if_pos drives

theorem Zs32.peerSlotEnd_good {f : Frame} (reception : z.line.reception = some (.good f))
    (room : z.line.inq.length < 4) :
    z.peerSlotEnd (.good f) veto = if veto then z.endSlots else z.endSlots.acceptPeer f := by
  have silent : ¬ z.drivesVeto = true := by
    rw [Zs32.drivesVeto, reception]
    exact Bool.eq_false_iff.1 (decide_eq_false (Nat.not_le.2 room))
  exact if_neg silent

theorem Zs32.countVeto_below (below : z.line.vetoCount < 15) :
    z.countVeto = { z with line := { z.line with vetoCount := z.line.vetoCount + 1 } } :=
  if_neg (by show ¬ 16 ≤ z.line.vetoCount + 1; omega)

theorem Zs32.countVeto_sixteenth (fifteen : z.line.vetoCount = 15) :
    z.countVeto = z.rejoin (.resync .vetoLimit none) := by
  rw [← Zs32.rejoin_vetoCount (z.line.vetoCount + 1)]
  exact if_pos (by show 16 ≤ z.line.vetoCount + 1; omega)

end PeerSlot

/-- Settles O34: the own veto counted, and the sixteenth in a row. -/
theorem sixteenthOwnVetoResynchronizes : Obligations.SixteenthOwnVetoResynchronizes := by
  intro s r row awake slots idle reception own rows
  have ends : exec row s = .next { s with zs := s.zs.endSlots.countVeto } := by
    rcases rows with rfl | ⟨heard, veto, rfl⟩
    all_goals
      refine (State.run_awake awake _).trans ?_
      rw [Zs32.vetoSlotEnd_peer slots idle reception, Zs32.peerSlotEnd_ownVeto reception own]
  refine ⟨fun below => ?_, fun fifteen staying => ?_, fun fifteen leaving => ?_⟩
  · rw [ends, Zs32.countVeto_below (z := s.zs.endSlots) below]
    rfl
  · obtain ⟨rejoined, receiver, port⟩ := Zs32.rejoin_rejoined (z := s.zs.endSlots) staying (.resync .vetoLimit none)
    rw [ends, Zs32.countVeto_sixteenth (z := s.zs.endSlots) fifteen]
    exact ⟨_, rfl, rfl, rejoined, receiver, port⟩
  · obtain ⟨off, notices, port⟩ := Zs32.rejoin_wentOff (z := s.zs.endSlots) leaving (.resync .vetoLimit none)
    rw [ends, Zs32.countVeto_sixteenth (z := s.zs.endSlots) fifteen]
    exact ⟨_, rfl, rfl, off, notices, port⟩

/-! ### The eighth failed attempt (R28, R140, R180 to R182) -/

section FailedHead
variable {z u : Zs32} {a : Attempt}

/-- The frame that leaves at its eighth failed attempt takes with it the mark of the block that asked for it and no
other field of an input. -/
theorem Zs32.withoutFailedHead_source (z : Zs32) (a : Attempt) (i : Input) :
    ∃ r, (z.withoutFailedHead a).source.get i = { z.source.get i with request := r } := by
  obtain ⟨⟨cls, sender, body⟩, origin, stage, dropped⟩ := a
  cases body with
  | close c auto =>
    cases origin with
    | source j => cases i <;> cases j <;> exact ⟨_, rfl⟩
    | _ => exact ⟨_, rfl⟩
  | _ => exact ⟨_, rfl⟩

theorem Zs32.withoutFailedHead_memb (z : Zs32) (a : Attempt) :
    (z.withoutFailedHead a).memb.state = z.memb.state ∧ (z.withoutFailedHead a).memb.roster = z.memb.roster := by
  obtain ⟨⟨cls, sender, body⟩, origin, stage, dropped⟩ := a
  cases body <;> exact ⟨rfl, rfl⟩

variable (h : FailedHeadGone z u a)
include h

theorem FailedHeadGone.port : u.port = z.port := by
  obtain ⟨⟨-, -, -, -, -, -, port, -⟩, -⟩ := h
  exact port

theorem FailedHeadGone.notices : u.notices = z.notices := by
  obtain ⟨⟨-, -, -, -, -, -, -, notices, -⟩, -⟩ := h
  exact notices

theorem FailedHeadGone.clock : u.clock = z.clock := by
  obtain ⟨⟨-, clock, -⟩, -⟩ := h
  exact clock

theorem FailedHeadGone.receiver : u.line.receiver = .gap := by
  obtain ⟨⟨-, -, -, -, -, -, -, -, line, -⟩, -⟩ := h
  rw [line]
  rfl

theorem FailedHeadGone.memb : u.memb.state = z.memb.state ∧ u.memb.roster = z.memb.roster := by
  obtain ⟨⟨-, -, -, -, -, -, -, -, -, memb, -⟩, -⟩ := h
  rw [memb]
  exact z.withoutFailedHead_memb a

theorem FailedHeadGone.source (i : Input) : ∃ r, u.source.get i = { z.source.get i with request := r } := by
  obtain ⟨r, before⟩ := z.withoutFailedHead_source a i
  exact ⟨_, (GrantFrame.get h.1 i).trans (by rw [before])⟩

theorem FailedHeadGone.inputOf (c : Channel) : u.source.inputOf c = z.source.inputOf c := by
  obtain ⟨ra, inA⟩ := FailedHeadGone.source h .a
  obtain ⟨rb, inB⟩ := FailedHeadGone.source h .b
  have boundA : u.source.inA.bound = z.source.inA.bound := (congrArg InputRec.bound inA).trans rfl
  have boundB : u.source.inB.bound = z.source.inB.bound := (congrArg InputRec.bound inB).trans rfl
  rw [Source.inputOf, Source.inputOf, boundA, boundB]

theorem FailedHeadGone.pending (i : Input) : (u.source.get i).pending = (z.source.get i).pending := by
  obtain ⟨r, same⟩ := FailedHeadGone.source h i
  rw [same]

theorem FailedHeadGone.bound (i : Input) : (u.source.get i).bound = (z.source.get i).bound := by
  obtain ⟨r, same⟩ := FailedHeadGone.source h i
  rw [same]

theorem FailedHeadGone.merged (i : Input) : (u.source.get i).merged = (z.source.get i).merged := by
  obtain ⟨r, same⟩ := FailedHeadGone.source h i
  rw [same]

theorem FailedHeadGone.leaving : u.leaving = z.leaving := by rw [Zs32.leaving, FailedHeadGone.port h]; rfl

theorem FailedHeadGone.hostCloseRunning (c : Channel) : u.hostCloseRunning c = z.hostCloseRunning c := by
  rw [Zs32.hostCloseRunning, FailedHeadGone.port h]
  rfl

theorem FailedHeadGone.entry (x : StationNo) : u.entry x = z.entry x := by
  rw [Zs32.entry, (FailedHeadGone.memb h).2]
  rfl

theorem FailedHeadGone.tableCleared {z' : Zs32} (cleared : TableCleared u z') : TableCleared z z' := by
  obtain ⟨⟨rst, clock, setup, -, mixer, audio, -⟩, -⟩ := h
  exact cleared.of_same mixer setup clock rst audio

end FailedHead

section Eighth
variable {z : Zs32} {a : Attempt}

theorem Zs32.ownSlotEnd_isolated (kept : a.dropped = false) (seven : z.line.fails = 7)
    (unvetoed : z.line.vetoSeen = false) (peers : z.memb.roster ≠ []) : z.ownSlotEnd a false false =
      (z.withoutFailedHead a).grants.rejoin (.isolated a.frame.body.kind) := by
  have seen : (z.endSlots.line.vetoSeen || false) = false := by rw [Bool.or_false]; exact unvetoed
  rw [Zs32.ownSlotEnd_failed kept (.inr ⟨rfl, peers⟩), Zs32.failOwn_eighth (z := z.endSlots) seven, Zs32.eighthFailure,
    seen, Zs32.withoutFailedHead_eq]
  rfl

end Eighth

/-- Settles O35: isolation, with and without a LEAVE in execution. -/
theorem eighthUnheardAttemptIsIsolation : Obligations.EighthUnheardAttemptIsIsolation := by
  intro s a awake slots attempt kept seven unvetoed peers
  have ends : exec (.eighthFailedAttempt false false) s = .next { s with
      zs := (s.zs.withoutFailedHead a).grants.rejoin (.isolated a.frame.body.kind) } := by
    refine (State.run_awake awake _).trans ?_
    rw [Zs32.vetoSlotEnd_own slots attempt, Zs32.ownSlotEnd_isolated kept seven unvetoed peers]
  have gone := s.zs.withoutFailedHead_gone a
  refine ⟨fun staying => ⟨_, ends, rfl, ?_⟩, fun leaving => ⟨_, ends, rfl, ?_⟩⟩
  · obtain ⟨⟨cleared, state, outq, notices⟩, receiver, port⟩ := Zs32.rejoin_rejoined
      (gone.leaving.trans staying) (.isolated a.frame.body.kind)
    rw [gone.clock] at outq
    rw [gone.notices] at notices
    rw [gone.port] at port
    exact ⟨⟨gone.tableCleared cleared, state, outq, notices⟩, receiver.trans gone.receiver, port⟩
  · obtain ⟨⟨cleared, rest⟩, notices, port⟩ := Zs32.rejoin_wentOff
      (gone.leaving.trans leaving) (.isolated a.frame.body.kind)
    rw [gone.notices] at notices
    rw [gone.port] at port
    exact ⟨⟨gone.tableCleared cleared, rest⟩, notices, port⟩

section LineFault
variable {z u : Zs32} {a : Attempt}

theorem Zs32.leaveLine_lineFault (u : Zs32) :
    WentOff u ((u.leaveLine .offline).endCommand (.plain .lineFault)) .offline ∧
      ((u.leaveLine .offline).endCommand (.plain .lineFault)).notices = u.notices ∧
      EndedWith u.port ((u.leaveLine .offline).endCommand (.plain .lineFault)).port [0x10] := by
  have port : (u.leaveLine .offline).port = u.tableClear.port := rfl
  refine ⟨?_, ?_, Zs32.endCommand_cleared_port port (.plain .lineFault)⟩
  · rw [Zs32.endCommand_with_port]
    exact Zs32.leaveLine_wentOff .offline u
  · rw [Zs32.endCommand_with_port]
    rfl

/-- A line fault on a host's frame of another kind than HELLO, BYE and CLOSE (R140). -/
theorem Zs32.endCommand_lineFault (u : Zs32) :
    u.endCommand (.plain .lineFault) = { u with port := (u.endCommand (.plain .lineFault)).port } ∧
      EndedWith u.port (u.endCommand (.plain .lineFault)).port [0x10] :=
  ⟨Zs32.endCommand_with_port _ u, Zs32.endCommand_port u (.plain .lineFault)⟩

end LineFault

/-- Settles O36: the line fault by the block whose frame it was. -/
theorem eighthVetoedAttemptIsALineFault : Obligations.EighthVetoedAttemptIsALineFault := by
  intro s a heard veto awake slots attempt kept seven fault body
  have gone := s.zs.withoutFailedHead_gone a
  have ends : exec (.eighthFailedAttempt heard veto) s = .next { s with
      zs := if a.origin = .host then (s.zs.withoutFailedHead a).grants.hostLineFault a.frame.body
        else (s.zs.withoutFailedHead a).grants.ownLineFault a.frame.body a.origin } := by
    refine (State.run_awake awake _).trans ?_
    rw [Zs32.vetoSlotEnd_own slots attempt, Zs32.ownSlotEnd_lineFault kept seven fault]
  generalize (s.zs.withoutFailedHead a).grants = u at gone ends
  refine ⟨fun host leaves => ?_, _, u, ends, rfl, gone, fun host => ?_, fun membership => ?_,
    fun i c auto source close => ?_⟩
  · have off : exec (.eighthFailedAttempt heard veto) s = .next { s with
        zs := (u.leaveLine .offline).endCommand (.plain .lineFault) } := by
      rw [ends, if_pos host]
      rcases leaves with hello | bye
      · rw [show a.frame.body = .hello from hello]
        rfl
      · rw [show a.frame.body = .bye from bye]
        rfl
    obtain ⟨⟨cleared, rest⟩, notices, port⟩ := u.leaveLine_lineFault
    rw [gone.notices] at notices
    rw [gone.port] at port
    exact ⟨_, off, rfl, ⟨gone.tableCleared cleared, rest⟩, notices, port⟩
  · rw [if_pos host]
    refine ⟨fun others => ?_, fun c auto close => ?_⟩
    · have ended : u.hostLineFault body = u.endCommand (.plain .lineFault) := by
        rcases others with ⟨zones, is⟩ | ⟨c, i, n, is⟩ | ⟨c, p, d, ch, zones, is⟩ <;> rw [is] <;> rfl
      rw [ended, ← gone.port]
      exact u.endCommand_lineFault
    · rw [show a.frame.body = .close c auto from close, ← gone.port]
      obtain ⟨port, asks, quiet⟩ := Zs32.hostLineFault_close u c auto
      simp only [← gone.inputOf, ← gone.pending]
      exact ⟨port, asks, quiet⟩
  · rw [if_neg (by rw [membership]; nofun), membership]
    intro v
    have logged (k : LineKind) (x : Option StationNo) (c : Option Channel) : v k x c = u.log (.lineFault k x c) := by
      rw [Zs32.log, gone.notices]
    simp only [logged]
    refine ⟨fun is room => ?_, fun iv d is => ?_, fun c i n is => ?_, fun c p d ch zones is => ?_, fun x is => ?_⟩
    · have free : (u.log (.lineFault .hello none none)).hasRoom = true := decide_eq_true room
      rw [show a.frame.body = .hello from is, ← gone.clock]
      exact if_pos free
    · rw [show a.frame.body = .presence iv d from is]
      rfl
    · rw [show a.frame.body = .openCh c i n true from is]
      rfl
    · rw [show a.frame.body = .claim c p d ch zones true from is]
      rfl
    · rw [show a.frame.body = .evict x from is, ← gone.memb.1, ← gone.leaving]
      simp only [← gone.entry]
      exact Zs32.ownLineFault_evict u x .membership
  · rw [if_neg (by rw [source]; nofun), source, show a.frame.body = .close c auto from close, ← gone.port,
      ← gone.notices, ← gone.bound, ← gone.merged, ← gone.leaving, ← gone.hostCloseRunning]
    exact Zs32.ownLineFault_close u i c auto

end Sys2Proof.Machine
end



section
/-! The acceptance of the own frame and of a peer's, with the grants of the freed slots (R7, R9, R26, R27, R29). -/

namespace Sys2Proof.Machine

/-! ### The own frame (R27, R48, R51, R52, R74, R76) -/

/-- The membership unit at the acceptance of an own frame (R48, R51, R52). -/
def FrameBody.acceptedMemb (b : FrameBody) (z : Zs32) : Membership :=
  match b with
  | .hello => if z.memb.state = .listening then
      { z.memb with joinWindow := .running (max (z.setup.elim 0 fun p => 30 * p.interval.val) 500) }
    else z.memb
  | .presence _ _ => { z.memb with presenceQueued := false }
  | .evict x => { z.memb with evictQueued := z.memb.evictQueued.filter fun y => y ≠ x }
  | _ => z.memb

/-- The source unit at the acceptance of an own frame (R74, R76). -/
def FrameBody.acceptedSource (b : FrameBody) (z : Zs32) : Source :=
  match b with
  | .openCh c i n false => z.source.set i { z.source.get i with
      starting := some c, driving := some c
      timer := n.elim .stopped fun w => .running (100 * w.toNat) }
  | .close c _ => (z.source.inputOf c).elim z.source fun i =>
      z.source.set i { z.source.get i with driving := none }
  | _ => z.source

theorem Zs32.joinWindowMs_eq (z : Zs32) : z.joinWindowMs = max (z.setup.elim 0 fun p => 30 * p.interval.val) 500 := by
  have thirty : 3 * z.periodMs = z.setup.elim 0 fun p => 30 * p.interval.val := by
    rw [Zs32.periodMs]
    cases z.setup with
    | none => rfl
    | some p => simp only [Option.elim_some]; omega
  rw [Zs32.joinWindowMs, thirty]

theorem Zs32.acceptedEffect_eq (b : FrameBody) (z : Zs32) :
    z.acceptedEffect b = { z with memb := b.acceptedMemb z, source := b.acceptedSource z } := by
  cases b with
  | hello =>
    simp only [Zs32.acceptedEffect, FrameBody.acceptedMemb, FrameBody.acceptedSource, z.joinWindowMs_eq]
    split <;> rfl
  | openCh c i n restate =>
    cases restate with
    | true => rfl
    | false =>
      have timer : (n.elim .stopped fun w => .running (w.toNat * 100) : ExpiringTimer) =
          n.elim .stopped fun w => .running (100 * w.toNat) := by
        simp only [Nat.mul_comm]
      simp only [Zs32.acceptedEffect, FrameBody.acceptedMemb, FrameBody.acceptedSource, Zs32.onInput, InputRec.start,
        timer, Bool.false_eq_true, if_false]
  | close c auto =>
    simp only [Zs32.acceptedEffect, FrameBody.acceptedMemb, FrameBody.acceptedSource, Zs32.stopDriving]
    cases z.source.inputOf c <;> rfl
  | _ => rfl

theorem FrameBody.acceptedMemb_frame (b : FrameBody) (z : Zs32) :
    (b.acceptedMemb z).presenceTimer = z.memb.presenceTimer ∧ (b.acceptedMemb z).disagreement = z.memb.disagreement ∧
      (b.acceptedMemb z).roster = z.memb.roster ∧ (b.acceptedMemb z).state = z.memb.state := by
  cases b with
  | hello =>
    rw [FrameBody.acceptedMemb]
    split <;> exact ⟨rfl, rfl, rfl, rfl⟩
  | _ => exact ⟨rfl, rfl, rfl, rfl⟩

/-- The station at the acceptance of its own frame, before the freed slots are granted (R26, R27). -/
def Zs32.accepted (a : Attempt) (z : Zs32) : Zs32 :=
  { z with
    line := { z.line with
      outq := z.line.outq.tail, inq := z.line.inq ++ [{ frame := a.frame, mark := some a.origin }], fails := 0
      vetoSeen := false, vetoCount := 0 }
    memb := a.frame.body.acceptedMemb z
    source := a.frame.body.acceptedSource z
    port := if a.origin = .host then { z.port with cmd := z.port.cmd.map fun e => { e with stage := .inbound } }
      else z.port }

theorem Zs32.acceptOwn_eq (a : Attempt) (z : Zs32) : z.acceptOwn a = (z.accepted a).grants := by
  unfold Zs32.acceptOwn
  dsimp only
  rw [Zs32.acceptedEffect_eq, Zs32.accepted]
  congr 1
  split <;> rfl

/-- Settles O31: the acceptance of the own frame, and the grants of the free slots behind it. -/
theorem ownFrameIsAccepted : Obligations.OwnFrameIsAccepted := by
  intro s a heard awake slots attempt kept accepted memb source
  have ends : exec (.vetoSlotEnd heard false) s = .next { s with zs := (s.zs.endSlots.accepted a).grants } := by
    refine (State.run_awake awake _).trans ?_
    rw [Zs32.vetoSlotEnd_own slots attempt, Zs32.ownSlotEnd_accepted kept accepted, Zs32.acceptOwn_eq]
  have membEq : (s.zs.endSlots.accepted a).memb = memb := rfl
  have sourceEq : (s.zs.endSlots.accepted a).source = source := rfl
  have granted : GrantedTo { s.zs with memb := memb, source := source } (s.zs.endSlots.accepted a).grants
      s.zs.line.outq.tail := (s.zs.endSlots.accepted a).grants_grantedTo
  obtain ⟨-, -, setup, table, mixer, -, port, notices, line, frame, -⟩ := (s.zs.endSlots.accepted a).grants_frame
  obtain ⟨timer, disagreement, roster, state⟩ := a.frame.body.acceptedMemb_frame s.zs.endSlots
  refine ⟨_, ends, rfl, Zs32.grants_inq _, granted, Zs32.grants_fails _, Zs32.grants_vetoSeen _,
    Zs32.grants_vetoCount _, Zs32.grants_receiver _, Zs32.grants_attempt _, Zs32.grants_halt _,
    fun other => port.trans (if_neg other), fun e host cmd => ?_, ?_, ?_, ?_, table, mixer, notices, setup, ?_, ?_⟩
  · refine port.trans ((if_pos host).trans ?_)
    rw [show s.zs.endSlots.port.cmd = some e from cmd]
    rfl
  all_goals
    dsimp only
    rw [frame]
  · rfl
  · exact timer
  · exact disagreement
  · exact roster
  · exact state

/-! ### A peer's frame (R7, R9, R26, R27, R29, R76, R81) -/

/-- The station that accepted an EVICT naming it, before the slots are granted (R29). -/
def Zs32.haltedBy (f : Frame) (z : Zs32) : Zs32 :=
  let dropped : Input → InputRec := fun i => { z.source.get i with
    driving := none
    request := if (z.source.get i).request = .queued ∧ ∃ e ∈ z.line.outq, e.origin = .source i then .none
      else (z.source.get i).request }
  { z with
    line := { z.line with
      outq := [], inq := z.line.inq ++ [{ frame := f, mark := none }], halt := true, fails := 0
      vetoSeen := false, vetoCount := 0, receiver := .gap, gapBits := 0, attempt := none, reception := none }
    memb := { z.memb with presenceQueued := false, evictQueued := [] }
    source := { inA := dropped .a, inB := dropped .b }
    port := { z.port with cmd := z.port.cmd.map fun e =>
      { e with stage := if e.stage = .queued ∨ e.stage = .sending then .detached else e.stage } } }

theorem Stage.detach_eq (st : Stage) : st.detach = if st = .queued ∨ st = .sending then .detached else st := by
  cases st <;> rfl

theorem InputRec.unqueue_request (l : Line) (i : Input) (r : InputRec) : (r.unqueue (l.holdsAutoClose i)).request =
    if r.request = .queued ∧ ∃ e ∈ l.outq, e.origin = .source i then .none else r.request := by
  simp only [InputRec.unqueue, Line.holdsAutoClose_iff, and_comm]

theorem Zs32.acceptPeer_evict {f : Frame} {z : Zs32} (mine : f.body = .evict z.me) :
    z.endSlots.acceptPeer f = (z.haltedBy f).grants := by
  have detached (e : CmdExec) : ({ e with stage := e.stage.detach } : CmdExec) =
      { e with stage := if e.stage = .queued ∨ e.stage = .sending then .detached else e.stage } := by
    rw [Stage.detach_eq]
  refine (if_pos mine).trans (congrArg Zs32.grants ?_)
  simp only [Zs32.haltedBy, ← InputRec.unqueue_request, ← detached]
  rfl

theorem Zs32.acceptPeer_other {f : Frame} {z : Zs32} (other : f.body ≠ .evict z.me) :
    z.acceptPeer f = z.appendFrame f none := if_neg other

theorem Zs32.haltedBy_nothingHeld {f : Frame} {z : Zs32} (h : z.NothingHeld) : (z.haltedBy f).NothingHeld := by
  obtain ⟨presence, evict, inA, inB, restate⟩ := h
  have stays (i : Input) (unheld : (z.source.get i).request ≠ .held) :
      ((z.haltedBy f).source.get i).request ≠ .held := by
    have request : ((z.haltedBy f).source.get i).request =
        if (z.source.get i).request = .queued ∧ ∃ e ∈ z.line.outq, e.origin = .source i then .none
        else (z.source.get i).request := by
      cases i <;> rfl
    rw [request]
    split
    · nofun
    · exact unheld
  exact ⟨presence, evict, stays .a inA, stays .b inB, restate⟩

/-- Settles O33: a peer's frame accepted or vetoed, and the EVICT that names this station. -/
theorem peerFrameIsAccepted : Obligations.PeerFrameIsAccepted := by
  have ends {s : State} {f : Frame} (awake : s.Awake) (slots : s.zs.line.receiver = .slots)
      (idle : s.zs.line.attempt = none) (reception : s.zs.line.reception = some (.good f))
      (room : s.zs.line.inq.length < 4) (heard veto : Bool) : exec (.vetoSlotEnd heard veto) s = .next { s with
        zs := if veto then s.zs.endSlots else s.zs.endSlots.acceptPeer f } := by
    refine (State.run_awake awake _).trans ?_
    rw [Zs32.vetoSlotEnd_peer slots idle reception, Zs32.peerSlotEnd_good reception room]
  refine ⟨fun s f heard awake slots idle reception room => ⟨fun other => ?_, ?_⟩,
    fun s f heard awake slots idle reception room mine => ?_⟩
  · rw [ends awake slots idle reception room, if_neg Bool.false_ne_true,
      Zs32.acceptPeer_other (z := s.zs.endSlots) other]
    rfl
  · rw [ends awake slots idle reception room, if_pos rfl]
    rfl
  · intro dropped z
    have same : z = s.zs.haltedBy f := rfl
    rw [ends awake slots idle reception room, if_neg Bool.false_ne_true, Zs32.acceptPeer_evict mine, same]
    exact ⟨_, rfl, rfl, Zs32.grants_frame _, Zs32.grants_grantedTo _,
      fun nothing => Zs32.grants_of_nothingHeld (Zs32.haltedBy_nothingHeld nothing)⟩

end Sys2Proof.Machine
end

section
/-! The membership frames: HELLO, BYE, EVICT and PRESENCE at their processing (R7, R38 to R45, R55 to R58, R69, R96,
R183, R189 to R191). -/

namespace Sys2Proof.Machine

/-! ### The head of the inbound queue of a peer and of this station -/

theorem Zs32.finishFrame_of_head {z : Zs32} {f : InFrame} {rest : List InFrame} (head : z.line.inq = f :: rest) :
    z.finishFrame = { z with line := { z.line with inq := rest } } := by
  rw [Zs32.finishFrame, head, List.tail_cons]

theorem silenceMs_eq (i : Option Interval) : silenceMs i = i.elim 3000 fun i => 30 * i.val := by
  cases i with
  | none => rfl
  | some i => exact (show 3 * (i.val * 10) = 30 * i.val by omega)

/-- Hearing a peer is what the statements call a membership unit that heard from it (R39, R49). -/
theorem Zs32.hearPeer_eq (x : StationNo) (z : Zs32) : z.hearPeer x = { z with memb := z.memb.heardFrom x } := by
  rw [Zs32.hearPeer, Membership.heardFrom]
  split
  · simp only [Zs32.onEntry, RosterEntry.restart, silenceMs_eq]
  · rfl

section Rows
variable {s : State} {f : InFrame} {rest : List InFrame} {b : FrameBody} {z : Zs32}

theorem exec_own (h : s.Processes f rest) (own : f.mark ≠ none) (body : f.frame.body = b)
    (processed : b.process f s.zs = z) : exec b.row s = .next { s with zs := z.finishFrame } := by
  rw [← processed, ← body, exec_row h, Zs32.checkSender_own (Option.isSome_iff_ne_none.2 own)]

theorem exec_peer (h : s.Processes f rest) (peer : s.FromPeer f) (body : f.frame.body = b) (kind : b ≠ .hello)
    (processed : b.process f { s.zs with memb := s.zs.memb.heardFrom f.frame.sender } = z) :
    exec b.row s = .next { s with zs := z.finishFrame } := by
  obtain ⟨unmarked, other, known⟩ := peer
  rw [← processed, ← body, exec_row h, Zs32.checkSender_known unmarked other (body.trans_ne kind) known,
    Zs32.hearPeer_eq]

/-- The frame leaves the head, where its processing left the inbound queue alone (R10). -/
theorem exec_own_kept (h : s.Processes f rest) (own : f.mark ≠ none) (body : f.frame.body = b)
    (processed : b.process f s.zs = z) (inq : z.line.inq = s.zs.line.inq) :
    exec b.row s = .next { s with zs := { z with line := { z.line with inq := rest } } } := by
  rw [exec_own h own body processed, Zs32.finishFrame_of_head (inq.trans h.2.2)]

theorem exec_peer_kept (h : s.Processes f rest) (peer : s.FromPeer f) (body : f.frame.body = b) (kind : b ≠ .hello)
    (processed : b.process f { s.zs with memb := s.zs.memb.heardFrom f.frame.sender } = z)
    (inq : z.line.inq = s.zs.line.inq) :
    exec b.row s = .next { s with zs := { z with line := { z.line with inq := rest } } } := by
  rw [exec_peer h peer body kind processed, Zs32.finishFrame_of_head (inq.trans h.2.2)]

theorem exec_hello_peer (h : s.Processes f rest) (unmarked : f.mark = none) (other : f.frame.sender ≠ s.zs.me)
    (body : f.frame.body = .hello) : exec .hello s = .next { s with zs := (processHello f s.zs).finishFrame } := by
  have row := exec_row h
  rw [Zs32.checkSender_hello unmarked other body, body] at row
  exact row

end Rows

/-! ### The roster after an entry came or went (R37, R38) -/

section Roster
variable {x : StationNo} {z : Zs32}

/-- The roster entry of a station that has just been added. -/
def Membership.newEntry (m : Membership) (x : StationNo) : RosterEntry :=
  { station := x, interval := none, digest := none
    silence := if m.state = .joined then .running 3000 else .stopped }

theorem Zs32.addEntry_eq (x : StationNo) (z : Zs32) : z.addEntry x = { z with
    memb := { z.memb with roster := insertEntry (z.memb.newEntry x) z.memb.roster } } := rfl

theorem insertEntry_filter {e : RosterEntry} {l : List RosterEntry} (new : ∀ y ∈ l, y.station ≠ e.station) :
    ((insertEntry e l).filter fun y => y.station ≠ e.station) = l := by
  rw [insertEntry_eq, List.filter_append, List.filter_cons_of_neg (by simp), ← List.filter_append,
    List.takeWhile_append_dropWhile, List.filter_eq_self]
  exact fun y mem => decide_eq_true (new y mem)

theorem insertEntry_find {e : RosterEntry} {l : List RosterEntry} (new : ∀ y ∈ l, y.station ≠ e.station) :
    ((insertEntry e l).find? fun y => y.station = e.station) = some e := by
  have skipped : ((l.takeWhile fun y => !decide (e.station < y.station)).find? fun y => y.station = e.station) = none :=
    List.find?_eq_none.2 fun y mem => by simpa using new y (List.takeWhile_subset _ mem)
  rw [insertEntry_eq, List.find?_append, skipped, Option.none_or, List.find?_cons_of_pos (by simp)]

/-- What the addition of a station that is not in the roster does to it. -/
theorem Zs32.addEntry_added (new : z.knows x = false) :
    (z.addEntry x).entry x = some (z.memb.newEntry x) ∧
      ((z.addEntry x).memb.roster.filter fun e => e.station ≠ x) = z.memb.roster :=
  have new := (z.knows_eq_false_iff x).1 new
  ⟨insertEntry_find (e := z.memb.newEntry x) new, insertEntry_filter (e := z.memb.newEntry x) new⟩

theorem Zs32.knows_of_without {m : Membership} (memb : z.memb = m.without x) : z.knows x = false := by
  refine (Zs32.knows_eq_false_iff x z).2 fun e mem => ?_
  rw [memb] at mem
  exact of_decide_eq_true (List.mem_filter.1 mem).2

theorem Zs32.removeEntry_unknown (x : StationNo) (reason : LostReason) (z : Zs32) :
    (z.removeEntry x reason).knows x = false :=
  Zs32.knows_of_without (m := z.memb) (by rw [Zs32.removeEntry_removed])

end Roster

/-! ### A peer's HELLO (R40) -/

section Hello
variable {z : Zs32} {f : InFrame} {rest : List InFrame}

/-- The station once the sender of a HELLO is in the roster, before the restate generator starts. -/
def Zs32.welcomed (x : StationNo) (z : Zs32) : Zs32 := (z.addEntry x).log (.peerJoined x)

/-- The restate generator at the start of its sequence (R55). -/
def Zs32.restating (z : Zs32) : Zs32 := { z with memb := { z.memb with restateRun := true, cursor := .openStep 0 } }

theorem processHello_stranger (unmarked : f.mark = none) (new : z.knows f.frame.sender = false) : processHello f z =
    if z.memb.state = .joined ∧ z.leaving = false then (z.welcomed f.frame.sender).restating.grants
    else z.welcomed f.frame.sender := by
  rw [processHello, unmarked, Zs32.welcomed]
  simp only [new, Bool.false_eq_true, if_false, Bool.and_eq_true, decide_eq_true_eq, Bool.not_eq_true']
  rfl

theorem processHello_restarted (unmarked : f.mark = none) (known : z.knows f.frame.sender = true) : processHello f z =
    processHello f (z.removeEntry f.frame.sender .restart) := by
  have new := z.removeEntry_unknown f.frame.sender .restart
  rw [processHello, processHello, unmarked]
  simp only [known, new, Bool.false_eq_true, if_true, if_false]

end Hello

/-- Settles O37: the entry, the notice and the generator of a new peer's HELLO. -/
theorem helloAddsThePeer : Obligations.HelloAddsThePeer := by
  refine ⟨fun s f rest h unmarked body other new => ?_, zonesWhere_getLsbD⟩
  have head : s.zs.line.inq = f :: rest := h.2.2
  obtain ⟨entry, roster⟩ := Zs32.addEntry_added new
  rw [exec_hello_peer h unmarked other body, processHello_stranger unmarked new]
  by_cases starts : s.zs.memb.state = .joined ∧ s.zs.leaving = false
  · obtain ⟨joined, staying⟩ := starts
    obtain ⟨-, -, -, table, mixer, audio, port, notices, line, memb, -⟩ :=
      (s.zs.welcomed f.frame.sender).restating.grants_frame
    have granted : GrantedTo { s.zs with memb := { s.zs.memb with restateRun := true, cursor := .openStep 0 } }
        (s.zs.welcomed f.frame.sender).restating.grants s.zs.line.outq :=
      (s.zs.welcomed f.frame.sender).restating.grants_grantedTo
    rw [if_pos ⟨joined, staying⟩]
    refine ⟨_, rfl, rfl, ?_, ?_, ?_, ?_, notices, table, mixer, port, audio, ?_, fun no => ?_, fun _ _ => granted⟩
    · rw [Zs32.finishFrame, line]
      exact congrArg List.tail head
    · rw [Zs32.finishFrame, Zs32.knows, memb]
      exact Zs32.addEntry_knows _ _
    · rw [Zs32.finishFrame, Zs32.entry, memb]
      exact entry
    · rw [Zs32.finishFrame, memb]
      exact roster
    · rw [Zs32.finishFrame, memb]
      rfl
    · rw [joined, staying] at no
      obtain no | no := no
      · cases no
      · cases no
  · rw [if_neg starts]
    refine ⟨_, rfl, rfl, congrArg List.tail head, Zs32.addEntry_knows _ _, entry, roster, rfl, rfl, rfl, rfl, rfl, rfl,
      fun _ => ⟨rfl, rfl, rfl, rfl⟩, fun joined staying => absurd ⟨joined, staying⟩ starts⟩

/-! ### Peers that leave the roster (R42, R44) -/

section Leaving
variable {z u u' : Zs32} {x : StationNo} {reason : LostReason} {log : NoticeLog} {f : InFrame} {rest : List InFrame}

/-- A purge speaks of the claim table and the outputs only. -/
theorem PurgedAndLost.of_same (h : PurgedAndLost z u x reason log) (table : u'.table = u.table)
    (mixer : u'.mixer = u.mixer) : PurgedAndLost z u' x reason log := by
  simp only [PurgedAndLost, Compared, OutputsTold, LeadsCompared, comparedNotices] at h ⊢
  rw [table, mixer]
  exact h

/-- The removal of an entry as the processing of the frame at the head (R38). -/
theorem Zs32.removeEntry_peerRemoved (head : z.line.inq = f :: rest) (m : Membership) (x : StationNo)
    (reason : LostReason) : let u := (Zs32.removeEntry x reason { z with memb := m }).finishFrame
    PeerRemoved z u m x reason rest ∧ u.knows x = false := by
  have purged : PurgedAndLost z _ x reason _ := Zs32.removeEntry_purgedAndLost x reason { z with memb := m }
  have frame := Zs32.removeEntry_removed x reason { z with memb := m }
  refine ⟨⟨purged.of_same rfl rfl, ?_⟩, Zs32.removeEntry_unknown x reason { z with memb := m }⟩
  refine (Zs32.finishFrame_of_head (f := f) (rest := rest) (by rw [frame]; exact head)).trans ?_
  rw [frame]
  rfl

theorem processEvict_known (body : f.frame.body = .evict x) (other : x ≠ z.me) (known : z.knows x = true) :
    processEvict f z = z.removeEntry x .evict := by
  rw [processEvict, body]
  exact (if_neg other).trans (if_pos known)

theorem processEvict_unknown (body : f.frame.body = .evict x) (other : x ≠ z.me) (unknown : z.knows x = false) :
    processEvict f z = z := by
  rw [processEvict, body]
  exact (if_neg other).trans (if_neg (Bool.eq_false_iff.1 unknown))

theorem processEvict_self (body : f.frame.body = .evict x) (self : x = z.me) :
    processEvict f z = z.rejoin (.evicted f.frame.sender) := by
  rw [processEvict, body]
  exact if_pos self

theorem Membership.heardFrom_knows (z : Zs32) (x y : StationNo) :
    Zs32.knows y { z with memb := z.memb.heardFrom x } = z.knows y := by
  rw [← Zs32.hearPeer_eq, Zs32.hearPeer]
  split
  · simp only [Zs32.knows, Zs32.onEntry, List.any_map]
    congr 1
    funext e
    simp only [Function.comp_apply]
    split
    · rfl
    · rfl
  · rfl

theorem processBye_known (unmarked : f.mark = none) (known : z.knows f.frame.sender = true) :
    processBye f z = z.removeEntry f.frame.sender .bye := by
  rw [processBye, if_neg (by rw [unmarked]; nofun), if_pos known]

/-- A peer that restarted, at its HELLO: what the removal of its old entry left, with the new entry in the roster. -/
theorem Zs32.welcomed_finishFrame (removed : u = { z with
      memb := z.memb.without x, table := u.table, mixer := u.mixer, notices := u.notices })
    (head : z.line.inq = f :: rest) : (u.welcomed x).finishFrame = { z with
      line := { z.line with inq := rest }
      memb := { z.memb.without x with roster := (u.welcomed x).memb.roster }
      table := (u.welcomed x).table, mixer := (u.welcomed x).mixer, notices := (u.welcomed x).notices } := by
  have line : u.line = z.line := by rw [removed]
  rw [Zs32.finishFrame_of_head (f := f) (rest := rest) (line ▸ head), show (u.welcomed x).line = z.line from line,
    removed]
  rfl

theorem GrantFrame.finishFrame (h : GrantFrame z u) : GrantFrame z.finishFrame u.finishFrame := by
  obtain ⟨rst, clock, setup, table, mixer, audio, port, notices, line, memb, inA, inB⟩ := h
  refine ⟨rst, clock, setup, table, mixer, audio, port, notices, ?_, memb, inA, inB⟩
  rw [Zs32.finishFrame, line]
  rfl

/-- The restart branch of a HELLO, as the obligation says it (R40, R55). -/
theorem exec_hello_restarted {s : State} (h : s.Processes f rest) (peer : s.FromPeer f) (body : f.frame.body = .hello) :
    ∃ u : Zs32, u = { s.zs with memb := s.zs.memb.without f.frame.sender
                                table := u.table, mixer := u.mixer, notices := u.notices } ∧
      u.knows f.frame.sender = false ∧ PurgedAndLost s.zs u f.frame.sender .restart u.notices ∧
      exec .hello s = .next { s with zs :=
        if s.zs.memb.state = .joined ∧ s.zs.leaving = false then
          (u.welcomed f.frame.sender).restating.grants.finishFrame
        else (u.welcomed f.frame.sender).finishFrame } := by
  have removed := s.zs.removeEntry_removed f.frame.sender .restart
  have new := s.zs.removeEntry_unknown f.frame.sender .restart
  refine ⟨_, removed, new, s.zs.removeEntry_purgedAndLost f.frame.sender .restart, ?_⟩
  rw [exec_hello_peer h peer.1 peer.2.1 body, processHello_restarted peer.1 peer.2.2, processHello_stranger peer.1 new,
    apply_ite Zs32.finishFrame]
  generalize s.zs.removeEntry f.frame.sender .restart = u at removed
  have state : u.memb.state = s.zs.memb.state := by rw [removed]; rfl
  have leaving : u.leaving = s.zs.leaving := by rw [removed]; rfl
  rw [state, leaving]

/-- Settles O38: the purge of a peer that says BYE, is evicted or has restarted. -/
theorem peersLeaveWithAPurge : Obligations.PeersLeaveWithAPurge := by
  refine ⟨fun s f rest x h peer known => ⟨fun body sender => ?_, fun body other third => ?_, fun body sender => ?_⟩,
    fun s f rest x h own body other => ⟨fun known => ?_, fun unknown => ?_⟩⟩
  · subst sender
    obtain ⟨removed, gone⟩ := Zs32.removeEntry_peerRemoved h.2.2 (s.zs.memb.heardFrom _) f.frame.sender .bye
    exact ⟨_, exec_peer h peer body nofun (processBye_known peer.1 ((Membership.heardFrom_knows _ _ _).trans known)),
      rfl, removed, gone⟩
  · obtain ⟨removed, gone⟩ := Zs32.removeEntry_peerRemoved h.2.2 (s.zs.memb.heardFrom f.frame.sender) x .evict
    exact ⟨_, exec_peer h peer body nofun
      (processEvict_known body other ((Membership.heardFrom_knows _ _ _).trans known)), rfl, removed, gone⟩
  · subst sender
    obtain ⟨u, removed, new, purged, ran⟩ := exec_hello_restarted h peer body
    obtain ⟨entry, roster⟩ := Zs32.addEntry_added new
    have before := Zs32.welcomed_finishFrame removed h.2.2
    have state : u.memb.state = s.zs.memb.state := by rw [removed]; rfl
    have others : u.memb.roster = (s.zs.memb.without f.frame.sender).roster := by rw [removed]
    have queue : u.line.outq = s.zs.line.outq := by rw [removed]
    rw [others] at roster
    rw [Membership.newEntry, state] at entry
    by_cases starts : s.zs.memb.state = .joined ∧ s.zs.leaving = false
    · rw [if_pos starts] at ran
      have frame := (u.welcomed f.frame.sender).restating.grants_frame.finishFrame
      have granted := (u.welcomed f.frame.sender).restating.grants_grantedTo
      obtain ⟨-, -, -, table, mixer, -, -, notices, -, memb, -⟩ := id frame
      refine ⟨_, u.notices, ran, rfl, purged.of_same table mixer, notices, ?_, ?_, fun no => ?_, fun _ _ => ?_⟩
      · rw [Zs32.entry, memb]
        exact entry
      · rw [memb]
        exact roster
      · obtain no | no := no
        · exact absurd starts.1 no
        · exact absurd no (by rw [starts.2]; nofun)
      · have both : GrantFrame (u.welcomed f.frame.sender).finishFrame.restating _ ∧
            GrantedTo (u.welcomed f.frame.sender).finishFrame.restating _ s.zs.line.outq :=
          ⟨frame, queue ▸ granted⟩
        have roster := congrArg Membership.roster memb
        rw [before] at both
        dsimp only
        rw [table, mixer, notices, roster]
        exact both
    · rw [if_neg starts] at ran
      exact ⟨_, u.notices, ran, rfl, purged.of_same rfl rfl, rfl, entry, roster, fun _ => before,
        fun joined staying => absurd ⟨joined, staying⟩ starts⟩
  · obtain ⟨removed, gone⟩ := Zs32.removeEntry_peerRemoved h.2.2 s.zs.memb x .evict
    exact ⟨_, exec_own h own body (processEvict_known body other known), rfl, removed, gone⟩
  · exact exec_own_kept h own body (processEvict_unknown body other unknown) rfl

end Leaving

end Sys2Proof.Machine
end

section
/-! This station's own membership frames, the EVICT that names it, and PRESENCE (R41 to R45, R128, R130, R189, R191). -/

namespace Sys2Proof.Machine

/-! ### The own HELLO and BYE, and the EVICT of this station (R41, R42, R44, R45) -/

section Own
variable {z : Zs32} {f : InFrame}

theorem processHello_host (own : f.mark = some .host) : processHello f z = z.endCommand (.plain .done) := by
  rw [processHello, own]

theorem processHello_membership (own : f.mark = some .membership) : processHello f z = z := by
  rw [processHello, own]

theorem processBye_own (own : f.mark = some .host) :
    processBye f z = (z.leaveLine .offline).endCommand (.plain .done) := by
  rw [processBye, if_pos (by rw [own]; rfl)]

/-- The LEAVE ends with table clear and OFFLINE, and its result is DONE (R42, R130). -/
theorem Zs32.leaveLine_ended (z : Zs32) : let u := (z.leaveLine .offline).endCommand (.plain .done)
    WentOff z u .offline ∧ u.notices = z.notices ∧ EndedWith z.port u.port [0x00] := by
  refine ⟨?_, ?_, Zs32.endCommand_cleared_port (w := z.leaveLine .offline) rfl _⟩
  · rw [Zs32.endCommand_with_port]
    exact Zs32.leaveLine_wentOff .offline z
  · rw [Zs32.endCommand_with_port]
    rfl

end Own

/-- Settles O39: the own HELLO and BYE, and an EVICT of this station or of a stranger. -/
theorem ownHelloByeAndEvict : Obligations.OwnHelloByeAndEvict := by
  refine ⟨fun s f rest h own => ⟨fun body => ?_, fun body => ?_⟩, fun s f rest h own body => ?_,
    fun s f rest x h peer body => ⟨fun self staying => ?_, fun self leaving => ?_, fun other unknown => ?_⟩⟩
  · refine ⟨_, exec_own h (by rw [own]; nofun) body (processHello_host own), rfl, ?_, s.zs.endCommand_port _⟩
    rw [Zs32.endCommand_with_port]
    exact Zs32.finishFrame_of_head (z := { s.zs with port := _ }) h.2.2
  · obtain ⟨off, notices, port⟩ := s.zs.leaveLine_ended
    refine ⟨_, exec_own h (by rw [own]; nofun) body (processBye_own own), rfl, ?_⟩
    rw [Zs32.finishFrame_of_empty off.1.2.2.1]
    exact ⟨off, notices, port⟩
  · exact exec_own_kept h (by rw [own]; nofun) body (processHello_membership own) rfl
  · obtain ⟨rejoined, receiver, port⟩ := Zs32.rejoin_rejoined
      (z := { s.zs with memb := s.zs.memb.heardFrom f.frame.sender }) staying (.evicted f.frame.sender)
    refine ⟨_, exec_peer h peer body nofun (processEvict_self body self), rfl, ?_⟩
    rw [Zs32.finishFrame_of_empty rejoined.1.2.2.1]
    exact ⟨rejoined, receiver, port⟩
  · obtain ⟨off, notices, port⟩ := Zs32.rejoin_wentOff
      (z := { s.zs with memb := s.zs.memb.heardFrom f.frame.sender }) leaving (.evicted f.frame.sender)
    refine ⟨_, exec_peer h peer body nofun (processEvict_self body self), rfl, ?_⟩
    rw [Zs32.finishFrame_of_empty off.1.2.2.1]
    exact ⟨off, notices, port⟩
  · exact exec_peer_kept h peer body nofun
      (processEvict_unknown body other ((Membership.heardFrom_knows _ _ _).trans unknown)) rfl

/-! ### PRESENCE (R43, R189 to R191) -/

section Presence
variable {z : Zs32} {f : InFrame} {iv : Interval} {d : Digest} {x : StationNo}

theorem Zs32.compareDigest_equal (equal : d = z.table.digest) :
    z.compareDigest x d = { z with memb := { z.memb with disagreement := none } } := if_pos equal

theorem Zs32.compareDigest_again {y : StationNo} (differs : d ≠ z.table.digest)
    (recorded : z.memb.disagreement = some (y, d)) (other : y ≠ x) :
    z.compareDigest x d = z.rejoin (.resync .diverged (some x)) := by
  rw [Zs32.compareDigest, if_neg differs, recorded]
  exact if_pos (by simpa using other)

theorem Zs32.compareDigest_first (differs : d ≠ z.table.digest)
    (only : ∀ y, z.memb.disagreement = some (y, d) → y = x) : z.compareDigest x d = { z with
      memb := { z.memb with disagreement := some (x, d) }
      notices := z.notices.log (.digestMismatch x d) } := by
  have single : ¬ (z.memb.disagreement.any fun r => decide (r.1 ≠ x) && decide (r.2 = d)) = true := by
    rw [Option.any_eq_true]
    rintro ⟨⟨y, e⟩, recorded, same⟩
    obtain ⟨other, rfl⟩ : y ≠ x ∧ e = d := by simpa using same
    exact other (only y recorded)
  rw [Zs32.compareDigest, if_neg differs, if_neg single]
  rfl

/-- The roster once the PRESENCE of station x, with its interval and digest, is recorded (R43). -/
def Membership.recorded (m : Membership) (x : StationNo) (iv : Interval) (d : Digest) : Membership :=
  { m with roster := m.roster.map fun e =>
      if e.station = x then { e with interval := some iv, digest := some d } else e }

/-- The roster once the silence timer of station x, whose PRESENCE is recorded, restarts besides (R43, R49). -/
def Membership.present (m : Membership) (x : StationNo) (iv : Interval) (d : Digest) : Membership :=
  { m with roster := m.roster.map fun e =>
      if e.station = x then { e with interval := some iv, digest := some d, silence := .running (30 * iv.val) } else e }

theorem Membership.heardFrom_recorded {m : Membership} (joined : m.state = .joined) :
    ((m.heardFrom x).recorded x iv d).heardFrom x = m.present x iv d := by
  have state : ((m.heardFrom x).recorded x iv d).state = .joined := by
    rw [Membership.heardFrom, if_pos joined]
    exact joined
  rw [Membership.heardFrom, if_pos state, Membership.heardFrom, if_pos joined, Membership.present]
  simp only [Membership.recorded, List.map_map]
  congr 2
  funext e
  by_cases same : e.station = x
  · simp [same]
  · simp [same]

theorem processPresence_own (own : f.mark ≠ none) : processPresence f z = z := by
  rw [processPresence]
  split
  · next unmarked _ => exact absurd unmarked own
  · rfl

theorem processPresence_listening (unmarked : f.mark = none) (body : f.frame.body = .presence iv d)
    (listening : z.memb.state = .listening) :
    processPresence f z = { z with memb := z.memb.recorded f.frame.sender iv d } := by
  rw [processPresence, unmarked, body]
  exact if_neg (by rw [show (z.onEntry f.frame.sender _).memb.state = z.memb.state from rfl, listening]; nofun)

theorem processPresence_joined (unmarked : f.mark = none) (body : f.frame.body = .presence iv d)
    (joined : z.memb.state = .joined) :
    processPresence f { z with memb := z.memb.heardFrom f.frame.sender } =
      Zs32.compareDigest f.frame.sender d { z with memb := z.memb.present f.frame.sender iv d } := by
  have state : (z.memb.heardFrom f.frame.sender).state = .joined := by
    rw [Membership.heardFrom, if_pos joined]
    exact joined
  rw [processPresence, unmarked, body, ← Membership.heardFrom_recorded joined]
  refine (if_pos state).trans ?_
  rw [Zs32.hearPeer_eq]
  rfl

end Presence

/-- Settles O40: a PRESENCE in LISTENING, one in JOINED with its comparison, and the own one. -/
theorem presenceIsRecordedAndCompared : Obligations.PresenceIsRecordedAndCompared := by
  refine ⟨fun s f rest iv d h peer body listening => ?_, fun s f rest iv d h peer body joined =>
    ⟨fun equal => ?_, fun differs only => ?_, fun x differs recorded other => ⟨fun staying => ?_, fun leaving => ?_⟩⟩,
    fun s f rest iv d h own body => ?_⟩
  · have still : s.zs.memb.heardFrom f.frame.sender = s.zs.memb := if_neg (by rw [listening]; nofun)
    have processed : processPresence f { s.zs with memb := s.zs.memb.heardFrom f.frame.sender } =
        { s.zs with memb := s.zs.memb.recorded f.frame.sender iv d } := by
      rw [still]
      exact processPresence_listening peer.1 body listening
    exact exec_peer_kept h peer body nofun processed rfl
  · exact exec_peer_kept h peer body nofun
      ((processPresence_joined peer.1 body joined).trans (Zs32.compareDigest_equal equal)) rfl
  · exact exec_peer_kept h peer body nofun
      ((processPresence_joined peer.1 body joined).trans (Zs32.compareDigest_first differs only)) rfl
  · obtain ⟨rejoined, -, port⟩ := Zs32.rejoin_rejoined
      (z := { s.zs with memb := s.zs.memb.present f.frame.sender iv d }) staying
      (.resync .diverged (some f.frame.sender))
    refine ⟨_, exec_peer h peer body nofun ((processPresence_joined peer.1 body joined).trans
      (Zs32.compareDigest_again differs recorded other)), rfl, ?_⟩
    rw [Zs32.finishFrame_of_empty rejoined.1.2.2.1]
    exact ⟨rejoined, port⟩
  · obtain ⟨off, notices, port⟩ := Zs32.rejoin_wentOff
      (z := { s.zs with memb := s.zs.memb.present f.frame.sender iv d }) leaving
      (.resync .diverged (some f.frame.sender))
    refine ⟨_, exec_peer h peer body nofun ((processPresence_joined peer.1 body joined).trans
      (Zs32.compareDigest_again differs recorded other)), rfl, ?_⟩
    rw [Zs32.finishFrame_of_empty off.1.2.2.1]
    exact ⟨off, notices, port⟩
  · exact exec_own_kept h own body (processPresence_own own) rfl

end Sys2Proof.Machine
end

section
/-! The channel frames: OPEN, restate OPEN and CLOSE at their processing (R61 to R63, R67, R68, R75, R77, R81, R97 to
R105, R116, R132). -/

namespace Sys2Proof.Machine

/-! ### What a processed frame leaves alone -/

/-- A processing that ends in new tables, outputs and notices. -/
theorem ProcessedWith.of_frame {z u : Zs32} {f : InFrame} {rest : List InFrame} (frame : u = { z with
      memb := z.memb.heardFrom f.frame.sender, table := u.table, mixer := u.mixer, notices := u.notices }) :
    ProcessedWith z { u with line := { u.line with inq := rest } } f rest := by
  rw [frame]
  exact ⟨rfl, rfl, rfl, rfl, rfl, rfl, rfl, rfl⟩

theorem Zs32.setChannel_channel (c k : Channel) (r : ChannelRec) (z : Zs32) :
    (z.setChannel c r).table.channels[k] = if k = c then r else z.table.channels[k] := by
  rw [Zs32.setChannel, Zs32.setTables_channels, Channel.getElem_set]
  simp only [@eq_comm _ c]

theorem Zs32.onInput_get (i : Input) (f : InputRec → InputRec) (z : Zs32) :
    (z.onInput i f).source.get i = f (z.source.get i) := by
  cases i with
  | a => rfl
  | b => rfl

/-! ### OPEN (R61, R75) -/

section Open
variable {z : Zs32} {f : InFrame} {c : Channel} {i : Input} {n : Option TimedLength} {restate : Bool} {x : StationNo}

theorem processOpen_peer_free (peer : f.mark = none) (body : f.frame.body = .openCh c i n restate)
    (free : z.table.channels[c].owner = none) :
    processOpen f z = z.setChannel c (ChannelRec.opened f.frame.sender n) := by
  simp only [processOpen, body, free]
  exact if_neg (by rw [peer]; nofun)

theorem processOpen_peer_owned (peer : f.mark = none) (body : f.frame.body = .openCh c i n restate)
    (owned : z.table.channels[c].owner = some x) : processOpen f z = z := by
  simp only [processOpen, body, owned]
  exact if_neg (by rw [peer]; nofun)

theorem processOpen_own_free (own : f.mark = some .host) (body : f.frame.body = .openCh c i n restate)
    (free : z.table.channels[c].owner = none) : processOpen f z =
      ((z.setChannel c (ChannelRec.opened f.frame.sender n)).onInput i InputRec.bind).endCommand (.opened c) := by
  simp only [processOpen, body, free]
  exact if_pos (by rw [own]; rfl)

theorem processOpen_own_owned (own : f.mark = some .host) (body : f.frame.body = .openCh c i n restate)
    (owned : z.table.channels[c].owner = some x) : processOpen f z =
      (z.onInput i InputRec.unstart).endCommand
        (.plain (if x = f.frame.sender then .alreadyOwned else .channelTaken)) := by
  simp only [processOpen, body, owned]
  exact if_pos (by rw [own]; rfl)

theorem processRestateOpen_free (body : f.frame.body = .openCh c i n restate)
    (free : z.table.channels[c].owner = none) :
    processRestateOpen f z = (z.setChannel c (ChannelRec.restated f.frame.sender n)).channelLive c := by
  simp only [processRestateOpen, body, free]

theorem processRestateOpen_owned (body : f.frame.body = .openCh c i n restate)
    (owned : z.table.channels[c].owner = some x) : processRestateOpen f z = z := by
  simp only [processRestateOpen, body, owned]

/-- The result of an own OPEN that was refused at its processing (R61). -/
theorem bytes_openRefused (x y : StationNo) :
    (Result.plain (if x = y then .alreadyOwned else .channelTaken)).bytes = [if x = y then 0x0D else 0x0C] := by
  split
  · rfl
  · rfl

end Open

/-- Settles O41: fresh and restate OPENs of peers and of this station, by the record of their channel. -/
theorem openFramesByChannelRecord : Obligations.OpenFramesByChannelRecord := by
  refine ⟨fun s f rest c i n h body => ⟨fun peer => ?_, fun own => ?_⟩,
    fun s f rest c i n h body => ⟨fun peer => ?_, fun own x owned => ?_⟩⟩
  · cases owner : s.zs.table.channels[c].owner with
    | none =>
      refine ⟨_, exec_peer_kept h peer body nofun (processOpen_peer_free peer.1 body owner) rfl, rfl,
        .of_frame rfl, rfl, rfl, rfl, rfl, nofun, fun _ k => Zs32.setChannel_channel _ _ _ _⟩
    | some y =>
      exact ⟨_, exec_peer_kept h peer body nofun (processOpen_peer_owned peer.1 body owner) rfl, rfl, .of_frame rfl,
        rfl, rfl, rfl, rfl, fun _ _ => rfl, nofun⟩
  · cases owner : s.zs.table.channels[c].owner with
    | none =>
      have ran := exec_own_kept h (by rw [own]; nofun) body
        ((processOpen_own_free own body owner).trans (Zs32.endCommand_with_port _ _)) rfl
      refine ⟨_, ran, rfl, rfl, rfl, rfl, rfl, fun _ => ⟨?_, ?_, ?_⟩, nofun⟩
      · exact (Zs32.setChannel_channel _ _ _ _).trans (if_pos rfl)
      · exact Zs32.onInput_get i InputRec.bind s.zs
      · exact Zs32.endCommand_port
          ((s.zs.setChannel c (ChannelRec.opened f.frame.sender n)).onInput i InputRec.bind) (.opened c)
    | some y =>
      have ran := exec_own_kept h (by rw [own]; nofun) body
        ((processOpen_own_owned own body owner).trans (Zs32.endCommand_with_port _ _)) rfl
      refine ⟨_, ran, rfl, rfl, rfl, rfl, rfl, nofun, fun x is => ⟨rfl, ?_⟩⟩
      obtain rfl := Option.some.inj is
      rw [← bytes_openRefused]
      exact Zs32.endCommand_port (s.zs.onInput i InputRec.unstart) _
  · cases owner : s.zs.table.channels[c].owner with
    | none =>
      refine ⟨_, exec_peer_kept h peer body nofun (processRestateOpen_free body owner) rfl, rfl,
        .of_frame rfl, rfl, rfl, rfl, nofun, fun _ => ⟨fun k => Zs32.setChannel_channel _ _ _ _,
          fun o => (tabulate_get _ o).trans ?_⟩⟩
      rfl
    | some y =>
      exact ⟨_, exec_peer_kept h peer body nofun (processRestateOpen_owned body owner) rfl, rfl, .of_frame rfl, rfl,
        rfl, rfl, fun _ _ => ⟨rfl, rfl⟩, nofun⟩
  · exact exec_own_kept h own body (processRestateOpen_owned body owned) rfl

/-! ### CLOSE (R67, R68, R77, R81) -/

section Close
variable {z u : Zs32} {f : InFrame} {c : Channel} {auto : Bool}

/-- The comparison of a processing that keeps the lead marks (R97 to R105). -/
theorem ComparesWith.compared (h : ComparesWith z u) (leads : u.table.leads = z.table.leads)
    (notices : u.notices = z.notices) (cause : ZoneCause) :
    let w := u.compare (CompareContext.plain cause)
    Compared cause z w ∧ w.notices = loggedAll z.notices (comparedNotices (CompareContext.plain cause) z w) :=
  ⟨⟨Zs32.compare_outputsTold h _, Zs32.compare_leadsCompared h leads _⟩,
    notices ▸ Zs32.compare_notices h leads _⟩

/-- The tables of the station once channel c has been closed and compared (R67, R68, R97). -/
def Zs32.closed (c : Channel) (z : Zs32) : Zs32 :=
  (z.takeComparison.endOwnership c).compare (CompareContext.plain .closed)

theorem Zs32.closed_frame (c : Channel) (z : Zs32) : z.closed c =
    { z with table := (z.closed c).table, mixer := (z.closed c).mixer, notices := (z.closed c).notices } :=
  (z.takeComparison.endOwnership c).compare_frame (CompareContext.plain .closed)

theorem Zs32.closed_channel (c k : Channel) (z : Zs32) : (z.closed c).table.channels[k] =
    if k = c then ChannelRec.drained else z.table.channels[k] := by
  rw [Zs32.closed, Zs32.compare_table_channels, Zs32.endOwnership_channels, Channel.getElem_set]
  simp only [@eq_comm _ c, Zs32.takeComparison_table_channels]

theorem Zs32.closed_zone (c : Channel) (z : Zs32) (k : Zone) : (z.closed c).table.zones[k] =
    z.table.zones[k].filter fun cl => cl.channel ≠ c := by
  rw [Zs32.closed, Zs32.compare_table_zones, Zs32.endOwnership_zone, Zs32.takeComparison_table_zones]

theorem Zs32.closed_digest (c : Channel) (z : Zs32) :
    (z.closed c).table.digest = digestOf (z.closed c).table.channels (z.closed c).table.zones := by
  simp only [Zs32.closed, Zs32.compare_table_digest, Zs32.compare_table_channels, Zs32.compare_table_zones]
  rfl

theorem Zs32.closed_compared (c : Channel) (z : Zs32) : Compared .closed z (z.closed c) ∧
    (z.closed c).notices =
      loggedAll z.notices (comparedNotices (CompareContext.plain .closed) z (z.closed c)) :=
  (z.endOwnership_comparesWith c).compared rfl rfl .closed

theorem processClose_owner (body : f.frame.body = .close c auto)
    (owned : z.table.channels[c].owner = some f.frame.sender) : processClose f z =
      f.mark.elim (z.closed c) fun origin => (z.closed c).ownCloseTaken c origin (z.source.inputOf c) := by
  simp only [processClose, body]
  exact if_pos owned

theorem processClose_other (peer : f.mark = none) (body : f.frame.body = .close c auto)
    (other : z.table.channels[c].owner ≠ some f.frame.sender) : processClose f z = z := by
  simp only [processClose, body]
  rw [if_neg other, peer]
  rfl

end Close

/-- Settles O42: a CLOSE of a peer that owns the channel, and of one that does not. -/
theorem closeDrainsTheChannelWithItsClaims : Obligations.CloseDrainsTheChannelWithItsClaims := by
  intro s f rest c auto h peer body
  by_cases owned : s.zs.table.channels[c].owner = some f.frame.sender
  · have processed := processClose_owner (z := { s.zs with memb := s.zs.memb.heardFrom f.frame.sender }) body owned
    have frame := Zs32.closed_frame c { s.zs with memb := s.zs.memb.heardFrom f.frame.sender }
    have channel k := Zs32.closed_channel c k { s.zs with memb := s.zs.memb.heardFrom f.frame.sender }
    have zone := Zs32.closed_zone c { s.zs with memb := s.zs.memb.heardFrom f.frame.sender }
    have digest := Zs32.closed_digest c { s.zs with memb := s.zs.memb.heardFrom f.frame.sender }
    have both := Zs32.closed_compared c { s.zs with memb := s.zs.memb.heardFrom f.frame.sender }
    rw [peer.1, Option.elim_none] at processed
    generalize Zs32.closed c { s.zs with memb := s.zs.memb.heardFrom f.frame.sender } = w at *
    exact ⟨_, exec_peer_kept h peer body nofun processed (by rw [frame]), rfl, .of_frame frame,
      fun other => absurd owned other, fun _ => ⟨channel, zone, digest, both⟩⟩
  · exact ⟨_, exec_peer_kept h peer body nofun (processClose_other peer.1 body owned) rfl, rfl, .of_frame rfl,
      fun _ => ⟨rfl, rfl, rfl⟩, fun own => absurd own owned⟩

end Sys2Proof.Machine
end

section
/-! The own CLOSE: the release of its input and the command that ends with it (R67, R77, R81). -/

namespace Sys2Proof.Machine

section OwnClose
variable {z : Zs32} {c : Channel} {i : Input} {r : Result}

theorem Source.set_get (s : Source) (i : Input) : s.set i (s.get i) = s := by
  cases i with
  | a => rfl
  | b => rfl

/-- The input without a merged command (R81). -/
def InputRec.unmerge (r : InputRec) : InputRec := { r with merged := false }

/-- After `endMerged` no command is merged with the input; the command that was ends (R81). -/
theorem Zs32.endMerged_eq (i : Input) (r : Result) (z : Zs32) : z.endMerged i r =
    { z.onInput i InputRec.unmerge with port := (z.endMerged i r).port } := by
  rw [Zs32.endMerged]
  split
  · rw [Zs32.endCommand_with_port]
    rfl
  · next apart =>
    have same : (z.source.get i).unmerge = z.source.get i := by
      rw [InputRec.unmerge, ← Bool.eq_false_iff.2 apart]
    rw [Zs32.onInput, same, Source.set_get]

theorem Zs32.endMerged_merged (merged : (z.source.get i).merged = true) :
    EndedWith z.port (z.endMerged i r).port r.bytes := by
  rw [Zs32.endMerged, if_pos merged]
  exact Zs32.endCommand_port (z.onInput i InputRec.unmerge) r

theorem Zs32.endMerged_apart (apart : (z.source.get i).merged = false) : (z.endMerged i r).port = z.port := by
  rw [Zs32.endMerged, if_neg (Bool.eq_false_iff.1 apart)]

theorem Zs32.ownCloseTaken_host : z.ownCloseTaken c .host (some i) =
    (z.onInput i InputRec.release).endCommand (.plain .done) := rfl

theorem Zs32.ownCloseTaken_source : z.ownCloseTaken c (.source i) (some i) =
    ((z.onInput i InputRec.release).log (.channelExpired z.me c)).endMerged i (.plain .done) := rfl

end OwnClose

/-- Settles O43: the own CLOSE of the host, and the automatic one of an input. -/
theorem ownCloseReleasesTheInput : Obligations.OwnCloseReleasesTheInput := by
  intro s f rest c auto i h body sender owned input
  have taken := processClose_owner body (owned.trans (congrArg some sender.symm))
  have frame := s.zs.closed_frame c
  have channel : (s.zs.closed c).table.channels[c] = ChannelRec.drained :=
    (s.zs.closed_channel c c).trans (if_pos rfl)
  have zone := s.zs.closed_zone c
  obtain ⟨compared, notices⟩ := s.zs.closed_compared c
  generalize s.zs.closed c = w at *
  have source : w.source = s.zs.source := by rw [frame]
  have me : w.me = s.zs.me := by rw [frame]; rfl
  have port : w.port = s.zs.port := by rw [frame]
  have line : w.line = s.zs.line := by rw [frame]
  have memb : w.memb = s.zs.memb := by rw [frame]
  have owner := congrArg ChannelRec.owner channel
  have phase := congrArg ChannelRec.phase channel
  have released : (w.onInput i InputRec.release).source.get i = InputRec.release (s.zs.source.get i) := by
    rw [Zs32.onInput_get, source]
  refine ⟨fun own => ?_, fun own => ?_⟩
  · rw [own, Option.elim_some, input, Zs32.ownCloseTaken_host, Zs32.endCommand_with_port] at taken
    refine ⟨_, exec_own_kept h (by rw [own]; nofun) body taken (congrArg Line.inq line), rfl, released, owner, phase,
      zone, compared, notices, ?_, memb, ?_⟩
    · rw [← line]
      rfl
    · rw [← port]
      exact Zs32.endCommand_port (w.onInput i InputRec.release) (.plain .done)
  · rw [own, Option.elim_some, input, Zs32.ownCloseTaken_source, Zs32.endMerged_eq, me] at taken
    refine ⟨_, exec_own_kept h (by rw [own]; nofun) body taken (congrArg Line.inq line), rfl, ?_, owner, phase, zone,
      compared, congrArg (NoticeLog.log · _) notices, ?_, memb, fun merged => ?_, fun apart => ?_⟩
    · have unmerged := Zs32.onInput_get i InputRec.unmerge
        ((w.onInput i InputRec.release).log (.channelExpired s.zs.me c))
      refine unmerged.trans ?_
      rw [Zs32.log_source, released]
      rfl
    · rw [← line]
      rfl
    · rw [← port]
      refine Zs32.endMerged_merged (z := (w.onInput i InputRec.release).log (.channelExpired s.zs.me c)) ?_
      rw [Zs32.log_source, released]
      exact merged
    · rw [← port]
      refine Zs32.endMerged_apart (z := (w.onInput i InputRec.release).log (.channelExpired s.zs.me c)) ?_
      rw [Zs32.log_source, released]
      exact apart

end Sys2Proof.Machine
end

section
/-! What a CLAIM does to the list of one zone, row by row of R90's table (R86, R90, R91). -/

namespace Sys2Proof.Machine

section Outcomes
variable {cl old last : Claim} {l : List Claim}

/-- A list with one claim for each station finds the claim it holds (R86). -/
theorem claimOf_of_mem (single : (l.map Claim.station).Nodup) (mem : old ∈ l) : claimOf old.station l = some old := by
  cases held : claimOf old.station l with
  | none => exact absurd rfl (claimOf_eq_none_iff.1 held old mem)
  | some x =>
    obtain ⟨there, same⟩ := claimOf_eq_some held
    rw [List.inj_on_of_nodup_map single there mem same]

theorem mem_withoutStation_of_single (single : (l.map Claim.station).Nodup) (mem : old ∈ l) {x : Claim} :
    x ∈ withoutStation old.station l ↔ x ∈ l ∧ x ≠ old :=
  mem_withoutStation.trans <| and_congr_right fun there =>
    not_congr ⟨fun same => List.inj_on_of_nodup_map single there mem same, fun same => same ▸ rfl⟩

theorem applyClaim_same (held : claimOf cl.station l = some cl) :
    applyClaim cl l = { list := l, outcome := .unchanged, displaced := false } := by
  rw [applyClaim, held]
  exact if_pos rfl

theorem applyClaim_replaces (held : claimOf cl.station l = some old) (differs : old ≠ cl) :
    let new := insertClaim cl (withoutStation cl.station l)
    applyClaim cl l = { list := new, outcome := leadOr cl new .replaced, displaced := false } := by
  rw [applyClaim, held]
  exact if_neg differs

theorem applyClaim_joins (new : claimOf cl.station l = none) (room : l.length < listCapacity) :
    applyClaim cl l =
      { list := insertClaim cl l, outcome := leadOr cl (insertClaim cl l) .below, displaced := false } := by
  rw [applyClaim, new]
  exact if_pos room

theorem applyClaim_displaces (new : claimOf cl.station l = none) (full : ¬ l.length < listCapacity)
    (lowest : l.getLast? = some last) (above : cl.sortsAbove last = true) :
    let list := insertClaim cl l.dropLast
    applyClaim cl l = { list := list, outcome := leadOr cl list .below, displaced := true } := by
  rw [applyClaim, new]
  refine (if_neg full).trans ?_
  rw [lowest]
  exact if_pos above

theorem applyClaim_full (new : claimOf cl.station l = none) (full : ¬ l.length < listCapacity)
    (lowest : l.getLast? = some last) (below : cl.sortsAbove last = false) :
    applyClaim cl l = { list := l, outcome := .full, displaced := false } := by
  rw [applyClaim, new]
  refine (if_neg full).trans ?_
  rw [lowest]
  exact if_neg (Bool.eq_false_iff.1 below)

end Outcomes

/-- Settles O44: the rows of R90's table. -/
theorem claimOutcomesByZone : Obligations.ClaimOutcomesByZone := by
  refine ⟨Claim.sortsAbove_iff, fun cl l ok => ⟨ok.applyClaim, fun mem => ?_, fun old mem station differs => ?_,
    fun new room => ?_, fun last new full lowest => ?_⟩⟩
  · exact applyClaim_same (claimOf_of_mem ok.2.2 mem)
  · rw [applyClaim_replaces (station ▸ claimOf_of_mem ok.2.2 mem) differs]
    refine ⟨fun x => mem_insertClaim.trans (or_congr_right ?_), rfl, rfl⟩
    rw [← station]
    exact mem_withoutStation_of_single ok.2.2 mem
  · rw [applyClaim_joins (claimOf_eq_none_iff.2 new) room]
    exact ⟨fun x => mem_insertClaim, rfl, rfl⟩
  · have noRoom : ¬ l.length < listCapacity := by rw [full]; exact lt_irrefl 6
    have lowest : l.getLast? = some last := by rw [List.getLast?_eq_getElem?, full]; exact lowest
    have new := claimOf_eq_none_iff.2 new
    refine ⟨fun above => ?_, fun below => applyClaim_full new noRoom lowest below⟩
    rw [applyClaim_displaces new noRoom lowest above, List.dropLast_eq_take, full]
    exact ⟨fun x => mem_insertClaim, rfl, rfl⟩

end Sys2Proof.Machine
end

section
/-! CLAIM frames at their processing: a peer's, the own one of a host command with its result, and the own restate
CLAIM (R21, R89 to R93, R97 to R105, R107, R136). -/

namespace Sys2Proof.Machine

theorem mem_zonesOf {zones : ZoneSet} {k : Zone} : k ∈ zonesOf zones ↔ zones.getLsbD k.val = true := by
  simp [zonesOf]

theorem zonesOf_pairwise (zones : ZoneSet) : (zonesOf zones).Pairwise (· < ·) :=
  (List.pairwise_lt_finRange 32).filter _

/-- The comparison changes the tables, the outputs and the notices (R98). -/
theorem Zs32.compare_only (x : CompareContext) (u : Zs32) : u.compare x =
    { u with table := (u.compare x).table, mixer := (u.compare x).mixer, notices := (u.compare x).notices } := by
  have frame := u.compare_frame x
  generalize u.compare x = w at frame
  rw [frame]

/-! ### A peer's CLAIM (R89, R90) -/

section Peer
variable {z : Zs32} {f : InFrame} {c : Channel} {p : Priority} {d : DuckLevel} {chime restate : Bool} {zones : ZoneSet}

/-- The claim of a CLAIM frame's sender. -/
abbrev InFrame.claim (f : InFrame) (c : Channel) (p : Priority) (d : DuckLevel) (chime : Bool) : Claim :=
  { station := f.frame.sender, channel := c, priority := p, duck := d, chime := chime }

theorem FrameBody.claimOf_claim (x : StationNo) : (FrameBody.claim c p d chime zones restate).claimOf x =
    some ({ station := x, channel := c, priority := p, duck := d, chime := chime }, zones) := rfl

/-- The station before the comparison of a peer's CLAIM: the lists by the outcomes (R90). -/
def Zs32.peerClaimed (cl : Claim) (zones : ZoneSet) (z : Zs32) : Zs32 :=
  z.takeComparison.setTables z.table.channels (tabulate fun k => (z.claimChanges cl zones)[k].list)

/-- The context of that comparison: nothing was placed by this station (R99, R102). -/
def Zs32.peerClaimContext (cl : Claim) (zones : ZoneSet) (z : Zs32) : CompareContext :=
  { cause := .claimed, displaced := zonesWhere fun k => (z.claimChanges cl zones)[k].displaced,
    placed := 0, by_ := some cl }

theorem Zs32.applyClaims_peer (cl : Claim) (zones : ZoneSet) (z : Zs32) : z.applyClaims cl zones false =
    (z.peerClaimed cl zones).compare (z.peerClaimContext cl zones) := by
  simp only [Zs32.applyClaims, Bool.false_eq_true, if_false, Zs32.peerClaimed, Zs32.peerClaimContext]

theorem Zs32.peerClaimed_comparesWith (cl : Claim) (zones : ZoneSet) (z : Zs32) :
    ComparesWith z (z.peerClaimed cl zones) := z.takeComparison_comparesWith.setTables _ _

theorem Zs32.peerClaimed_frame (cl : Claim) (zones : ZoneSet) (z : Zs32) :
    ∃ t : ClaimTable, z.peerClaimed cl zones = { z with table := t } := by
  refine ⟨(z.peerClaimed cl zones).table, ?_⟩
  simp only [Zs32.peerClaimed, Zs32.setTables, Zs32.takeComparison]

theorem Zs32.peerClaimContext_eq (cl : Claim) (zones : ZoneSet) (z : Zs32) : ∃ displaced : ZoneSet,
    (∀ k : Zone, displaced.getLsbD k.val = (zones.getLsbD k.val && (applyClaim cl z.table.zones[k]).displaced)) ∧
      z.peerClaimContext cl zones = { cause := .claimed, displaced := displaced, placed := 0, by_ := some cl } := by
  obtain ⟨displaced, context, which⟩ := z.ownClaimContext_eq cl zones
  have same := congrArg CompareContext.displaced context
  rw [Zs32.ownClaimContext] at same
  dsimp only at same
  exact ⟨displaced, which, by rw [Zs32.peerClaimContext, same]⟩

theorem Zs32.applyClaims_peer_frame (cl : Claim) (zones : ZoneSet) (z : Zs32) : z.applyClaims cl zones false =
    { z with
      table := (z.applyClaims cl zones false).table, mixer := (z.applyClaims cl zones false).mixer
      notices := (z.applyClaims cl zones false).notices } := by
  obtain ⟨t, start⟩ := z.peerClaimed_frame cl zones
  rw [Zs32.applyClaims_peer, start]
  exact Zs32.compare_only (z.peerClaimContext cl zones) { z with table := t }

theorem Zs32.applyClaims_peer_channels (cl : Claim) (zones : ZoneSet) (z : Zs32) :
    (z.applyClaims cl zones false).table.channels = z.table.channels := by
  rw [Zs32.applyClaims_peer, Zs32.compare_table_channels, Zs32.peerClaimed, Zs32.setTables_channels]

theorem Zs32.applyClaims_peer_zone (cl : Claim) (zones : ZoneSet) (z : Zs32) (k : Zone) :
    (z.applyClaims cl zones false).table.zones[k] =
      if zones.getLsbD k.val then (applyClaim cl z.table.zones[k]).list else z.table.zones[k] := by
  rw [Zs32.applyClaims_peer, Zs32.compare_table_zones, Zs32.peerClaimed, Zs32.setTables_zones, tabulate_get,
    Zs32.claimChanges, tabulate_get, apply_ite ZoneChange.list]

theorem Zs32.applyClaims_peer_digest (cl : Claim) (zones : ZoneSet) (z : Zs32) :
    (z.applyClaims cl zones false).table.digest = digestOf (z.applyClaims cl zones false).table.channels
      (z.applyClaims cl zones false).table.zones := by
  simp only [Zs32.applyClaims_peer, Zs32.compare_table_digest, Zs32.compare_table_channels, Zs32.compare_table_zones,
    Zs32.peerClaimed, Zs32.setTables_digest, Zs32.setTables_channels, Zs32.setTables_zones]

theorem Zs32.applyClaims_peer_compared (cl : Claim) (zones : ZoneSet) (z : Zs32) : ∃ displaced : ZoneSet,
    (∀ k : Zone, displaced.getLsbD k.val = (zones.getLsbD k.val && (applyClaim cl z.table.zones[k]).displaced)) ∧
      let x : CompareContext := { cause := .claimed, displaced := displaced, placed := 0, by_ := some cl }
      let w := z.applyClaims cl zones false
      OutputsTold z w ∧ LeadsCompared x z w ∧ w.notices = loggedAll z.notices (comparedNotices x z w) := by
  obtain ⟨displaced, which, context⟩ := z.peerClaimContext_eq cl zones
  have compares := z.peerClaimed_comparesWith cl zones
  have leads : (z.peerClaimed cl zones).table.leads = z.table.leads := by
    rw [Zs32.peerClaimed, Zs32.setTables_table_leads, Zs32.takeComparison]
  have notices : (z.peerClaimed cl zones).notices = z.notices := by
    rw [Zs32.peerClaimed, Zs32.setTables_notices, Zs32.takeComparison_notices]
  refine ⟨displaced, which, ?_⟩
  rw [Zs32.applyClaims_peer, ← context, ← notices]
  exact ⟨Zs32.compare_outputsTold compares _, Zs32.compare_leadsCompared compares leads _,
    Zs32.compare_notices compares leads _⟩

/-- The processing of a peer's CLAIM, fresh or restate (R89, R92). -/
theorem processClaim_peer (peer : f.mark = none) (body : f.frame.body = .claim c p d chime zones restate) :
    (FrameBody.claim c p d chime zones restate).process f z =
      if z.table.channels[c].owner = some f.frame.sender then z.applyClaims (f.claim c p d chime) zones false
      else z := by
  cases restate with
  | false =>
    change processClaim f z = _
    simp only [processClaim, body, FrameBody.claimOf_claim, peer, Option.isSome_none, reduceCtorEq, if_false]
  | true =>
    change processRestateClaim f z = _
    simp only [processRestateClaim, body, FrameBody.claimOf_claim, peer, Option.isSome_none]

end Peer

/-- Settles O45: a CLAIM of a peer that owns the channel, and of one that does not. -/
theorem claimFrameIsTakenOrRefused : Obligations.ClaimFrameIsTakenOrRefused := by
  intro s f rest c p d chime zones restate h peer body cl
  have processed := processClaim_peer (z := { s.zs with memb := s.zs.memb.heardFrom f.frame.sender }) peer.1 body
  have row : (FrameBody.claim c p d chime zones restate).row = if restate then .restateClaim else .claimFrame := rfl
  by_cases owned : s.zs.table.channels[c].owner = some f.frame.sender
  · rw [if_pos owned] at processed
    have frame := Zs32.applyClaims_peer_frame cl zones { s.zs with memb := s.zs.memb.heardFrom f.frame.sender }
    have channels := Zs32.applyClaims_peer_channels cl zones { s.zs with memb := s.zs.memb.heardFrom f.frame.sender }
    have zone := Zs32.applyClaims_peer_zone cl zones { s.zs with memb := s.zs.memb.heardFrom f.frame.sender }
    have digest := Zs32.applyClaims_peer_digest cl zones { s.zs with memb := s.zs.memb.heardFrom f.frame.sender }
    obtain ⟨displaced, which, told, leads, notices⟩ :=
      Zs32.applyClaims_peer_compared cl zones { s.zs with memb := s.zs.memb.heardFrom f.frame.sender }
    generalize Zs32.applyClaims cl zones false { s.zs with memb := s.zs.memb.heardFrom f.frame.sender } = w at *
    have ran := exec_peer_kept h peer body nofun processed (by rw [frame])
    rw [row] at ran
    exact ⟨_, ran, rfl, .of_frame frame, channels,
      fun other => absurd owned other, fun _ => ⟨zone, digest, told, displaced, which, leads, notices⟩⟩
  · rw [if_neg owned] at processed
    have ran := exec_peer_kept h peer body nofun processed rfl
    rw [row] at ran
    exact ⟨_, ran, rfl, .of_frame rfl, rfl, fun _ => ⟨rfl, rfl, rfl⟩,
      fun own => absurd own owned⟩

end Sys2Proof.Machine
end

section
/-! The own CLAIM: the outcomes a host command reports, and the restate CLAIM that finds its claims in place (R21, R89,
R90, R92, R93, R97 to R102, R107, R136). -/

namespace Sys2Proof.Machine

/-! ### A comparison of equal lists (R97 to R105) -/

theorem OutputRec.tellForeground_same (o : OutputRec) (now : Option Claim) (live : Channel → Bool) (chimeMs : Nat) :
    o.tellForeground now now live chimeMs = o := by
  refine (if_pos rfl).trans ?_
  cases now with
  | none => rfl
  | some cl => exact if_pos rfl

theorem OutputRec.tellBackground_same (o : OutputRec) (now : Option Ident) : o.tellBackground now now = o := if_pos rfl

theorem zoneChangeNotice_same (x : CompareContext) (k : Zone) (bound : Bool) (now : Option Claim) :
    zoneChangeNotice x k bound now now = [] := if_neg fun changed => changed.2 rfl

section Unchanged
variable {z z' : Zs32}

theorem OutputsTold.mixer_eq (told : OutputsTold z z') (zones : z'.table.zones = z.table.zones) :
    z'.mixer = z.mixer := by
  have outputs : z'.mixer.outputs = z.mixer.outputs := by
    refine Vector.ext fun i bound => ?_
    have one := told ⟨i, bound⟩
    simp only [zones, OutputRec.tellForeground_same, OutputRec.tellBackground_same] at one
    refine one.trans ?_
    split
    · rfl
    · rfl
  exact congrArg Mixer.mk outputs

theorem comparedNotices_same (x : CompareContext) (zones : z'.table.zones = z.table.zones) :
    comparedNotices x z z' = [] := by
  rw [comparedNotices, zones]
  exact List.flatMap_eq_nil_iff.2 fun k _ => by rw [zoneChangeNotice_same, leadNotice_same]; rfl

/-- An own CLAIM that leaves every list and every mark as it was changes nothing (R21, R92, R107). -/
theorem OwnClaimTaken.unchanged {cl : Claim} {set : ZoneSet} {rest : List InFrame}
    (taken : OwnClaimTaken z z' cl set rest)
    (same : ∀ k : Zone, set.getLsbD k.val = true →
      applyClaim cl z.table.zones[k] = { list := z.table.zones[k], outcome := .unchanged, displaced := false })
    (current : z.table.DigestCurrent) (none : z.table.comparison = none) (port : z'.port = z.port) :
    z' = { z with line := { z.line with inq := rest } } := by
  obtain ⟨frame, channels, outside, inside, digest, comparison, told, displaced, -, notices⟩ := taken
  have each (k : Zone) : z'.table.zones[k] = z.table.zones[k] ∧ z'.table.leads[k] = z.table.leads[k] := by
    by_cases held : set.getLsbD k.val = true
    · obtain ⟨list, lead⟩ := inside k held
      rw [same k held] at list lead
      exact ⟨list, lead⟩
    · exact outside k (Bool.eq_false_iff.2 held)
  have zones : z'.table.zones = z.table.zones := Vector.ext fun i bound => (each ⟨i, bound⟩).1
  have leads : z'.table.leads = z.table.leads := Vector.ext fun i bound => (each ⟨i, bound⟩).2
  have table : z'.table = z.table := by
    rw [channels, zones, ← show z.table.digest = _ from current] at digest
    cases after : z'.table
    rw [after] at channels zones leads digest comparison
    cases before : z.table
    rw [before] at channels zones leads digest none
    dsimp only at *
    rw [channels, zones, leads, digest, comparison, none]
  rw [comparedNotices_same _ zones] at notices
  rw [frame, table, told.mixer_eq zones, notices, port]
  rfl

end Unchanged

/-! ### The processing of the own CLAIM (R89, R90, R92) -/

section Own
variable {z : Zs32} {f : InFrame} {c : Channel} {p : Priority} {d : DuckLevel} {chime : Bool} {zones : ZoneSet}

/-- The outcomes that the result of an own CLAIM reports (R93). -/
def Zs32.outcomes (cl : Claim) (zones : ZoneSet) (z : Zs32) : List (Zone × ZoneOutcome) :=
  (zonesOf zones).map fun k => (k, (z.claimChanges cl zones)[k].outcome)

theorem processClaim_host (own : f.mark = some .host) (body : f.frame.body = .claim c p d chime zones false)
    (owned : z.table.channels[c].owner = some f.frame.sender) : processClaim f z =
      (z.applyClaims (f.claim c p d chime) zones true).endCommand
        (.claimed (z.outcomes (f.claim c p d chime) zones)) := by
  simp only [processClaim, body, FrameBody.claimOf_claim, own, Option.isSome_some, if_true]
  exact if_pos owned

theorem processRestateClaim_owned (own : f.mark ≠ none) (body : f.frame.body = .claim c p d chime zones true)
    (owned : z.table.channels[c].owner = some f.frame.sender) :
    processRestateClaim f z = z.applyClaims (f.claim c p d chime) zones true := by
  simp only [processRestateClaim, body, FrameBody.claimOf_claim, Option.isSome_iff_ne_none.2 own]
  exact if_pos owned

theorem processRestateClaim_refused (body : f.frame.body = .claim c p d chime zones true)
    (other : z.table.channels[c].owner ≠ some f.frame.sender) : processRestateClaim f z = z := by
  simp only [processRestateClaim, body, FrameBody.claimOf_claim]
  exact if_neg other

theorem Zs32.outcomes_bytes (cl : Claim) (zones : ZoneSet) (z : Zs32) : (Result.claimed (z.outcomes cl zones)).bytes =
    [0x00, byte (zonesOf zones).length] ++ (zonesOf zones).flatMap fun k =>
      [byte k.val, match (applyClaim cl z.table.zones[k]).outcome with
        | .lead => 1
        | .below => 2
        | .replaced => 3
        | .unchanged => 4
        | .full => 5] := by
  have each : ∀ k ∈ zonesOf zones, (z.claimChanges cl zones)[k] = applyClaim cl z.table.zones[k] := fun k mem => by
    rw [Zs32.claimChanges, tabulate_get, if_pos (mem_zonesOf.1 mem)]
  rw [Result.bytes, Zs32.outcomes, List.length_map, List.flatMap_map]
  refine congrArg (fun l => (0x00 : Byte) :: byte (zonesOf zones).length :: l) (List.flatMap_congr fun k mem => ?_)
  rw [each k mem]
  cases (applyClaim cl z.table.zones[k]).outcome with
  | _ => rfl

theorem Zs32.applyClaims_own_line (cl : Claim) (zones : ZoneSet) (z : Zs32) :
    (z.applyClaims cl zones true).line = z.line := by
  rw [Zs32.applyClaims_own_frame]

theorem Zs32.applyClaims_own_port (cl : Claim) (zones : ZoneSet) (z : Zs32) :
    (z.applyClaims cl zones true).port = z.port := by
  rw [Zs32.applyClaims_own_frame]

/-- This station's claim in place is what an own CLAIM with its fields finds unchanged (R90, first row). -/
theorem Zs32.applyClaim_of_ownClaim {cl : Claim} {k : Zone} (held : z.ownClaim k = some cl) :
    applyClaim cl z.table.zones[k] = { list := z.table.zones[k], outcome := .unchanged, displaced := false } := by
  have station : cl.station = z.me := (claimOf_eq_some held).2
  exact applyClaim_same (station ▸ held)

end Own

/-- Settles O46: the own CLAIM of a host command and the own restate CLAIM. -/
theorem ownClaimReportsItsOutcomes : Obligations.OwnClaimReportsItsOutcomes := by
  constructor
  · intro s f rest c p d chime zones h own sender body owned cl
    have claim : f.claim c p d chime = cl := by rw [InFrame.claim, sender]
    have processed := processClaim_host own body (owned.trans (congrArg some sender.symm))
    rw [claim, Zs32.endCommand_with_port] at processed
    have taken := s.zs.applyClaims_ownClaimTaken cl zones
    have port := (s.zs.applyClaims cl zones true).endCommand_port (.claimed (s.zs.outcomes cl zones))
    have line := s.zs.applyClaims_own_line cl zones
    rw [s.zs.applyClaims_own_port, Zs32.outcomes_bytes] at port
    rw [h.2.2, List.tail_cons] at taken
    generalize s.zs.applyClaims cl zones true = w at *
    rw [Zs32.finishFrame_of_head (line ▸ h.2.2)] at taken
    exact ⟨_, exec_own_kept h (by rw [own]; nofun) body processed (congrArg Line.inq line), rfl, taken _, port⟩
  · intro s f rest c p d chime zones h own sender body cl unchanged
    have claim : f.claim c p d chime = cl := by rw [InFrame.claim, sender]
    refine ⟨fun owned => ?_, fun other => ?_⟩
    · have processed := processRestateClaim_owned own body (owned.trans (congrArg some sender.symm))
      rw [claim] at processed
      have taken := s.zs.applyClaims_ownClaimTaken cl zones s.zs.port
      have line := s.zs.applyClaims_own_line cl zones
      have port := s.zs.applyClaims_own_port cl zones
      rw [h.2.2, List.tail_cons] at taken
      generalize s.zs.applyClaims cl zones true = w at *
      rw [Zs32.finishFrame_of_head (line ▸ h.2.2), ← port] at taken
      have ran := exec_own_kept h own body processed (congrArg Line.inq line)
      refine ⟨⟨_, ran, rfl, taken, port⟩, fun k _ held => Zs32.applyClaim_of_ownClaim held,
        fun held current none => ran.trans ?_⟩
      have same := taken.unchanged (fun k mem => Zs32.applyClaim_of_ownClaim (held k mem)) current none port
      exact congrArg (fun z => Host.Outcome.next { s with zs := z }) same
    · exact exec_own_kept h own body (processRestateClaim_refused body (sender ▸ other)) rfl

end Sys2Proof.Machine
end

section
/-! DROP at its processing, what the comparison records of a list, and the lead-mark notices (R94, R95, R97 to R105,
R107, R138). -/

namespace Sys2Proof.Machine

/-! ### The place of a station's claim in a list (R97) -/

theorem standingFrom_eq_none {s : StationNo} {l : List Claim} : ∀ {i : Nat},
    standingFrom s i l = none ↔ ∀ x ∈ l, x.station ≠ s := by
  induction l with
  | nil => exact fun {i} => iff_of_true rfl nofun
  | cons x rest ih =>
    intro i
    rw [standingFrom, List.forall_mem_cons]
    by_cases mine : x.station = s
    · rw [if_pos mine]
      exact iff_of_false nofun fun h => h.1 mine
    · rw [if_neg mine, ih]
      exact (and_iff_right mine).symm

theorem standingFrom_eq_some {s : StationNo} {l : List Claim} {cl : Claim} : ∀ {i j : Nat},
    standingFrom s i l = some (j, cl) ↔ ∃ n, j = i + n ∧ l[n]? = some cl ∧ cl.station = s ∧
      ∀ m old, m < n → l[m]? = some old → old.station ≠ s := by
  induction l with
  | nil => exact fun {i j} => iff_of_false nofun fun ⟨n, _, held, _⟩ => nomatch held
  | cons x rest ih =>
    intro i j
    rw [standingFrom]
    by_cases mine : x.station = s
    · rw [if_pos mine, Option.some_inj, Prod.mk.injEq]
      constructor
      · rintro ⟨rfl, rfl⟩
        exact ⟨0, rfl, rfl, mine, nofun⟩
      · rintro ⟨n, is, held, -, first⟩
        cases n with
        | zero => exact ⟨is.symm, Option.some.inj held⟩
        | succ n => exact absurd mine (first 0 x n.succ_pos rfl)
    · rw [if_neg mine, ih]
      constructor
      · rintro ⟨n, is, held, station, first⟩
        refine ⟨n + 1, by omega, held, station, fun m old below there => ?_⟩
        cases m with
        | zero => exact Option.some.inj there ▸ mine
        | succ m => exact first m old (by omega) there
      · rintro ⟨n, is, held, station, first⟩
        cases n with
        | zero => exact absurd (Option.some.inj held ▸ station) mine
        | succ n => exact ⟨n, by omega, held, station, fun m old below there => first (m + 1) old (by omega) there⟩

theorem recordOf_own_eq_some {me : StationNo} {l : List Claim} {i : Nat} {cl : Claim} :
    (recordOf me l).own = some (i, cl) ↔ l[i]? = some cl ∧ cl.station = me ∧
      ∀ j old, j < i → l[j]? = some old → old.station ≠ me := by
  refine standingFrom_eq_some.trans ⟨?_, fun h => ⟨i, (Nat.zero_add i).symm, h⟩⟩
  rintro ⟨n, is, h⟩
  rw [Nat.zero_add] at is
  exact is ▸ h

/-! ### The notices of one zone (R98 to R105) -/

section Notices
variable {x : CompareContext} {k : Zone} {bound mark : Bool} {first last : Option Claim} {was now : ZoneRecord}
  {i j : Nat} {old new : Claim}

theorem zoneChangeNotice_nil (none : bound = false ∨ first.map Claim.ident = last.map Claim.ident) :
    zoneChangeNotice x k bound first last = [] :=
  if_neg fun h => none.elim (fun unbound => absurd h.1 (Bool.eq_false_iff.1 unbound)) fun same => h.2 same

theorem zoneChangeNotice_changed (binds : bound = true) (changed : first.map Claim.ident ≠ last.map Claim.ident) :
    zoneChangeNotice x k bound first last =
      [.zoneChange k (last.map fun cl => (cl.ident, cl.priority)) (first.map (·.station)) (x.causeIn k)] :=
  if_pos ⟨binds, changed⟩

theorem CompareContext.causeIn_plain (cause : ZoneCause) (k : Zone) : (CompareContext.plain cause).causeIn k = cause :=
  if_neg (Bool.eq_false_iff.1 BitVec.getLsbD_zero)

theorem lead_placed (placed : x.placed.getLsbD k.val = true) :
    leadNotice x k was now mark = [] ∧ leadAfter x k was now mark = mark :=
  ⟨if_pos placed, if_pos placed⟩

theorem lead_absent (absent : was.own = none) :
    leadNotice x k was now mark = [] ∧ leadAfter x k was now mark = mark := by
  simp only [leadNotice, leadAfter, absent, ite_self, and_self]

theorem lead_stays (before : was.own = some (i, old)) (after : now.own = some (j, new)) (same : i = 0 ↔ j = 0) :
    leadNotice x k was now mark = [] ∧ leadAfter x k was now mark = mark := by
  by_cases leads : i = 0
  · simp [leadNotice, leadAfter, before, after, leads, same.1 leads]
  · simp [leadNotice, leadAfter, before, after, leads, mt same.2 leads]

theorem lead_again (before : was.own = some (i, old)) (after : now.own = some (j, new)) (followed : i ≠ 0)
    (leads : j = 0) (set : mark = true) :
    leadNotice x k was now mark = [] ∧ leadAfter x k was now mark = true := by
  simp [leadNotice, leadAfter, before, after, followed, leads, set]

variable (apart : x.placed.getLsbD k.val = false)
include apart

theorem lead_preempted {f : Claim} (before : was.own = some (i, old)) (after : now.own = some (j, new))
    (foreground : now.fg = some f) (led : i = 0) (follows : j ≠ 0) :
    leadNotice x k was now mark = [.claimPreempted k f.station new.channel f.priority] ∧
      leadAfter x k was now mark = mark := by
  simp only [leadNotice, leadAfter, apart, before, after, foreground, Bool.false_eq_true, if_false]
  simp [led, follows]

theorem lead_started (before : was.own = some (i, old)) (after : now.own = some (j, new)) (followed : i ≠ 0)
    (leads : j = 0) (unset : mark = false) :
    leadNotice x k was now mark = [.claimStartedLate k new.station new.channel new.priority] ∧
      leadAfter x k was now mark = true := by
  simp only [leadNotice, leadAfter, apart, before, after, Bool.false_eq_true, if_false]
  simp [followed, leads, unset]

theorem lead_gone (before : was.own = some (i, old)) (after : now.own = none) : leadAfter x k was now mark = false := by
  simp only [leadAfter, apart, before, after, Bool.false_eq_true, if_false]

theorem lead_displaced {cl : Claim} (before : was.own = some (i, old)) (after : now.own = none)
    (displaced : x.displaced.getLsbD k.val = true) (by_ : x.by_ = some cl) :
    leadNotice x k was now mark = [.claimDisplaced k cl.station old.channel cl.priority] := by
  simp only [leadNotice, apart, before, after, displaced, by_, Bool.false_eq_true, if_false, if_true]

theorem lead_dropped (before : was.own = some (i, old)) (after : now.own = none)
    (kept : x.displaced.getLsbD k.val = false) : leadNotice x k was now mark = [] := by
  simp only [leadNotice, apart, before, after, kept, Bool.false_eq_true, if_false]

end Notices

/-! ### DROP (R94, R95) -/

section Drop
variable {z : Zs32} {f : InFrame} {zones : ZoneSet} {x : StationNo} {k : Zone}

/-- The station once the claims of station x were dropped in a zone set and compared (R94, R97). -/
def Zs32.dropped (x : StationNo) (zones : ZoneSet) (z : Zs32) : Zs32 :=
  (z.takeComparison.dropClaims x zones).compare (CompareContext.plain .dropped)

theorem Zs32.dropClaims_frame (x : StationNo) (zones : ZoneSet) (z : Zs32) :
    ∃ t : ClaimTable, z.takeComparison.dropClaims x zones = { z with table := t } := by
  refine ⟨(z.takeComparison.dropClaims x zones).table, ?_⟩
  simp only [Zs32.dropClaims, Zs32.setTables, Zs32.takeComparison]

theorem Zs32.dropped_frame (x : StationNo) (zones : ZoneSet) (z : Zs32) : z.dropped x zones = { z with
    table := (z.dropped x zones).table, mixer := (z.dropped x zones).mixer
    notices := (z.dropped x zones).notices } := by
  obtain ⟨t, start⟩ := z.dropClaims_frame x zones
  rw [Zs32.dropped, start]
  exact Zs32.compare_only (CompareContext.plain .dropped) { z with table := t }

theorem Zs32.dropped_channels (x : StationNo) (zones : ZoneSet) (z : Zs32) :
    (z.dropped x zones).table.channels = z.table.channels := by
  rw [Zs32.dropped, Zs32.compare_table_channels, Zs32.dropClaims_table_channels, Zs32.takeComparison_table_channels]

theorem Zs32.dropped_zone (x : StationNo) (zones : ZoneSet) (z : Zs32) (k : Zone) :
    (z.dropped x zones).table.zones[k] =
      if zones.getLsbD k.val then z.table.zones[k].filter fun cl => cl.station ≠ x else z.table.zones[k] := by
  rw [Zs32.dropped, Zs32.compare_table_zones, Zs32.dropClaims, Zs32.setTables_zones, tabulate_get,
    Zs32.takeComparison_table_zones, withoutStation]

theorem Zs32.dropped_digest (x : StationNo) (zones : ZoneSet) (z : Zs32) : (z.dropped x zones).table.digest =
    digestOf (z.dropped x zones).table.channels (z.dropped x zones).table.zones := by
  simp only [Zs32.dropped, Zs32.compare_table_digest, Zs32.compare_table_channels, Zs32.compare_table_zones,
    Zs32.dropClaims, Zs32.setTables_digest, Zs32.setTables_channels, Zs32.setTables_zones]

theorem Zs32.dropped_compared (x : StationNo) (zones : ZoneSet) (z : Zs32) : Compared .dropped z (z.dropped x zones) ∧
    (z.dropped x zones).notices =
      loggedAll z.notices (comparedNotices (CompareContext.plain .dropped) z (z.dropped x zones)) := by
  have compares : ComparesWith z (z.takeComparison.dropClaims x zones) := z.takeComparison_comparesWith.setTables _ _
  refine compares.compared ?_ ?_ .dropped
  · rw [Zs32.dropClaims, Zs32.setTables_table_leads, Zs32.takeComparison]
  · rw [Zs32.dropClaims_notices, Zs32.takeComparison_notices]

theorem processDrop_peer (peer : f.mark = none) (body : f.frame.body = .drop zones) :
    processDrop f z = z.dropped f.frame.sender zones := by
  simp only [processDrop, body]
  exact if_neg (by rw [peer]; nofun)

theorem processDrop_host (own : f.mark = some .host) (body : f.frame.body = .drop zones) : processDrop f z =
    (z.dropped f.frame.sender zones).endCommand (.dropped (z.zonesHeld f.frame.sender zones)) := by
  simp only [processDrop, body]
  exact if_pos own

theorem Zs32.mem_zonesHeld : k ∈ z.zonesHeld x zones ↔
    zones.getLsbD k.val = true ∧ ∃ cl ∈ z.table.zones[k], cl.station = x := by
  rw [Zs32.zonesHeld, List.mem_filter, mem_zonesOf]
  refine and_congr_right fun _ => ?_
  rw [Option.isSome_iff_ne_none, Ne, claimOf_eq_none_iff]
  push Not
  rfl

/-- In a zone from which the own claim was dropped no own claim stands, and the lead mark is cleared (R102). -/
theorem Zs32.dropped_lead (mem : k ∈ z.zonesHeld z.me zones) : (z.dropped z.me zones).table.leads[k] = false := by
  obtain ⟨inSet, cl, there, mine⟩ := Zs32.mem_zonesHeld.1 mem
  obtain ⟨⟨-, leads, -⟩, -⟩ := z.dropped_compared z.me zones
  have gone : (recordOf z.me (z.dropped z.me zones).table.zones[k]).own = none := by
    rw [z.dropped_zone, if_pos inSet]
    refine standingFrom_eq_none.2 fun y held => ?_
    simpa using (List.mem_filter.1 held).2
  have stood : (recordOf z.me z.table.zones[k]).own ≠ none := fun none => standingFrom_eq_none.1 none cl there mine
  obtain ⟨⟨i, old⟩, before⟩ := Option.ne_none_iff_exists'.1 stood
  rw [leads k]
  exact lead_gone (BitVec.getLsbD_zero) before gone

end Drop

/-- Settles O47: a DROP of a peer and the DROP of a host command. -/
theorem dropRemovesTheSendersClaims : Obligations.DropRemovesTheSendersClaims := by
  refine ⟨fun s f rest zones h peer body => ?_, fun s f rest zones h own sender body => ?_⟩
  · have frame := Zs32.dropped_frame f.frame.sender zones { s.zs with memb := s.zs.memb.heardFrom f.frame.sender }
    have channels := Zs32.dropped_channels f.frame.sender zones
      { s.zs with memb := s.zs.memb.heardFrom f.frame.sender }
    have zone := Zs32.dropped_zone f.frame.sender zones { s.zs with memb := s.zs.memb.heardFrom f.frame.sender }
    have digest := Zs32.dropped_digest f.frame.sender zones { s.zs with memb := s.zs.memb.heardFrom f.frame.sender }
    have both := Zs32.dropped_compared f.frame.sender zones { s.zs with memb := s.zs.memb.heardFrom f.frame.sender }
    have processed := processDrop_peer (z := { s.zs with memb := s.zs.memb.heardFrom f.frame.sender }) peer.1 body
    generalize Zs32.dropped f.frame.sender zones { s.zs with memb := s.zs.memb.heardFrom f.frame.sender } = w at *
    exact ⟨_, exec_peer_kept h peer body nofun processed (by rw [frame]), rfl, .of_frame frame, channels, zone, digest,
      both⟩
  · have processed := processDrop_host (z := s.zs) own body
    rw [sender, Zs32.endCommand_with_port] at processed
    have frame := s.zs.dropped_frame s.zs.me zones
    have zone := s.zs.dropped_zone s.zs.me zones
    obtain ⟨compared, notices⟩ := s.zs.dropped_compared s.zs.me zones
    have lead (k : Zone) (mem : k ∈ s.zs.zonesHeld s.zs.me zones) := Zs32.dropped_lead mem
    have port := (s.zs.dropped s.zs.me zones).endCommand_port (.dropped (s.zs.zonesHeld s.zs.me zones))
    generalize s.zs.dropped s.zs.me zones = w at *
    have line : w.line = s.zs.line := by rw [frame]
    rw [show w.port = s.zs.port by rw [frame]] at port
    exact ⟨_, s.zs.zonesHeld s.zs.me zones,
      exec_own_kept h (by rw [own]; nofun) body processed (congrArg Line.inq line), rfl,
      (zonesOf_pairwise zones).filter _, fun k => Zs32.mem_zonesHeld, lead, zone, compared, notices,
      congrArg (fun l : Line => { l with inq := rest }) line, by rw [frame], by rw [frame], port⟩

end Sys2Proof.Machine
end

section
/-! The lead marks and their notices, and the DROP that brings an own claim to the front (R94, R97 to R105). -/

namespace Sys2Proof.Machine

theorem flatMap_eq_of_single {α β : Type} {l : List α} {a : α} {g : α → List β} (single : l.Nodup) (mem : a ∈ l)
    (others : ∀ b ∈ l, b ≠ a → g b = []) : l.flatMap g = g a := by
  obtain ⟨before, after, rfl⟩ := List.append_of_mem mem
  have apart := List.nodup_append.1 single
  have notBefore : a ∉ before := fun held => apart.2.2 a held a List.mem_cons_self rfl
  have notAfter : a ∉ after := (List.nodup_cons.1 apart.2.1).1
  have quietBefore : before.flatMap g = [] := List.flatMap_eq_nil_iff.2 fun b held =>
    others b (List.mem_append_left _ held) fun same => notBefore (same ▸ held)
  have quietAfter : after.flatMap g = [] := List.flatMap_eq_nil_iff.2 fun b held =>
    others b (List.mem_append_right _ (List.mem_cons_of_mem _ held)) fun same => notAfter (same ▸ held)
  rw [List.flatMap_append, List.flatMap_cons, quietBefore, quietAfter, List.nil_append, List.append_nil]

theorem getLsbD_oneZone (k j : Zone) : (1#32 <<< k.val).getLsbD j.val = decide (j = k) := by
  revert j k
  decide +kernel

section Front
variable {z : Zs32} {x : StationNo} {k : Zone} {o : Fin 4} {top own : Claim} {below : List Claim}

/-- A DROP in one zone leaves the other zones' lists (R94). -/
theorem Zs32.dropped_other {j : Zone} (other : j ≠ k) :
    (z.dropped x (1#32 <<< k.val)).table.zones[j] = z.table.zones[j] := by
  rw [Zs32.dropped_zone, getLsbD_oneZone, if_neg (by simpa using other)]

/-- A DROP by the station that leads a zone brings the second claim to the front (R86, R94). -/
theorem Zs32.dropped_front (list : z.table.zones[k] = top :: own :: below) (leader : top.station = x)
    (second : own.station ≠ x) (rest : ∀ cl ∈ below, cl.station ≠ x) :
    (z.dropped x (1#32 <<< k.val)).table.zones[k] = own :: below := by
  rw [Zs32.dropped_zone, getLsbD_oneZone, if_pos (decide_eq_true rfl), list,
    List.filter_cons_of_neg (by simpa using leader), List.filter_eq_self.2 fun cl mem => ?_]
  obtain rfl | mem := List.mem_cons.1 mem
  · exact decide_eq_true second
  · exact decide_eq_true (rest cl mem)

theorem recordOf_own_second {me : StationNo} (other : top.station ≠ me) (mine : own.station = me) :
    (recordOf me (top :: own :: below)).own = some (1, own) :=
  recordOf_own_eq_some.2 ⟨rfl, mine, fun j old before there => by
    obtain rfl : j = 0 := by omega
    exact Option.some.inj there ▸ other⟩

theorem recordOf_own_first {me : StationNo} (mine : own.station = me) :
    (recordOf me (own :: below)).own = some (0, own) := recordOf_own_eq_some.2 ⟨rfl, mine, nofun⟩

/-- The notices and the marks of that DROP (R98 to R103). -/
theorem Zs32.dropped_brings (bound : z.mixer.outputs[o].zone = some k)
    (list : z.table.zones[k] = top :: own :: below) (leader : top.station = x) (mine : own.station = z.me)
    (other : x ≠ z.me) (rest : ∀ cl ∈ below, cl.station ≠ x) (unset : z.table.leads[k] = false) :
    let w := z.dropped x (1#32 <<< k.val)
    w.notices = (z.notices.log (.zoneChange k (some (own.ident, own.priority)) (some top.station) .dropped)).log
        (.claimStartedLate k z.me own.channel own.priority) ∧
      w.table.leads[k] = true ∧ ∀ j : Zone, j ≠ k → w.table.leads[j] = z.table.leads[j] := by
  have front := Zs32.dropped_front list leader (mine ▸ other.symm) rest
  have kept (j : Zone) (apart : j ≠ k) := z.dropped_other (x := x) apart
  obtain ⟨⟨-, leads, -⟩, notices⟩ := z.dropped_compared x (1#32 <<< k.val)
  generalize z.dropped x (1#32 <<< k.val) = w at *
  have was := recordOf_own_second (below := below) (leader ▸ other) mine
  have now := recordOf_own_first (below := below) mine
  obtain ⟨started, after⟩ := lead_started (x := CompareContext.plain .dropped) (k := k) BitVec.getLsbD_zero was now
    Nat.one_ne_zero rfl unset
  have changed : (some top).map Claim.ident ≠ (some own).map Claim.ident := fun same =>
    other ((leader.symm.trans (congrArg Ident.station (Option.some.inj same))).trans mine)
  refine ⟨?_, ?_, fun j apart => ?_⟩
  · have single : comparedNotices (CompareContext.plain .dropped) z w =
        [.zoneChange k (some (own.ident, own.priority)) (some top.station) .dropped,
          .claimStartedLate k z.me own.channel own.priority] := by
      rw [comparedNotices, flatMap_eq_of_single (List.nodup_finRange 32) (List.mem_finRange k) fun j _ apart => ?_]
      · rw [list, front, started, mine, List.head?_cons, List.head?_cons,
          zoneChangeNotice_changed (decide_eq_true ⟨o, bound⟩) changed, CompareContext.causeIn_plain]
        rfl
      · rw [kept j apart, zoneChangeNotice_same, leadNotice_same, List.append_nil]
    rw [notices, single]
    rfl
  · rw [leads k, list, front]
    exact after
  · rw [leads j, kept j apart, leadAfter_same]

end Front

/-- Settles O48: the records and the notices of one zone, and the DROP that brings the own claim to the front. -/
theorem leadMarksAndTheirNotices : Obligations.LeadMarksAndTheirNotices := by
  refine ⟨fun me l => ⟨rfl, rfl, fun i cl => recordOf_own_eq_some⟩, fun cause => rfl,
    fun x k bound was now => ⟨zoneChangeNotice_nil, zoneChangeNotice_changed⟩, fun x k was now mark quiet => ?_,
    fun x k was now mark apart => ⟨fun i j old new f before after foreground => ⟨?_, ?_, ?_⟩,
      fun i old before after => ⟨?_, ?_, ?_⟩⟩, fun s f rest k o top own below h peer body bound list leader mine others
      unset => ?_⟩
  · obtain placed | absent | ⟨i, j, old, new, before, after, same⟩ := quiet
    · exact lead_placed placed
    · exact lead_absent absent
    · exact lead_stays before after same
  · exact lead_preempted apart before after foreground
  · exact lead_started apart before after
  · exact lead_again before after
  · exact lead_gone apart before after
  · exact fun by_ => lead_displaced apart before after
  · exact lead_dropped apart before after
  · have brings := Zs32.dropped_brings (z := { s.zs with memb := s.zs.memb.heardFrom f.frame.sender }) bound list leader
      mine peer.2.1 (leader ▸ others) unset
    have processed := processDrop_peer (z := { s.zs with memb := s.zs.memb.heardFrom f.frame.sender }) peer.1 body
    have frame := Zs32.dropped_frame f.frame.sender (1#32 <<< k.val)
      { s.zs with memb := s.zs.memb.heardFrom f.frame.sender }
    generalize Zs32.dropped f.frame.sender (1#32 <<< k.val) { s.zs with memb := s.zs.memb.heardFrom f.frame.sender } = w
      at *
    exact ⟨_, exec_peer_kept h peer body nofun processed (by rw [frame]), rfl, brings⟩

end Sys2Proof.Machine
end

section
/-! The outputs: what they are told of their foreground, and the samples of an audio frame (R72, R73, R112, R113,
R117 to R120). -/

namespace Sys2Proof.Machine

/-! ### What an output is told (R112, R113, R117, R118) -/

section Told
variable {r : OutputRec} {was : Option Claim} {cl : Claim} {live : Channel → Bool} {ms : Nat}

theorem OutputRec.tellForeground_emptied (was : Option Claim) (held : was ≠ none) :
    r.tellForeground was none live ms =
      { r with state := .silent, chime := .stopped, fg := none, duck := none, bg := none } :=
  if_neg fun same => held (Option.map_eq_none_iff.1 same)

theorem OutputRec.tellForeground_new (new : was.map Claim.ident ≠ some cl.ident) :
    r.tellForeground was (some cl) live ms = r.takeUp cl (live cl.channel) ms := if_neg new

theorem OutputRec.tellForeground_restyled {old : Claim} (same : old.ident = cl.ident) (other : old ≠ cl) :
    r.tellForeground (some old) (some cl) live ms = { r with duck := some cl.duck } :=
  (if_pos (congrArg some same)).trans (if_neg fun equal => other (Option.some.inj equal))

theorem OutputRec.takeUp_chime (chimes : cl.chime = true) (long : 0 < ms) (isLive : Bool) : r.takeUp cl isLive ms =
    { r with fg := some cl.ident, duck := some cl.duck, state := .chime, chime := .running ms, tonePos := 0 } := by
  simp only [OutputRec.takeUp, chimes, long, decide_true, Bool.and_self, if_true]

theorem OutputRec.takeUp_quiet (quiet : cl.chime = false ∨ ms = 0) (isLive : Bool) : r.takeUp cl isLive ms =
    { r with fg := some cl.ident, duck := some cl.duck, chime := .stopped
             state := if isLive then .playing else .hush } := by
  have noChime : ¬ (cl.chime && decide (0 < ms)) = true := by
    obtain quiet | quiet := quiet
    · simp [quiet]
    · simp [quiet]
  rw [OutputRec.takeUp, if_neg noChime]
  cases isLive with
  | false => rfl
  | true => rfl

end Told

/-- Settles O49: the states of an output by its foreground, and its background. -/
theorem outputsFollowTheForeground : Obligations.OutputsFollowTheForeground := by
  refine fun r was live ms => ⟨OutputRec.tellForeground_emptied was, fun cl new => ⟨fun chimes long => ?_,
    fun quiet isLive => ?_, fun quiet isLive => ?_⟩, fun old cl was same other => ?_,
    fun x => r.tellForeground_same x live ms, fun a b changed => if_neg changed, r.tellBackground_same⟩
  · rw [OutputRec.tellForeground_new new, OutputRec.takeUp_chime chimes long]
  · rw [OutputRec.tellForeground_new new, OutputRec.takeUp_quiet quiet, isLive]
    rfl
  · rw [OutputRec.tellForeground_new new, OutputRec.takeUp_quiet quiet, isLive]
    rfl
  · rw [was, OutputRec.tellForeground_restyled same other]

/-! ### The duck mix (R119) -/

/-- The mix of two samples is a sample: the division brings it back into 24 bits (R119). -/
theorem duckMix_toInt {f b : Int} (d : DuckLevel) (lowF : -8388608 ≤ f) (highF : f ≤ 8388607) (lowB : -8388608 ≤ b)
    (highB : b ≤ 8388607) :
    (duckMix f b d).toInt = (f * (32 - (d.val : Int)) + b * (d.val : Int)).tdiv 32 := by
  have small : (d.val : Int) < 32 := by exact_mod_cast d.isLt
  have nonneg : (0 : Int) ≤ d.val := Int.natCast_nonneg _
  have f1 := Int.mul_le_mul_of_nonneg_right lowF (by omega : 0 ≤ 32 - (d.val : Int))
  have f2 := Int.mul_le_mul_of_nonneg_right highF (by omega : 0 ≤ 32 - (d.val : Int))
  have b1 := Int.mul_le_mul_of_nonneg_right lowB nonneg
  have b2 := Int.mul_le_mul_of_nonneg_right highB nonneg
  rw [duckMix, BitVec.toInt_ofInt]
  generalize f * (32 - (d.val : Int)) = v at f1 f2
  generalize b * (d.val : Int) = w at b1 b2
  rw [Int.tdiv_eq_ediv]
  refine Int.bmod_eq_of_le ?_ ?_
  · split
    · omega
    · rw [show Int.sign 32 = 1 from rfl]
      omega
  · split
    · omega
    · rw [show Int.sign 32 = 1 from rfl]
      omega

theorem slotSample_bounds (received : Vector Sample 16) (live : Channel → Bool) (i : Option Ident) :
    -8388608 ≤ slotSample received live i ∧ slotSample received live i ≤ 8388607 := by
  have sample (v : Sample) : -8388608 ≤ v.toInt ∧ v.toInt ≤ 8388607 :=
    ⟨BitVec.le_toInt v, Int.le_of_lt_add_one (BitVec.toInt_lt (x := v))⟩
  cases i with
  | none => exact (by decide : (-8388608 : Int) ≤ 0 ∧ (0 : Int) ≤ 8388607)
  | some i =>
    rw [slotSample]
    split
    · exact sample _
    · exact ⟨by decide, by decide⟩

/-- The sample of a channel as the outputs hear it: silence unless it is LIVE (R119). -/
theorem slotSample_isLive (received : Vector Sample 16) (z : Zs32) (i : Option Ident) :
    slotSample received z.isLive i = i.elim 0 fun i =>
      if z.table.channels[i.channel].phase = .live then (received[i.channel]).toInt else 0 := by
  cases i with
  | none => rfl
  | some i => simp only [slotSample, Zs32.isLive, decide_eq_true_eq, Option.elim_some]

/-! ### One audio frame (R72, R73, R119, R120) -/

section Frame
variable {z : Zs32} {r : OutputRec} {received slots : Vector Sample 16} {live : Channel → Bool} {marks : Bool}
  {inA inB : Sample} {c : Channel}

theorem OutputRec.emit_silent (quiet : r.state = .silent ∨ r.state = .hush) :
    r.emit received live = { r with sample := 0 } := by
  obtain quiet | quiet := quiet
  · simp only [OutputRec.emit, OutputRec.emitted, quiet, reduceCtorEq, if_false]
  · simp only [OutputRec.emit, OutputRec.emitted, quiet, reduceCtorEq, if_false]

theorem OutputRec.emit_chime (chimes : r.state = .chime) : r.emit received live =
    { r with sample := Config.chimeTone r.tonePos, tonePos := r.tonePos + 1 } := by
  simp only [OutputRec.emit, OutputRec.emitted, chimes, if_true]

theorem OutputRec.emit_playing {d : DuckLevel} (plays : r.state = .playing) (duck : r.duck = some d) :
    r.emit received live = { r with
      sample := duckMix (slotSample received live r.fg) (slotSample received live r.bg) d } := by
  simp only [OutputRec.emit, OutputRec.emitted, plays, duck, Option.getD_some, reduceCtorEq, if_false]

theorem Zs32.drivesMarks_iff : z.drivesMarks = true ↔
    z.memb.state = .joined ∧ ∀ e ∈ z.memb.roster, ¬ e.station < z.me := by
  simp [Zs32.drivesMarks]

theorem Zs32.audioFrame_driven (z : Zs32) : (z.audioFrame marks slots inA inB).audio.driven[c] =
    if marks || z.drivesMarks then z.source.slotDrive inA inB c else none := tabulate_get _ c

theorem Zs32.audioFrame_received (onLine : z.onLine = true) :
    (z.audioFrame marks slots inA inB).audio.received[c] =
      if marks || z.drivesMarks then (z.source.slotDrive inA inB c).getD slots[c] else 0 := by
  simp only [Zs32.audioFrame, onLine, Bool.not_true, Bool.false_eq_true, if_false, tabulate_get]
  split
  · rfl
  · rfl

end Frame

/-- Settles O50: the marks, the slots and the outputs of one audio frame. -/
theorem audioFrameEmitsTheMix : Obligations.AudioFrameEmitsTheMix := by
  refine ⟨fun z => Zs32.drivesMarks_iff, fun s marks slots inA inB awake onLine => ?_⟩
  refine ⟨_, State.run_awake awake _, rfl, rfl, rfl, rfl, rfl, rfl, rfl, fun c unmarked undriven => ?_,
    fun c framed => ?_, fun o => ?_⟩
  · dsimp only
    rw [Zs32.audioFrame_driven, Zs32.audioFrame_received onLine, unmarked, undriven]
    exact ⟨rfl, rfl⟩
  · have frames : (marks || s.zs.drivesMarks) = true := by simpa using framed
    dsimp only
    rw [Zs32.audioFrame_driven, Zs32.audioFrame_received onLine, if_pos frames, if_pos frames, Source.slotDrive]
    refine ⟨fun byA => ?_, fun notA byB => ?_, fun notA notB => ?_⟩
    · rw [if_pos byA]
      exact ⟨rfl, rfl⟩
    · rw [if_neg notA, if_pos byB]
      exact ⟨rfl, rfl⟩
    · rw [if_neg notA, if_neg notB]
      exact ⟨rfl, rfl⟩
  · dsimp only
    rw [Zs32.audioFrame_output]
    refine ⟨OutputRec.emit_silent, OutputRec.emit_chime, fun fg d plays foreground duck => ?_⟩
    rw [OutputRec.emit_playing plays duck]
    obtain ⟨lowF, highF⟩ := slotSample_bounds s.zs.audio.received s.zs.isLive s.zs.mixer.outputs[o].fg
    obtain ⟨lowB, highB⟩ := slotSample_bounds s.zs.audio.received s.zs.isLive s.zs.mixer.outputs[o].bg
    refine ⟨(duckMix_toInt d lowF highF lowB highB).trans ?_, rfl⟩
    rw [slotSample_isLive, slotSample_isLive, foreground]
    rfl

end Sys2Proof.Machine
end

section
/-! The timers at their expiry: the chime, the guards, the presence timer, the silence timers, the join window and the
duration timers (R46, R47, R49, R50, R53, R63 to R65, R79, R115, R116). -/

namespace Sys2Proof.Machine

/-! ### The chime and the guards (R63 to R65, R115, R116) -/

section Guards
variable {z : Zs32} {o : Fin 4} {c : Channel} {ms : Nat}

theorem Output.getElem_set (outputs : Vector OutputRec 4) (o p : Fin 4) (r : OutputRec) :
    (outputs.set o r)[p] = if o = p then r else outputs[p] := by
  simp only [Fin.getElem_fin, Vector.getElem_set, Fin.ext_iff]

theorem OutputRec.chimeExpired_named {r : OutputRec} {fg : Ident} (foreground : r.fg = some fg) (z : Zs32) :
    r.chimeExpired z.isLive = { r with
      chime := .stopped
      state := if z.table.channels[fg.channel].phase = .live then .playing else .hush } := by
  rw [OutputRec.chimeExpired, foreground, Option.any_some, Zs32.isLive]
  simp only [decide_eq_true_eq]

theorem Zs32.chimeTimerExpiry_running (running : z.mixer.outputs[o].chime = .running ms) : z.chimeTimerExpiry o =
    { z with mixer := { outputs := z.mixer.outputs.set o (z.mixer.outputs[o].chimeExpired z.isLive) } } :=
  if_pos (by rw [running]; rfl)

theorem Zs32.openGuardExpiry_running (running : z.table.channels[c].guard = .openGuard ms) :
    z.openGuardExpiry c = (z.setChannel c z.table.channels[c].nowLive).channelLive c := by
  rw [Zs32.openGuardExpiry, running]

theorem Zs32.drainGuardExpiry_running (running : z.table.channels[c].guard = .drainGuard ms) :
    z.drainGuardExpiry c = z.setChannel c z.table.channels[c].nowFree := by
  rw [Zs32.drainGuardExpiry, running]

end Guards

/-- Settles O51: the chime timer, the open guard and the drain guard. -/
theorem chimeAndGuardsExpire : Obligations.ChimeAndGuardsExpire := by
  refine ⟨fun s o ms fg awake running foreground => ?_, fun s c ms awake => ⟨fun running => ?_, fun running => ?_⟩⟩
  · have ran : exec (.chimeTimerExpiry o) s = .next _ := State.run_awake awake _
    rw [Zs32.chimeTimerExpiry_running running] at ran
    refine ⟨_, ran, rfl, fun p other => ?_, ?_⟩
    · exact (Output.getElem_set _ o p _).trans (if_neg other.symm)
    · refine (Output.getElem_set _ o o _).trans ((if_pos rfl).trans ?_)
      rw [OutputRec.chimeExpired_named foreground]
  · have ran : exec (.openGuardExpiry c) s = .next _ := State.run_awake awake _
    rw [Zs32.openGuardExpiry_running running] at ran
    exact ⟨_, ran, rfl, rfl, rfl, fun k => Zs32.setChannel_channel c k _ s.zs, fun o => tabulate_get _ o⟩
  · have ran : exec (.drainGuardExpiry c) s = .next _ := State.run_awake awake _
    rw [Zs32.drainGuardExpiry_running running] at ran
    exact ⟨_, ran, rfl, rfl, rfl, fun k => Zs32.setChannel_channel c k _ s.zs⟩

/-! ### The presence timer (R46, R47) -/

section Presence
variable {z : Zs32} {ms : Nat} {setup : Setup}

theorem Zs32.periodMs_of_setup (configured : z.setup = some setup) : z.periodMs = 10 * setup.interval.val := by
  rw [Zs32.periodMs, configured]
  exact Nat.mul_comm _ _

theorem Zs32.askPresence_room (room : z.line.outq.length < 8) : z.askPresence = { z with
    memb := { z.memb with presenceQueued := true }
    line := { z.line with outq := z.line.outq ++ [entryOf .presence .membership z.clock] } } :=
  if_pos (decide_eq_true room)

theorem Zs32.askPresence_full (full : 8 ≤ z.line.outq.length) :
    z.askPresence = { z with memb := { z.memb with presenceHeld := true } } :=
  if_neg fun room => absurd (of_decide_eq_true room) (Nat.not_lt.2 full)

/-- The presence timer runs again for P (R46). -/
def Zs32.presenceAgain (z : Zs32) : Zs32 :=
  { z with memb := { z.memb with presenceTimer := .running z.periodMs } }

theorem Zs32.presenceTimerExpiry_running (running : z.memb.presenceTimer = .running ms) : z.presenceTimerExpiry =
    if z.memb.presenceQueued || z.memb.presenceHeld then z.presenceAgain else z.presenceAgain.askPresence :=
  if_pos (by rw [running]; rfl)

theorem OutEntry.age_eq (e : OutEntry) : e.age = if e.placed = .presence then { e with aged := true } else e := by
  rw [OutEntry.age]
  split
  · next presence => rw [decide_eq_true presence, Bool.or_true]
  · next other => rw [decide_eq_false other, Bool.or_false]

theorem Zs32.presenceAging_eq (z : Zs32) : z.presenceAging = { z with line := { z.line with
    outq := z.line.outq.map fun e => if e.placed = .presence then { e with aged := true } else e } } := by
  rw [Zs32.presenceAging, funext OutEntry.age_eq]

end Presence

/-! ### The silence timers (R50) -/

section Silence
variable {z u : Zs32} {x : StationNo} {r : RosterEntry} {ms : Nat}

/-- The silence timer of station x is marked expired (R50). -/
def Zs32.silent (x : StationNo) (z : Zs32) : Zs32 := z.onEntry x fun e => { e with silence := .expired }

theorem Zs32.silenceTimerExpiry_running (entry : z.entry x = some r) (running : r.silence = .running ms) :
    z.silenceTimerExpiry x = (z.silent x).askEvict x :=
  if_pos (by rw [entry, Option.any_some, running]; rfl)

/-- Asking for an EVICT leaves everything but the outbound queue and the eviction set alone (R50). -/
theorem Zs32.askEvict_frame (x : StationNo) (z : Zs32) : z.askEvict x = { z with
    line := { z.line with outq := (z.askEvict x).line.outq }
    memb := { z.memb with
      evictQueued := (z.askEvict x).memb.evictQueued, evictHeld := (z.askEvict x).memb.evictHeld } } := by
  rw [Zs32.askEvict]
  split
  · rfl
  · split
    · rfl
    · rfl

end Silence

/-- Settles O52: the presence timer, the ageing of a PRESENCE and the silence timers. -/
theorem presenceAndSilenceTimersExpire : Obligations.PresenceAndSilenceTimersExpire := by
  refine ⟨⟨fun s ms setup awake running configured => ?_, fun s awake => ?_⟩, fun s x r ms awake entry running => ?_⟩
  · have ran : exec .presenceTimerExpiry s = .next _ := State.run_awake awake _
    rw [Zs32.presenceTimerExpiry_running running] at ran
    refine ⟨fun waits => ?_, fun notQueued notHeld room => ?_, fun notQueued notHeld full => ?_⟩
    · rw [ran, if_pos ((Bool.or_eq_true_iff ..).2 waits), Zs32.presenceAgain, Zs32.periodMs_of_setup configured]
    · rw [ran, if_neg (by simp [notQueued, notHeld]), Zs32.askPresence_room (z := s.zs.presenceAgain) room,
        Zs32.presenceAgain, Zs32.periodMs_of_setup configured]
    · rw [ran, if_neg (by simp [notQueued, notHeld]), Zs32.askPresence_full (z := s.zs.presenceAgain) full,
        Zs32.presenceAgain, Zs32.periodMs_of_setup configured]
  · have ran : exec .presenceAging s = .next _ := State.run_awake awake _
    rw [ran, Zs32.presenceAging_eq]
  · have ran : exec (.silenceTimerExpiry x) s = .next _ := State.run_awake awake _
    rw [Zs32.silenceTimerExpiry_running entry running] at ran
    have frame := (s.zs.silent x).askEvict_frame x
    obtain ⟨asked, quiet⟩ := (s.zs.silent x).askEvict_cases x
    generalize (s.zs.silent x).askEvict x = w at *
    refine ⟨_, ran, rfl, ?_, ?_, ?_, ?_, ?_, ?_, fun joined staying notQueued notHeld => ?_, fun held => ?_⟩
    · rw [frame]
      rfl
    · rw [frame]
      rfl
    · rw [frame]
      rfl
    · rw [frame]
      rfl
    · rw [frame]
      rfl
    · rw [frame]
      rfl
    · obtain ⟨room, full⟩ := asked ⟨joined, staying, notQueued, notHeld⟩
      refine ⟨fun short => ?_, fun long => ?_⟩
      · obtain ⟨placed, queued⟩ := room short
        exact ⟨by rw [placed]; rfl, queued⟩
      · obtain ⟨same, set⟩ := full long
        exact ⟨by rw [same]; rfl, set⟩
    · have same : w = s.zs.silent x := quiet fun asks => by
        obtain ⟨joined, staying, notQueued, notHeld⟩ := asks
        obtain other | leaving | queued | held := held
        · exact other joined
        · exact absurd (staying.symm.trans leaving) nofun
        · exact notQueued queued
        · exact notHeld held
      rw [same]
      exact ⟨rfl, rfl, rfl⟩

/-! ### The join window (R46, R49, R53) -/

section Join
variable {z : Zs32} {ms : Nat} {setup : Setup}

/-- The join window is over (R53). -/
def Zs32.windowOver (z : Zs32) : Zs32 := { z with memb := { z.memb with joinWindow := .stopped } }

theorem Zs32.joinWindowExpiry_running (running : z.memb.joinWindow = .running ms) : z.joinWindowExpiry =
    if z.memb.state = .listening && !z.leaving then z.windowOver.enterJoined else z.windowOver :=
  if_pos (by rw [running]; rfl)

theorem RosterEntry.restart_eq (e : RosterEntry) : e.restart =
    { e with silence := .running (e.interval.elim 3000 fun i => 30 * i.val) } := by
  rw [RosterEntry.restart, silenceMs_eq]

theorem Zs32.startSilence_eq (z : Zs32) : z.startSilence = { z with memb := { z.memb with
    roster := z.memb.roster.map fun e =>
      { e with silence := .running (e.interval.elim 3000 fun i => 30 * i.val) } } } := by
  rw [Zs32.startSilence, funext RosterEntry.restart_eq]

/-- The station in JOINED, before it asks for a PRESENCE (R53). -/
def Zs32.nowJoined (z : Zs32) : Zs32 := { z with memb := { z.memb with state := .joined } }

theorem Zs32.enterJoined_eq (z : Zs32) : z.enterJoined =
    z.nowJoined.askPresence.presenceAgain.startSilence.log (.joined z.nowJoined.askPresence.memb.roster.length) := rfl

theorem Zs32.enterJoined_room (configured : z.setup = some setup) (room : z.line.outq.length < 8) :
    z.enterJoined = { z with
      memb := { z.memb with
        state := .joined, presenceQueued := true, presenceTimer := .running (10 * setup.interval.val)
        roster := z.memb.roster.map fun e =>
          { e with silence := .running (e.interval.elim 3000 fun i => 30 * i.val) } }
      line := { z.line with outq := z.line.outq ++ [entryOf .presence .membership z.clock] }
      notices := z.notices.log (.joined z.memb.roster.length) } := by
  rw [Zs32.enterJoined_eq, Zs32.askPresence_room (z := z.nowJoined) room, Zs32.startSilence_eq,
    ← Zs32.periodMs_of_setup configured]
  rfl

theorem Zs32.enterJoined_full (configured : z.setup = some setup) (full : 8 ≤ z.line.outq.length) :
    z.enterJoined = { z with
      memb := { z.memb with
        state := .joined, presenceHeld := true, presenceTimer := .running (10 * setup.interval.val)
        roster := z.memb.roster.map fun e =>
          { e with silence := .running (e.interval.elim 3000 fun i => 30 * i.val) } }
      notices := z.notices.log (.joined z.memb.roster.length) } := by
  rw [Zs32.enterJoined_eq, Zs32.askPresence_full (z := z.nowJoined) full, Zs32.startSilence_eq,
    ← Zs32.periodMs_of_setup configured]
  rfl

end Join

/-- Settles O53: the join window in LISTENING, with a free slot and without, and elsewhere. -/
theorem joinWindowEndsInJoined : Obligations.JoinWindowEndsInJoined := by
  intro s ms setup awake running configured roster
  have ran : exec .joinWindowExpiry s = .next _ := State.run_awake awake _
  rw [Zs32.joinWindowExpiry_running running] at ran
  refine ⟨fun listening staying room => ?_, fun listening staying full => ?_, fun held => ?_⟩
  · rw [ran, if_pos (by rw [listening, staying]; rfl), Zs32.enterJoined_room (z := s.zs.windowOver) configured room]
    rfl
  · rw [ran, if_pos (by rw [listening, staying]; rfl), Zs32.enterJoined_full (z := s.zs.windowOver) configured full]
    rfl
  · rw [ran, if_neg ?_, Zs32.windowOver]
    obtain other | leaving := held
    · rw [decide_eq_false other]
      nofun
    · rw [leaving, Bool.not_true, Bool.and_false]
      nofun

/-! ### The duration timers (R79) -/

section Duration
variable {z : Zs32} {i : Input} {c : Channel} {ms : Nat}

/-- The duration timer of an input has run out (R79). -/
def InputRec.ranOut (r : InputRec) : InputRec := { r with timer := .expired, pending := true }

theorem Zs32.durationTimerExpiry_running (running : (z.source.get i).timer = .running ms) :
    z.durationTimerExpiry i = (z.onInput i InputRec.ranOut).askAutoClose i :=
  if_pos (by rw [running]; rfl)

theorem InputRec.channel_of_bound {r : InputRec} (h : r.bound = some c ∨ (r.bound = none ∧ r.starting = some c)) :
    r.channel = some c := by
  obtain bound | ⟨free, starting⟩ := h
  · rw [InputRec.channel, bound, Option.some_or]
  · rw [InputRec.channel, free, starting, Option.none_or]

theorem Source.set_set (s : Source) (i : Input) (r q : InputRec) : (s.set i r).set i q = s.set i q := by
  cases i with
  | a => rfl
  | b => rfl

theorem Zs32.askAutoClose_held (channel : (z.source.get i).channel = some c)
    (held : z.leaving = true ∨ z.hostCloseRunning c = true) : z.askAutoClose i = z := by
  simp only [Zs32.askAutoClose, channel]
  exact if_pos (by simpa using held)

end Duration

/-- Settles O54: the duration timer with its request held back, placed and held. -/
theorem durationAsksForAnAutomaticClose : Obligations.DurationAsksForAnAutomaticClose := by
  intro s i ms c awake running times
  have ran : exec (.durationTimerExpiry i) s = .next _ := State.run_awake awake _
  rw [Zs32.durationTimerExpiry_running running] at ran
  have here : (s.zs.onInput i InputRec.ranOut).source.get i = (s.zs.source.get i).ranOut := Zs32.onInput_get i _ s.zs
  have channel : ((s.zs.onInput i InputRec.ranOut).source.get i).channel = some c := by
    rw [here]
    exact InputRec.channel_of_bound times
  refine ⟨fun held => ?_, fun staying apart room => ?_, fun staying apart full => ?_⟩
  · rw [ran, Zs32.askAutoClose_held channel held]
    rfl
  · rw [ran, (Zs32.askAutoClose_asked channel staying apart).1 room, here, Zs32.onInput_source,
      Source.set_set]
    rfl
  · rw [ran, (Zs32.askAutoClose_asked channel staying apart).2 full, here, Zs32.onInput_source,
      Source.set_set]
    rfl

end Sys2Proof.Machine
end
